-- ==== Sys2Proof/Word.lean ====
section
/-! DEFINITION. The word types: bytes, 32-bit registers, 64-bit port words and the 256-entry register arrays
(00_scope.md R11, 10_state.md R20, R21, 30_encoding.md R82). -/

namespace Sys2Proof

/-- A byte of IBUF or OBUF, and a symbol (a byte value 0..255, 00_scope.md glossary). -/
abbrev Byte := BitVec 8

/-- A 32-bit register or operand field. -/
abbrev Word32 := BitVec 32

/-- A command word or a response word (30_encoding.md R82, R85). -/
abbrev Word64 := BitVec 64

/-- A register array of 256 entries of 32 bits: FREQ, CUM_LOW, CUM_HIGH (10_state.md R20). -/
abbrev RegArray := Vector Word32 256

end Sys2Proof
end

