-- ==== Sys2Proof/Syntax.lean ====
section
/-! DEFINITION. The command set (30_encoding.md R89): one constructor of `Instr` per row of the opcode table, the
operand forms of R83, and the lines of a command program (R97, R98). -/

namespace Sys2Proof

/-- The seventeen commands with their operands, each operand at exactly the width its form has (30_encoding.md R83). -/
inductive Instr
  | nop
  | softReset
  | clear
  | setPrec (p : BitVec 5)
  | rdReg (addr : BitVec 12)
  | inClear
  | inWrite (byte : Byte)
  | outRead (idx : Word32)
  | fmCount
  | fmBuild
  | encStart
  | encStep
  | encFinish
  | decStart
  | decStep
  | compress
  | decompress
deriving DecidableEq, Repr

/-- The mnemonic column of the opcode map (30_encoding.md R89). -/
inductive Mnemonic
  | nop | softReset | clear | setPrec | rdReg
  | inClear | inWrite | outRead
  | fmCount | fmBuild
  | encStart | encStep | encFinish
  | decStart | decStep
  | compress | decompress
deriving DecidableEq, Repr

/-- The five operand forms (30_encoding.md R83). -/
inductive OperandForm
  | none | byte8 | prec5 | addr12 | idx32
deriving DecidableEq, Repr

/-- How many low bits of OPERAND a form uses; the others must be 0 (30_encoding.md R83). -/
def OperandForm.width : OperandForm → Nat
  | .none => 0
  | .byte8 => 8
  | .prec5 => 5
  | .addr12 => 12
  | .idx32 => 32

/-- The operand column of the opcode map (30_encoding.md R89). -/
def Mnemonic.form : Mnemonic → OperandForm
  | .setPrec => .prec5
  | .rdReg => .addr12
  | .inWrite => .byte8
  | .outRead => .idx32
  | .nop | .softReset | .clear | .inClear | .fmCount | .fmBuild | .encStart | .encStep | .encFinish
  | .decStart | .decStep | .compress | .decompress => .none

/-- The mnemonic of a command. -/
def Instr.mnemonic : Instr → Mnemonic
  | .nop => .nop
  | .softReset => .softReset
  | .clear => .clear
  | .setPrec _ => .setPrec
  | .rdReg _ => .rdReg
  | .inClear => .inClear
  | .inWrite _ => .inWrite
  | .outRead _ => .outRead
  | .fmCount => .fmCount
  | .fmBuild => .fmBuild
  | .encStart => .encStart
  | .encStep => .encStep
  | .encFinish => .encFinish
  | .decStart => .decStart
  | .decStep => .decStep
  | .compress => .compress
  | .decompress => .decompress

/-- Why a command word is illegal: (a), (b), (c) of 30_encoding.md R84. -/
inductive IllegalWord
  /-- (a) OPC is not one of the seventeen opcodes -/
  | reservedOpcode
  /-- (b) RSVD is not 0 -/
  | rsvdNotZero
  /-- (c) an OPERAND bit that must be 0 is 1 -/
  | operandNotZero
deriving DecidableEq, Repr

/-- A command as a program line writes it: a mnemonic and, for the forms other than NONE, a number
(30_encoding.md R97). The number may be any natural; `WellFormed.lean` says which fit. -/
structure SourceCommand where
  mnemonic : Mnemonic
  operand  : Option Nat
deriving DecidableEq, Repr

/-- The program line of a command. -/
def Instr.toSource (i : Instr) : SourceCommand :=
  { mnemonic := i.mnemonic
    operand := match i with
      | .setPrec p => some p.toNat
      | .rdReg a => some a.toNat
      | .inWrite b => some b.toNat
      | .outRead x => some x.toNat
      | .nop | .softReset | .clear | .inClear | .fmCount | .fmBuild | .encStart | .encStep
      | .encFinish | .decStart | .decStep | .compress | .decompress => none }

/-- A line of a command program: a command, or a pseudo-instruction the assembler expands (30_encoding.md R97, R98). -/
inductive ProgramLine
  | command (c : SourceCommand)
  | inLoad (bytes : List Nat)
  | encSteps (n : Nat)
  | decSteps (n : Nat)
  | outDump (n : Nat)
deriving DecidableEq, Repr

end Sys2Proof
end

