-- ==== Sys2Proof/WellFormed.lean ====
section
/-! DEFINITION. When a program line's command can be written in a command word: the operand is there exactly when the
form has one, and it fits the form's field (30_encoding.md R83, R97). Every `Instr` is well formed, since its operands
have the widths of their fields (`Laws.OperandFits`). Legality of a command WORD (R84) is `legalWord` in Decode.lean. -/

namespace Sys2Proof

/-- An operand fits its form (30_encoding.md R83): absent for NONE, else a number below 2 to the form's width. -/
def operandFits (f : OperandForm) (v : Option Nat) : Bool :=
  match f, v with
  | .none, none => true
  | .none, some _ => false
  | .byte8, some n => n < 2 ^ 8
  | .prec5, some n => n < 2 ^ 5
  | .addr12, some n => n < 2 ^ 12
  | .idx32, some n => n < 2 ^ 32
  | .byte8, none | .prec5, none | .addr12, none | .idx32, none => false

/-- The command of a program line is well formed. -/
def SourceCommand.wellFormed (c : SourceCommand) : Bool := operandFits c.mnemonic.form c.operand

/-- A command is well formed when its program line is. -/
def Instr.wellFormed (i : Instr) : Bool := i.toSource.wellFormed

/-- A program line is well formed: its command is, and the bytes of an IN_LOAD are bytes (30_encoding.md R98). -/
def ProgramLine.wellFormed : ProgramLine → Bool
  | .command c => c.wellFormed
  | .inLoad bytes => bytes.all (· < 2 ^ 8)
  | .encSteps _ => true
  | .decSteps _ => true
  | .outDump n => n ≤ 2 ^ 32

end Sys2Proof
end

