-- ==== Sys2Proof/Decode.lean ====
section
/-! DEFINITION. The command word CMD64 (30_encoding.md R82, R83, R84, R89): its fields, the decoder, total on every
64-bit word and rejecting by name, the encoder, and the opcode table's match and mask columns (opcode_table.json). -/

namespace Sys2Proof

/-! ### The fields of a command word (30_encoding.md R82) -/

/-- OPC, bits [63:56]. -/
def opcField (w : Word64) : BitVec 8 := w.extractLsb' 56 8

/-- RSVD, bits [55:32]. -/
def rsvdField (w : Word64) : BitVec 24 := w.extractLsb' 32 24

/-- OPERAND, bits [31:0]. -/
def operandField (w : Word64) : Word32 := w.extractLsb' 0 32

/-- The word `{OPC, 24'b0, OPERAND}` (30_encoding.md R97). -/
def commandWord (opc : BitVec 8) (operand : Word32) : Word64 := opc ++ (0 : BitVec 24) ++ operand

/-! ### The opcode map (30_encoding.md R89) -/

/-- The OPC column. -/
def Mnemonic.opcode : Mnemonic → BitVec 8
  | .nop => 0x00
  | .softReset => 0x01
  | .clear => 0x02
  | .setPrec => 0x03
  | .rdReg => 0x04
  | .inClear => 0x10
  | .inWrite => 0x11
  | .outRead => 0x12
  | .fmCount => 0x20
  | .fmBuild => 0x21
  | .encStart => 0x30
  | .encStep => 0x31
  | .encFinish => 0x32
  | .decStart => 0x40
  | .decStep => 0x41
  | .compress => 0x50
  | .decompress => 0x51

/-- The mnemonic of an OPC value; every value not listed is reserved (30_encoding.md R89, R90). -/
def mnemonicOf (opc : BitVec 8) : Option Mnemonic :=
  match opc.toNat with
  | 0x00 => some .nop
  | 0x01 => some .softReset
  | 0x02 => some .clear
  | 0x03 => some .setPrec
  | 0x04 => some .rdReg
  | 0x10 => some .inClear
  | 0x11 => some .inWrite
  | 0x12 => some .outRead
  | 0x20 => some .fmCount
  | 0x21 => some .fmBuild
  | 0x30 => some .encStart
  | 0x31 => some .encStep
  | 0x32 => some .encFinish
  | 0x40 => some .decStart
  | 0x41 => some .decStep
  | 0x50 => some .compress
  | 0x51 => some .decompress
  | _ => none

/-- The bits of OPERAND a form leaves unused are 0 (30_encoding.md R83). -/
def operandLegal (f : OperandForm) (v : Word32) : Bool := v.toNat < 2 ^ f.width

/-- The command a mnemonic and its OPERAND field stand for (30_encoding.md R83): p is OPERAND[4:0], addr is
OPERAND[11:0], byte is OPERAND[7:0], idx is OPERAND[31:0]. -/
def instrOf (m : Mnemonic) (v : Word32) : Instr :=
  match m with
  | .nop => .nop
  | .softReset => .softReset
  | .clear => .clear
  | .setPrec => .setPrec (v.extractLsb' 0 5)
  | .rdReg => .rdReg (v.extractLsb' 0 12)
  | .inClear => .inClear
  | .inWrite => .inWrite (v.extractLsb' 0 8)
  | .outRead => .outRead v
  | .fmCount => .fmCount
  | .fmBuild => .fmBuild
  | .encStart => .encStart
  | .encStep => .encStep
  | .encFinish => .encFinish
  | .decStart => .decStart
  | .decStep => .decStep
  | .compress => .compress
  | .decompress => .decompress

/-! ### The decoder -/

/-- Decoding a command word: a command, or the reason it is illegal (30_encoding.md R84). -/
def decode (w : Word64) : Except IllegalWord Instr :=
  match mnemonicOf (opcField w) with
  | none => .error .reservedOpcode
  | some m =>
    if rsvdField w ≠ 0 then .error .rsvdNotZero
    else if operandLegal m.form (operandField w) = false then .error .operandNotZero
    else .ok (instrOf m (operandField w))

/-- The decoder's answer on an opcode-table word: one 64-bit word, bit 0 the least significant (30_encoding.md R99);
bits from `nbits` up are 0, and a longer number is no command word. -/
def decodeTableWord (nbits w : Nat) : Option Instr :=
  if w % 2 ^ nbits < 2 ^ 64 then
    match decode (BitVec.ofNat 64 (w % 2 ^ nbits)) with
    | .ok i => some i
    | .error _ => none
  else none

/-! ### The encoder -/

/-- The OPERAND field of a command, zero-extended (30_encoding.md R83). -/
def operandBits : Instr → Word32
  | .setPrec p => p.setWidth 32
  | .rdReg a => a.setWidth 32
  | .inWrite b => b.setWidth 32
  | .outRead x => x
  | .nop | .softReset | .clear | .inClear | .fmCount | .fmBuild | .encStart | .encStep | .encFinish
  | .decStart | .decStep | .compress | .decompress => 0

/-- The command word of a command (30_encoding.md R97). -/
def encode (i : Instr) : Word64 := commandWord i.mnemonic.opcode (operandBits i)

/-! ### The opcode table -/

/-- A row of opcode_table.json: the word's bits under `mask` equal `pattern`. -/
structure OpcodeRow where
  mnemonic : Mnemonic
  pattern  : Word64
  mask     : Word64
deriving DecidableEq, Repr

/-- opcode_table.json's match and mask columns, row by row. -/
def opcodeTable : List OpcodeRow :=
  [ ⟨.nop, 0x0000000000000000, 0xFFFFFFFFFFFFFFFF⟩,
    ⟨.softReset, 0x0100000000000000, 0xFFFFFFFFFFFFFFFF⟩,
    ⟨.clear, 0x0200000000000000, 0xFFFFFFFFFFFFFFFF⟩,
    ⟨.setPrec, 0x0300000000000000, 0xFFFFFFFFFFFFFFE0⟩,
    ⟨.rdReg, 0x0400000000000000, 0xFFFFFFFFFFFFF000⟩,
    ⟨.inClear, 0x1000000000000000, 0xFFFFFFFFFFFFFFFF⟩,
    ⟨.inWrite, 0x1100000000000000, 0xFFFFFFFFFFFFFF00⟩,
    ⟨.outRead, 0x1200000000000000, 0xFFFFFFFF00000000⟩,
    ⟨.fmCount, 0x2000000000000000, 0xFFFFFFFFFFFFFFFF⟩,
    ⟨.fmBuild, 0x2100000000000000, 0xFFFFFFFFFFFFFFFF⟩ ] ++
  [ ⟨.encStart, 0x3000000000000000, 0xFFFFFFFFFFFFFFFF⟩,
    ⟨.encStep, 0x3100000000000000, 0xFFFFFFFFFFFFFFFF⟩,
    ⟨.encFinish, 0x3200000000000000, 0xFFFFFFFFFFFFFFFF⟩,
    ⟨.decStart, 0x4000000000000000, 0xFFFFFFFFFFFFFFFF⟩,
    ⟨.decStep, 0x4100000000000000, 0xFFFFFFFFFFFFFFFF⟩,
    ⟨.compress, 0x5000000000000000, 0xFFFFFFFFFFFFFFFF⟩,
    ⟨.decompress, 0x5100000000000000, 0xFFFFFFFFFFFFFFFF⟩ ]

/-- The row a word matches. -/
def OpcodeRow.matches (r : OpcodeRow) (w : Word64) : Bool := w &&& r.mask = r.pattern

/-- A word is legal: none of (a), (b), (c) of 30_encoding.md R84 holds, said by the opcode table's rows. -/
def legalWord (w : Word64) : Bool := opcodeTable.any (·.matches w)

end Sys2Proof
end

