-- ==== Sys2Proof/Config.lean ====
section
/-! DEFINITION. What an implementation fixes and what the spec leaves open: the buffer sizes the reset state takes
(00_scope.md R6, D7; log 6) and the free contents of buffer bytes (10_state.md R50, 93_implementation_defined.md U1, U2;
log 4). -/

namespace Sys2Proof

/-- The two byte buffers (10_state.md R50). -/
inductive Buffer
  | ibuf | obuf
deriving DecidableEq, Repr

/-- The content of a buffer byte that nothing has written since its contents became unspecified: any value
(93_implementation_defined.md U1, U2). The first number says since which such event, the second is the byte's address.
The number is `Memory.epoch` or `Memory.events` (logs 3, 4). FREE VALUE: it has no body, so a claim about it holds for every value (log 4). -/
opaque Config.freeByte : Buffer → Nat → Nat → Byte

/-- IBUF_SIZE of the instance the reset state describes. DESIGN CHOICE (log 6): the spec leaves it a parameter. -/
def Config.ibufSize : Word32 := 64

/-- OBUF_SIZE of the instance the reset state describes. DESIGN CHOICE (log 6). -/
def Config.obufSize : Word32 := 64

end Sys2Proof
end

