-- ==== Sys2Proof/Machine/State.lean ====
section
/-! DEFINITION. The architectural state (10_state.md R20 to R53), the buffers, the port (30_encoding.md R80), the error
kinds (60_exceptions.md R240), the outcomes of a step, and the state after reset. -/

namespace Sys2Proof.Machine

/-- PHASE, the core's operating state (10_state.md R24). -/
inductive Phase
  | idle | counted | modelReady | encoding | encDone | decoding | decDone | error
deriving DecidableEq, Repr

/-- The error kinds (60_exceptions.md R240). -/
inductive ErrorKind
  | emptyInput | decodeCorruption | precisionOverflow | truncatedFile
  | illegalCommand | operand | phase | capacity
deriving DecidableEq, Repr

/-- RSP_STATUS (30_encoding.md R87). -/
inductive RspStatus
  | ok | error | refused
deriving DecidableEq, Repr

/-- What the host does on the pins between two steps (30_encoding.md R80, 70_reset_and_hazards.md R270; logs 2, 3). -/
inductive PortInput
  /-- offers a command word: cmd_valid = 1 with this cmd_data -/
  | command (w : Word64)
  /-- pulses rst_n low while no command is in progress -/
  | reset
  /-- pulses rst_n low while the command of this word is in progress (93_implementation_defined.md U6) -/
  | resetDuring (w : Word64)
deriving DecidableEq, Repr

/-- A byte buffer: the bytes known since its contents as a whole were last unspecified, strictly rising by address. An
unlisted byte holds `Config.freeByte` (log 4). -/
structure Memory where
  cells  : List Host.Cell
  /-- the event that left the unlisted bytes unspecified -/
  epoch  : Nat
  /-- how many events have left bytes of the buffer unspecified -/
  events : Nat
deriving DecidableEq, Repr

/-- The state: every register of 10_state.md R21, PHASE and OUT_VALID, the buffers, and the port. -/
structure State where
  /-- the host's coming actions on the pins, oldest first (log 2) -/
  port : List PortInput
  /-- the response channel: rsp_valid and rsp_data (30_encoding.md R80, R85) -/
  rsp : Option Word64
  /-- PHASE (R24) -/
  phase : Phase
  /-- OUT_VALID (R26) -/
  outValid : Bool
  /-- ERR_CODE (R27) -/
  errCode : BitVec 8
  /-- ERR_INFO (R28) -/
  errInfo : Word32
  /-- PREC, the precision P (R29) -/
  prec : BitVec 5
  /-- IBUF_SIZE, read-only (R31) -/
  ibufSize : Word32
  /-- OBUF_SIZE, read-only (R31) -/
  obufSize : Word32
  /-- IN_LEN (R32) -/
  inLen : Word32
  /-- OUT_LEN (R33) -/
  outLen : Word32
  /-- TOTAL (R36) -/
  total : Word32
  /-- SYMCOUNT, K (R37) -/
  symCount : BitVec 9
  /-- FMIN (R38) -/
  fmin : Word32
  /-- HDR_LEN (R39) -/
  hdrLen : Word32
  /-- LOWER (R40) -/
  lower : Word32
  /-- UPPER (R40) -/
  upper : Word32
  /-- PENDING (R41) -/
  pending : Word32
  /-- TAG (R42) -/
  tag : Word32
  /-- BIT_COUNT (R43) -/
  bitCount : Word32
  /-- RD_IDX (R44) -/
  rdIdx : Word32
  /-- BIT_LEN (R45) -/
  bitLen : Word32
  /-- ENC_POS (R46) -/
  encPos : Word32
  /-- DEC_COUNT (R47) -/
  decCount : Word32
  /-- N_DECL (R48) -/
  nDecl : Word32
  /-- FREQ[0..255] (R34) -/
  freq : RegArray
  /-- CUM_LOW[0..255] (R35) -/
  cumLow : RegArray
  /-- CUM_HIGH[0..255] (R35) -/
  cumHigh : RegArray
  /-- IBUF (R50) -/
  ibuf : Memory
  /-- OBUF (R50) -/
  obuf : Memory
deriving DecidableEq, Repr

/-- Why a step stops. The machine's own errors are next states (60_exceptions.md R245); these faults are raised only in
states that no run reaches (Safety.lean `Inv`), where the spec's words give the operation no meaning. -/
inductive Fault
  /-- Narrow or Search with TOTAL = 0; raised by ENC_STEP and DEC_STEP (00_scope.md R11: "Division by zero never
  occurs"; log 7). Safe. -/
  | divisionByZero
  /-- an interval outside `0 <= lo < up <= WHOLE`; raised by ENC_STEP and DEC_STEP (44_interval_renormalizer.md R180;
  log 8). Safe. -/
  | intervalBounds
  /-- an address outside the buffer; raised by IN_WRITE, OUT_READ, FM_COUNT, ENC_START, ENC_STEP, ENC_FINISH,
  DEC_START and DEC_STEP (20_memory.md R69: "No access ever reaches an address outside its buffer"; log 9). Safe. -/
  | bufferAddress (b : Buffer)
  /-- a value wider than the register it goes to; raised by FM_BUILD, ENC_STEP, ENC_FINISH, DEC_START and DEC_STEP
  (10_state.md R21 legal values; log 10). Safe. -/
  | registerWidth
deriving DecidableEq, Repr

/-- Why a step is refused by the MODEL (a REFUSED response of the machine is a next state, 60_exceptions.md R247). -/
inductive Refusal
  /-- the command has no meaning in the model; raised by a refused arm of `exec`, and there is none. Safe. -/
  | notModelled (mnemonic : String)
deriving DecidableEq, Repr

/-- How a primitive's rule ends without completing: `raise E(info)` of 00_scope.md R12, or a stop of the model. -/
inductive Abort
  | raise (e : ErrorKind) (info : Word32)
  | stop (f : Fault)
deriving DecidableEq, Repr

/-- The state right after power-on reset of an instance with the given buffer sizes (10_state.md R53,
70_reset_and_hazards.md R270). -/
def State.powerOn (ibufSize obufSize : Word32) : State :=
  { port := []
    rsp := none
    phase := .idle
    outValid := false
    errCode := 0x00
    errInfo := 0
    prec := 16
    ibufSize := ibufSize
    obufSize := obufSize
    inLen := 0
    outLen := 0
    total := 0
    symCount := 0
    fmin := 0
    hdrLen := 0
    lower := 0
    upper := 0
    pending := 0
    tag := 0
    bitCount := 0
    rdIdx := 0
    bitLen := 0
    encPos := 0
    decCount := 0
    nDecl := 0
    freq := Vector.replicate 256 0
    cumLow := Vector.replicate 256 0
    cumHigh := Vector.replicate 256 0
    ibuf := { cells := [], epoch := 0, events := 0 }
    obuf := { cells := [], epoch := 0, events := 0 } }

/-- The machine right after reset. The buffer sizes are the model's choice (log 6). -/
def State.reset : State := State.powerOn Config.ibufSize Config.obufSize

end Sys2Proof.Machine
end

