-- ==== Sys2Proof/Machine/Flags.lean ====
section
/-! DEFINITION. The status flags: PHASE's encoding, the STATUS view, the error codes and the phases each command runs in.
The block has no condition codes (10_state.md R51). -/

namespace Sys2Proof.Machine

/-- The encoding of PHASE (10_state.md R24). -/
def Phase.code : Phase → BitVec 3
  | .idle => 0
  | .counted => 1
  | .modelReady => 2
  | .encoding => 3
  | .encDone => 4
  | .decoding => 5
  | .decDone => 6
  | .error => 7

/-- The ERR_CODE value of an error (60_exceptions.md R240). -/
def ErrorKind.code : ErrorKind → BitVec 8
  | .emptyInput => 0x01
  | .decodeCorruption => 0x02
  | .precisionOverflow => 0x03
  | .truncatedFile => 0x04
  | .illegalCommand => 0x10
  | .operand => 0x11
  | .phase => 0x12
  | .capacity => 0x13

/-- The value of RSP_STATUS (30_encoding.md R87). -/
def RspStatus.code : RspStatus → BitVec 8
  | .ok => 0x00
  | .error => 0x01
  | .refused => 0x02

/-- STATUS: STATUS[2:0] = PHASE, STATUS[3] = OUT_VALID, STATUS[31:4] = 0 (10_state.md R30). -/
def State.status (s : State) : Word32 := (0 : BitVec 28) ++ BitVec.ofBool s.outValid ++ s.phase.code

/-- The phases a command runs in (30_encoding.md R89). -/
def phasesOf : Mnemonic → Phase → Bool
  | .nop, _ | .softReset, _ | .clear, _ | .rdReg, _ => true
  | .setPrec, p | .inClear, p | .inWrite, p => p = .idle
  | .outRead, p => p = .encDone || p = .decDone
  | .fmCount, p => p = .idle
  | .fmBuild, p => p = .counted
  | .encStart, p => p = .modelReady
  | .encStep, p | .encFinish, p => p = .encoding
  | .decStart, p => p = .idle
  | .decStep, p => p = .decoding
  | .compress, p | .decompress, p => p = .idle

/-- The commands that are not refused in ERROR (30_encoding.md R91 step 2). -/
def runsInError : Mnemonic → Bool
  | .nop | .softReset | .clear | .rdReg => true
  | .setPrec | .inClear | .inWrite | .outRead | .fmCount | .fmBuild | .encStart | .encStep | .encFinish
  | .decStart | .decStep | .compress | .decompress => false

end Sys2Proof.Machine
end

