-- ==== Sys2Proof/Machine/Operands.lean ====
section
/-! DEFINITION. What a command's operand is to its rule: an unsigned field, zero-extended (30_encoding.md R83,
00_scope.md R11). No operand is sign-extended, scaled or shifted. -/

namespace Sys2Proof.Machine

/-- `zext_32(v)` (00_scope.md R11). -/
def zext32 {n : Nat} (v : BitVec n) : Word32 := v.setWidth 32

/-- The register-space address of RD_REG, `addr = OPERAND[11:0]` (40_control.md R114). -/
def regAddress (addr : BitVec 12) : Nat := addr.toNat

/-- The index of OUT_READ, `idx = OPERAND[31:0]` (41_data_io.md R132). -/
def outIndex (idx : Word32) : Nat := idx.toNat

/-- The precision of SET_PREC, `p = OPERAND[4:0]` (40_control.md R113). -/
def precOperand (p : BitVec 5) : Nat := p.toNat

/-- The ERR_INFO of an illegal word, cmd[63:32] (60_exceptions.md R241). -/
def illegalInfo (w : Word64) : Word32 := w.extractLsb' 32 32

end Sys2Proof.Machine
end

