-- ==== Sys2Proof/Machine/Ops.lean ====
section
/-! DEFINITION. The operations every command shares: the byte buffers, the register space, the response, taking an error
(the block's exception entry) and leaving it, and how a primitive or a sequence of primitives ends. -/

namespace Sys2Proof.Machine

/-! ### Byte buffers (10_state.md R50, 00_scope.md R12) -/

/-- The canonical form of a list of cells: addresses strictly rising. -/
def cellsSorted : List Host.Cell → Bool
  | [] => true
  | [_] => true
  | c :: d :: rest => c.1 < d.1 && cellsSorted (d :: rest)

/-- A memory is in canonical form. An unlisted byte reads as nothing written, so no cell equals it. -/
def Memory.wf (m : Memory) : Bool := cellsSorted m.cells

/-- The byte listed at an address. -/
def lookupCell : List Host.Cell → Nat → Option Byte
  | [], _ => none
  | (b, v) :: rest, a => if a = b then some v else lookupCell rest a

/-- Put a byte at an address, keeping the addresses rising. -/
def insertCell : List Host.Cell → Nat → Byte → List Host.Cell
  | [], a, v => [(a, v)]
  | (b, w) :: rest, a, v =>
    if a < b then (a, v) :: (b, w) :: rest
    else if a = b then (a, v) :: rest
    else (b, w) :: insertCell rest a v

/-- The byte written at an address, if one was since the contents were last unspecified. -/
def Memory.written (m : Memory) (a : Nat) : Option Byte := lookupCell m.cells a

/-- Reading one byte: the byte last written (20_memory.md R74), or the free value of an unspecified byte (R50; log 4). -/
def Memory.read (b : Buffer) (m : Memory) (a : Nat) : Byte := (m.written a).getD (Config.freeByte b m.epoch a)

/-- Writing one byte. -/
def Memory.write (m : Memory) (a : Nat) (v : Byte) : Memory := { m with cells := insertCell m.cells a v }

/-- The contents become unspecified: every byte is a fresh free value (60_exceptions.md R245; log 5). -/
def Memory.unspecified (m : Memory) : Memory := { cells := [], epoch := m.events + 1, events := m.events + 1 }

/-- Writing a list of cells, in order. -/
def Memory.writeCells (m : Memory) (cs : List Host.Cell) : Memory := cs.foldl (fun n c => n.write c.1 c.2) m

/-- One byte becomes unspecified, a fresh free value, and no other byte changes (log 3). -/
def Memory.forgetByte (b : Buffer) (m : Memory) (a : Nat) : Memory :=
  { m.write a (Config.freeByte b (m.events + 1) a) with events := m.events + 1 }

/-- The bytes at these addresses become unspecified. -/
def Memory.forget (b : Buffer) (m : Memory) (as : List Nat) : Memory := as.foldl (Memory.forgetByte b) m

/-- The cells `MemWrite(BUF, addr, n, v)` writes: the n-byte big-endian form of v (00_scope.md R12, 20_memory.md R63). -/
def bigEndianCells (addr n v : Nat) : List Host.Cell :=
  (List.range n).map fun i => (addr + i, BitVec.ofNat 8 (v / 256 ^ (n - 1 - i)))

/-- `MemRead(BUF, addr, n)`: n bytes as one big-endian natural number (00_scope.md R12, 20_memory.md R63). -/
def Memory.readBigEndian (b : Buffer) (m : Memory) (addr n : Nat) : Nat :=
  (List.range n).foldl (fun acc i => acc * 256 + (m.read b (addr + i)).toNat) 0

/-- The memory of a buffer. -/
def State.mem (s : State) : Buffer → Memory
  | .ibuf => s.ibuf
  | .obuf => s.obuf

/-- One byte of a buffer, `MemRead(BUF, addr, 1)`. -/
def State.readByte (s : State) (b : Buffer) (a : Nat) : Byte := (s.mem b).read b a

/-- `MemWrite(OBUF, a, 1, v)`. -/
def State.writeObuf (s : State) (a : Nat) (v : Byte) : State := { s with obuf := s.obuf.write a v }

/-- The bytes IBUF[0 .. n-1] (10_state.md R32). -/
def State.inputBytes (s : State) (n : Nat) : List Byte := (List.range n).map (s.readByte .ibuf)

/-- The ERR_INFO value that names a buffer (60_exceptions.md R241). -/
def bufferInfo : Buffer → Word32
  | .ibuf => 1
  | .obuf => 2

/-! ### Constants derived from PREC (00_scope.md R7) -/

/-- WHOLE = 2^P. -/
def State.whole (s : State) : Nat := 2 ^ s.prec.toNat

/-- HALF = WHOLE / 2. -/
def State.half (s : State) : Nat := s.whole / 2

/-- QUARTER = WHOLE / 4. -/
def State.quarter (s : State) : Nat := s.whole / 4

/-- THREEQ = 3 * QUARTER. -/
def State.threeq (s : State) : Nat := 3 * s.quarter

/-! ### The register space (10_state.md R21) -/

/-- Entry i of a register array; every index the rules form is below 256. -/
def entry (v : RegArray) (i : Nat) : Word32 := v.toList.getD i 0

/-- Entry s of a register array, for a symbol s. -/
def symEntry (v : RegArray) (s : Byte) : Word32 := entry v s.toNat

/-- The scalar registers, addresses 0x000..0x015. -/
def State.scalarRegister (s : State) : Nat → Option Word32
  | 0x000 => some s.status
  | 0x001 => some (zext32 s.errCode)
  | 0x002 => some s.errInfo
  | 0x003 => some (zext32 s.prec)
  | 0x004 => some s.ibufSize
  | 0x005 => some s.obufSize
  | 0x006 => some s.inLen
  | 0x007 => some s.outLen
  | 0x008 => some s.total
  | 0x009 => some (zext32 s.symCount)
  | 0x00A => some s.fmin
  | 0x00B => some s.hdrLen
  | 0x00C => some s.lower
  | 0x00D => some s.upper
  | 0x00E => some s.pending
  | 0x00F => some s.tag
  | 0x010 => some s.bitCount
  | 0x011 => some s.rdIdx
  | 0x012 => some s.bitLen
  | 0x013 => some s.encPos
  | 0x014 => some s.decCount
  | 0x015 => some s.nDecl
  | _ => none

/-- The register at an address, or none where the address is unmapped (10_state.md R21). -/
def State.readRegister (s : State) (a : Nat) : Option Word32 :=
  if a < 0x100 then s.scalarRegister a
  else if a < 0x200 then some (entry s.freq (a - 0x100))
  else if a < 0x300 then some (entry s.cumLow (a - 0x200))
  else if a < 0x400 then some (entry s.cumHigh (a - 0x300))
  else none

/-! ### Responses (30_encoding.md R85, R86, R87) -/

/-- The response word: RSP_STATUS [63:56], ERR_CODE [55:48], PHASE [42:40], DATA [31:0], the rest 0 (R85). -/
def responseWord (st : RspStatus) (errCode : BitVec 8) (ph : Phase) (data : Word32) : Word64 :=
  st.code ++ errCode ++ (0 : BitVec 5) ++ ph.code ++ (0 : BitVec 8) ++ data

/-- The command's one response goes out; ERR_CODE and PHASE are those after the command (R85). -/
def State.respond (s : State) (st : RspStatus) (data : Word32) : State :=
  { s with rsp := some (responseWord st s.errCode s.phase data) }

/-! ### Errors: entry, refusal and return (60_exceptions.md) -/

/-- Error entry, `raise E(info)` (R245), on the state before the failing primitive, whose registers it keeps. -/
def takeError (e : ErrorKind) (info : Word32) (s : State) : State :=
  { s with
    errCode := e.code
    errInfo := info
    phase := .error
    outValid := false
    outLen := 0
    obuf := s.obuf.unspecified }.respond .error 0

/-- A refused command: no state changes; the response says REFUSED (R247). -/
def refuse (s : State) : State := s.respond .refused 0

/-- Every register takes its reset value; the parameters, the buffers and the port stay (10_state.md R53,
70_reset_and_hazards.md R270). -/
def resetRegisters (s : State) : State :=
  { State.powerOn s.ibufSize s.obufSize with port := s.port, rsp := s.rsp, ibuf := s.ibuf, obuf := s.obuf }

/-- The return from ERROR that keeps the input (60_exceptions.md R249; the effect of CLEAR, 40_control.md R112):
everything but PREC, IN_LEN, the parameters, the buffers and the port goes to its reset value. -/
def clearRegisters (s : State) : State :=
  { resetRegisters s with prec := s.prec, inLen := s.inLen }

/-! ### How a primitive's rule ends -/

/-- A primitive's rule: the state and the DATA it leaves, or how it ends early. -/
abbrev Exec (α : Type) := Except Abort α

/-- `raise E(info)` (00_scope.md R12). -/
def raise {α : Type} (e : ErrorKind) (info : Word32) : Exec α := .error (.raise e info)

/-- A stop of the model. -/
def stop {α : Type} (f : Fault) : Exec α := .error (.stop f)

/-- The phase check (30_encoding.md R91 step 3). -/
def inPhases (m : Mnemonic) (body : State → Exec (State × Word32)) (s : State) : Exec (State × Word32) :=
  if phasesOf m s.phase then body s else raise .phase (zext32 m.opcode)

/-- The outcome of a primitive command: its response, the error entry, or a stop. -/
def finish (s : State) : Exec (State × Word32) → Host.Outcome State Fault Refusal
  | .ok (t, data) => .next (t.respond .ok data)
  | .error (.raise e info) => .next (takeError e info s)
  | .error (.stop f) => .fault f

/-- Handling a legal command that is a primitive: steps 2 to 4 of 30_encoding.md R91. -/
def execPrimitive (m : Mnemonic) (body : State → Exec (State × Word32)) (s : State) :
    Host.Outcome State Fault Refusal :=
  if s.phase = .error ∧ runsInError m = false then .next (refuse s)
  else finish s (inPhases m body s)

/-! ### Sequences of primitives (60_exceptions.md R246) -/

/-- A run of a sequence: the state so far, or the state before the failing primitive and how that primitive ended. -/
abbrev Run := Except (State × Abort) State

/-- One primitive of a sequence. -/
def runPrimitive (body : State → Exec (State × Word32)) (s : State) : Run :=
  match body s with
  | .ok (t, _) => .ok t
  | .error a => .error (s, a)

/-- The same primitive n times, stopping at the first that fails. -/
def repeatPrimitive (body : State → Exec (State × Word32)) : Nat → State → Run
  | 0, s => .ok s
  | n + 1, s =>
    match runPrimitive body s with
    | .ok t => repeatPrimitive body n t
    | .error e => .error e

/-- The next part of a sequence runs where the part before completed. -/
def andThen (r : Run) (next : State → Run) : Run :=
  match r with
  | .ok t => next t
  | .error e => .error e

/-- The outcome of a sequence: `respond(OUT_LEN)`, or the error of the primitive that failed, taken on the state that
primitive began with (R246). -/
def finishRun : Run → Host.Outcome State Fault Refusal
  | .ok t => .next (t.respond .ok t.outLen)
  | .error (t, .raise e info) => .next (takeError e info t)
  | .error (_, .stop f) => .fault f

/-- Handling a legal macro command: steps 2 to 4 of 30_encoding.md R91. -/
def execSequence (m : Mnemonic) (run : State → Run) (s : State) : Host.Outcome State Fault Refusal :=
  if s.phase = .error ∧ runsInError m = false then .next (refuse s)
  else if phasesOf m s.phase then finishRun (run s)
  else .next (takeError .phase (zext32 m.opcode) s)

end Sys2Proof.Machine
end

