-- ==== Sys2Proof/Machine/Control.lean ====
section
/-! DEFINITION. The control commands (40_control.md): NOP, SOFT_RESET, CLEAR, SET_PREC and RD_REG. -/

namespace Sys2Proof.Machine

/-- NOP (R110): responds 0; no state changes. -/
def primNop (s : State) : Exec (State × Word32) := .ok (s, 0)

/-- SOFT_RESET (R111): every register to its reset value; the buffers' contents stay. -/
def primSoftReset (s : State) : Exec (State × Word32) := .ok (resetRegisters s, 0)

/-- CLEAR (R112): PREC, IN_LEN and the buffers stay. -/
def primClear (s : State) : Exec (State × Word32) := .ok (clearRegisters s, 0)

/-- SET_PREC p (R113). -/
def primSetPrec (p : BitVec 5) (s : State) : Exec (State × Word32) :=
  if precOperand p < 2 then raise .precisionOverflow (zext32 p)
  else .ok ({ s with prec := p }, 0)

/-- RD_REG addr (R114). -/
def primRdReg (addr : BitVec 12) (s : State) : Exec (State × Word32) :=
  match s.readRegister (regAddress addr) with
  | none => raise .operand (zext32 addr)
  | some v => .ok (s, v)

/-- NOP as a command. -/
def execNop (s : State) : Host.Outcome State Fault Refusal := execPrimitive .nop primNop s

/-- SOFT_RESET as a command. -/
def execSoftReset (s : State) : Host.Outcome State Fault Refusal := execPrimitive .softReset primSoftReset s

/-- CLEAR as a command. -/
def execClear (s : State) : Host.Outcome State Fault Refusal := execPrimitive .clear primClear s

/-- SET_PREC as a command. -/
def execSetPrec (p : BitVec 5) (s : State) : Host.Outcome State Fault Refusal :=
  execPrimitive .setPrec (primSetPrec p) s

/-- RD_REG as a command: in ERROR an unmapped address makes the command refused, since errors never nest
(60_exceptions.md R248). -/
def execRdReg (addr : BitVec 12) (s : State) : Host.Outcome State Fault Refusal :=
  if s.phase = .error ∧ s.readRegister (regAddress addr) = none then .next (refuse s)
  else execPrimitive .rdReg (primRdReg addr) s

end Sys2Proof.Machine
end

