-- ==== Sys2Proof/Machine/DataIo.lean ====
section
/-! DEFINITION. The data I/O commands (41_data_io.md): IN_CLEAR, IN_WRITE and OUT_READ. -/

namespace Sys2Proof.Machine

/-- IN_CLEAR (R130). -/
def primInClear (s : State) : Exec (State × Word32) := .ok ({ s with inLen := 0 }, 0)

/-- IN_WRITE byte (R131): the byte goes to IBUF[IN_LEN]. -/
def primInWrite (byte : Byte) (s : State) : Exec (State × Word32) :=
  if s.inLen = s.ibufSize then raise .capacity (bufferInfo .ibuf)
  else if s.ibufSize.toNat ≤ s.inLen.toNat then stop (.bufferAddress .ibuf)
  else .ok ({ s with ibuf := s.ibuf.write s.inLen.toNat byte, inLen := s.inLen + 1 }, 0)

/-- OUT_READ idx (R132). -/
def primOutRead (idx : Word32) (s : State) : Exec (State × Word32) :=
  if s.outLen.toNat ≤ outIndex idx then raise .operand idx
  else if s.obufSize.toNat ≤ outIndex idx then stop (.bufferAddress .obuf)
  else .ok (s, zext32 (s.readByte .obuf (outIndex idx)))

/-- IN_CLEAR as a command. -/
def execInClear (s : State) : Host.Outcome State Fault Refusal := execPrimitive .inClear primInClear s

/-- IN_WRITE as a command. -/
def execInWrite (byte : Byte) (s : State) : Host.Outcome State Fault Refusal :=
  execPrimitive .inWrite (primInWrite byte) s

/-- OUT_READ as a command. -/
def execOutRead (idx : Word32) (s : State) : Host.Outcome State Fault Refusal :=
  execPrimitive .outRead (primOutRead idx) s

end Sys2Proof.Machine
end

