-- ==== Sys2Proof/Machine/Model.lean ====
section
/-! DEFINITION. The frequency model builder's functions: counting, BuildModel and the precision check
(42_frequency_model.md R140, R142, R144). -/

namespace Sys2Proof.Machine

/-- A register array from a list of 256 naturals. -/
def regArray (l : List Nat) (h : l.length = 256) : RegArray :=
  ⟨(l.map (BitVec.ofNat 32)).toArray, by simp [h]⟩

/-- `#{ i : bytes[i] = s }` for every symbol s (R140). -/
def countBytes (bytes : List Byte) : RegArray :=
  regArray ((List.range 256).map fun s => bytes.count (BitVec.ofNat 8 s)) (by simp)

/-- The values of `c` at which each symbol begins: CUM_LOW' of BuildModel (R142), from `c` on. -/
def lowSums : Nat → List Word32 → List Nat
  | _, [] => []
  | c, f :: fs => c :: lowSums (c + f.toNat) fs

/-- The values of `c` at which each symbol ends: CUM_HIGH' of BuildModel (R142). -/
def highSums : Nat → List Word32 → List Nat
  | _, [] => []
  | c, f :: fs => (c + f.toNat) :: highSums (c + f.toNat) fs

theorem lowSums_length (c : Nat) (l : List Word32) : (lowSums c l).length = l.length := by
  induction l generalizing c with
  | nil => rfl
  | cons f fs ih => simp [lowSums, ih]

theorem highSums_length (c : Nat) (l : List Word32) : (highSums c l).length = l.length := by
  induction l generalizing c with
  | nil => rfl
  | cons f fs ih => simp [highSums, ih]

/-- The sum of a list of counts: BuildModel's last `c`. -/
def sumCounts (l : List Word32) : Nat := (l.map BitVec.toNat).sum

/-- `min { FREQ[s] : FREQ[s] > 0 }`, or 0 if there is none (R142). -/
def minPositive : List Word32 → Nat
  | [] => 0
  | f :: fs => if f = 0 then minPositive fs else if minPositive fs = 0 then f.toNat else min f.toNat (minPositive fs)

/-- BuildModel's results (R142). -/
structure ModelRegs where
  cumLow   : RegArray
  cumHigh  : RegArray
  total    : Nat
  symCount : Nat
  fmin     : Nat
deriving DecidableEq, Repr

/-- BuildModel (R142): one pass over the 256 symbols in ascending numeric order. -/
def buildModel (freq : RegArray) : ModelRegs :=
  { cumLow := regArray (lowSums 0 freq.toList) (by simp [lowSums_length])
    cumHigh := regArray (highSums 0 freq.toList) (by simp [highSums_length])
    total := sumCounts freq.toList
    symCount := freq.toList.countP (· ≠ 0)
    fmin := minPositive freq.toList }

/-- The precision check fails: `FMIN' * QUARTER < TOTAL'` (R144). -/
def precisionFails (m : ModelRegs) (quarter : Nat) : Bool := m.fmin * quarter < m.total

/-- The symbols of `for s in SYMBOLS`: those with FREQ[s] > 0, in ascending numeric order (00_scope.md R12,
42_frequency_model.md R149). -/
def symbolsOf (freq : RegArray) : List Byte :=
  ((List.range 256).filter fun i => entry freq i ≠ 0).map (BitVec.ofNat 8)

/-- Committing BuildModel's results (R146, 46_decoder.md R222). -/
def State.withModel (s : State) (m : ModelRegs) : State :=
  { s with
    cumLow := m.cumLow
    cumHigh := m.cumHigh
    total := BitVec.ofNat 32 m.total
    symCount := BitVec.ofNat 9 m.symCount
    fmin := BitVec.ofNat 32 m.fmin }

end Sys2Proof.Machine
end

