-- ==== Sys2Proof/Machine/Packer.lean ====
section
/-! DEFINITION. The bitstream packer (43_bitstream_packer.md): the bit sink (R160 to R163), the bit source (R164 to R166)
and the file framing (R167, R168). -/

namespace Sys2Proof.Machine

/-! ### Bit sink -/

/-- A bit as a byte. -/
def bitByte (b : Bool) : Byte := if b then 1 else 0

/-- The OBUF address of payload bit j (R160). -/
def State.sinkAddress (s : State) (j : Nat) : Nat := s.hdrLen.toNat + j / 8

/-- OBUF after payload bit j = b goes into byte a (R161): the first bit of a byte clears it, then the bit goes in at
position 7 - (j mod 8). -/
def Memory.putBit (m : Memory) (a j : Nat) (b : Bool) : Memory :=
  let cleared := if j % 8 = 0 then m.write a 0 else m
  cleared.write a (cleared.read .obuf a ||| (bitByte b <<< (7 - j % 8)))

/-- `emit(b)` (R161). -/
def State.emit (s : State) (b : Bool) : State :=
  { s with
    obuf := s.obuf.putBit (s.sinkAddress s.bitCount.toNat) s.bitCount.toNat b
    bitCount := BitVec.ofNat 32 (s.bitCount.toNat + 1) }

/-- `for b in bits: emit(b)`. -/
def State.emitAll (s : State) (bits : List Bool) : State := bits.foldl State.emit s

/-- `sink_finalize()` (R162). -/
def State.sinkFinalize (s : State) : State :=
  { s with outLen := BitVec.ofNat 32 (s.hdrLen.toNat + (s.bitCount.toNat + 7) / 8) }

/-- CAP_BITS = 8 * (OBUF_SIZE - HDR_LEN) (R163). -/
def State.capBits (s : State) : Nat := 8 * (s.obufSize.toNat - s.hdrLen.toNat)

/-- The sink has room for n more bits: the precondition of R161 for each of them. -/
def State.sinkFits (s : State) (n : Nat) : Bool :=
  s.hdrLen.toNat + (s.bitCount.toNat + n + 7) / 8 ≤ s.obufSize.toNat

/-! ### Bit source -/

/-- `SourceBit(i)`, i from 1 (R164): a stored bit of the payload, or 0 past its end (R165). -/
def State.sourceBit (s : State) (i : Nat) : Bool :=
  if i ≤ s.bitLen.toNat then
    (s.readByte .ibuf (s.hdrLen.toNat + (i - 1) / 8)).getLsbD (7 - (i - 1) % 8)
  else false

/-- The read index after `nextbit()` (R166): it saturates at BIT_LEN + 1. -/
def nextIndex (bitLen rd : Nat) : Nat := if rd ≤ bitLen then rd + 1 else rd

/-- The payload lies inside IBUF, so no SourceBit reads outside it (20_memory.md R69). -/
def State.sourceFits (s : State) : Bool := s.hdrLen.toNat + (s.bitLen.toNat + 7) / 8 ≤ s.ibufSize.toNat

/-! ### File framing -/

/-- The header length of K symbols, 6 + 5K (30_encoding.md R92). -/
def headerLength (k : Nat) : Nat := 6 + 5 * k

/-- The cells of the (symbol, frequency) pairs from pair j on: symbol at 2 + 5j, frequency at 3 + 5j (R167). -/
def pairCells (freq : RegArray) : Nat → List Byte → List Host.Cell
  | _, [] => []
  | j, s :: rest =>
    bigEndianCells (2 + 5 * j) 1 s.toNat ++ bigEndianCells (3 + 5 * j) 4 (symEntry freq s).toNat ++
      pairCells freq (j + 1) rest

/-- The cells `header_write()` writes, in order (R167). -/
def State.headerCells (s : State) : List Host.Cell :=
  bigEndianCells 0 2 s.symCount.toNat ++ pairCells s.freq 0 (symbolsOf s.freq) ++
    bigEndianCells (2 + 5 * s.symCount.toNat) 4 s.total.toNat

/-- `header_write()` (R167). -/
def State.headerWrite (s : State) : Exec State :=
  if s.headerCells.all (fun c => c.1 < s.obufSize.toNat) then
    .ok { s with
      obuf := s.obuf.writeCells s.headerCells
      hdrLen := BitVec.ofNat 32 (headerLength s.symCount.toNat) }
  else stop (.bufferAddress .obuf)

/-- What `header_parse()` returns (R168). -/
structure Header where
  freq   : RegArray
  n      : Nat
  hdrLen : Nat
  bitLen : Nat
deriving DecidableEq, Repr

/-- FREQ with one entry replaced. -/
def setEntry (v : RegArray) (s : Byte) (x : Word32) : RegArray :=
  ⟨(v.toList.set s.toNat x).toArray, by simp⟩

/-- The loop over the pairs of `header_parse()` (R168): n pairs from pair j on, in order; a symbol listed twice, then a
zero frequency, ends it. -/
def State.parsePairs (s : State) : Nat → Nat → RegArray → Exec RegArray
  | 0, _, f => .ok f
  | n + 1, j, f =>
    let sym := s.readByte .ibuf (2 + 5 * j)
    let fr := s.ibuf.readBigEndian .ibuf (3 + 5 * j) 4
    if symEntry f sym ≠ 0 then raise .decodeCorruption (BitVec.ofNat 32 (2 + 5 * j))
    else if fr = 0 then raise .decodeCorruption (BitVec.ofNat 32 (3 + 5 * j))
    else s.parsePairs n (j + 1) (setEntry f sym (BitVec.ofNat 32 fr))

/-- `header_parse()` (R168), its checks in the order of the rule. -/
def State.headerParse (s : State) : Exec Header :=
  let l := s.inLen.toNat
  if l < 2 then raise .truncatedFile s.inLen
  else
    let k := s.ibuf.readBigEndian .ibuf 0 2
    if k = 0 ∨ 256 < k then raise .decodeCorruption 0
    else if l < headerLength k then raise .truncatedFile s.inLen
    else
      match s.parsePairs k 0 (Vector.replicate 256 0) with
      | .error a => .error a
      | .ok f =>
        let n := s.ibuf.readBigEndian .ibuf (2 + 5 * k) 4
        if sumCounts f.toList ≠ n then raise .decodeCorruption (BitVec.ofNat 32 (2 + 5 * k))
        else if l = headerLength k then raise .truncatedFile s.inLen
        else if s.obufSize.toNat < n then raise .capacity (bufferInfo .obuf)
        else .ok { freq := f, n := n, hdrLen := headerLength k, bitLen := 8 * (l - headerLength k) }

end Sys2Proof.Machine
end

