-- ==== Sys2Proof/Machine/Renormalizer.lean ====
section
/-! DEFINITION. The interval renormalizer (44_interval_renormalizer.md): Narrow (R181), RenormEnc (R182, R183), FinalBits
(R189) and RenormDec (R184, R185), on naturals, for the precision P. -/

namespace Sys2Proof.Machine

/-- `Narrow(lo, up, cl, ch)` with T = `total` (R181). -/
def narrow (total lo up cl ch : Nat) : Nat × Nat :=
  (lo + ((up - lo) * cl) / total, lo + ((up - lo) * ch) / total)

/-- An interval the renormalizer works on: `0 <= lo < up <= WHOLE` (R180). -/
def intervalLegal (p lo up : Nat) : Bool := lo < up && up ≤ 2 ^ p

/-! ### Encoder -/

/-- The encoder's interval and its pending-bit counter (10_state.md R40, R41). -/
structure EncInterval where
  lower   : Nat
  upper   : Nat
  pending : Nat
deriving DecidableEq, Repr

/-- The bits an E1 (b = 0) or E2 (b = 1) decision emits: b, then PENDING times its opposite (R182). -/
def decisionBits (b : Bool) (pending : Nat) : List Bool := b :: List.replicate pending (!b)

/-- Phase 1 of RenormEnc, E1/E2 (R182), at most `fuel` rescalings: the interval it leaves and the bits it emits. -/
def renormEncPhase1 (p : Nat) : Nat → EncInterval → EncInterval × List Bool
  | 0, v => (v, [])
  | fuel + 1, v =>
    if v.upper < 2 ^ p / 2 then
      let r := renormEncPhase1 p fuel ⟨2 * v.lower, 2 * v.upper, 0⟩
      (r.1, decisionBits false v.pending ++ r.2)
    else if 2 ^ p / 2 < v.lower then
      let r := renormEncPhase1 p fuel ⟨2 * (v.lower - 2 ^ p / 2), 2 * (v.upper - 2 ^ p / 2), 0⟩
      (r.1, decisionBits true v.pending ++ r.2)
    else (v, [])

/-- Phase 2 of RenormEnc, E3 (R183), at most `fuel` rescalings. -/
def renormEncPhase2 (p : Nat) : Nat → EncInterval → EncInterval
  | 0, v => v
  | fuel + 1, v =>
    if 2 ^ p / 4 < v.lower ∧ v.upper < 3 * (2 ^ p / 4) then
      renormEncPhase2 p fuel ⟨2 * (v.lower - 2 ^ p / 4), 2 * (v.upper - 2 ^ p / 4), v.pending + 1⟩
    else v

/-- RenormEnc: phase 1, then phase 2, once (R182, R183). At most P rescalings are needed in each (R188; log 11). -/
def renormEnc (p : Nat) (v : EncInterval) : EncInterval × List Bool :=
  let r := renormEncPhase1 p p v
  (renormEncPhase2 p p r.1, r.2)

/-- The bits FinalBits emits for LOWER and PENDING before it (R189). -/
def finalBits (p lower pending : Nat) : List Bool :=
  if lower ≤ 2 ^ p / 4 then decisionBits false (pending + 1) else decisionBits true (pending + 1)

/-! ### Decoder -/

/-- The decoder's interval, its tag and its read index (10_state.md R40, R42, R44). -/
structure DecInterval where
  lower : Nat
  upper : Nat
  tag   : Nat
  rdIdx : Nat
deriving DecidableEq, Repr

/-- One bit shifted into a tag at the low end. -/
def shiftIn (tag : Nat) (b : Bool) : Nat := 2 * tag + b.toNat

/-- One rescaling of the decoder about `base` (0 for E1, HALF for E2, QUARTER for E3), with its one `nextbit()`
(R184, R185, 43_bitstream_packer.md R166). -/
def State.rescaleDec (s : State) (base : Nat) (v : DecInterval) : DecInterval :=
  { lower := 2 * (v.lower - base)
    upper := 2 * (v.upper - base)
    tag := shiftIn (v.tag - base) (s.sourceBit v.rdIdx)
    rdIdx := nextIndex s.bitLen.toNat v.rdIdx }

/-- Phase 1 of RenormDec, E1/E2 (R184), at most `fuel` rescalings. -/
def State.renormDecPhase1 (s : State) (p : Nat) : Nat → DecInterval → DecInterval
  | 0, v => v
  | fuel + 1, v =>
    if v.upper < 2 ^ p / 2 then s.renormDecPhase1 p fuel (s.rescaleDec 0 v)
    else if 2 ^ p / 2 < v.lower then s.renormDecPhase1 p fuel (s.rescaleDec (2 ^ p / 2) v)
    else v

/-- Phase 2 of RenormDec, E3 (R185), at most `fuel` rescalings. -/
def State.renormDecPhase2 (s : State) (p : Nat) : Nat → DecInterval → DecInterval
  | 0, v => v
  | fuel + 1, v =>
    if 2 ^ p / 4 < v.lower ∧ v.upper < 3 * (2 ^ p / 4) then
      s.renormDecPhase2 p fuel (s.rescaleDec (2 ^ p / 4) v)
    else v

/-- RenormDec: phase 1, then phase 2, once (R184, R185; log 11). -/
def State.renormDec (s : State) (p : Nat) (v : DecInterval) : DecInterval :=
  s.renormDecPhase2 p p (s.renormDecPhase1 p p v)

/-- Tag initialization (46_decoder.md R221): n bits shifted into the tag, from a tag and a read index on. -/
def State.shiftBits (s : State) : Nat → Nat → Nat → Nat × Nat
  | 0, tag, rd => (tag, rd)
  | n + 1, tag, rd => s.shiftBits n (shiftIn tag (s.sourceBit rd)) (nextIndex s.bitLen.toNat rd)

end Sys2Proof.Machine
end

