-- ==== Sys2Proof/Machine/Decoder.lean ====
section
/-! DEFINITION. The decoder commands (46_decoder.md): DEC_START, DEC_STEP and the macro DECOMPRESS. -/

namespace Sys2Proof.Machine

/-- The registers DEC_START commits before tag initialization (R222). -/
def State.decLoad (s : State) (h : Header) : State :=
  { s.withModel (buildModel h.freq) with
    freq := h.freq
    hdrLen := BitVec.ofNat 32 h.hdrLen
    bitLen := BitVec.ofNat 32 h.bitLen
    nDecl := BitVec.ofNat 32 h.n
    lower := 0
    upper := BitVec.ofNat 32 s.whole
    decCount := 0 }

/-- Tag initialization (R221): RD_IDX <- 1, TAG <- 0, then P bits. -/
def State.initTag (s : State) : State :=
  let r := s.shiftBits s.prec.toNat 0 1
  { s with tag := BitVec.ofNat 32 r.1, rdIdx := BitVec.ofNat 32 r.2 }

/-- DEC_START (R222): header_parse, BuildModel, the precision check, then the commit. -/
def primDecStart (s : State) : Exec (State × Word32) :=
  if s.ibufSize.toNat < s.inLen.toNat then stop (.bufferAddress .ibuf)
  else
    match s.headerParse with
    | .error a => .error a
    | .ok h =>
      if precisionFails (buildModel h.freq) s.quarter then
        raise .precisionOverflow (BitVec.ofNat 32 (buildModel h.freq).total)
      else if 2 ^ 32 ≤ h.bitLen + 1 then stop .registerWidth
      else .ok ({ (s.decLoad h).initTag with phase := .decoding }, BitVec.ofNat 32 h.n)

/-- The candidate interval of a symbol (R224). -/
def State.candidate (s : State) (sym : Byte) : Nat × Nat :=
  narrow s.total.toNat s.lower.toNat s.upper.toNat (symEntry s.cumLow sym).toNat (symEntry s.cumHigh sym).toNat

/-- `lt <= TAG and TAG < ut` (R224). -/
def State.tagMatches (s : State) (sym : Byte) : Bool :=
  (s.candidate sym).1 ≤ s.tag.toNat && s.tag.toNat < (s.candidate sym).2

/-- `Search()` (R224): the first symbol, in ascending order, whose candidate interval contains TAG. -/
def State.search (s : State) : Option Byte := (symbolsOf s.freq).find? s.tagMatches

/-- The state after the symbol is written and before the end test of DEC_STEP (R223). -/
def State.decEmit (s : State) (sym : Byte) : State :=
  { s.writeObuf s.decCount.toNat sym with
    decCount := s.decCount + 1
    lower := BitVec.ofNat 32 (s.candidate sym).1
    upper := BitVec.ofNat 32 (s.candidate sym).2 }

/-- The end of the last DEC_STEP (R223, R225): the result is committed, and nothing is renormalized. -/
def State.decEnd (s : State) : State := { s with outLen := s.nDecl, outValid := true, phase := .decDone }

/-- RenormDec on the registers (R223). -/
def State.decRenorm (s : State) : State :=
  let v := s.renormDec s.prec.toNat ⟨s.lower.toNat, s.upper.toNat, s.tag.toNat, s.rdIdx.toNat⟩
  { s with
    lower := BitVec.ofNat 32 v.lower
    upper := BitVec.ofNat 32 v.upper
    tag := BitVec.ofNat 32 v.tag
    rdIdx := BitVec.ofNat 32 v.rdIdx }

/-- DEC_STEP (R223). -/
def primDecStep (s : State) : Exec (State × Word32) :=
  if s.total = 0 then stop .divisionByZero
  else if intervalLegal s.prec.toNat s.lower.toNat s.upper.toNat = false then stop .intervalBounds
  else
    match s.search with
    | none => raise .decodeCorruption s.decCount
    | some sym =>
      if s.obufSize.toNat ≤ s.decCount.toNat then stop (.bufferAddress .obuf)
      else if s.whole < (s.candidate sym).2 then stop .intervalBounds
      else if s.decCount + 1 = s.nDecl then .ok ((s.decEmit sym).decEnd, zext32 sym)
      else if s.sourceFits = false then stop (.bufferAddress .ibuf)
      else if 2 ^ 32 ≤ s.bitLen.toNat + 1 then stop .registerWidth
      else .ok ((s.decEmit sym).decRenorm, zext32 sym)

/-- DEC_START as a command. -/
def execDecStart (s : State) : Host.Outcome State Fault Refusal := execPrimitive .decStart primDecStart s

/-- DEC_STEP as a command. -/
def execDecStep (s : State) : Host.Outcome State Fault Refusal := execPrimitive .decStep primDecStep s

/-- The sequence of DECOMPRESS (R226); each primitive runs with its own phase check. -/
def runDecompress (s : State) : Run :=
  andThen (runPrimitive (inPhases .decStart primDecStart) s) fun a =>
  repeatPrimitive (inPhases .decStep primDecStep) a.nDecl.toNat a

/-- DECOMPRESS as a command (R226). -/
def execDecompress (s : State) : Host.Outcome State Fault Refusal := execSequence .decompress runDecompress s

end Sys2Proof.Machine
end

