-- ==== Sys2Proof/Machine/Frequency.lean ====
section
/-! DEFINITION. The commands of the frequency model builder (42_frequency_model.md): FM_COUNT and FM_BUILD. -/

namespace Sys2Proof.Machine

/-- FM_COUNT (R140). -/
def primFmCount (s : State) : Exec (State × Word32) :=
  if s.inLen = 0 then raise .emptyInput 0
  else if s.ibufSize.toNat < s.inLen.toNat then stop (.bufferAddress .ibuf)
  else .ok ({ s with freq := countBytes (s.inputBytes s.inLen.toNat), phase := .counted }, s.inLen)

/-- FM_BUILD (R146). -/
def primFmBuild (s : State) : Exec (State × Word32) :=
  let m := buildModel s.freq
  if 2 ^ 32 ≤ m.total then stop .registerWidth
  else if precisionFails m s.quarter then raise .precisionOverflow (BitVec.ofNat 32 m.total)
  else .ok ({ s.withModel m with phase := .modelReady }, BitVec.ofNat 32 m.total)

/-- FM_COUNT as a command. -/
def execFmCount (s : State) : Host.Outcome State Fault Refusal := execPrimitive .fmCount primFmCount s

/-- FM_BUILD as a command. -/
def execFmBuild (s : State) : Host.Outcome State Fault Refusal := execPrimitive .fmBuild primFmBuild s

end Sys2Proof.Machine
end

