-- ==== Sys2Proof/Machine/Encoder.lean ====
section
/-! DEFINITION. The encoder commands (45_encoder.md): ENC_START, ENC_STEP, ENC_FINISH and the macro COMPRESS. -/

namespace Sys2Proof.Machine

/-- ENC_START (R201): room for the header and one payload byte, the header, the initial interval (0, WHOLE). -/
def primEncStart (s : State) : Exec (State × Word32) :=
  if s.obufSize.toNat ≤ headerLength s.symCount.toNat then raise .capacity (bufferInfo .obuf)
  else
    match s.headerWrite with
    | .error a => .error a
    | .ok t =>
      .ok ({ t with
        lower := 0
        upper := BitVec.ofNat 32 s.whole
        pending := 0
        bitCount := 0
        encPos := 0
        phase := .encoding }, 0)

/-- The symbol ENC_STEP encodes, IBUF[ENC_POS] (R202). -/
def State.encSymbol (s : State) : Byte := s.readByte .ibuf s.encPos.toNat

/-- The interval ENC_STEP narrows to (R202). -/
def State.encNarrow (s : State) : Nat × Nat :=
  narrow s.total.toNat s.lower.toNat s.upper.toNat
    (symEntry s.cumLow s.encSymbol).toNat (symEntry s.cumHigh s.encSymbol).toNat

/-- What RenormEnc gives for the narrowed interval, run on a copy (R202): the interval and the bits. -/
def State.encRenorm (s : State) : EncInterval × List Bool :=
  renormEnc s.prec.toNat ⟨s.encNarrow.1, s.encNarrow.2, s.pending.toNat⟩

/-- The state ENC_STEP commits (R202): the bits into OBUF, then the interval, PENDING and ENC_POS. -/
def State.encCommit (s : State) (v : EncInterval) (bits : List Bool) : State :=
  { s.emitAll bits with
    lower := BitVec.ofNat 32 v.lower
    upper := BitVec.ofNat 32 v.upper
    pending := BitVec.ofNat 32 v.pending
    encPos := s.encPos + 1 }

/-- ENC_STEP (R202): sequencing, then the collapse guard (R204), then the capacity check (R205), then the commit. -/
def primEncStep (s : State) : Exec (State × Word32) :=
  if s.encPos = s.inLen then raise .phase (zext32 Mnemonic.encStep.opcode)
  else if s.ibufSize.toNat ≤ s.encPos.toNat then stop (.bufferAddress .ibuf)
  else if s.total = 0 then stop .divisionByZero
  else if intervalLegal s.prec.toNat s.lower.toNat s.upper.toNat = false then stop .intervalBounds
  else if s.encNarrow.2 ≤ s.encNarrow.1 then raise .precisionOverflow s.encPos
  else if s.whole < s.encNarrow.2 then stop .intervalBounds
  else
    let v := s.encRenorm.1
    let bits := s.encRenorm.2
    if s.capBits < s.bitCount.toNat + bits.length + v.pending + 2 then raise .capacity (bufferInfo .obuf)
    else if 2 ^ 32 ≤ s.bitCount.toNat + bits.length + v.pending then stop .registerWidth
    else .ok (s.encCommit v bits, BitVec.ofNat 32 (s.bitCount.toNat + bits.length))

/-- The bits ENC_FINISH emits (R203, 44_interval_renormalizer.md R189). -/
def State.encFinalBits (s : State) : List Bool := finalBits s.prec.toNat s.lower.toNat s.pending.toNat

/-- The state ENC_FINISH leaves (R203): FinalBits, sink_finalize, OUT_VALID and PHASE. -/
def State.encFinishCommit (s : State) : State :=
  { (s.emitAll s.encFinalBits).sinkFinalize with pending := 0, outValid := true, phase := .encDone }

/-- ENC_FINISH (R203). -/
def primEncFinish (s : State) : Exec (State × Word32) :=
  if s.encPos.toNat < s.inLen.toNat then raise .phase (zext32 Mnemonic.encFinish.opcode)
  else if s.sinkFits s.encFinalBits.length = false then stop (.bufferAddress .obuf)
  else if 2 ^ 32 ≤ s.bitCount.toNat + s.encFinalBits.length then stop .registerWidth
  else .ok (s.encFinishCommit, s.encFinishCommit.outLen)

/-- ENC_START as a command. -/
def execEncStart (s : State) : Host.Outcome State Fault Refusal := execPrimitive .encStart primEncStart s

/-- ENC_STEP as a command. -/
def execEncStep (s : State) : Host.Outcome State Fault Refusal := execPrimitive .encStep primEncStep s

/-- ENC_FINISH as a command. -/
def execEncFinish (s : State) : Host.Outcome State Fault Refusal := execPrimitive .encFinish primEncFinish s

/-- The sequence of COMPRESS (R207); each primitive runs with its own phase check. -/
def runCompress (s : State) : Run :=
  andThen (runPrimitive (inPhases .fmCount primFmCount) s) fun a =>
  andThen (runPrimitive (inPhases .fmBuild primFmBuild) a) fun b =>
  andThen (runPrimitive (inPhases .encStart primEncStart) b) fun c =>
  andThen (repeatPrimitive (inPhases .encStep primEncStep) s.inLen.toNat c) fun d =>
  runPrimitive (inPhases .encFinish primEncFinish) d

/-- COMPRESS as a command (R207). -/
def execCompress (s : State) : Host.Outcome State Fault Refusal := execSequence .compress runCompress s

end Sys2Proof.Machine
end

