-- ==== Sys2Proof/Machine/Dispatch.lean ====
section
/-! DEFINITION. One arm per command. -/

namespace Sys2Proof.Machine

/-- The meaning of a legal command: steps 2 to 4 of 30_encoding.md R91 and the command's rule. -/
def exec (i : Instr) (s : State) : Host.Outcome State Fault Refusal :=
  match i with
  | .nop => Sys2Proof.Machine.execNop s
  | .softReset => Sys2Proof.Machine.execSoftReset s
  | .clear => Sys2Proof.Machine.execClear s
  | .setPrec p => Sys2Proof.Machine.execSetPrec p s
  | .rdReg addr => Sys2Proof.Machine.execRdReg addr s
  | .inClear => Sys2Proof.Machine.execInClear s
  | .inWrite byte => Sys2Proof.Machine.execInWrite byte s
  | .outRead idx => Sys2Proof.Machine.execOutRead idx s
  | .fmCount => Sys2Proof.Machine.execFmCount s
  | .fmBuild => Sys2Proof.Machine.execFmBuild s
  | .encStart => Sys2Proof.Machine.execEncStart s
  | .encStep => Sys2Proof.Machine.execEncStep s
  | .encFinish => Sys2Proof.Machine.execEncFinish s
  | .decStart => Sys2Proof.Machine.execDecStart s
  | .decStep => Sys2Proof.Machine.execDecStep s
  | .compress => Sys2Proof.Machine.execCompress s
  | .decompress => Sys2Proof.Machine.execDecompress s

end Sys2Proof.Machine
end

