-- ==== Sys2Proof/Machine/Port.lean ====
section
/-! DEFINITION. What the core does with what happens on its pins: a command word (30_encoding.md R91), rst_n
(70_reset_and_hazards.md R270), and rst_n while a command is in progress (93_implementation_defined.md U6). -/

namespace Sys2Proof.Machine

/-- Step 1 of 30_encoding.md R91: an illegal word raises ERR_ILLEGAL_COMMAND(cmd[63:32]), or is refused in ERROR. -/
def handleIllegal (w : Word64) (s : State) : State :=
  if s.phase = .error then refuse s else takeError .illegalCommand (illegalInfo w) s

/-- Handling a command word (30_encoding.md R91). -/
def handleCommand (w : Word64) (s : State) : Host.Outcome State Fault Refusal :=
  match decode w with
  | .error _ => .next (handleIllegal w s)
  | .ok i => exec i s

/-- rst_n (70_reset_and_hazards.md R270): as SOFT_RESET, without a response; rsp_valid = 0. -/
def hardReset (s : State) : State := { resetRegisters s with rsp := none }

/-! ### rst_n while a command is in progress (70_reset_and_hazards.md R270, 93_implementation_defined.md U6; log 3) -/

/-- The IBUF addresses a command writes: IN_WRITE writes IBUF[IN_LEN], unless it raises or is refused (41_data_io.md
R131). No other command writes IBUF. -/
def ibufWrites (i : Instr) (s : State) : List Nat :=
  match i with
  | .inWrite _ => if s.phase = .idle ∧ s.inLen.toNat < s.ibufSize.toNat then [s.inLen.toNat] else []
  | .nop | .softReset | .clear | .setPrec _ | .rdReg _ | .inClear | .outRead _ | .fmCount | .fmBuild | .encStart
  | .encStep | .encFinish | .decStart | .decStep | .compress | .decompress => []

/-- The OBUF addresses a command writes when, from s, it completes in t: ENC_START the header (45_encoder.md R201),
ENC_STEP and ENC_FINISH the bytes their bits go into (43_bitstream_packer.md R161), DEC_STEP OBUF[DEC_COUNT]
(46_decoder.md R223), and a macro its whole result. No other command writes OBUF. -/
def obufWrites (i : Instr) (s t : State) : List Nat :=
  match i with
  | .encStart => List.range t.hdrLen.toNat
  | .encStep | .encFinish =>
    (List.range (t.bitCount.toNat - s.bitCount.toNat)).map fun j => s.sinkAddress (s.bitCount.toNat + j)
  | .decStep => [s.decCount.toNat]
  | .compress | .decompress => List.range t.outLen.toNat
  | .nop | .softReset | .clear | .setPrec _ | .rdReg _ | .inClear | .inWrite _ | .outRead _ | .fmCount | .fmBuild
  | .decStart => []

/-- IBUF after the command of word w was abandoned: how far it came is not specified, so the byte it writes is free. -/
def abandonedIbuf (w : Word64) (s : State) : Memory :=
  match decode w with
  | .ok i => s.ibuf.forget .ibuf (ibufWrites i s)
  | .error _ => s.ibuf

/-- OBUF after the command of word w was abandoned: the bytes it writes are free. In ERROR nothing writes OBUF (R247). A
command that raises leaves all of OBUF unspecified when it completes (60_exceptions.md R245), so also when abandoned. -/
def abandonedObuf (w : Word64) (s : State) : Memory :=
  if s.phase = .error then s.obuf
  else
    match decode w with
    | .error _ => s.obuf.unspecified
    | .ok i =>
      match exec i s with
      | .next t => if t.phase = .error then s.obuf.unspecified else s.obuf.forget .obuf (obufWrites i s t)
      | .fault _ => s.obuf.unspecified
      | .refused _ => s.obuf.unspecified

/-- rst_n while the command of word w is in progress: no response, the reset state, and the bytes the command may have
written unspecified. -/
def abandon (w : Word64) (s : State) : State :=
  { hardReset s with ibuf := abandonedIbuf w s, obuf := abandonedObuf w s }

/-- One thing happening on the pins. -/
def handleInput (i : PortInput) (s : State) : Host.Outcome State Fault Refusal :=
  match i with
  | .command w => handleCommand w s
  | .reset => .next (hardReset s)
  | .resetDuring w => .next (abandon w s)

end Sys2Proof.Machine
end

