-- ==== Sys2Proof/Machine/Step.lean ====
section
/-! DEFINITION. One step of the transaction-level model (00_scope.md R13, 30_encoding.md R80). -/

namespace Sys2Proof.Machine

/-- A step takes the next thing the host does on the pins. With nothing offered the block holds its state
(60_exceptions.md R257). -/
def step (s : State) : Host.Outcome State Fault Refusal :=
  match s.port with
  | [] => .next s
  | i :: rest => handleInput i { s with port := rest }

/-- The command word `w` offered on the command port before anything else the host does (log 2). -/
def State.withFetchWord (s : State) (nbits w : Nat) : State :=
  { s with port := .command (BitVec.ofNat 64 (w % 2 ^ nbits)) :: s.port }

end Sys2Proof.Machine
end

