-- ==== Sys2Proof/Machine/Assembler.lean ====
section
/-! DEFINITION. The host's assembler (30_encoding.md R97, R98): program lines into command words, the expansion of the
pseudo-instructions, and the reading of a line of text. None of it reaches the core. -/

namespace Sys2Proof.Machine

/-! ### From program lines to command words -/

/-- The command of a well-formed program line (30_encoding.md R83, R97). -/
def assembleCommand (c : SourceCommand) : Option Instr :=
  if c.wellFormed then some (instrOf c.mnemonic (BitVec.ofNat 32 (c.operand.getD 0))) else none

/-- The commands a program line stands for, in order (30_encoding.md R98). -/
def expandLine : ProgramLine → List SourceCommand
  | .command c => [c]
  | .inLoad bytes => ⟨.inClear, none⟩ :: bytes.map fun b => ⟨.inWrite, some b⟩
  | .encSteps n => List.replicate n ⟨.encStep, none⟩
  | .decSteps n => List.replicate n ⟨.decStep, none⟩
  | .outDump n => (List.range n).map fun i => ⟨.outRead, some i⟩

/-- The command words of a program, if every line is well formed. -/
def assembleProgram (lines : List ProgramLine) : Option (List Word64) :=
  (lines.flatMap expandLine).mapM fun c => (assembleCommand c).map encode

/-! ### From text to program lines (log 14) -/

/-- The spelling of a mnemonic (30_encoding.md R89). -/
def spelling : Mnemonic → String
  | .nop => "NOP"
  | .softReset => "SOFT_RESET"
  | .clear => "CLEAR"
  | .setPrec => "SET_PREC"
  | .rdReg => "RD_REG"
  | .inClear => "IN_CLEAR"
  | .inWrite => "IN_WRITE"
  | .outRead => "OUT_READ"
  | .fmCount => "FM_COUNT"
  | .fmBuild => "FM_BUILD"
  | .encStart => "ENC_START"
  | .encStep => "ENC_STEP"
  | .encFinish => "ENC_FINISH"
  | .decStart => "DEC_START"
  | .decStep => "DEC_STEP"
  | .compress => "COMPRESS"
  | .decompress => "DECOMPRESS"

/-- Every mnemonic. -/
def allMnemonics : List Mnemonic :=
  [.nop, .softReset, .clear, .setPrec, .rdReg, .inClear, .inWrite, .outRead, .fmCount, .fmBuild,
   .encStart, .encStep, .encFinish, .decStart, .decStep, .compress, .decompress]

/-- The mnemonic spelled so. -/
def readMnemonic (cs : List Char) : Option Mnemonic := allMnemonics.find? fun m => (spelling m).toList = cs

/-- The value of a decimal digit. -/
def decimalDigit (c : Char) : Option Nat :=
  if '0'.toNat ≤ c.toNat && c.toNat ≤ '9'.toNat then some (c.toNat - '0'.toNat) else none

/-- The value of a hexadecimal digit. -/
def hexDigit (c : Char) : Option Nat :=
  if '0'.toNat ≤ c.toNat && c.toNat ≤ '9'.toNat then some (c.toNat - '0'.toNat)
  else if 'a'.toNat ≤ c.toNat && c.toNat ≤ 'f'.toNat then some (c.toNat - 'a'.toNat + 10)
  else if 'A'.toNat ≤ c.toNat && c.toNat ≤ 'F'.toNat then some (c.toNat - 'A'.toNat + 10)
  else none

/-- Digits read from the most significant one on. -/
def readDigits (base : Nat) (digit : Char → Option Nat) : Nat → List Char → Option Nat
  | acc, [] => some acc
  | acc, c :: cs =>
    match digit c with
    | some d => readDigits base digit (acc * base + d) cs
    | none => none

/-- A decimal or `0x` hexadecimal number (30_encoding.md R97). -/
def readNumber : List Char → Option Nat
  | [] => none
  | '0' :: 'x' :: c :: cs => readDigits 16 hexDigit 0 (c :: cs)
  | c :: cs => readDigits 10 decimalDigit 0 (c :: cs)

/-- The text before a comment: what stands before the first `;` outside a quoted string (30_encoding.md R97). DESIGN CHOICE
(log 14): every quote opens or closes a string here, a quote inside a string too, so a `;` is text after an odd number of
quotes and starts a comment after an even one. -/
def stripComment : Bool → List Char → List Char
  | _, [] => []
  | quoted, c :: cs =>
    if c = ';' && !quoted then [] else c :: stripComment (if c = '"' then !quoted else quoted) cs

/-- The text without the blanks at its ends. -/
def trimBlanks (cs : List Char) : List Char :=
  ((cs.dropWhile (· = ' ')).reverse.dropWhile (· = ' ')).reverse

/-- The pieces between commas. -/
def splitCommas : List Char → List (List Char)
  | [] => [[]]
  | c :: cs =>
    match splitCommas cs with
    | [] => [[c]]
    | piece :: more => if c = ',' then [] :: piece :: more else (c :: piece) :: more

/-- The bytes after IN_LOAD: a quoted string's ASCII bytes, or numbers between commas (30_encoding.md R98). The rule is
silent on a character of the string that is not ASCII: DESIGN CHOICE (log 14), 0x80..0xFF stand for the byte of their code
point, and the line is not well formed with one above 0xFF. It is silent on where a string with a quote in it ends: DESIGN
CHOICE (log 14), the last character of the line's text is the closing quote, and quotes before it stand for their own byte
0x22; a string that is not closed so is not read. -/
def readLoadBytes : List Char → Option (List Nat)
  | '"' :: cs =>
    if cs.getLast? = some '"' then some (cs.dropLast.map Char.toNat) else none
  | cs => (splitCommas cs).mapM fun piece => readNumber (trimBlanks piece)

/-- A line with a word and what stands after its first blank. -/
def readWords (word rest : List Char) : Option ProgramLine :=
  if word = "IN_LOAD".toList then (readLoadBytes rest).map .inLoad
  else if word = "OUT_DUMP".toList then (readNumber rest).map .outDump
  else
    match rest with
    | '*' :: digits =>
      if word = "ENC_STEP".toList then (readNumber digits).map .encSteps
      else if word = "DEC_STEP".toList then (readNumber digits).map .decSteps
      else none
    | _ =>
      match readMnemonic word with
      | none => none
      | some m =>
        if rest = [] then some (.command ⟨m, none⟩)
        else (readNumber rest).map fun n => .command ⟨m, some n⟩

/-- Reading a line of text: nothing for a blank line, else the line if it can be read and is well formed. -/
def readLine (cs : List Char) : Option (Option ProgramLine) :=
  let text := trimBlanks (stripComment false cs)
  if text = [] then some none
  else
    match readWords (text.takeWhile (· ≠ ' ')) (trimBlanks (text.dropWhile (· ≠ ' '))) with
    | none => none
    | some l => if l.wellFormed then some (some l) else none

/-- The command words of a program's text, line by line (30_encoding.md R97, R98). -/
def assembleText (lines : List (List Char)) : Option (List Word64) :=
  match lines.mapM readLine with
  | none => none
  | some parsed => assembleProgram (parsed.filterMap id)

end Sys2Proof.Machine
end

