-- ==== Sys2Proof/Safety.lean ====
section
/-! DEFINITION. What counts as a state of a run: the invariant `Inv` (10_state.md R21 legal values, R49, and what the
command rules keep beside it), what taking an error does (60_exceptions.md R245), and a response a claim can name. -/

namespace Sys2Proof.Machine

/-! ### The invariant -/

/-- A buffer in canonical form whose listed bytes lie inside it (20_memory.md R69). -/
def BufferLegal (m : Memory) (size : Word32) : Prop :=
  m.wf = true ∧ ∀ c ∈ m.cells, c.1 < size.toNat

/-- Every byte below n has been written since the contents were last unspecified (10_state.md R50). -/
def WrittenBelow (m : Memory) (n : Nat) : Prop := ∀ a, a < n → (m.written a).isSome = true

/-- The parameters are legal (00_scope.md R6). -/
def SizesLegal (s : State) : Prop :=
  1 ≤ s.ibufSize.toNat ∧ s.ibufSize.toNat ≤ 2 ^ 28 ∧ 1 ≤ s.obufSize.toNat ∧ s.obufSize.toNat ≤ 2 ^ 28

/-- PREC holds a legal value (10_state.md R29). -/
def PrecLegal (s : State) : Prop := 2 ≤ s.prec.toNat

/-- IN_LEN is legal and IBUF holds that many written bytes (10_state.md R32, 20_memory.md R61). -/
def InputLegal (s : State) : Prop :=
  s.inLen.toNat ≤ s.ibufSize.toNat ∧ WrittenBelow s.ibuf s.inLen.toNat

/-- OUT_VALID is 1 exactly in ENC_DONE and DEC_DONE (10_state.md R26, R49 (d), 41_data_io.md R132), OUT_LEN is 0 while
it is 0 (R33), and OBUF[0 .. OUT_LEN-1] was written (20_memory.md R62). -/
def OutputLegal (s : State) : Prop :=
  (s.outValid = true ↔ s.phase = .encDone ∨ s.phase = .decDone) ∧
  (s.outValid = false → s.outLen = 0) ∧
  s.outLen.toNat ≤ s.obufSize.toNat ∧ WrittenBelow s.obuf s.outLen.toNat

/-- ERR_CODE is non-zero exactly in ERROR (10_state.md R51), holds a code of 60_exceptions.md R240 then, and ERR_INFO is 0
when it is 0 (R28). -/
def ErrorLegal (s : State) : Prop :=
  (s.phase = .error → ∃ e : ErrorKind, s.errCode = e.code) ∧
  (s.phase ≠ .error → s.errCode = 0 ∧ s.errInfo = 0)

/-- The model and coder registers hold legal values, in every phase, ERROR too (10_state.md R21, R34 to R48). -/
structure RegistersLegal (s : State) : Prop where
  freq     : ∀ c : Byte, (symEntry s.freq c).toNat ≤ 2 ^ 28
  cumLow   : ∀ c : Byte, (symEntry s.cumLow c).toNat ≤ 2 ^ 28
  cumHigh  : ∀ c : Byte, (symEntry s.cumHigh c).toNat ≤ 2 ^ 28
  total    : s.total.toNat ≤ 2 ^ 28
  symCount : s.symCount.toNat ≤ 256
  fmin     : s.fmin.toNat ≤ 2 ^ 28
  hdrLen   : s.hdrLen.toNat = 0 ∨ (11 ≤ s.hdrLen.toNat ∧ s.hdrLen.toNat ≤ 1286)
  lower    : s.lower.toNat < 2 ^ 31
  upper    : s.upper.toNat ≤ 2 ^ 31
  pending  : s.pending.toNat < 2 ^ 31
  tag      : s.tag.toNat < 2 ^ 31
  bitCount : s.bitCount.toNat ≤ 8 * s.obufSize.toNat
  rdIdx    : s.rdIdx.toNat ≤ s.bitLen.toNat + 1
  bitLen   : s.bitLen.toNat ≤ 8 * s.ibufSize.toNat
  encPos   : s.encPos.toNat ≤ s.inLen.toNat
  decCount : s.decCount.toNat ≤ s.nDecl.toNat
  nDecl    : s.nDecl.toNat ≤ s.obufSize.toNat

/-- The model registers are 0. -/
def ModelZero (s : State) : Prop :=
  s.cumLow = Vector.replicate 256 0 ∧ s.cumHigh = Vector.replicate 256 0 ∧
  s.total = 0 ∧ s.symCount = 0 ∧ s.fmin = 0

/-- The encoder's own registers are 0. -/
def EncoderZero (s : State) : Prop := s.pending = 0 ∧ s.bitCount = 0 ∧ s.encPos = 0

/-- The decoder's own registers are 0. -/
def DecoderZero (s : State) : Prop :=
  s.tag = 0 ∧ s.rdIdx = 0 ∧ s.bitLen = 0 ∧ s.decCount = 0 ∧ s.nDecl = 0

/-- All coder registers are 0. -/
def CoderZero (s : State) : Prop :=
  s.hdrLen = 0 ∧ s.lower = 0 ∧ s.upper = 0 ∧ EncoderZero s ∧ DecoderZero s

/-- FREQ holds the counts of the input, which is not empty (42_frequency_model.md R140, R141). -/
def InputCounted (s : State) : Prop :=
  s.inLen ≠ 0 ∧ s.freq = countBytes (s.inputBytes s.inLen.toNat)

/-- The model registers hold BuildModel's results for FREQ, with 1 <= TOTAL <= 2^28 and the precision check passed
(10_state.md R36, R49 (c), 42_frequency_model.md R142, R144). -/
def ModelBuilt (s : State) : Prop :=
  s.cumLow = (buildModel s.freq).cumLow ∧ s.cumHigh = (buildModel s.freq).cumHigh ∧
  s.total.toNat = (buildModel s.freq).total ∧ s.symCount.toNat = (buildModel s.freq).symCount ∧
  s.fmin.toNat = (buildModel s.freq).fmin ∧
  1 ≤ s.total.toNat ∧ s.total.toNat ≤ 2 ^ 28 ∧ s.total.toNat ≤ s.fmin.toNat * s.quarter

/-- The header length of the model: HDR_LEN = 6 + 5K (10_state.md R39). -/
def HeaderLength (s : State) : Prop := s.hdrLen.toNat = headerLength s.symCount.toNat

/-- The interval is legal: `0 <= LOWER < UPPER <= WHOLE` (10_state.md R40). -/
def IntervalIn (s : State) : Prop := s.lower.toNat < s.upper.toNat ∧ s.upper.toNat ≤ s.whole

/-- The interval between two steps (10_state.md R49 (a)). -/
def IntervalWide (s : State) : Prop :=
  s.lower.toNat ≤ s.half ∧ s.half ≤ s.upper.toNat ∧ s.upper.toNat ≤ s.whole ∧
  s.quarter ≤ s.upper.toNat - s.lower.toNat ∧ (s.lower.toNat ≤ s.quarter ∨ s.threeq ≤ s.upper.toNat)

/-- The tag lies in the interval (10_state.md R42). -/
def TagIn (s : State) : Prop := s.lower.toNat ≤ s.tag.toNat ∧ s.tag.toNat < s.upper.toNat

/-- The file being decoded: HDR_LEN, BIT_LEN, N_DECL and RD_IDX fit the input and OBUF (10_state.md R44, R45, R48). -/
def FileLegal (s : State) : Prop :=
  HeaderLength s ∧ s.hdrLen.toNat < s.inLen.toNat ∧
  s.bitLen.toNat = 8 * (s.inLen.toNat - s.hdrLen.toNat) ∧
  1 ≤ s.rdIdx.toNat ∧ s.rdIdx.toNat ≤ s.bitLen.toNat + 1 ∧
  s.nDecl = s.total ∧ s.nDecl.toNat ≤ s.obufSize.toNat

/-- Payload bit j in OBUF (43_bitstream_packer.md R160). -/
def State.payloadBit (s : State) (j : Nat) : Bool := (s.readByte .obuf (s.sinkAddress j)).getLsbD (7 - j % 8)

/-- The bits of a partial trailing payload byte that were not emitted are 0 (43_bitstream_packer.md R161). -/
def TrailingZero (s : State) : Prop :=
  ∀ j, s.bitCount.toNat ≤ j → j < 8 * ((s.bitCount.toNat + 7) / 8) → s.payloadBit j = false

/-- OBUF begins with the header of the model (30_encoding.md R92, 43_bitstream_packer.md R167). -/
def HeaderInObuf (s : State) : Prop := ∀ c ∈ s.headerCells, s.obuf.written c.1 = some c.2

/-- What holds beside the rest in IDLE. -/
def IdleInv (s : State) : Prop := s.freq = Vector.replicate 256 0 ∧ ModelZero s ∧ CoderZero s

/-- What holds in COUNTED. -/
def CountedInv (s : State) : Prop := InputCounted s ∧ ModelZero s ∧ CoderZero s

/-- What holds in MODEL_READY. -/
def ModelReadyInv (s : State) : Prop := InputCounted s ∧ ModelBuilt s ∧ CoderZero s

/-- What holds in ENCODING: the interval (R49 (a)), the positions, room for the final bits (45_encoder.md R205), and the
file so far in OBUF. -/
def EncodingInv (s : State) : Prop :=
  InputCounted s ∧ ModelBuilt s ∧ HeaderLength s ∧ s.hdrLen.toNat < s.obufSize.toNat ∧ IntervalWide s ∧
  s.encPos.toNat ≤ s.inLen.toNat ∧ s.bitCount.toNat + s.pending.toNat + 2 ≤ s.capBits ∧
  WrittenBelow s.obuf (s.hdrLen.toNat + (s.bitCount.toNat + 7) / 8) ∧ HeaderInObuf s ∧ TrailingZero s ∧ DecoderZero s

/-- What holds in ENC_DONE. -/
def EncDoneInv (s : State) : Prop :=
  InputCounted s ∧ ModelBuilt s ∧ HeaderLength s ∧ s.hdrLen.toNat < s.obufSize.toNat ∧ IntervalWide s ∧
  s.encPos = s.inLen ∧ s.pending = 0 ∧ 2 ≤ s.bitCount.toNat ∧
  s.outLen.toNat = s.hdrLen.toNat + (s.bitCount.toNat + 7) / 8 ∧ HeaderInObuf s ∧ TrailingZero s ∧ DecoderZero s

/-- What holds in DECODING (R49 (b)). -/
def DecodingInv (s : State) : Prop :=
  ModelBuilt s ∧ FileLegal s ∧ IntervalWide s ∧ TagIn s ∧ s.decCount.toNat < s.nDecl.toNat ∧
  WrittenBelow s.obuf s.decCount.toNat ∧ EncoderZero s

/-- What holds in DEC_DONE (10_state.md R40, R42, 46_decoder.md R225). -/
def DecDoneInv (s : State) : Prop :=
  ModelBuilt s ∧ FileLegal s ∧ IntervalIn s ∧ TagIn s ∧ s.decCount = s.nDecl ∧ s.outLen = s.nDecl ∧ EncoderZero s

/-- What holds beside the rest in each phase. -/
def PhaseInv (s : State) : Prop :=
  match s.phase with
  | .idle => IdleInv s
  | .counted => CountedInv s
  | .modelReady => ModelReadyInv s
  | .encoding => EncodingInv s
  | .encDone => EncDoneInv s
  | .decoding => DecodingInv s
  | .decDone => DecDoneInv s
  | .error => True

/-- The invariant: what is true of every state a run reaches, for every legal pair of buffer sizes. -/
structure Inv (s : State) : Prop where
  sizes  : SizesLegal s
  prec   : PrecLegal s
  ibuf   : BufferLegal s.ibuf s.ibufSize
  obuf   : BufferLegal s.obuf s.obufSize
  input  : InputLegal s
  output : OutputLegal s
  err    : ErrorLegal s
  regs   : RegistersLegal s
  phase  : PhaseInv s

/-! ### What claims say of a next state -/

/-- The response to a command that left state t, OK with this DATA (30_encoding.md R85, R87). -/
def okResponse (t : State) (data : Word32) : Word64 := responseWord .ok t.errCode t.phase data

/-- `t` is what taking error e with `info` leaves of `s` (60_exceptions.md R245): the error fields, PHASE, OUT_VALID and
OUT_LEN, OBUF unspecified, the error response, and every other register, the parameters, IBUF and the port as in `s`. -/
structure ErrorTaken (e : ErrorKind) (info : Word32) (s t : State) : Prop where
  code     : t.errCode = e.code
  info     : t.errInfo = info
  phase    : t.phase = .error
  valid    : t.outValid = false
  outLen   : t.outLen = 0
  obuf     : t.obuf = s.obuf.unspecified
  response : t.rsp = some (responseWord .error e.code .error 0)
  rest     : t = { s with
    errCode := t.errCode, errInfo := t.errInfo, phase := t.phase, outValid := t.outValid, outLen := t.outLen,
    obuf := t.obuf, rsp := t.rsp }

/-- The command i, which takes the state s to t without an error, writes OBUF[a]: ENC_START the header (45_encoder.md
R201), ENC_STEP and ENC_FINISH the bytes of the payload bits they emit (43_bitstream_packer.md R160, R161), DEC_STEP
OBUF[DEC_COUNT] (46_decoder.md R223), a macro its whole result, and no other command any byte. -/
def MayWriteObuf (i : Instr) (s t : State) (a : Nat) : Prop :=
  match i with
  | .encStart => a < t.hdrLen.toNat
  | .encStep | .encFinish => ∃ j, s.bitCount.toNat ≤ j ∧ j < t.bitCount.toNat ∧ a = s.sinkAddress j
  | .decStep => a = s.decCount.toNat
  | .compress | .decompress => a < t.outLen.toNat
  | .nop | .softReset | .clear | .setPrec _ | .rdReg _ | .inClear | .inWrite _ | .outRead _ | .fmCount | .fmBuild
  | .decStart => False

/-- `m` is the smallest non-zero entry of a register array, or 0 if there is none (42_frequency_model.md R142). -/
def LeastPositive (f : RegArray) (m : Nat) : Prop :=
  (m = 0 ∧ ∀ c : Byte, symEntry f c = 0) ∨
  ((∃ c : Byte, symEntry f c ≠ 0 ∧ (symEntry f c).toNat = m) ∧ ∀ c : Byte, symEntry f c ≠ 0 → m ≤ (symEntry f c).toNat)

/-- The sum of a register array's entries over the symbols below n. -/
def sumBelow (f : RegArray) (n : Nat) : Nat := ((List.range n).map fun i => (entry f i).toNat).sum

/-- How many of the input bytes are c (42_frequency_model.md R140). -/
def State.occurrences (s : State) (c : Byte) : Nat :=
  ((List.range s.inLen.toNat).filter fun i => s.readByte .ibuf i = c).length

/-- How many byte values occur in the input: K (10_state.md R37). -/
def State.distinctBytes (s : State) : Nat :=
  ((List.range 256).filter fun c => s.occurrences (BitVec.ofNat 8 c) ≠ 0).length

/-! ### The fields of a file in IBUF (30_encoding.md R92) -/

/-- K, at offset 0. -/
def State.fileK (s : State) : Nat := s.ibuf.readBigEndian .ibuf 0 2

/-- The symbol of pair j, at offset 2 + 5j. -/
def State.fileSymbol (s : State) (j : Nat) : Byte := s.readByte .ibuf (2 + 5 * j)

/-- The frequency of pair j, at offset 3 + 5j. -/
def State.fileFreq (s : State) (j : Nat) : Nat := s.ibuf.readBigEndian .ibuf (3 + 5 * j) 4

/-- N, at offset 2 + 5K. -/
def State.fileN (s : State) : Nat := s.ibuf.readBigEndian .ibuf (2 + 5 * s.fileK) 4

/-- The sum of the frequencies of the pairs. -/
def State.fileSum (s : State) : Nat := ((List.range s.fileK).map s.fileFreq).sum

/-- Pair j's symbol is listed by an earlier pair. -/
def DuplicatePair (s : State) (j : Nat) : Prop := ∃ i, i < j ∧ s.fileSymbol i = s.fileSymbol j

/-- The first n pairs pass the checks of 43_bitstream_packer.md R168. -/
def GoodPairs (s : State) (n : Nat) : Prop := ∀ j, j < n → ¬ DuplicatePair s j ∧ s.fileFreq j ≠ 0

/-- The header's length fields pass: 1 <= K <= 256 and the header lies inside the file (43_bitstream_packer.md R168). -/
def HeaderFits (s : State) : Prop :=
  2 ≤ s.inLen.toNat ∧ 1 ≤ s.fileK ∧ s.fileK ≤ 256 ∧ headerLength s.fileK ≤ s.inLen.toNat

/-- A file that passes every check of 43_bitstream_packer.md R168 and the precision check of 46_decoder.md R222. -/
structure FileAccepted (s : State) : Prop where
  header    : HeaderFits s
  pairs     : GoodPairs s s.fileK
  sum       : s.fileSum = s.fileN
  payload   : headerLength s.fileK < s.inLen.toNat
  room      : s.fileN ≤ s.obufSize.toNat
  precision : ∀ j, j < s.fileK → s.fileN ≤ s.fileFreq j * s.quarter

/-! ### The renormalizer's loops, as the rules write them (44_interval_renormalizer.md R182 to R185) -/

/-- `EncPhase1 p v bits w`: phase 1 of RenormEnc, run on v, emits `bits` and ends at w (R182). -/
inductive EncPhase1 (p : Nat) : EncInterval → List Bool → EncInterval → Prop
  | done {v : EncInterval} : ¬ (v.upper < 2 ^ p / 2 ∨ 2 ^ p / 2 < v.lower) → EncPhase1 p v [] v
  | e1 {v w : EncInterval} {bits : List Bool} : v.upper < 2 ^ p / 2 →
      EncPhase1 p ⟨2 * v.lower, 2 * v.upper, 0⟩ bits w →
      EncPhase1 p v ([false] ++ List.replicate v.pending true ++ bits) w
  | e2 {v w : EncInterval} {bits : List Bool} : ¬ v.upper < 2 ^ p / 2 → 2 ^ p / 2 < v.lower →
      EncPhase1 p ⟨2 * (v.lower - 2 ^ p / 2), 2 * (v.upper - 2 ^ p / 2), 0⟩ bits w →
      EncPhase1 p v ([true] ++ List.replicate v.pending false ++ bits) w

/-- `EncPhase2 p v w`: phase 2 of RenormEnc, run on v, ends at w (R183). -/
inductive EncPhase2 (p : Nat) : EncInterval → EncInterval → Prop
  | done {v : EncInterval} : ¬ (2 ^ p / 4 < v.lower ∧ v.upper < 3 * (2 ^ p / 4)) → EncPhase2 p v v
  | e3 {v w : EncInterval} : 2 ^ p / 4 < v.lower → v.upper < 3 * (2 ^ p / 4) →
      EncPhase2 p ⟨2 * (v.lower - 2 ^ p / 4), 2 * (v.upper - 2 ^ p / 4), v.pending + 1⟩ w → EncPhase2 p v w

/-- `nextbit()`'s read index (43_bitstream_packer.md R166). -/
def bumpIndex (s : State) (rd : Nat) : Nat := if rd ≤ s.bitLen.toNat then rd + 1 else s.bitLen.toNat + 1

/-- `DecPhase1 s p v w`: phase 1 of RenormDec, run on v over the payload of s, ends at w (R184). E2 subtracts no more
than TAG holds (R185). -/
inductive DecPhase1 (s : State) (p : Nat) : DecInterval → DecInterval → Prop
  | done {v : DecInterval} : ¬ (v.upper < 2 ^ p / 2 ∨ 2 ^ p / 2 < v.lower) → DecPhase1 s p v v
  | e1 {v w : DecInterval} : v.upper < 2 ^ p / 2 →
      DecPhase1 s p ⟨2 * v.lower, 2 * v.upper, 2 * v.tag + (s.sourceBit v.rdIdx).toNat, bumpIndex s v.rdIdx⟩ w →
      DecPhase1 s p v w
  | e2 {v w : DecInterval} : ¬ v.upper < 2 ^ p / 2 → 2 ^ p / 2 < v.lower → 2 ^ p / 2 ≤ v.tag →
      DecPhase1 s p ⟨2 * (v.lower - 2 ^ p / 2), 2 * (v.upper - 2 ^ p / 2),
        2 * (v.tag - 2 ^ p / 2) + (s.sourceBit v.rdIdx).toNat, bumpIndex s v.rdIdx⟩ w →
      DecPhase1 s p v w

/-- `DecPhase2 s p v w`: phase 2 of RenormDec (R185). -/
inductive DecPhase2 (s : State) (p : Nat) : DecInterval → DecInterval → Prop
  | done {v : DecInterval} : ¬ (2 ^ p / 4 < v.lower ∧ v.upper < 3 * (2 ^ p / 4)) → DecPhase2 s p v v
  | e3 {v w : DecInterval} : 2 ^ p / 4 < v.lower → v.upper < 3 * (2 ^ p / 4) → 2 ^ p / 4 ≤ v.tag →
      DecPhase2 s p ⟨2 * (v.lower - 2 ^ p / 4), 2 * (v.upper - 2 ^ p / 4),
        2 * (v.tag - 2 ^ p / 4) + (s.sourceBit v.rdIdx).toNat, bumpIndex s v.rdIdx⟩ w →
      DecPhase2 s p v w

/-! ### Sequences of commands -/

/-- The commands of a list one after another, up to the first that takes an error (60_exceptions.md R246). -/
def execAll : List Instr → State → Host.Outcome State Fault Refusal
  | [], s => .next s
  | i :: rest, s =>
    match exec i s with
    | .next t => if t.phase = .error then .next t else execAll rest t
    | .fault f => .fault f
    | .refused r => .refused r

/-- The commands COMPRESS stands for on an input of n bytes (45_encoder.md R207). -/
def compressSequence (n : Nat) : List Instr :=
  [.fmCount, .fmBuild, .encStart] ++ List.replicate n .encStep ++ [.encFinish]

/-- The commands DECOMPRESS stands for on a file that declares n bytes (46_decoder.md R226). -/
def decompressSequence (n : Nat) : List Instr := [.decStart] ++ List.replicate n .decStep

end Sys2Proof.Machine
end

