-- ==== Sys2Proof/Certificates/Slice0/Obligations.lean ====
section
/-! DEFINITION. The statements for the provers. `Inv` is the invariant of Safety.lean: it holds after reset
(`Obligations.ResetSatisfiesTheInvariant`) and every step keeps it (`Obligations.EveryStepKeepsTheInvariant`). A claim
about a command's completion has the form `exec i s = .next t` under hypotheses on the state and the operands; where it
says `t = { s with … }`, every field not named is as before. -/

open Sys2Proof Sys2Proof.Machine

/-! ### Encodings -/

/-- The words of 30_encoding.md R89 and R97 decode to their commands. -/
def Obligations.SpecWordsDecode : Prop :=
  decode 0x0000000000000000 = .ok .nop ∧
  decode 0x0100000000000000 = .ok .softReset ∧
  decode 0x0200000000000000 = .ok .clear ∧
  decode 0x0300000000000010 = .ok (.setPrec 16) ∧
  decode 0x040000000000000C = .ok (.rdReg 0x00C) ∧
  decode 0x1000000000000000 = .ok .inClear ∧
  decode 0x1100000000000041 = .ok (.inWrite 0x41) ∧
  decode 0x120000000000001A = .ok (.outRead 26) ∧
  decode 0x2000000000000000 = .ok .fmCount ∧
  decode 0x2100000000000000 = .ok .fmBuild ∧
  decode 0x3000000000000000 = .ok .encStart ∧
  decode 0x3100000000000000 = .ok .encStep ∧
  decode 0x3200000000000000 = .ok .encFinish ∧
  decode 0x4000000000000000 = .ok .decStart ∧
  decode 0x4100000000000000 = .ok .decStep ∧
  decode 0x5000000000000000 = .ok .compress ∧
  decode 0x5100000000000000 = .ok .decompress

/-- Decoding the word of a command gives the command back, for every command and every operand its form admits
(30_encoding.md R83, R97); the opcode table's numbering of the word's bits is the same. -/
def Obligations.DecodingAnEncodedCommandGivesItBack : Prop :=
  ∀ i : Instr, i.wellFormed = true → decode (encode i) = .ok i ∧ decodeTableWord 64 (encode i).toNat = some i

/-- Every legal word is the encoding of the command it decodes to: no bit of it is dropped (30_encoding.md R83, R99). -/
def Obligations.EncodingADecodedWordGivesItBack : Prop :=
  ∀ (w : Word64) (i : Instr), decode w = .ok i → encode i = w

/-- The illegal words are exactly those of (a), (b) and (c), and none is executed: it raises ERR_ILLEGAL_COMMAND with the
word's upper half, or is refused in ERROR (30_encoding.md R84, R91 step 1). -/
def Obligations.IllegalWordsAreNotExecuted : Prop :=
  ∀ (w : Word64) (s : State),
    ((∃ e, decode w = .error e) ↔
      w.extractLsb' 56 8 ∉ ([0x00, 0x01, 0x02, 0x03, 0x04, 0x10, 0x11, 0x12, 0x20, 0x21, 0x30, 0x31, 0x32, 0x40, 0x41,
        0x50, 0x51] : List (BitVec 8)) ∨
      w.extractLsb' 32 24 ≠ 0 ∨
      (w.extractLsb' 56 8 = 0x03 ∧ w.extractLsb' 5 27 ≠ 0) ∨
      (w.extractLsb' 56 8 = 0x04 ∧ w.extractLsb' 12 20 ≠ 0) ∨
      (w.extractLsb' 56 8 = 0x11 ∧ w.extractLsb' 8 24 ≠ 0) ∨
      (w.extractLsb' 56 8 ∉ ([0x03, 0x04, 0x11, 0x12] : List (BitVec 8)) ∧ w.extractLsb' 0 32 ≠ 0)) ∧
    ((∃ e, decode w = .error e) →
      handleCommand w s =
        .next (if s.phase = .error then refuse s else takeError .illegalCommand (w.extractLsb' 32 32) s))

/-- A word is legal exactly when it matches a row of opcode_table.json, and it decodes to that row's command; so no word
matches two rows (30_encoding.md R89). -/
def Obligations.OpcodeTableAgreesWithTheDecoder : Prop :=
  ∀ w : Word64, (legalWord w = true ↔ ∃ i, decode w = .ok i) ∧
    ∀ r ∈ opcodeTable, r.matches w = true → ∃ i, decode w = .ok i ∧ i.mnemonic = r.mnemonic

/-- The response to a command word: its fields, and what each RSP_STATUS value says happened (30_encoding.md R85, R87). -/
def Obligations.EveryCommandIsAnsweredByAResponseWord : Prop :=
  ∀ (w : Word64) (s t : State), handleCommand w s = .next t →
    ∃ r : Word64, t.rsp = some r ∧
      r.extractLsb' 48 8 = t.errCode ∧ r.extractLsb' 43 5 = 0 ∧ r.extractLsb' 40 3 = t.phase.code ∧
      r.extractLsb' 32 8 = 0 ∧
      ((r.extractLsb' 56 8 = 0x00 ∧ (t.phase = .error → s.phase = .error)) ∨
       (r.extractLsb' 56 8 = 0x01 ∧ r.extractLsb' 0 32 = 0 ∧ s.phase ≠ .error ∧ t.phase = .error ∧ t.errCode ≠ 0) ∨
       (r.extractLsb' 56 8 = 0x02 ∧ r.extractLsb' 0 32 = 0 ∧ s.phase = .error ∧ t = { s with rsp := some r }))

/-- What the assembler makes of a program: every word is legal, a command's line gives its word, and each
pseudo-instruction gives the words of its expansion (30_encoding.md R97, R98). -/
def Obligations.AssembledProgramsAreLegalWords : Prop :=
  (∀ lines ws, assembleProgram lines = some ws → ∀ w ∈ ws, ∃ i, decode w = .ok i) ∧
  (∀ i : Instr, assembleProgram [.command i.toSource] = some [encode i]) ∧
  (∀ bytes : List Byte, assembleProgram [.inLoad (bytes.map BitVec.toNat)] =
    some (encode .inClear :: bytes.map fun b => encode (.inWrite b))) ∧
  (∀ n, assembleProgram [.encSteps n] = some (List.replicate n (encode .encStep))) ∧
  (∀ n, assembleProgram [.decSteps n] = some (List.replicate n (encode .decStep))) ∧
  (∀ n, n ≤ 2 ^ 32 → assembleProgram [.outDump n] =
    some ((List.range n).map fun k => encode (.outRead (BitVec.ofNat 32 k))))

/-! ### The port, reset -/

/-- A step takes the oldest thing on the port: every command word, legal or not, is handled as 30_encoding.md R91 says, a
legal one runs its command, an empty port leaves the state as it is, and `withFetchWord` puts its word first
(30_encoding.md R80, 60_exceptions.md R257; the port list is the model's choice, log 2). -/
def Obligations.AStepRunsTheDecodedCommand : Prop :=
  (∀ (s : State) (w : Word64) (rest : List PortInput),
    s.port = .command w :: rest → step s = handleCommand w { s with port := rest }) ∧
  (∀ (s : State) (w : Word64) (rest : List PortInput) (i : Instr),
    s.port = .command w :: rest → decode w = .ok i → step s = exec i { s with port := rest }) ∧
  (∀ s : State, s.port = [] → step s = .next s) ∧
  (∀ (s : State) (w : Word64) (i : Instr), decode w = .ok i → step (s.withFetchWord 64 w.toNat) = exec i s)

/-- rst_n does what SOFT_RESET does but gives no response; pulled low while a command is in progress, it leaves the same
registers, and every byte of the buffers that the command does not write (70_reset_and_hazards.md R270,
93_implementation_defined.md U6). That the bytes it writes, and OBUF where it raises an error, are then unspecified is the
model's choice (log 3). -/
def Obligations.TheResetPinResetsEveryRegister : Prop :=
  ∀ (s : State) (rest : List PortInput) (w : Word64),
    (s.port = .reset :: rest →
      ∃ t u, step s = .next t ∧ exec .softReset { s with port := rest } = .next u ∧ t = { u with rsp := none }) ∧
    (s.port = .resetDuring w :: rest →
      ∃ t u, step s = .next t ∧ exec .softReset { s with port := rest } = .next u ∧
        t = { u with rsp := none, ibuf := t.ibuf, obuf := t.obuf } ∧
        ((∀ b, decode w ≠ .ok (.inWrite b)) → t.ibuf = s.ibuf) ∧
        (∀ a, a ≠ s.inLen.toNat → t.readByte .ibuf a = s.readByte .ibuf a) ∧
        (s.phase = .error → t.obuf = s.obuf) ∧
        ∀ i v, decode w = .ok i → exec i { s with port := rest } = .next v → v.phase ≠ .error →
          ∀ a, ¬ MayWriteObuf i s v a → t.readByte .obuf a = s.readByte .obuf a)

/-- The reset values, after power-on and after SOFT_RESET (10_state.md R53): PHASE is IDLE, OUT_VALID 0, and every
register of the register space reads 0, but PREC (16) and the two sizes; SOFT_RESET leaves the buffers' contents, and
after power-on no byte holds a value anything wrote. -/
def Obligations.ResetLeavesTheResetValues : Prop :=
  ∀ s : State,
    (∃ t, exec .softReset s = .next t ∧ t.rsp = some 0 ∧ t.port = s.port ∧ t.phase = .idle ∧ t.outValid = false ∧
      (∀ a v, t.readRegister a = some v →
        v = if a = 0x003 then 16 else if a = 0x004 then s.ibufSize else if a = 0x005 then s.obufSize else 0) ∧
      t.ibuf = s.ibuf ∧ t.obuf = s.obuf) ∧
    (State.powerOn s.ibufSize s.obufSize).phase = .idle ∧ (State.powerOn s.ibufSize s.obufSize).outValid = false ∧
    (∀ a v, (State.powerOn s.ibufSize s.obufSize).readRegister a = some v →
      v = if a = 0x003 then 16 else if a = 0x004 then s.ibufSize else if a = 0x005 then s.obufSize else 0) ∧
    ∀ b a, ((State.powerOn s.ibufSize s.obufSize).mem b).written a = none

/-! ### Control commands -/

/-- NOP (40_control.md R110). -/
def Obligations.NopAnswersAndChangesNothing : Prop :=
  encode .nop = 0x0000000000000000 ∧
  ∀ s : State, exec .nop s = .next { s with rsp := some (responseWord .ok s.errCode s.phase 0) } ∧
    (s.phase = .idle → s.errCode = 0 → responseWord .ok s.errCode s.phase 0 = 0x0000000000000000) ∧
    (s.phase = .error → s.errCode = 0x01 → responseWord .ok s.errCode s.phase 0 = 0x0001070000000000)

/-- CLEAR, in every phase (40_control.md R112): PREC, IN_LEN, the sizes and the buffers stay, everything else takes its
reset value. -/
def Obligations.ClearKeepsTheInput : Prop :=
  encode .clear = 0x0200000000000000 ∧
  ∀ s : State, ∃ t, exec .clear s = .next t ∧ t.rsp = some 0 ∧ t.port = s.port ∧ t.phase = .idle ∧ t.outValid = false ∧
    t.ibuf = s.ibuf ∧ t.obuf = s.obuf ∧
    ∀ a v, t.readRegister a = some v →
      some v = if a ∈ [0x003, 0x004, 0x005, 0x006] then s.readRegister a else some 0

/-- SET_PREC (40_control.md R113). -/
def Obligations.SetPrecSetsThePrecision : Prop :=
  ∀ (p : BitVec 5) (s : State),
    encode (.setPrec p) = 0x0300000000000000 ||| p.setWidth 64 ∧
    (s.phase = .idle → 2 ≤ p.toNat →
      exec (.setPrec p) s = .next { s with prec := p, rsp := some (responseWord .ok s.errCode .idle 0) }) ∧
    (s.phase = .idle → p.toNat < 2 →
      ∃ t, exec (.setPrec p) s = .next t ∧ ErrorTaken .precisionOverflow (p.setWidth 32) s t) ∧
    (s.phase ≠ .idle → s.phase ≠ .error →
      ∃ t, exec (.setPrec p) s = .next t ∧ ErrorTaken .phase 0x03 s t) ∧
    (∀ w : Word64, w.extractLsb' 56 8 = 0x03 → 32 ≤ (w.extractLsb' 0 32).toNat → ∃ e, decode w = .error e)

/-- RD_REG answers the register at a mapped address, in every phase, and changes nothing; the unmapped addresses are
0x016..0x0FF and 0x400..0xFFF, and raise ERR_OPERAND, or are refused in ERROR (40_control.md R114, 10_state.md R21, R30). -/
def Obligations.RdRegReadsTheRegisterMap : Prop :=
  ∀ s : State,
    (∀ e ∈ ([(0x000, s.status), (0x001, s.errCode.setWidth 32), (0x002, s.errInfo), (0x003, s.prec.setWidth 32),
        (0x004, s.ibufSize), (0x005, s.obufSize), (0x006, s.inLen), (0x007, s.outLen), (0x008, s.total),
        (0x009, s.symCount.setWidth 32), (0x00A, s.fmin), (0x00B, s.hdrLen), (0x00C, s.lower), (0x00D, s.upper),
        (0x00E, s.pending), (0x00F, s.tag), (0x010, s.bitCount), (0x011, s.rdIdx), (0x012, s.bitLen),
        (0x013, s.encPos), (0x014, s.decCount), (0x015, s.nDecl)] : List (BitVec 12 × Word32)),
      exec (.rdReg e.1) s = .next { s with rsp := some (responseWord .ok s.errCode s.phase e.2) }) ∧
    (∀ c : Byte,
      exec (.rdReg (0x100 + c.setWidth 12)) s =
        .next { s with rsp := some (responseWord .ok s.errCode s.phase (symEntry s.freq c)) } ∧
      exec (.rdReg (0x200 + c.setWidth 12)) s =
        .next { s with rsp := some (responseWord .ok s.errCode s.phase (symEntry s.cumLow c)) } ∧
      exec (.rdReg (0x300 + c.setWidth 12)) s =
        .next { s with rsp := some (responseWord .ok s.errCode s.phase (symEntry s.cumHigh c)) }) ∧
    (∀ a : BitVec 12, (0x016 ≤ a.toNat ∧ a.toNat ≤ 0x0FF) ∨ 0x400 ≤ a.toNat →
      (s.phase ≠ .error → ∃ t, exec (.rdReg a) s = .next t ∧ ErrorTaken .operand (a.setWidth 32) s t) ∧
      (s.phase = .error →
        exec (.rdReg a) s = .next { s with rsp := some (responseWord .refused s.errCode .error 0) })) ∧
    s.status.extractLsb' 0 3 = s.phase.code ∧ s.status.getLsbD 3 = s.outValid ∧ s.status.extractLsb' 4 28 = 0

/-! ### Data commands -/

/-- IN_CLEAR (41_data_io.md R130). -/
def Obligations.InClearEmptiesTheInput : Prop :=
  encode .inClear = 0x1000000000000000 ∧
  ∀ s : State,
    (s.phase = .idle →
      exec .inClear s = .next { s with inLen := 0, rsp := some (responseWord .ok s.errCode .idle 0) }) ∧
    (s.phase ≠ .idle → s.phase ≠ .error → ∃ t, exec .inClear s = .next t ∧ ErrorTaken .phase 0x10 s t)

/-- IN_WRITE appends a byte at IN_LEN and changes no other byte, or raises ERR_CAPACITY(1) when IBUF is full
(41_data_io.md R131). -/
def Obligations.InWriteAppendsAByte : Prop :=
  ∀ (b : Byte) (s : State),
    encode (.inWrite b) = 0x1100000000000000 ||| b.setWidth 64 ∧
    (s.phase = .idle → s.inLen.toNat < s.ibufSize.toNat →
      ∃ t, exec (.inWrite b) s = .next t ∧
        t = { s with
          ibuf := t.ibuf, inLen := s.inLen + 1, rsp := some (responseWord .ok s.errCode .idle 0) } ∧
        t.readByte .ibuf s.inLen.toNat = b ∧
        (∀ a, a ≠ s.inLen.toNat → t.readByte .ibuf a = s.readByte .ibuf a) ∧
        (s.ibuf.wf = true → t.ibuf.wf = true)) ∧
    (s.phase = .idle → s.inLen = s.ibufSize →
      ∃ t, exec (.inWrite b) s = .next t ∧ ErrorTaken .capacity 1 s t) ∧
    (s.phase ≠ .idle → s.phase ≠ .error → ∃ t, exec (.inWrite b) s = .next t ∧ ErrorTaken .phase 0x11 s t)

/-- OUT_READ answers a byte of the result and changes nothing; past the result it raises ERR_OPERAND, and outside
ENC_DONE and DEC_DONE no partial result can be read (41_data_io.md R132). -/
def Obligations.OutReadReadsTheResult : Prop :=
  ∀ (x : Word32) (s : State),
    encode (.outRead x) = 0x1200000000000000 ||| x.setWidth 64 ∧
    (Inv s → s.phase = .encDone ∨ s.phase = .decDone → s.outValid = true) ∧
    (s.phase = .encDone ∨ s.phase = .decDone → x.toNat < s.outLen.toNat → s.outLen.toNat ≤ s.obufSize.toNat →
      exec (.outRead x) s = .next { s with
        rsp := some (responseWord .ok s.errCode s.phase ((s.readByte .obuf x.toNat).setWidth 32)) }) ∧
    (s.phase = .encDone ∨ s.phase = .decDone → s.outLen.toNat ≤ x.toNat →
      ∃ t, exec (.outRead x) s = .next t ∧ ErrorTaken .operand x s t) ∧
    (s.phase ≠ .encDone → s.phase ≠ .decDone → s.phase ≠ .error →
      ∃ t, exec (.outRead x) s = .next t ∧ ErrorTaken .phase 0x12 s t)

/-! ### Frequency model -/

/-- FM_COUNT counts every byte value of the input and writes only FREQ and PHASE; an empty input raises EmptyInputError
(42_frequency_model.md R140). -/
def Obligations.FmCountCountsTheInput : Prop :=
  encode .fmCount = 0x2000000000000000 ∧
  ∀ s : State,
    (s.phase = .idle → s.inLen ≠ 0 → s.inLen.toNat ≤ s.ibufSize.toNat →
      ∃ t, exec .fmCount s = .next t ∧
        t = { s with
          freq := t.freq, phase := .counted, rsp := some (responseWord .ok s.errCode .counted s.inLen) } ∧
        ∀ c : Byte, (symEntry t.freq c).toNat = s.occurrences c) ∧
    (s.phase = .idle → s.inLen = 0 → ∃ t, exec .fmCount s = .next t ∧ ErrorTaken .emptyInput 0 s t) ∧
    (s.phase ≠ .idle → s.phase ≠ .error → ∃ t, exec .fmCount s = .next t ∧ ErrorTaken .phase 0x20 s t)

/-- After a successful FM_COUNT the counts add up to IN_LEN and one of them is not zero (42_frequency_model.md R141). -/
def Obligations.CountsAddUpToTheInputLength : Prop :=
  ∀ s t : State, exec .fmCount s = .next t → t.phase = .counted →
    sumBelow t.freq 256 = t.inLen.toNat ∧ ∃ c : Byte, symEntry t.freq c ≠ 0

/-- FM_BUILD commits BuildModel's results in closed form when the precision check passes, and raises
PrecisionOverflowError(TOTAL) with nothing committed when it fails (42_frequency_model.md R142, R143, R144, R146). -/
def Obligations.FmBuildBuildsTheModel : Prop :=
  ∀ (s : State) (m : Nat), s.phase = .counted → sumBelow s.freq 256 < 2 ^ 32 → LeastPositive s.freq m →
    (sumBelow s.freq 256 ≤ m * s.quarter →
      ∃ t, exec .fmBuild s = .next t ∧
        t = { s with
          cumLow := t.cumLow, cumHigh := t.cumHigh, total := BitVec.ofNat 32 (sumBelow s.freq 256),
          symCount := t.symCount, fmin := BitVec.ofNat 32 m, phase := .modelReady,
          rsp := some (responseWord .ok s.errCode .modelReady t.total) } ∧
        (∀ c : Byte, (symEntry t.cumLow c).toNat = sumBelow s.freq c.toNat ∧
          (symEntry t.cumHigh c).toNat = (symEntry t.cumLow c).toNat + (symEntry s.freq c).toNat) ∧
        t.symCount.toNat = ((List.range 256).filter fun c => symEntry s.freq (BitVec.ofNat 8 c) ≠ 0).length) ∧
    (m * s.quarter < sumBelow s.freq 256 →
      ∃ t, exec .fmBuild s = .next t ∧
        ErrorTaken .precisionOverflow (BitVec.ofNat 32 (sumBelow s.freq 256)) s t)

/-- After a successful FM_BUILD or DEC_START the ranges of the symbols present partition [0, TOTAL) in ascending symbol
order (42_frequency_model.md R147). -/
def Obligations.TheModelPartitionsTheTotal : Prop :=
  ∀ s t : State,
    (exec .fmBuild s = .next t ∧ t.phase = .modelReady) ∨ (exec .decStart s = .next t ∧ t.phase = .decoding) →
    (∀ v, v < t.total.toNat → ∃ c : Byte,
      (symEntry t.freq c ≠ 0 ∧ (symEntry t.cumLow c).toNat ≤ v ∧ v < (symEntry t.cumHigh c).toNat) ∧
      ∀ d : Byte, symEntry t.freq d ≠ 0 → (symEntry t.cumLow d).toNat ≤ v → v < (symEntry t.cumHigh d).toNat → d = c) ∧
    (∀ c : Byte, (symEntry t.cumHigh c).toNat ≤ t.total.toNat) ∧
    ∀ c d : Byte, c.toNat < d.toNat → (symEntry t.cumHigh c).toNat ≤ (symEntry t.cumLow d).toNat

/-! ### Bitstream packer -/

/-- Bits emitted from the start of the payload lie MSB first in the bytes from HDR_LEN on, the last byte is padded with
zeros, OUT_LEN counts them, and no other byte changes (43_bitstream_packer.md R160, R161, R162, 30_encoding.md R94,
20_memory.md R64). -/
def Obligations.TheSinkPacksBitsMsbFirst : Prop :=
  ∀ (s : State) (bits : List Bool), s.bitCount = 0 → bits.length + 7 < 2 ^ 32 →
    let t := (s.emitAll bits).sinkFinalize
    (∀ j (h : j < bits.length), t.payloadBit j = bits[j]) ∧
    (∀ j, bits.length ≤ j → j < 8 * ((bits.length + 7) / 8) → t.payloadBit j = false) ∧
    t.bitCount.toNat = bits.length ∧
    t.outLen = BitVec.ofNat 32 (s.hdrLen.toNat + (bits.length + 7) / 8) ∧
    ∀ a, (∀ j, j < bits.length → a ≠ s.sinkAddress j) → t.readByte .obuf a = s.readByte .obuf a

/-- ENC_START writes the header of 30_encoding.md R92, with the pairs in ascending symbol order, sets up the coder, and
changes no byte of OBUF from HDR_LEN on; without room for it and one payload byte it raises ERR_CAPACITY(2)
(45_encoder.md R201, 43_bitstream_packer.md R167, 30_encoding.md R93). -/
def Obligations.EncStartWritesTheHeader : Prop :=
  ∀ s : State, Inv s → s.phase = .modelReady →
    (6 + 5 * s.symCount.toNat < s.obufSize.toNat →
      ∃ (t : State) (syms : List Byte), exec .encStart s = .next t ∧
        t = { s with
          obuf := t.obuf, hdrLen := BitVec.ofNat 32 (6 + 5 * s.symCount.toNat), lower := 0,
          upper := BitVec.ofNat 32 (2 ^ s.prec.toNat), pending := 0, bitCount := 0, encPos := 0, phase := .encoding,
          rsp := some (responseWord .ok s.errCode .encoding 0) } ∧
        (∀ c : Byte, c ∈ syms ↔ symEntry s.freq c ≠ 0) ∧ syms.Pairwise (fun c d => c.toNat < d.toNat) ∧
        syms.length = s.symCount.toNat ∧
        t.obuf.readBigEndian .obuf 0 2 = s.symCount.toNat ∧
        (∀ j (h : j < syms.length), t.readByte .obuf (2 + 5 * j) = syms[j] ∧
          t.obuf.readBigEndian .obuf (3 + 5 * j) 4 = (symEntry s.freq syms[j]).toNat) ∧
        t.obuf.readBigEndian .obuf (2 + 5 * s.symCount.toNat) 4 = s.inLen.toNat ∧
        ∀ a, 6 + 5 * s.symCount.toNat ≤ a → t.readByte .obuf a = s.readByte .obuf a) ∧
    (s.obufSize.toNat ≤ 6 + 5 * s.symCount.toNat →
      ∃ t, exec .encStart s = .next t ∧ ErrorTaken .capacity 2 s t)

/-- The header an encoder wrote passes every check of DEC_START at the same precision and gives the same model back
(43_bitstream_packer.md R168, 42_frequency_model.md R148). -/
def Obligations.DecStartAcceptsTheEncodersHeader : Prop :=
  ∀ e d : State, Inv e → e.phase = .encDone → Inv d → d.phase = .idle → d.prec = e.prec → d.inLen = e.outLen →
    (∀ a, a < e.outLen.toNat → d.readByte .ibuf a = e.readByte .obuf a) → e.inLen.toNat ≤ d.obufSize.toNat →
    ∃ t, exec .decStart d = .next t ∧ t.phase = .decoding ∧ t.freq = e.freq ∧ t.cumLow = e.cumLow ∧
      t.cumHigh = e.cumHigh ∧ t.total = e.total ∧ t.symCount = e.symCount ∧ t.fmin = e.fmin ∧ t.hdrLen = e.hdrLen ∧
      t.nDecl = e.inLen ∧ t.bitLen.toNat = 8 * (e.outLen.toNat - e.hdrLen.toNat)

/-- DEC_START on a file that is not accepted raises the first error that applies, in the order of
43_bitstream_packer.md R168 and 60_exceptions.md R244, with the ERR_INFO of R241. -/
def Obligations.DecStartReportsTheFirstHeaderError : Prop :=
  ∀ s : State, Inv s → s.phase = .idle →
    (s.inLen.toNat < 2 → ∃ t, exec .decStart s = .next t ∧ ErrorTaken .truncatedFile s.inLen s t) ∧
    (2 ≤ s.inLen.toNat → s.fileK = 0 ∨ 256 < s.fileK →
      ∃ t, exec .decStart s = .next t ∧ ErrorTaken .decodeCorruption 0 s t) ∧
    (2 ≤ s.inLen.toNat → 1 ≤ s.fileK → s.fileK ≤ 256 → s.inLen.toNat < 6 + 5 * s.fileK →
      ∃ t, exec .decStart s = .next t ∧ ErrorTaken .truncatedFile s.inLen s t) ∧
    (HeaderFits s → ∀ j, j < s.fileK → GoodPairs s j → DuplicatePair s j →
      ∃ t, exec .decStart s = .next t ∧ ErrorTaken .decodeCorruption (BitVec.ofNat 32 (2 + 5 * j)) s t) ∧
    (HeaderFits s → ∀ j, j < s.fileK → GoodPairs s j → ¬ DuplicatePair s j → s.fileFreq j = 0 →
      ∃ t, exec .decStart s = .next t ∧ ErrorTaken .decodeCorruption (BitVec.ofNat 32 (3 + 5 * j)) s t) ∧
    (HeaderFits s → GoodPairs s s.fileK → s.fileSum ≠ s.fileN →
      ∃ t, exec .decStart s = .next t ∧ ErrorTaken .decodeCorruption (BitVec.ofNat 32 (2 + 5 * s.fileK)) s t) ∧
    (HeaderFits s → GoodPairs s s.fileK → s.fileSum = s.fileN → s.inLen.toNat = 6 + 5 * s.fileK →
      ∃ t, exec .decStart s = .next t ∧ ErrorTaken .truncatedFile s.inLen s t) ∧
    (HeaderFits s → GoodPairs s s.fileK → s.fileSum = s.fileN → 6 + 5 * s.fileK < s.inLen.toNat →
      s.obufSize.toNat < s.fileN → ∃ t, exec .decStart s = .next t ∧ ErrorTaken .capacity 2 s t) ∧
    (HeaderFits s → GoodPairs s s.fileK → s.fileSum = s.fileN → 6 + 5 * s.fileK < s.inLen.toNat →
      s.fileN ≤ s.obufSize.toNat → (∃ j, j < s.fileK ∧ s.fileFreq j * s.quarter < s.fileN) →
      ∃ t, exec .decStart s = .next t ∧ ErrorTaken .precisionOverflow (BitVec.ofNat 32 s.fileN) s t)

/-! ### Interval renormalizer -/

/-- Narrow's formula, and that it stays inside the interval (44_interval_renormalizer.md R181). -/
def Obligations.NarrowStaysInsideTheInterval : Prop :=
  ∀ total lo up cl ch : Nat, 1 ≤ total → lo ≤ up → cl ≤ ch → ch ≤ total →
    narrow total lo up cl ch = (lo + ((up - lo) * cl) / total, lo + ((up - lo) * ch) / total) ∧
    lo ≤ (narrow total lo up cl ch).1 ∧ (narrow total lo up cl ch).1 ≤ (narrow total lo up cl ch).2 ∧
    (narrow total lo up cl ch).2 ≤ up

/-- RenormEnc is the two loops as the rules write them, run to their ends: phase 1, then phase 2, once
(44_interval_renormalizer.md R182, R183). -/
def Obligations.RenormEncIsItsTwoLoops : Prop :=
  ∀ (p : Nat) (v : EncInterval), 2 ≤ p → v.lower < v.upper → v.upper ≤ 2 ^ p →
    ∃ w, EncPhase1 p v (renormEnc p v).2 w ∧ EncPhase2 p w (renormEnc p v).1

/-- RenormDec is the two loops as the rules write them, run to their ends, and it never subtracts more than TAG holds
(44_interval_renormalizer.md R184, R185). -/
def Obligations.RenormDecIsItsTwoLoops : Prop :=
  ∀ (s : State) (p : Nat) (v : DecInterval), 2 ≤ p → v.lower ≤ v.tag → v.tag < v.upper → v.upper ≤ 2 ^ p →
    v.rdIdx ≤ s.bitLen.toNat + 1 → ∃ w, DecPhase1 s p v w ∧ DecPhase2 s p w (s.renormDec p v)

/-- The interval after RenormEnc or RenormDec (44_interval_renormalizer.md R186). -/
def Obligations.RenormalizationLeavesAWideInterval : Prop :=
  ∀ (p lo up : Nat), 2 ≤ p → lo < up → up ≤ 2 ^ p →
    (∀ n, let v := (renormEnc p ⟨lo, up, n⟩).1
      v.lower ≤ 2 ^ p / 2 ∧ 2 ^ p / 2 ≤ v.upper ∧ (v.lower ≤ 2 ^ p / 4 ∨ 3 * (2 ^ p / 4) ≤ v.upper) ∧
      2 ^ p / 4 ≤ v.upper - v.lower ∧ v.upper ≤ 2 ^ p) ∧
    ∀ (s : State) (tag rd : Nat), let v := s.renormDec p ⟨lo, up, tag, rd⟩
      v.lower ≤ 2 ^ p / 2 ∧ 2 ^ p / 2 ≤ v.upper ∧ (v.lower ≤ 2 ^ p / 4 ∨ 3 * (2 ^ p / 4) ≤ v.upper) ∧
      2 ^ p / 4 ≤ v.upper - v.lower ∧ v.upper ≤ 2 ^ p

/-- At most P rescalings, each doubling the width; in the encoder each adds one to the bits emitted plus the bits pending,
so a symbol emits at most P + PENDING bits and PENDING grows by at most P (44_interval_renormalizer.md R188). -/
def Obligations.RenormalizationRescalesAtMostPTimes : Prop :=
  ∀ (p lo up : Nat), 2 ≤ p → lo < up → up ≤ 2 ^ p →
    (∀ n, ∃ k, k ≤ p ∧
      (renormEnc p ⟨lo, up, n⟩).1.upper - (renormEnc p ⟨lo, up, n⟩).1.lower = 2 ^ k * (up - lo) ∧
      (renormEnc p ⟨lo, up, n⟩).2.length + (renormEnc p ⟨lo, up, n⟩).1.pending = n + k ∧
      (renormEnc p ⟨lo, up, n⟩).2.length ≤ p + n ∧ (renormEnc p ⟨lo, up, n⟩).1.pending ≤ n + p) ∧
    ∀ (s : State) (tag rd : Nat), ∃ k, k ≤ p ∧
      (s.renormDec p ⟨lo, up, tag, rd⟩).upper - (s.renormDec p ⟨lo, up, tag, rd⟩).lower = 2 ^ k * (up - lo) ∧
      (rd ≤ s.bitLen.toNat + 1 → (s.renormDec p ⟨lo, up, tag, rd⟩).rdIdx = min (rd + k) (s.bitLen.toNat + 1))

/-- While coding, Narrow gives a non-empty interval for every symbol present, so ENC_STEP's collapse guard is never taken
(44_interval_renormalizer.md R187, 45_encoder.md R204). -/
def Obligations.NarrowNeverCollapses : Prop :=
  ∀ s : State, Inv s → s.phase = .encoding ∨ s.phase = .decoding →
    (∀ c : Byte, symEntry s.freq c ≠ 0 → (s.candidate c).1 < (s.candidate c).2) ∧
    (s.phase = .encoding → ∀ t, exec .encStep s = .next t → t.errCode ≠ 0x03)

/-- The decoder keeps LOWER <= TAG < UPPER, for every payload (44_interval_renormalizer.md R191): DEC_START sets it up, and
every DEC_STEP keeps it. -/
def Obligations.TheTagStaysInTheInterval : Prop :=
  ∀ s t : State,
    (exec .decStart s = .next t → t.phase = .decoding → TagIn t) ∧
    (PrecLegal s → exec .decStep s = .next t → t.phase = .decoding ∨ t.phase = .decDone →
      TagIn t ∧ t.tag.toNat < 2 ^ s.prec.toNat)

/-- Every product the datapath forms fits its 64 bits: it is at most 2^59 (00_scope.md R8, 44_interval_renormalizer.md
R181). The spec says "below 2^59"; see `Obligations.DatapathProductsStayBelowTwoToThe59` and log 16. -/
def Obligations.DatapathProductsFit64Bits : Prop :=
  ∀ s : State, Inv s → s.phase = .encoding ∨ s.phase = .decoding → ∀ c : Byte,
    (s.upper.toNat - s.lower.toNat) * (symEntry s.cumHigh c).toNat ≤ 2 ^ 59 ∧
    (s.upper.toNat - s.lower.toNat) * (symEntry s.cumLow c).toNat ≤ 2 ^ 59 ∧
    s.fmin.toNat * s.quarter < 2 ^ 64

/-- The bound of 00_scope.md R8 as it is written: every product is below 2^59. It FAILS at one corner, the initial interval
at P = 31 with TOTAL = 2^28, where the product is 2^59 (log 16). -/
def Obligations.DatapathProductsStayBelowTwoToThe59 : Prop :=
  ∀ s : State, Inv s → s.phase = .encoding ∨ s.phase = .decoding → ∀ c : Byte,
    (s.upper.toNat - s.lower.toNat) * (symEntry s.cumHigh c).toNat < 2 ^ 59

/-! ### Encoder -/

/-- ENC_STEP encodes one symbol: it narrows, renormalizes on a copy, and commits the bits, the interval, PENDING and
ENC_POS; no byte of OBUF but those its bits go into changes, and no earlier payload bit does. Without room for the bits
and the final ones it raises ERR_CAPACITY(2), and with every symbol encoded ERR_PHASE(0x31) (45_encoder.md R202, R205). -/
def Obligations.EncStepEncodesOneSymbol : Prop :=
  ∀ s : State, Inv s → s.phase = .encoding →
    (s.encPos.toNat < s.inLen.toNat →
      ∃ (bits : List Bool) (w v : EncInterval),
        EncPhase1 s.prec.toNat
          ⟨s.lower.toNat + ((s.upper.toNat - s.lower.toNat) *
              (symEntry s.cumLow (s.readByte .ibuf s.encPos.toNat)).toNat) / s.total.toNat,
            s.lower.toNat + ((s.upper.toNat - s.lower.toNat) *
              (symEntry s.cumHigh (s.readByte .ibuf s.encPos.toNat)).toNat) / s.total.toNat,
            s.pending.toNat⟩ bits w ∧
        EncPhase2 s.prec.toNat w v ∧
        (s.bitCount.toNat + bits.length + v.pending + 2 ≤ 8 * (s.obufSize.toNat - s.hdrLen.toNat) →
          ∃ t, exec .encStep s = .next t ∧
            t = { s with
              obuf := t.obuf, lower := t.lower, upper := t.upper, pending := t.pending, bitCount := t.bitCount,
              encPos := s.encPos + 1, rsp := some (responseWord .ok s.errCode .encoding t.bitCount) } ∧
            t.lower.toNat = v.lower ∧ t.upper.toNat = v.upper ∧ t.pending.toNat = v.pending ∧
            t.bitCount.toNat = s.bitCount.toNat + bits.length ∧
            (∀ j (h : j < bits.length), t.payloadBit (s.bitCount.toNat + j) = bits[j]) ∧
            (∀ j, j < s.bitCount.toNat → t.payloadBit j = s.payloadBit j) ∧
            ∀ a, (∀ j, j < bits.length → a ≠ s.sinkAddress (s.bitCount.toNat + j)) →
              t.readByte .obuf a = s.readByte .obuf a) ∧
        (8 * (s.obufSize.toNat - s.hdrLen.toNat) < s.bitCount.toNat + bits.length + v.pending + 2 →
          ∃ t, exec .encStep s = .next t ∧ ErrorTaken .capacity 2 s t)) ∧
    (s.encPos = s.inLen → ∃ t, exec .encStep s = .next t ∧ ErrorTaken .phase 0x31 s t)

/-- ENC_FINISH emits the PENDING + 2 final bits, sets OUT_LEN and OUT_VALID, keeps LOWER and UPPER, and changes no byte of
OBUF but those its bits go into; with symbols left it raises ERR_PHASE(0x32) (45_encoder.md R203,
44_interval_renormalizer.md R189, 43_bitstream_packer.md R162). -/
def Obligations.EncFinishClosesTheFile : Prop :=
  ∀ s : State, Inv s → s.phase = .encoding →
    (s.encPos = s.inLen →
      let bits := if s.lower.toNat ≤ s.quarter then false :: List.replicate (s.pending.toNat + 1) true
        else true :: List.replicate (s.pending.toNat + 1) false
      ∃ t, exec .encFinish s = .next t ∧
        t = { s with
          obuf := t.obuf, pending := 0, bitCount := t.bitCount, outLen := t.outLen, outValid := true,
          phase := .encDone, rsp := some (responseWord .ok s.errCode .encDone t.outLen) } ∧
        t.bitCount.toNat = s.bitCount.toNat + s.pending.toNat + 2 ∧
        t.outLen.toNat = s.hdrLen.toNat + (t.bitCount.toNat + 7) / 8 ∧
        (∀ j (h : j < bits.length), t.payloadBit (s.bitCount.toNat + j) = bits[j]) ∧
        (∀ j, j < s.bitCount.toNat → t.payloadBit j = s.payloadBit j) ∧
        (∀ j, t.bitCount.toNat ≤ j → j < 8 * ((t.bitCount.toNat + 7) / 8) → t.payloadBit j = false) ∧
        ∀ a, (∀ j, j < bits.length → a ≠ s.sinkAddress (s.bitCount.toNat + j)) →
          t.readByte .obuf a = s.readByte .obuf a) ∧
    (s.encPos.toNat < s.inLen.toNat → ∃ t, exec .encFinish s = .next t ∧ ErrorTaken .phase 0x32 s t)

/-- BIT_COUNT + PENDING never decreases while encoding, so the payload is at least BIT_COUNT + PENDING + 2 bits at every
step, and exactly that at the last; ENC_FINISH never overflows OBUF; and ENC_STEP raises ERR_CAPACITY only where the
complete file cannot fit: with any other OBUF in which the encode ends, the file is longer than OBUF_SIZE (45_encoder.md
R205). -/
def Obligations.TheCapacityCheckIsExact : Prop :=
  ∀ s t : State, Inv s → s.phase = .encoding →
    (exec .encStep s = .next t → t.phase = .encoding →
      s.bitCount.toNat + s.pending.toNat ≤ t.bitCount.toNat + t.pending.toNat ∧
      t.bitCount.toNat + t.pending.toNat + 2 ≤ s.capBits ∧ t.pending.toNat < 2 ^ 31) ∧
    (exec .encFinish s = .next t → t.phase = .encDone →
      t.bitCount.toNat = s.bitCount.toNat + s.pending.toNat + 2 ∧ t.outLen.toNat ≤ s.obufSize.toNat) ∧
    (∀ n, execAll (List.replicate n .encStep ++ [.encFinish]) s = .next t → t.phase = .encDone →
      s.bitCount.toNat + s.pending.toNat + 2 ≤ t.bitCount.toNat) ∧
    (exec .encStep s = .next t → t.errCode = 0x13 →
      ∀ (size : Word32) (n : Nat) (u : State), Inv { s with obufSize := size } →
        execAll (List.replicate n .encStep ++ [.encFinish]) { s with obufSize := size } = .next u →
        u.phase = .encDone → s.obufSize.toNat < u.outLen.toNat)

/-- COMPRESS in IDLE is exactly FM_COUNT, FM_BUILD, ENC_START, IN_LEN times ENC_STEP and ENC_FINISH, one after another up
to the first that takes an error (45_encoder.md R207). -/
def Obligations.CompressIsItsSequence : Prop :=
  ∀ s : State, s.phase = .idle → exec .compress s = execAll (compressSequence s.inLen.toNat) s

/-- COMPRESS completes on every input that is not empty, passes the precision check, and whose file surely fits: at most P
bits a symbol and the two final bits; no byte of OBUF past the file changes (45_encoder.md R207,
44_interval_renormalizer.md R188, R205). -/
def Obligations.CompressCompletes : Prop :=
  ∀ s : State, Inv s → s.phase = .idle → s.inLen ≠ 0 →
    (∀ c : Byte, s.occurrences c ≠ 0 → s.inLen.toNat ≤ s.occurrences c * s.quarter) →
    6 + 5 * s.distinctBytes + (s.prec.toNat * s.inLen.toNat + 9) / 8 ≤ s.obufSize.toNat →
    ∃ t, exec .compress s = .next t ∧ t.phase = .encDone ∧ t.outValid = true ∧
      t.rsp = some (responseWord .ok 0 .encDone t.outLen) ∧
      t.ibuf = s.ibuf ∧ t.inLen = s.inLen ∧ t.prec = s.prec ∧ t.encPos = s.inLen ∧ t.errCode = 0 ∧ t.port = s.port ∧
      ∀ a, t.outLen.toNat ≤ a → t.readByte .obuf a = s.readByte .obuf a

/-- The file COMPRESS produces depends only on the input bytes and on P: two machines, whatever else differs between them,
give the same bytes (45_encoder.md R208). -/
def Obligations.CompressIsDeterministic : Prop :=
  ∀ s s' t t' : State, Inv s → Inv s' → s.inLen = s'.inLen → s.prec = s'.prec →
    (∀ a, a < s.inLen.toNat → s.readByte .ibuf a = s'.readByte .ibuf a) →
    s.phase = .idle → s'.phase = .idle →
    exec .compress s = .next t → exec .compress s' = .next t' → t.phase = .encDone → t'.phase = .encDone →
    t.outLen = t'.outLen ∧ ∀ a, a < t.outLen.toNat → t.readByte .obuf a = t'.readByte .obuf a

/-- Round trip: the file COMPRESS made of an input, decoded by DECOMPRESS at the same precision with room for the output,
gives the input back exactly (45_encoder.md R206). -/
def Obligations.DecompressInvertsCompress : Prop :=
  ∀ s t d : State, Inv s → s.phase = .idle → exec .compress s = .next t → t.phase = .encDone →
    Inv d → d.phase = .idle → d.prec = s.prec → d.inLen = t.outLen →
    (∀ a, a < t.outLen.toNat → d.readByte .ibuf a = t.readByte .obuf a) → s.inLen.toNat ≤ d.obufSize.toNat →
    ∃ u, exec .decompress d = .next u ∧ u.phase = .decDone ∧ u.outLen = s.inLen ∧
      ∀ a, a < s.inLen.toNat → u.readByte .obuf a = s.readByte .ibuf a

/-! ### Decoder -/

/-- Tag initialization reads the first P payload bits, bit i with weight 2^(P - i) (46_decoder.md R221). -/
def Obligations.TagInitializationReadsTheFirstBits : Prop :=
  ∀ s : State,
    s.initTag.tag.toNat =
      ((List.range s.prec.toNat).map fun i => (s.sourceBit (i + 1)).toNat * 2 ^ (s.prec.toNat - (i + 1))).sum ∧
    s.initTag.rdIdx.toNat = min (s.prec.toNat + 1) (s.bitLen.toNat + 1) ∧
    s.initTag.tag.toNat < 2 ^ s.prec.toNat ∧ s.initTag = { s with tag := s.initTag.tag, rdIdx := s.initTag.rdIdx }

/-- DEC_START on an accepted file loads the model of the header, whatever the order of its pairs, and sets up the decoder
(46_decoder.md R222, R221, 30_encoding.md R93). -/
def Obligations.DecStartLoadsTheFile : Prop :=
  ∀ s : State, Inv s → s.phase = .idle → FileAccepted s →
    ∃ t, exec .decStart s = .next t ∧
      t = { s with
        freq := t.freq, cumLow := t.cumLow, cumHigh := t.cumHigh, total := BitVec.ofNat 32 s.fileN,
        symCount := BitVec.ofNat 9 s.fileK, fmin := t.fmin, hdrLen := BitVec.ofNat 32 (6 + 5 * s.fileK),
        bitLen := BitVec.ofNat 32 (8 * (s.inLen.toNat - (6 + 5 * s.fileK))), nDecl := BitVec.ofNat 32 s.fileN,
        lower := 0, upper := BitVec.ofNat 32 (2 ^ s.prec.toNat), decCount := 0, tag := t.tag, rdIdx := t.rdIdx,
        phase := .decoding, rsp := some (responseWord .ok s.errCode .decoding t.nDecl) } ∧
      (∀ j, j < s.fileK → (symEntry t.freq (s.fileSymbol j)).toNat = s.fileFreq j) ∧
      (∀ c : Byte, (∀ j, j < s.fileK → s.fileSymbol j ≠ c) → symEntry t.freq c = 0) ∧
      (∀ c : Byte, (symEntry t.cumLow c).toNat = sumBelow t.freq c.toNat ∧
        (symEntry t.cumHigh c).toNat = (symEntry t.cumLow c).toNat + (symEntry t.freq c).toNat) ∧
      LeastPositive t.freq t.fmin.toNat ∧
      t.tag.toNat =
        ((List.range s.prec.toNat).map fun i => (t.sourceBit (i + 1)).toNat * 2 ^ (s.prec.toNat - (i + 1))).sum ∧
      t.rdIdx.toNat = min (s.prec.toNat + 1) (t.bitLen.toNat + 1)

/-- DEC_STEP decodes one symbol: the one whose candidate interval contains TAG goes to OBUF[DEC_COUNT], and no other byte
changes; the last symbol commits the result without renormalizing, every other one renormalizes (46_decoder.md R223,
R224, R225). -/
def Obligations.DecStepDecodesOneSymbol : Prop :=
  ∀ s : State, Inv s → s.phase = .decoding →
    ∃ (t : State) (c : Byte) (lt ut : Nat), exec .decStep s = .next t ∧
      lt = s.lower.toNat + ((s.upper.toNat - s.lower.toNat) * (symEntry s.cumLow c).toNat) / s.total.toNat ∧
      ut = s.lower.toNat + ((s.upper.toNat - s.lower.toNat) * (symEntry s.cumHigh c).toNat) / s.total.toNat ∧
      symEntry s.freq c ≠ 0 ∧ lt ≤ s.tag.toNat ∧ s.tag.toNat < ut ∧
      t = { s with
        obuf := t.obuf, decCount := s.decCount + 1, lower := t.lower, upper := t.upper, tag := t.tag, rdIdx := t.rdIdx,
        outLen := t.outLen, outValid := t.outValid, phase := t.phase,
        rsp := some (responseWord .ok s.errCode t.phase (c.setWidth 32)) } ∧
      t.readByte .obuf s.decCount.toNat = c ∧
      (∀ a, a ≠ s.decCount.toNat → t.readByte .obuf a = s.readByte .obuf a) ∧
      (s.decCount.toNat + 1 = s.nDecl.toNat →
        t.phase = .decDone ∧ t.outValid = true ∧ t.outLen = s.nDecl ∧ t.lower.toNat = lt ∧ t.upper.toNat = ut ∧
        t.tag = s.tag ∧ t.rdIdx = s.rdIdx) ∧
      (s.decCount.toNat + 1 < s.nDecl.toNat →
        t.phase = .decoding ∧ t.outValid = s.outValid ∧ t.outLen = s.outLen ∧
        ∃ w v, DecPhase1 s s.prec.toNat ⟨lt, ut, s.tag.toNat, s.rdIdx.toNat⟩ w ∧ DecPhase2 s s.prec.toNat w v ∧
          t.lower.toNat = v.lower ∧ t.upper.toNat = v.upper ∧ t.tag.toNat = v.tag ∧ t.rdIdx.toNat = v.rdIdx)

/-- The candidates of the symbols present tile [LOWER, UPPER), so Search always finds a match and DEC_STEP never raises
DecodeCorruptionError, for any payload (46_decoder.md R227). -/
def Obligations.SearchAlwaysFindsASymbol : Prop :=
  ∀ s : State, Inv s → s.phase = .decoding →
    (∀ v, s.lower.toNat ≤ v → v < s.upper.toNat →
      ∃ c : Byte, symEntry s.freq c ≠ 0 ∧ (s.candidate c).1 ≤ v ∧ v < (s.candidate c).2) ∧
    (∀ c d : Byte, c.toNat < d.toNat → (s.candidate c).2 ≤ (s.candidate d).1) ∧
    (∃ c, s.search = some c) ∧ ∀ t, exec .decStep s = .next t → t.phase ≠ .error

/-- Exactly one symbol's candidate contains TAG, so any order of search finds the same symbol (46_decoder.md R228), and so
does a search of all 256 byte values (42_frequency_model.md R149). -/
def Obligations.AnySearchOrderFindsTheSameSymbol : Prop :=
  ∀ s : State, Inv s → s.phase = .decoding →
    (∃ c : Byte, (symEntry s.freq c ≠ 0 ∧ s.tagMatches c = true) ∧
      ∀ d : Byte, symEntry s.freq d ≠ 0 → s.tagMatches d = true → d = c) ∧
    (∀ l : List Byte, l.Perm (symbolsOf s.freq) → l.find? s.tagMatches = s.search) ∧
    ((List.range 256).map (BitVec.ofNat 8)).find? s.tagMatches = s.search

/-- DECOMPRESS in IDLE is exactly DEC_START and N_DECL times DEC_STEP, one after another up to the first that takes an
error, answered by OUT_LEN (46_decoder.md R226). -/
def Obligations.DecompressIsItsSequence : Prop :=
  ∀ s : State, s.phase = .idle →
    (∀ a, exec .decStart s = .next a → a.phase = .error → exec .decompress s = .next a) ∧
    ∀ a, exec .decStart s = .next a → a.phase ≠ .error →
      (∀ t, execAll (decompressSequence a.nDecl.toNat) s = .next t →
        exec .decompress s = .next (if t.phase = .error then t
          else { t with rsp := some (responseWord .ok t.errCode t.phase t.outLen) })) ∧
      ∀ f, execAll (decompressSequence a.nDecl.toNat) s = .fault f → exec .decompress s = .fault f

/-- DECOMPRESS completes on every accepted file, whatever its payload, with all N bytes decoded and no byte of OBUF past
them changed (46_decoder.md R226, R227, 70_reset_and_hazards.md R279). -/
def Obligations.DecompressCompletes : Prop :=
  ∀ s : State, Inv s → s.phase = .idle → FileAccepted s →
    ∃ t, exec .decompress s = .next t ∧ t.phase = .decDone ∧ t.outValid = true ∧ t.outLen.toNat = s.fileN ∧
      t.decCount = t.outLen ∧ t.rsp = some (responseWord .ok 0 .decDone t.outLen) ∧
      t.ibuf = s.ibuf ∧ t.inLen = s.inLen ∧ t.prec = s.prec ∧ t.errCode = 0 ∧ t.port = s.port ∧
      ∀ a, t.outLen.toNat ≤ a → t.readByte .obuf a = s.readByte .obuf a

/-! ### Errors -/

/-- An error raised by a primitive command or an illegal word is precise: every register but the error fields, PHASE,
OUT_VALID and OUT_LEN is as before the command, IBUF too; OBUF is unspecified (60_exceptions.md R245). -/
def Obligations.ErrorsArePrecise : Prop :=
  ∀ (w : Word64) (s t : State), s.phase ≠ .error → decode w ≠ .ok .compress → decode w ≠ .ok .decompress →
    handleCommand w s = .next t → t.phase = .error → ∃ e info, ErrorTaken e info s t

/-- An error inside a macro command is the error of one primitive: those before it keep their effects, the failing one is
undone, and none runs after it (60_exceptions.md R246). -/
def Obligations.MacroErrorsAreThoseOfOnePrimitive : Prop :=
  ∀ s t : State, s.phase = .idle → t.phase = .error →
    (exec .compress s = .next t →
      ∃ (n : Nat) (i : Instr) (u : State) (e : ErrorKind) (info : Word32),
        (compressSequence s.inLen.toNat)[n]? = some i ∧
        execAll ((compressSequence s.inLen.toNat).take n) s = .next u ∧ u.phase ≠ .error ∧
        exec i u = .next t ∧ ErrorTaken e info u t) ∧
    (exec .decompress s = .next t →
      (∃ e info, exec .decStart s = .next t ∧ ErrorTaken e info s t) ∨
      ∃ (n : Nat) (u : State) (e : ErrorKind) (info : Word32),
        execAll (decompressSequence n) s = .next u ∧ u.phase ≠ .error ∧ n < u.nDecl.toNat ∧
        exec .decStep u = .next t ∧ ErrorTaken e info u t)

/-- In ERROR an illegal word, every command but NOP, SOFT_RESET, CLEAR and RD_REG, and RD_REG of an unmapped address are
refused: no state changes, and the response says REFUSED. So errors never nest, and ERR_CODE and ERR_INFO hold the first
error until CLEAR or SOFT_RESET (60_exceptions.md R247, R248). -/
def Obligations.ErrorsNeverNest : Prop :=
  ∀ s : State, s.phase = .error →
    (∀ w : Word64, (∃ e, decode w = .error e) →
      handleCommand w s = .next { s with rsp := some (responseWord .refused s.errCode .error 0) }) ∧
    (∀ i : Instr, i ≠ .nop → i ≠ .softReset → i ≠ .clear → (∀ a, i ≠ .rdReg a) →
      exec i s = .next { s with rsp := some (responseWord .refused s.errCode .error 0) }) ∧
    (∀ a : BitVec 12, s.readRegister a.toNat = none →
      exec (.rdReg a) s = .next { s with rsp := some (responseWord .refused s.errCode .error 0) }) ∧
    ∀ (w : Word64) (t : State), handleCommand w s = .next t →
      (t.errCode = s.errCode ∧ t.errInfo = s.errInfo ∧ t.phase = .error) ∨
      decode w = .ok .clear ∨ decode w = .ok .softReset

/-- Only CLEAR, SOFT_RESET and rst_n leave ERROR, and each goes to IDLE and zeroes ERR_CODE and ERR_INFO; CLEAR keeps
IN_LEN and IBUF, SOFT_RESET sets PREC to 16 and IN_LEN to 0 (60_exceptions.md R249). -/
def Obligations.OnlyClearAndResetLeaveError : Prop :=
  ∀ s : State, s.phase = .error →
    (∀ t, step s = .next t → t.phase ≠ .error →
      t.phase = .idle ∧ t.errCode = 0 ∧ t.errInfo = 0 ∧
      ∃ (x : PortInput) (rest : List PortInput), s.port = x :: rest ∧
        (x = .reset ∨ (∃ w, x = .resetDuring w) ∨
          ∃ w, x = .command w ∧ (decode w = .ok .clear ∨ decode w = .ok .softReset))) ∧
    (∃ t, exec .clear s = .next t ∧ t.phase = .idle ∧ t.errCode = 0 ∧ t.errInfo = 0 ∧ t.inLen = s.inLen ∧
      t.ibuf = s.ibuf) ∧
    ∃ t, exec .softReset s = .next t ∧ t.phase = .idle ∧ t.errCode = 0 ∧ t.errInfo = 0 ∧ t.prec = 16 ∧ t.inLen = 0

/-- A command outside its phases, with PHASE not ERROR, raises ERR_PHASE with its opcode (30_encoding.md R89, R91
step 3). -/
def Obligations.CommandsOutsideTheirPhasesRaise : Prop :=
  ∀ (i : Instr) (s : State), s.phase ≠ .error →
    (match i with
      | .nop | .softReset | .clear | .rdReg _ => False
      | .setPrec _ | .inClear | .inWrite _ | .fmCount | .decStart | .compress | .decompress => s.phase ≠ .idle
      | .outRead _ => s.phase ≠ .encDone ∧ s.phase ≠ .decDone
      | .fmBuild => s.phase ≠ .counted
      | .encStart => s.phase ≠ .modelReady
      | .encStep | .encFinish => s.phase ≠ .encoding
      | .decStep => s.phase ≠ .decoding) →
    ∃ t, exec i s = .next t ∧ ErrorTaken .phase (i.mnemonic.opcode.setWidth 32) s t

/-- The errors each command can raise inside its phases (60_exceptions.md R242, R241). The two it lists as unreachable are
left out: they do not occur in a state of a run. -/
def Obligations.ErrorsEachCommandCanRaise : Prop :=
  ∀ (i : Instr) (s t : State), Inv s → s.phase ≠ .error → phasesOf i.mnemonic s.phase = true →
    exec i s = .next t → t.phase = .error →
    match i with
    | .nop | .softReset | .clear | .inClear | .decStep => False
    | .setPrec p => t.errCode = 0x03 ∧ t.errInfo = p.setWidth 32
    | .rdReg a => t.errCode = 0x11 ∧ t.errInfo = a.setWidth 32
    | .inWrite _ => t.errCode = 0x13 ∧ t.errInfo = 1
    | .outRead x => t.errCode = 0x11 ∧ t.errInfo = x
    | .fmCount => t.errCode = 0x01 ∧ t.errInfo = 0
    | .fmBuild => t.errCode = 0x03
    | .encStart => t.errCode = 0x13 ∧ t.errInfo = 2
    | .encStep => (t.errCode = 0x12 ∧ t.errInfo = 0x31) ∨ (t.errCode = 0x13 ∧ t.errInfo = 2)
    | .encFinish => t.errCode = 0x12 ∧ t.errInfo = 0x32
    | .decStart | .decompress =>
      (t.errCode = 0x04 ∧ t.errInfo = s.inLen) ∨ t.errCode = 0x02 ∨ (t.errCode = 0x13 ∧ t.errInfo = 2) ∨
        t.errCode = 0x03
    | .compress => (t.errCode = 0x01 ∧ t.errInfo = 0) ∨ t.errCode = 0x03 ∨ (t.errCode = 0x13 ∧ t.errInfo = 2)

/-! ### Whole-machine rules -/

/-- The reset state satisfies the invariant, for every legal pair of buffer sizes (00_scope.md R6, 10_state.md R53). That
`State.reset` has sizes 64 and 64 is the model's choice (log 6). -/
def Obligations.ResetSatisfiesTheInvariant : Prop :=
  (∀ a b : Word32, 1 ≤ a.toNat → a.toNat ≤ 2 ^ 28 → 1 ≤ b.toNat → b.toNat ≤ 2 ^ 28 → Inv (State.powerOn a b)) ∧
  Inv State.reset

/-- Every step keeps the invariant: the legal values of 10_state.md R21 in every phase, ERROR too (`RegistersLegal`), the
derived invariants of R49, the canonical form of the buffers, and what the command rules keep beside them. -/
def Obligations.EveryStepKeepsTheInvariant : Prop :=
  ∀ s t : State, Inv s → step s = .next t → Inv t

/-- Every step from a state with the invariant answers a next state that has it again: no command is refused by the model,
none stops, and each ends with OK, ERROR or REFUSED (60_exceptions.md R258, 30_encoding.md R87, 70_reset_and_hazards.md
R280, 20_memory.md R69). -/
def Obligations.EveryStepAnswersANextState : Prop :=
  ∀ s : State, Inv s → ∃ t, step s = .next t ∧ Inv t ∧
    ∀ (w : Word64) (rest : List PortInput), s.port = .command w :: rest →
      ∃ r : Word64, t.rsp = some r ∧
        (r.extractLsb' 56 8 = 0x00 ∨ r.extractLsb' 56 8 = 0x01 ∨ r.extractLsb' 56 8 = 0x02)

/-- The derived invariants (a) to (d) of 10_state.md R49 hold after every step. -/
def Obligations.DerivedInvariantsHoldAfterEveryStep : Prop :=
  ∀ s t : State, Inv s → step s = .next t →
    (t.phase = .encoding →
      t.lower.toNat ≤ 2 ^ t.prec.toNat / 2 ∧ 2 ^ t.prec.toNat / 2 ≤ t.upper.toNat ∧
      t.upper.toNat ≤ 2 ^ t.prec.toNat ∧ 2 ^ t.prec.toNat / 4 ≤ t.upper.toNat - t.lower.toNat ∧
      (t.lower.toNat ≤ 2 ^ t.prec.toNat / 4 ∨ 3 * (2 ^ t.prec.toNat / 4) ≤ t.upper.toNat)) ∧
    (t.phase = .decoding →
      t.lower.toNat ≤ 2 ^ t.prec.toNat / 2 ∧ 2 ^ t.prec.toNat / 2 ≤ t.upper.toNat ∧
      t.upper.toNat ≤ 2 ^ t.prec.toNat ∧ 2 ^ t.prec.toNat / 4 ≤ t.upper.toNat - t.lower.toNat ∧
      (t.lower.toNat ≤ 2 ^ t.prec.toNat / 4 ∨ 3 * (2 ^ t.prec.toNat / 4) ≤ t.upper.toNat) ∧
      t.lower.toNat ≤ t.tag.toNat ∧ t.tag.toNat < t.upper.toNat) ∧
    (t.phase = .modelReady ∨ t.phase = .encoding ∨ t.phase = .encDone ∨ t.phase = .decoding ∨ t.phase = .decDone →
      1 ≤ t.total.toNat ∧ t.total.toNat ≤ t.fmin.toNat * (2 ^ t.prec.toNat / 4)) ∧
    (t.outValid = true → t.phase = .encDone ∨ t.phase = .decDone)

/-- The input cannot change during an operation: outside IDLE no command but SOFT_RESET changes IBUF, IN_LEN or PREC, and
in IDLE only IN_CLEAR, IN_WRITE, SET_PREC and SOFT_RESET do (70_reset_and_hazards.md R277); the sizes never change
(10_state.md R31). -/
def Obligations.TheInputIsConstantDuringAnOperation : Prop :=
  ∀ (i : Instr) (s t : State), exec i s = .next t →
    (i ≠ .softReset → s.phase ≠ .idle → t.ibuf = s.ibuf ∧ t.inLen = s.inLen ∧ t.prec = s.prec) ∧
    (i ≠ .softReset → i ≠ .inClear → (∀ b, i ≠ .inWrite b) → (∀ p, i ≠ .setPrec p) →
      t.ibuf = s.ibuf ∧ t.inLen = s.inLen ∧ t.prec = s.prec) ∧
    t.ibufSize = s.ibufSize ∧ t.obufSize = s.obufSize

/-- The phase transitions of 10_state.md R25: NOP leaves PHASE as it is in every phase, RD_REG and OUT_READ do unless they
raise an error, CLEAR and SOFT_RESET go to IDLE from every phase, and any other command that takes no error goes where its
row says. In ERROR every command but CLEAR and SOFT_RESET, refused or not, leaves PHASE at ERROR. -/
def Obligations.PhaseTransitions : Prop :=
  ∀ (i : Instr) (s t : State), Inv s → exec i s = .next t →
    (s.phase = .error → i ≠ .clear → i ≠ .softReset → t.phase = .error) ∧
    match i with
    | .nop => t.phase = s.phase
    | .softReset | .clear => t.phase = .idle
    | .rdReg _ | .outRead _ => t.phase ≠ .error → t.phase = s.phase
    | .setPrec _ | .inClear | .inWrite _ => t.phase ≠ .error → s.phase = .idle ∧ t.phase = .idle
    | .fmCount => t.phase ≠ .error → s.phase = .idle ∧ t.phase = .counted
    | .fmBuild => t.phase ≠ .error → s.phase = .counted ∧ t.phase = .modelReady
    | .encStart => t.phase ≠ .error → s.phase = .modelReady ∧ t.phase = .encoding
    | .encStep => t.phase ≠ .error → s.phase = .encoding ∧ t.phase = .encoding
    | .encFinish => t.phase ≠ .error → s.phase = .encoding ∧ t.phase = .encDone
    | .compress => t.phase ≠ .error → s.phase = .idle ∧ t.phase = .encDone
    | .decStart => t.phase ≠ .error → s.phase = .idle ∧ t.phase = .decoding
    | .decStep => t.phase ≠ .error → s.phase = .decoding ∧
        ((s.decCount.toNat + 1 < s.nDecl.toNat ∧ t.phase = .decoding) ∨
          (s.decCount.toNat + 1 = s.nDecl.toNat ∧ t.phase = .decDone))
    | .decompress => t.phase ≠ .error → s.phase = .idle ∧ t.phase = .decDone
end

