-- ==== Sys2Proof/Laws/State.lean ====
section
/-! SUPPORT. One lemma per field per update of the state, so that no later proof unfolds a record update. -/

namespace Sys2Proof.Machine

variable (s : State)

/-! ### respond -/

@[simp] theorem respond_port (st : RspStatus) (d : Word32) : (s.respond st d).port = s.port := rfl
@[simp] theorem respond_rsp (st : RspStatus) (d : Word32) : (s.respond st d).rsp = some (responseWord st s.errCode s.phase d) := rfl
@[simp] theorem respond_phase (st : RspStatus) (d : Word32) : (s.respond st d).phase = s.phase := rfl
@[simp] theorem respond_outValid (st : RspStatus) (d : Word32) : (s.respond st d).outValid = s.outValid := rfl
@[simp] theorem respond_errCode (st : RspStatus) (d : Word32) : (s.respond st d).errCode = s.errCode := rfl
@[simp] theorem respond_errInfo (st : RspStatus) (d : Word32) : (s.respond st d).errInfo = s.errInfo := rfl
@[simp] theorem respond_prec (st : RspStatus) (d : Word32) : (s.respond st d).prec = s.prec := rfl
@[simp] theorem respond_ibufSize (st : RspStatus) (d : Word32) : (s.respond st d).ibufSize = s.ibufSize := rfl
@[simp] theorem respond_obufSize (st : RspStatus) (d : Word32) : (s.respond st d).obufSize = s.obufSize := rfl
@[simp] theorem respond_inLen (st : RspStatus) (d : Word32) : (s.respond st d).inLen = s.inLen := rfl
@[simp] theorem respond_outLen (st : RspStatus) (d : Word32) : (s.respond st d).outLen = s.outLen := rfl
@[simp] theorem respond_total (st : RspStatus) (d : Word32) : (s.respond st d).total = s.total := rfl
@[simp] theorem respond_symCount (st : RspStatus) (d : Word32) : (s.respond st d).symCount = s.symCount := rfl
@[simp] theorem respond_fmin (st : RspStatus) (d : Word32) : (s.respond st d).fmin = s.fmin := rfl
@[simp] theorem respond_hdrLen (st : RspStatus) (d : Word32) : (s.respond st d).hdrLen = s.hdrLen := rfl
@[simp] theorem respond_lower (st : RspStatus) (d : Word32) : (s.respond st d).lower = s.lower := rfl
@[simp] theorem respond_upper (st : RspStatus) (d : Word32) : (s.respond st d).upper = s.upper := rfl
@[simp] theorem respond_pending (st : RspStatus) (d : Word32) : (s.respond st d).pending = s.pending := rfl
@[simp] theorem respond_tag (st : RspStatus) (d : Word32) : (s.respond st d).tag = s.tag := rfl
@[simp] theorem respond_bitCount (st : RspStatus) (d : Word32) : (s.respond st d).bitCount = s.bitCount := rfl
@[simp] theorem respond_rdIdx (st : RspStatus) (d : Word32) : (s.respond st d).rdIdx = s.rdIdx := rfl
@[simp] theorem respond_bitLen (st : RspStatus) (d : Word32) : (s.respond st d).bitLen = s.bitLen := rfl
@[simp] theorem respond_encPos (st : RspStatus) (d : Word32) : (s.respond st d).encPos = s.encPos := rfl
@[simp] theorem respond_decCount (st : RspStatus) (d : Word32) : (s.respond st d).decCount = s.decCount := rfl
@[simp] theorem respond_nDecl (st : RspStatus) (d : Word32) : (s.respond st d).nDecl = s.nDecl := rfl
@[simp] theorem respond_freq (st : RspStatus) (d : Word32) : (s.respond st d).freq = s.freq := rfl
@[simp] theorem respond_cumLow (st : RspStatus) (d : Word32) : (s.respond st d).cumLow = s.cumLow := rfl
@[simp] theorem respond_cumHigh (st : RspStatus) (d : Word32) : (s.respond st d).cumHigh = s.cumHigh := rfl
@[simp] theorem respond_ibuf (st : RspStatus) (d : Word32) : (s.respond st d).ibuf = s.ibuf := rfl
@[simp] theorem respond_obuf (st : RspStatus) (d : Word32) : (s.respond st d).obuf = s.obuf := rfl

/-! ### takeError -/

@[simp] theorem takeError_port (e : ErrorKind) (i : Word32) : (takeError e i s).port = s.port := rfl
@[simp] theorem takeError_rsp (e : ErrorKind) (i : Word32) : (takeError e i s).rsp = some (responseWord .error e.code .error 0) := rfl
@[simp] theorem takeError_phase (e : ErrorKind) (i : Word32) : (takeError e i s).phase = .error := rfl
@[simp] theorem takeError_outValid (e : ErrorKind) (i : Word32) : (takeError e i s).outValid = false := rfl
@[simp] theorem takeError_errCode (e : ErrorKind) (i : Word32) : (takeError e i s).errCode = e.code := rfl
@[simp] theorem takeError_errInfo (e : ErrorKind) (i : Word32) : (takeError e i s).errInfo = i := rfl
@[simp] theorem takeError_prec (e : ErrorKind) (i : Word32) : (takeError e i s).prec = s.prec := rfl
@[simp] theorem takeError_ibufSize (e : ErrorKind) (i : Word32) : (takeError e i s).ibufSize = s.ibufSize := rfl
@[simp] theorem takeError_obufSize (e : ErrorKind) (i : Word32) : (takeError e i s).obufSize = s.obufSize := rfl
@[simp] theorem takeError_inLen (e : ErrorKind) (i : Word32) : (takeError e i s).inLen = s.inLen := rfl
@[simp] theorem takeError_outLen (e : ErrorKind) (i : Word32) : (takeError e i s).outLen = 0 := rfl
@[simp] theorem takeError_total (e : ErrorKind) (i : Word32) : (takeError e i s).total = s.total := rfl
@[simp] theorem takeError_symCount (e : ErrorKind) (i : Word32) : (takeError e i s).symCount = s.symCount := rfl
@[simp] theorem takeError_fmin (e : ErrorKind) (i : Word32) : (takeError e i s).fmin = s.fmin := rfl
@[simp] theorem takeError_hdrLen (e : ErrorKind) (i : Word32) : (takeError e i s).hdrLen = s.hdrLen := rfl
@[simp] theorem takeError_lower (e : ErrorKind) (i : Word32) : (takeError e i s).lower = s.lower := rfl
@[simp] theorem takeError_upper (e : ErrorKind) (i : Word32) : (takeError e i s).upper = s.upper := rfl
@[simp] theorem takeError_pending (e : ErrorKind) (i : Word32) : (takeError e i s).pending = s.pending := rfl
@[simp] theorem takeError_tag (e : ErrorKind) (i : Word32) : (takeError e i s).tag = s.tag := rfl
@[simp] theorem takeError_bitCount (e : ErrorKind) (i : Word32) : (takeError e i s).bitCount = s.bitCount := rfl
@[simp] theorem takeError_rdIdx (e : ErrorKind) (i : Word32) : (takeError e i s).rdIdx = s.rdIdx := rfl
@[simp] theorem takeError_bitLen (e : ErrorKind) (i : Word32) : (takeError e i s).bitLen = s.bitLen := rfl
@[simp] theorem takeError_encPos (e : ErrorKind) (i : Word32) : (takeError e i s).encPos = s.encPos := rfl
@[simp] theorem takeError_decCount (e : ErrorKind) (i : Word32) : (takeError e i s).decCount = s.decCount := rfl
@[simp] theorem takeError_nDecl (e : ErrorKind) (i : Word32) : (takeError e i s).nDecl = s.nDecl := rfl
@[simp] theorem takeError_freq (e : ErrorKind) (i : Word32) : (takeError e i s).freq = s.freq := rfl
@[simp] theorem takeError_cumLow (e : ErrorKind) (i : Word32) : (takeError e i s).cumLow = s.cumLow := rfl
@[simp] theorem takeError_cumHigh (e : ErrorKind) (i : Word32) : (takeError e i s).cumHigh = s.cumHigh := rfl
@[simp] theorem takeError_ibuf (e : ErrorKind) (i : Word32) : (takeError e i s).ibuf = s.ibuf := rfl
@[simp] theorem takeError_obuf (e : ErrorKind) (i : Word32) : (takeError e i s).obuf = s.obuf.unspecified := rfl

/-! ### refuse -/

@[simp] theorem refuse_port : (refuse s).port = s.port := rfl
@[simp] theorem refuse_rsp : (refuse s).rsp = some (responseWord .refused s.errCode s.phase 0) := rfl
@[simp] theorem refuse_phase : (refuse s).phase = s.phase := rfl
@[simp] theorem refuse_outValid : (refuse s).outValid = s.outValid := rfl
@[simp] theorem refuse_errCode : (refuse s).errCode = s.errCode := rfl
@[simp] theorem refuse_errInfo : (refuse s).errInfo = s.errInfo := rfl
@[simp] theorem refuse_prec : (refuse s).prec = s.prec := rfl
@[simp] theorem refuse_ibufSize : (refuse s).ibufSize = s.ibufSize := rfl
@[simp] theorem refuse_obufSize : (refuse s).obufSize = s.obufSize := rfl
@[simp] theorem refuse_inLen : (refuse s).inLen = s.inLen := rfl
@[simp] theorem refuse_outLen : (refuse s).outLen = s.outLen := rfl
@[simp] theorem refuse_total : (refuse s).total = s.total := rfl
@[simp] theorem refuse_symCount : (refuse s).symCount = s.symCount := rfl
@[simp] theorem refuse_fmin : (refuse s).fmin = s.fmin := rfl
@[simp] theorem refuse_hdrLen : (refuse s).hdrLen = s.hdrLen := rfl
@[simp] theorem refuse_lower : (refuse s).lower = s.lower := rfl
@[simp] theorem refuse_upper : (refuse s).upper = s.upper := rfl
@[simp] theorem refuse_pending : (refuse s).pending = s.pending := rfl
@[simp] theorem refuse_tag : (refuse s).tag = s.tag := rfl
@[simp] theorem refuse_bitCount : (refuse s).bitCount = s.bitCount := rfl
@[simp] theorem refuse_rdIdx : (refuse s).rdIdx = s.rdIdx := rfl
@[simp] theorem refuse_bitLen : (refuse s).bitLen = s.bitLen := rfl
@[simp] theorem refuse_encPos : (refuse s).encPos = s.encPos := rfl
@[simp] theorem refuse_decCount : (refuse s).decCount = s.decCount := rfl
@[simp] theorem refuse_nDecl : (refuse s).nDecl = s.nDecl := rfl
@[simp] theorem refuse_freq : (refuse s).freq = s.freq := rfl
@[simp] theorem refuse_cumLow : (refuse s).cumLow = s.cumLow := rfl
@[simp] theorem refuse_cumHigh : (refuse s).cumHigh = s.cumHigh := rfl
@[simp] theorem refuse_ibuf : (refuse s).ibuf = s.ibuf := rfl
@[simp] theorem refuse_obuf : (refuse s).obuf = s.obuf := rfl

/-! ### resetRegisters -/

@[simp] theorem resetRegisters_port : (resetRegisters s).port = s.port := rfl
@[simp] theorem resetRegisters_rsp : (resetRegisters s).rsp = s.rsp := rfl
@[simp] theorem resetRegisters_phase : (resetRegisters s).phase = .idle := rfl
@[simp] theorem resetRegisters_outValid : (resetRegisters s).outValid = false := rfl
@[simp] theorem resetRegisters_errCode : (resetRegisters s).errCode = 0 := rfl
@[simp] theorem resetRegisters_errInfo : (resetRegisters s).errInfo = 0 := rfl
@[simp] theorem resetRegisters_prec : (resetRegisters s).prec = 16 := rfl
@[simp] theorem resetRegisters_ibufSize : (resetRegisters s).ibufSize = s.ibufSize := rfl
@[simp] theorem resetRegisters_obufSize : (resetRegisters s).obufSize = s.obufSize := rfl
@[simp] theorem resetRegisters_inLen : (resetRegisters s).inLen = 0 := rfl
@[simp] theorem resetRegisters_outLen : (resetRegisters s).outLen = 0 := rfl
@[simp] theorem resetRegisters_total : (resetRegisters s).total = 0 := rfl
@[simp] theorem resetRegisters_symCount : (resetRegisters s).symCount = 0 := rfl
@[simp] theorem resetRegisters_fmin : (resetRegisters s).fmin = 0 := rfl
@[simp] theorem resetRegisters_hdrLen : (resetRegisters s).hdrLen = 0 := rfl
@[simp] theorem resetRegisters_lower : (resetRegisters s).lower = 0 := rfl
@[simp] theorem resetRegisters_upper : (resetRegisters s).upper = 0 := rfl
@[simp] theorem resetRegisters_pending : (resetRegisters s).pending = 0 := rfl
@[simp] theorem resetRegisters_tag : (resetRegisters s).tag = 0 := rfl
@[simp] theorem resetRegisters_bitCount : (resetRegisters s).bitCount = 0 := rfl
@[simp] theorem resetRegisters_rdIdx : (resetRegisters s).rdIdx = 0 := rfl
@[simp] theorem resetRegisters_bitLen : (resetRegisters s).bitLen = 0 := rfl
@[simp] theorem resetRegisters_encPos : (resetRegisters s).encPos = 0 := rfl
@[simp] theorem resetRegisters_decCount : (resetRegisters s).decCount = 0 := rfl
@[simp] theorem resetRegisters_nDecl : (resetRegisters s).nDecl = 0 := rfl
@[simp] theorem resetRegisters_freq : (resetRegisters s).freq = Vector.replicate 256 0 := rfl
@[simp] theorem resetRegisters_cumLow : (resetRegisters s).cumLow = Vector.replicate 256 0 := rfl
@[simp] theorem resetRegisters_cumHigh : (resetRegisters s).cumHigh = Vector.replicate 256 0 := rfl
@[simp] theorem resetRegisters_ibuf : (resetRegisters s).ibuf = s.ibuf := rfl
@[simp] theorem resetRegisters_obuf : (resetRegisters s).obuf = s.obuf := rfl

/-! ### clearRegisters -/

@[simp] theorem clearRegisters_port : (clearRegisters s).port = s.port := rfl
@[simp] theorem clearRegisters_rsp : (clearRegisters s).rsp = s.rsp := rfl
@[simp] theorem clearRegisters_phase : (clearRegisters s).phase = .idle := rfl
@[simp] theorem clearRegisters_outValid : (clearRegisters s).outValid = false := rfl
@[simp] theorem clearRegisters_errCode : (clearRegisters s).errCode = 0 := rfl
@[simp] theorem clearRegisters_errInfo : (clearRegisters s).errInfo = 0 := rfl
@[simp] theorem clearRegisters_prec : (clearRegisters s).prec = s.prec := rfl
@[simp] theorem clearRegisters_ibufSize : (clearRegisters s).ibufSize = s.ibufSize := rfl
@[simp] theorem clearRegisters_obufSize : (clearRegisters s).obufSize = s.obufSize := rfl
@[simp] theorem clearRegisters_inLen : (clearRegisters s).inLen = s.inLen := rfl
@[simp] theorem clearRegisters_outLen : (clearRegisters s).outLen = 0 := rfl
@[simp] theorem clearRegisters_total : (clearRegisters s).total = 0 := rfl
@[simp] theorem clearRegisters_symCount : (clearRegisters s).symCount = 0 := rfl
@[simp] theorem clearRegisters_fmin : (clearRegisters s).fmin = 0 := rfl
@[simp] theorem clearRegisters_hdrLen : (clearRegisters s).hdrLen = 0 := rfl
@[simp] theorem clearRegisters_lower : (clearRegisters s).lower = 0 := rfl
@[simp] theorem clearRegisters_upper : (clearRegisters s).upper = 0 := rfl
@[simp] theorem clearRegisters_pending : (clearRegisters s).pending = 0 := rfl
@[simp] theorem clearRegisters_tag : (clearRegisters s).tag = 0 := rfl
@[simp] theorem clearRegisters_bitCount : (clearRegisters s).bitCount = 0 := rfl
@[simp] theorem clearRegisters_rdIdx : (clearRegisters s).rdIdx = 0 := rfl
@[simp] theorem clearRegisters_bitLen : (clearRegisters s).bitLen = 0 := rfl
@[simp] theorem clearRegisters_encPos : (clearRegisters s).encPos = 0 := rfl
@[simp] theorem clearRegisters_decCount : (clearRegisters s).decCount = 0 := rfl
@[simp] theorem clearRegisters_nDecl : (clearRegisters s).nDecl = 0 := rfl
@[simp] theorem clearRegisters_freq : (clearRegisters s).freq = Vector.replicate 256 0 := rfl
@[simp] theorem clearRegisters_cumLow : (clearRegisters s).cumLow = Vector.replicate 256 0 := rfl
@[simp] theorem clearRegisters_cumHigh : (clearRegisters s).cumHigh = Vector.replicate 256 0 := rfl
@[simp] theorem clearRegisters_ibuf : (clearRegisters s).ibuf = s.ibuf := rfl
@[simp] theorem clearRegisters_obuf : (clearRegisters s).obuf = s.obuf := rfl

/-! ### hardReset -/

@[simp] theorem hardReset_port : (hardReset s).port = s.port := rfl
@[simp] theorem hardReset_rsp : (hardReset s).rsp = none := rfl
@[simp] theorem hardReset_phase : (hardReset s).phase = .idle := rfl
@[simp] theorem hardReset_outValid : (hardReset s).outValid = false := rfl
@[simp] theorem hardReset_errCode : (hardReset s).errCode = 0 := rfl
@[simp] theorem hardReset_errInfo : (hardReset s).errInfo = 0 := rfl
@[simp] theorem hardReset_prec : (hardReset s).prec = 16 := rfl
@[simp] theorem hardReset_ibufSize : (hardReset s).ibufSize = s.ibufSize := rfl
@[simp] theorem hardReset_obufSize : (hardReset s).obufSize = s.obufSize := rfl
@[simp] theorem hardReset_inLen : (hardReset s).inLen = 0 := rfl
@[simp] theorem hardReset_outLen : (hardReset s).outLen = 0 := rfl
@[simp] theorem hardReset_total : (hardReset s).total = 0 := rfl
@[simp] theorem hardReset_symCount : (hardReset s).symCount = 0 := rfl
@[simp] theorem hardReset_fmin : (hardReset s).fmin = 0 := rfl
@[simp] theorem hardReset_hdrLen : (hardReset s).hdrLen = 0 := rfl
@[simp] theorem hardReset_lower : (hardReset s).lower = 0 := rfl
@[simp] theorem hardReset_upper : (hardReset s).upper = 0 := rfl
@[simp] theorem hardReset_pending : (hardReset s).pending = 0 := rfl
@[simp] theorem hardReset_tag : (hardReset s).tag = 0 := rfl
@[simp] theorem hardReset_bitCount : (hardReset s).bitCount = 0 := rfl
@[simp] theorem hardReset_rdIdx : (hardReset s).rdIdx = 0 := rfl
@[simp] theorem hardReset_bitLen : (hardReset s).bitLen = 0 := rfl
@[simp] theorem hardReset_encPos : (hardReset s).encPos = 0 := rfl
@[simp] theorem hardReset_decCount : (hardReset s).decCount = 0 := rfl
@[simp] theorem hardReset_nDecl : (hardReset s).nDecl = 0 := rfl
@[simp] theorem hardReset_freq : (hardReset s).freq = Vector.replicate 256 0 := rfl
@[simp] theorem hardReset_cumLow : (hardReset s).cumLow = Vector.replicate 256 0 := rfl
@[simp] theorem hardReset_cumHigh : (hardReset s).cumHigh = Vector.replicate 256 0 := rfl
@[simp] theorem hardReset_ibuf : (hardReset s).ibuf = s.ibuf := rfl
@[simp] theorem hardReset_obuf : (hardReset s).obuf = s.obuf := rfl

/-! ### abandon -/

@[simp] theorem abandon_port (w : Word64) : (abandon w s).port = s.port := rfl
@[simp] theorem abandon_rsp (w : Word64) : (abandon w s).rsp = none := rfl
@[simp] theorem abandon_phase (w : Word64) : (abandon w s).phase = .idle := rfl
@[simp] theorem abandon_outValid (w : Word64) : (abandon w s).outValid = false := rfl
@[simp] theorem abandon_errCode (w : Word64) : (abandon w s).errCode = 0 := rfl
@[simp] theorem abandon_errInfo (w : Word64) : (abandon w s).errInfo = 0 := rfl
@[simp] theorem abandon_prec (w : Word64) : (abandon w s).prec = 16 := rfl
@[simp] theorem abandon_ibufSize (w : Word64) : (abandon w s).ibufSize = s.ibufSize := rfl
@[simp] theorem abandon_obufSize (w : Word64) : (abandon w s).obufSize = s.obufSize := rfl
@[simp] theorem abandon_inLen (w : Word64) : (abandon w s).inLen = 0 := rfl
@[simp] theorem abandon_outLen (w : Word64) : (abandon w s).outLen = 0 := rfl
@[simp] theorem abandon_total (w : Word64) : (abandon w s).total = 0 := rfl
@[simp] theorem abandon_symCount (w : Word64) : (abandon w s).symCount = 0 := rfl
@[simp] theorem abandon_fmin (w : Word64) : (abandon w s).fmin = 0 := rfl
@[simp] theorem abandon_hdrLen (w : Word64) : (abandon w s).hdrLen = 0 := rfl
@[simp] theorem abandon_lower (w : Word64) : (abandon w s).lower = 0 := rfl
@[simp] theorem abandon_upper (w : Word64) : (abandon w s).upper = 0 := rfl
@[simp] theorem abandon_pending (w : Word64) : (abandon w s).pending = 0 := rfl
@[simp] theorem abandon_tag (w : Word64) : (abandon w s).tag = 0 := rfl
@[simp] theorem abandon_bitCount (w : Word64) : (abandon w s).bitCount = 0 := rfl
@[simp] theorem abandon_rdIdx (w : Word64) : (abandon w s).rdIdx = 0 := rfl
@[simp] theorem abandon_bitLen (w : Word64) : (abandon w s).bitLen = 0 := rfl
@[simp] theorem abandon_encPos (w : Word64) : (abandon w s).encPos = 0 := rfl
@[simp] theorem abandon_decCount (w : Word64) : (abandon w s).decCount = 0 := rfl
@[simp] theorem abandon_nDecl (w : Word64) : (abandon w s).nDecl = 0 := rfl
@[simp] theorem abandon_freq (w : Word64) : (abandon w s).freq = Vector.replicate 256 0 := rfl
@[simp] theorem abandon_cumLow (w : Word64) : (abandon w s).cumLow = Vector.replicate 256 0 := rfl
@[simp] theorem abandon_cumHigh (w : Word64) : (abandon w s).cumHigh = Vector.replicate 256 0 := rfl
@[simp] theorem abandon_ibuf (w : Word64) : (abandon w s).ibuf = abandonedIbuf w s := rfl
@[simp] theorem abandon_obuf (w : Word64) : (abandon w s).obuf = abandonedObuf w s := rfl

/-! ### writeObuf -/

@[simp] theorem writeObuf_port (a : Nat) (v : Byte) : (s.writeObuf a v).port = s.port := rfl
@[simp] theorem writeObuf_rsp (a : Nat) (v : Byte) : (s.writeObuf a v).rsp = s.rsp := rfl
@[simp] theorem writeObuf_phase (a : Nat) (v : Byte) : (s.writeObuf a v).phase = s.phase := rfl
@[simp] theorem writeObuf_outValid (a : Nat) (v : Byte) : (s.writeObuf a v).outValid = s.outValid := rfl
@[simp] theorem writeObuf_errCode (a : Nat) (v : Byte) : (s.writeObuf a v).errCode = s.errCode := rfl
@[simp] theorem writeObuf_errInfo (a : Nat) (v : Byte) : (s.writeObuf a v).errInfo = s.errInfo := rfl
@[simp] theorem writeObuf_prec (a : Nat) (v : Byte) : (s.writeObuf a v).prec = s.prec := rfl
@[simp] theorem writeObuf_ibufSize (a : Nat) (v : Byte) : (s.writeObuf a v).ibufSize = s.ibufSize := rfl
@[simp] theorem writeObuf_obufSize (a : Nat) (v : Byte) : (s.writeObuf a v).obufSize = s.obufSize := rfl
@[simp] theorem writeObuf_inLen (a : Nat) (v : Byte) : (s.writeObuf a v).inLen = s.inLen := rfl
@[simp] theorem writeObuf_outLen (a : Nat) (v : Byte) : (s.writeObuf a v).outLen = s.outLen := rfl
@[simp] theorem writeObuf_total (a : Nat) (v : Byte) : (s.writeObuf a v).total = s.total := rfl
@[simp] theorem writeObuf_symCount (a : Nat) (v : Byte) : (s.writeObuf a v).symCount = s.symCount := rfl
@[simp] theorem writeObuf_fmin (a : Nat) (v : Byte) : (s.writeObuf a v).fmin = s.fmin := rfl
@[simp] theorem writeObuf_hdrLen (a : Nat) (v : Byte) : (s.writeObuf a v).hdrLen = s.hdrLen := rfl
@[simp] theorem writeObuf_lower (a : Nat) (v : Byte) : (s.writeObuf a v).lower = s.lower := rfl
@[simp] theorem writeObuf_upper (a : Nat) (v : Byte) : (s.writeObuf a v).upper = s.upper := rfl
@[simp] theorem writeObuf_pending (a : Nat) (v : Byte) : (s.writeObuf a v).pending = s.pending := rfl
@[simp] theorem writeObuf_tag (a : Nat) (v : Byte) : (s.writeObuf a v).tag = s.tag := rfl
@[simp] theorem writeObuf_bitCount (a : Nat) (v : Byte) : (s.writeObuf a v).bitCount = s.bitCount := rfl
@[simp] theorem writeObuf_rdIdx (a : Nat) (v : Byte) : (s.writeObuf a v).rdIdx = s.rdIdx := rfl
@[simp] theorem writeObuf_bitLen (a : Nat) (v : Byte) : (s.writeObuf a v).bitLen = s.bitLen := rfl
@[simp] theorem writeObuf_encPos (a : Nat) (v : Byte) : (s.writeObuf a v).encPos = s.encPos := rfl
@[simp] theorem writeObuf_decCount (a : Nat) (v : Byte) : (s.writeObuf a v).decCount = s.decCount := rfl
@[simp] theorem writeObuf_nDecl (a : Nat) (v : Byte) : (s.writeObuf a v).nDecl = s.nDecl := rfl
@[simp] theorem writeObuf_freq (a : Nat) (v : Byte) : (s.writeObuf a v).freq = s.freq := rfl
@[simp] theorem writeObuf_cumLow (a : Nat) (v : Byte) : (s.writeObuf a v).cumLow = s.cumLow := rfl
@[simp] theorem writeObuf_cumHigh (a : Nat) (v : Byte) : (s.writeObuf a v).cumHigh = s.cumHigh := rfl
@[simp] theorem writeObuf_ibuf (a : Nat) (v : Byte) : (s.writeObuf a v).ibuf = s.ibuf := rfl
@[simp] theorem writeObuf_obuf (a : Nat) (v : Byte) : (s.writeObuf a v).obuf = s.obuf.write a v := rfl

/-! ### sinkFinalize -/

@[simp] theorem sinkFinalize_port : s.sinkFinalize.port = s.port := rfl
@[simp] theorem sinkFinalize_rsp : s.sinkFinalize.rsp = s.rsp := rfl
@[simp] theorem sinkFinalize_phase : s.sinkFinalize.phase = s.phase := rfl
@[simp] theorem sinkFinalize_outValid : s.sinkFinalize.outValid = s.outValid := rfl
@[simp] theorem sinkFinalize_errCode : s.sinkFinalize.errCode = s.errCode := rfl
@[simp] theorem sinkFinalize_errInfo : s.sinkFinalize.errInfo = s.errInfo := rfl
@[simp] theorem sinkFinalize_prec : s.sinkFinalize.prec = s.prec := rfl
@[simp] theorem sinkFinalize_ibufSize : s.sinkFinalize.ibufSize = s.ibufSize := rfl
@[simp] theorem sinkFinalize_obufSize : s.sinkFinalize.obufSize = s.obufSize := rfl
@[simp] theorem sinkFinalize_inLen : s.sinkFinalize.inLen = s.inLen := rfl
@[simp] theorem sinkFinalize_outLen : s.sinkFinalize.outLen = BitVec.ofNat 32 (s.hdrLen.toNat + (s.bitCount.toNat + 7) / 8) := rfl
@[simp] theorem sinkFinalize_total : s.sinkFinalize.total = s.total := rfl
@[simp] theorem sinkFinalize_symCount : s.sinkFinalize.symCount = s.symCount := rfl
@[simp] theorem sinkFinalize_fmin : s.sinkFinalize.fmin = s.fmin := rfl
@[simp] theorem sinkFinalize_hdrLen : s.sinkFinalize.hdrLen = s.hdrLen := rfl
@[simp] theorem sinkFinalize_lower : s.sinkFinalize.lower = s.lower := rfl
@[simp] theorem sinkFinalize_upper : s.sinkFinalize.upper = s.upper := rfl
@[simp] theorem sinkFinalize_pending : s.sinkFinalize.pending = s.pending := rfl
@[simp] theorem sinkFinalize_tag : s.sinkFinalize.tag = s.tag := rfl
@[simp] theorem sinkFinalize_bitCount : s.sinkFinalize.bitCount = s.bitCount := rfl
@[simp] theorem sinkFinalize_rdIdx : s.sinkFinalize.rdIdx = s.rdIdx := rfl
@[simp] theorem sinkFinalize_bitLen : s.sinkFinalize.bitLen = s.bitLen := rfl
@[simp] theorem sinkFinalize_encPos : s.sinkFinalize.encPos = s.encPos := rfl
@[simp] theorem sinkFinalize_decCount : s.sinkFinalize.decCount = s.decCount := rfl
@[simp] theorem sinkFinalize_nDecl : s.sinkFinalize.nDecl = s.nDecl := rfl
@[simp] theorem sinkFinalize_freq : s.sinkFinalize.freq = s.freq := rfl
@[simp] theorem sinkFinalize_cumLow : s.sinkFinalize.cumLow = s.cumLow := rfl
@[simp] theorem sinkFinalize_cumHigh : s.sinkFinalize.cumHigh = s.cumHigh := rfl
@[simp] theorem sinkFinalize_ibuf : s.sinkFinalize.ibuf = s.ibuf := rfl
@[simp] theorem sinkFinalize_obuf : s.sinkFinalize.obuf = s.obuf := rfl

/-! ### withModel -/

@[simp] theorem withModel_port (m : ModelRegs) : (s.withModel m).port = s.port := rfl
@[simp] theorem withModel_rsp (m : ModelRegs) : (s.withModel m).rsp = s.rsp := rfl
@[simp] theorem withModel_phase (m : ModelRegs) : (s.withModel m).phase = s.phase := rfl
@[simp] theorem withModel_outValid (m : ModelRegs) : (s.withModel m).outValid = s.outValid := rfl
@[simp] theorem withModel_errCode (m : ModelRegs) : (s.withModel m).errCode = s.errCode := rfl
@[simp] theorem withModel_errInfo (m : ModelRegs) : (s.withModel m).errInfo = s.errInfo := rfl
@[simp] theorem withModel_prec (m : ModelRegs) : (s.withModel m).prec = s.prec := rfl
@[simp] theorem withModel_ibufSize (m : ModelRegs) : (s.withModel m).ibufSize = s.ibufSize := rfl
@[simp] theorem withModel_obufSize (m : ModelRegs) : (s.withModel m).obufSize = s.obufSize := rfl
@[simp] theorem withModel_inLen (m : ModelRegs) : (s.withModel m).inLen = s.inLen := rfl
@[simp] theorem withModel_outLen (m : ModelRegs) : (s.withModel m).outLen = s.outLen := rfl
@[simp] theorem withModel_total (m : ModelRegs) : (s.withModel m).total = BitVec.ofNat 32 m.total := rfl
@[simp] theorem withModel_symCount (m : ModelRegs) : (s.withModel m).symCount = BitVec.ofNat 9 m.symCount := rfl
@[simp] theorem withModel_fmin (m : ModelRegs) : (s.withModel m).fmin = BitVec.ofNat 32 m.fmin := rfl
@[simp] theorem withModel_hdrLen (m : ModelRegs) : (s.withModel m).hdrLen = s.hdrLen := rfl
@[simp] theorem withModel_lower (m : ModelRegs) : (s.withModel m).lower = s.lower := rfl
@[simp] theorem withModel_upper (m : ModelRegs) : (s.withModel m).upper = s.upper := rfl
@[simp] theorem withModel_pending (m : ModelRegs) : (s.withModel m).pending = s.pending := rfl
@[simp] theorem withModel_tag (m : ModelRegs) : (s.withModel m).tag = s.tag := rfl
@[simp] theorem withModel_bitCount (m : ModelRegs) : (s.withModel m).bitCount = s.bitCount := rfl
@[simp] theorem withModel_rdIdx (m : ModelRegs) : (s.withModel m).rdIdx = s.rdIdx := rfl
@[simp] theorem withModel_bitLen (m : ModelRegs) : (s.withModel m).bitLen = s.bitLen := rfl
@[simp] theorem withModel_encPos (m : ModelRegs) : (s.withModel m).encPos = s.encPos := rfl
@[simp] theorem withModel_decCount (m : ModelRegs) : (s.withModel m).decCount = s.decCount := rfl
@[simp] theorem withModel_nDecl (m : ModelRegs) : (s.withModel m).nDecl = s.nDecl := rfl
@[simp] theorem withModel_freq (m : ModelRegs) : (s.withModel m).freq = s.freq := rfl
@[simp] theorem withModel_cumLow (m : ModelRegs) : (s.withModel m).cumLow = m.cumLow := rfl
@[simp] theorem withModel_cumHigh (m : ModelRegs) : (s.withModel m).cumHigh = m.cumHigh := rfl
@[simp] theorem withModel_ibuf (m : ModelRegs) : (s.withModel m).ibuf = s.ibuf := rfl
@[simp] theorem withModel_obuf (m : ModelRegs) : (s.withModel m).obuf = s.obuf := rfl

/-! ### decLoad -/

@[simp] theorem decLoad_port (h : Header) : (s.decLoad h).port = s.port := rfl
@[simp] theorem decLoad_rsp (h : Header) : (s.decLoad h).rsp = s.rsp := rfl
@[simp] theorem decLoad_phase (h : Header) : (s.decLoad h).phase = s.phase := rfl
@[simp] theorem decLoad_outValid (h : Header) : (s.decLoad h).outValid = s.outValid := rfl
@[simp] theorem decLoad_errCode (h : Header) : (s.decLoad h).errCode = s.errCode := rfl
@[simp] theorem decLoad_errInfo (h : Header) : (s.decLoad h).errInfo = s.errInfo := rfl
@[simp] theorem decLoad_prec (h : Header) : (s.decLoad h).prec = s.prec := rfl
@[simp] theorem decLoad_ibufSize (h : Header) : (s.decLoad h).ibufSize = s.ibufSize := rfl
@[simp] theorem decLoad_obufSize (h : Header) : (s.decLoad h).obufSize = s.obufSize := rfl
@[simp] theorem decLoad_inLen (h : Header) : (s.decLoad h).inLen = s.inLen := rfl
@[simp] theorem decLoad_outLen (h : Header) : (s.decLoad h).outLen = s.outLen := rfl
@[simp] theorem decLoad_total (h : Header) : (s.decLoad h).total = BitVec.ofNat 32 (buildModel h.freq).total := rfl
@[simp] theorem decLoad_symCount (h : Header) : (s.decLoad h).symCount = BitVec.ofNat 9 (buildModel h.freq).symCount := rfl
@[simp] theorem decLoad_fmin (h : Header) : (s.decLoad h).fmin = BitVec.ofNat 32 (buildModel h.freq).fmin := rfl
@[simp] theorem decLoad_hdrLen (h : Header) : (s.decLoad h).hdrLen = BitVec.ofNat 32 h.hdrLen := rfl
@[simp] theorem decLoad_lower (h : Header) : (s.decLoad h).lower = 0 := rfl
@[simp] theorem decLoad_upper (h : Header) : (s.decLoad h).upper = BitVec.ofNat 32 s.whole := rfl
@[simp] theorem decLoad_pending (h : Header) : (s.decLoad h).pending = s.pending := rfl
@[simp] theorem decLoad_tag (h : Header) : (s.decLoad h).tag = s.tag := rfl
@[simp] theorem decLoad_bitCount (h : Header) : (s.decLoad h).bitCount = s.bitCount := rfl
@[simp] theorem decLoad_rdIdx (h : Header) : (s.decLoad h).rdIdx = s.rdIdx := rfl
@[simp] theorem decLoad_bitLen (h : Header) : (s.decLoad h).bitLen = BitVec.ofNat 32 h.bitLen := rfl
@[simp] theorem decLoad_encPos (h : Header) : (s.decLoad h).encPos = s.encPos := rfl
@[simp] theorem decLoad_decCount (h : Header) : (s.decLoad h).decCount = 0 := rfl
@[simp] theorem decLoad_nDecl (h : Header) : (s.decLoad h).nDecl = BitVec.ofNat 32 h.n := rfl
@[simp] theorem decLoad_freq (h : Header) : (s.decLoad h).freq = h.freq := rfl
@[simp] theorem decLoad_cumLow (h : Header) : (s.decLoad h).cumLow = (buildModel h.freq).cumLow := rfl
@[simp] theorem decLoad_cumHigh (h : Header) : (s.decLoad h).cumHigh = (buildModel h.freq).cumHigh := rfl
@[simp] theorem decLoad_ibuf (h : Header) : (s.decLoad h).ibuf = s.ibuf := rfl
@[simp] theorem decLoad_obuf (h : Header) : (s.decLoad h).obuf = s.obuf := rfl

/-! ### initTag -/

@[simp] theorem initTag_port : s.initTag.port = s.port := rfl
@[simp] theorem initTag_rsp : s.initTag.rsp = s.rsp := rfl
@[simp] theorem initTag_phase : s.initTag.phase = s.phase := rfl
@[simp] theorem initTag_outValid : s.initTag.outValid = s.outValid := rfl
@[simp] theorem initTag_errCode : s.initTag.errCode = s.errCode := rfl
@[simp] theorem initTag_errInfo : s.initTag.errInfo = s.errInfo := rfl
@[simp] theorem initTag_prec : s.initTag.prec = s.prec := rfl
@[simp] theorem initTag_ibufSize : s.initTag.ibufSize = s.ibufSize := rfl
@[simp] theorem initTag_obufSize : s.initTag.obufSize = s.obufSize := rfl
@[simp] theorem initTag_inLen : s.initTag.inLen = s.inLen := rfl
@[simp] theorem initTag_outLen : s.initTag.outLen = s.outLen := rfl
@[simp] theorem initTag_total : s.initTag.total = s.total := rfl
@[simp] theorem initTag_symCount : s.initTag.symCount = s.symCount := rfl
@[simp] theorem initTag_fmin : s.initTag.fmin = s.fmin := rfl
@[simp] theorem initTag_hdrLen : s.initTag.hdrLen = s.hdrLen := rfl
@[simp] theorem initTag_lower : s.initTag.lower = s.lower := rfl
@[simp] theorem initTag_upper : s.initTag.upper = s.upper := rfl
@[simp] theorem initTag_pending : s.initTag.pending = s.pending := rfl
@[simp] theorem initTag_tag : s.initTag.tag = BitVec.ofNat 32 (s.shiftBits s.prec.toNat 0 1).1 := rfl
@[simp] theorem initTag_bitCount : s.initTag.bitCount = s.bitCount := rfl
@[simp] theorem initTag_rdIdx : s.initTag.rdIdx = BitVec.ofNat 32 (s.shiftBits s.prec.toNat 0 1).2 := rfl
@[simp] theorem initTag_bitLen : s.initTag.bitLen = s.bitLen := rfl
@[simp] theorem initTag_encPos : s.initTag.encPos = s.encPos := rfl
@[simp] theorem initTag_decCount : s.initTag.decCount = s.decCount := rfl
@[simp] theorem initTag_nDecl : s.initTag.nDecl = s.nDecl := rfl
@[simp] theorem initTag_freq : s.initTag.freq = s.freq := rfl
@[simp] theorem initTag_cumLow : s.initTag.cumLow = s.cumLow := rfl
@[simp] theorem initTag_cumHigh : s.initTag.cumHigh = s.cumHigh := rfl
@[simp] theorem initTag_ibuf : s.initTag.ibuf = s.ibuf := rfl
@[simp] theorem initTag_obuf : s.initTag.obuf = s.obuf := rfl

/-! ### decEmit -/

@[simp] theorem decEmit_port (c : Byte) : (s.decEmit c).port = s.port := rfl
@[simp] theorem decEmit_rsp (c : Byte) : (s.decEmit c).rsp = s.rsp := rfl
@[simp] theorem decEmit_phase (c : Byte) : (s.decEmit c).phase = s.phase := rfl
@[simp] theorem decEmit_outValid (c : Byte) : (s.decEmit c).outValid = s.outValid := rfl
@[simp] theorem decEmit_errCode (c : Byte) : (s.decEmit c).errCode = s.errCode := rfl
@[simp] theorem decEmit_errInfo (c : Byte) : (s.decEmit c).errInfo = s.errInfo := rfl
@[simp] theorem decEmit_prec (c : Byte) : (s.decEmit c).prec = s.prec := rfl
@[simp] theorem decEmit_ibufSize (c : Byte) : (s.decEmit c).ibufSize = s.ibufSize := rfl
@[simp] theorem decEmit_obufSize (c : Byte) : (s.decEmit c).obufSize = s.obufSize := rfl
@[simp] theorem decEmit_inLen (c : Byte) : (s.decEmit c).inLen = s.inLen := rfl
@[simp] theorem decEmit_outLen (c : Byte) : (s.decEmit c).outLen = s.outLen := rfl
@[simp] theorem decEmit_total (c : Byte) : (s.decEmit c).total = s.total := rfl
@[simp] theorem decEmit_symCount (c : Byte) : (s.decEmit c).symCount = s.symCount := rfl
@[simp] theorem decEmit_fmin (c : Byte) : (s.decEmit c).fmin = s.fmin := rfl
@[simp] theorem decEmit_hdrLen (c : Byte) : (s.decEmit c).hdrLen = s.hdrLen := rfl
@[simp] theorem decEmit_lower (c : Byte) : (s.decEmit c).lower = BitVec.ofNat 32 (s.candidate c).1 := rfl
@[simp] theorem decEmit_upper (c : Byte) : (s.decEmit c).upper = BitVec.ofNat 32 (s.candidate c).2 := rfl
@[simp] theorem decEmit_pending (c : Byte) : (s.decEmit c).pending = s.pending := rfl
@[simp] theorem decEmit_tag (c : Byte) : (s.decEmit c).tag = s.tag := rfl
@[simp] theorem decEmit_bitCount (c : Byte) : (s.decEmit c).bitCount = s.bitCount := rfl
@[simp] theorem decEmit_rdIdx (c : Byte) : (s.decEmit c).rdIdx = s.rdIdx := rfl
@[simp] theorem decEmit_bitLen (c : Byte) : (s.decEmit c).bitLen = s.bitLen := rfl
@[simp] theorem decEmit_encPos (c : Byte) : (s.decEmit c).encPos = s.encPos := rfl
@[simp] theorem decEmit_decCount (c : Byte) : (s.decEmit c).decCount = s.decCount + 1 := rfl
@[simp] theorem decEmit_nDecl (c : Byte) : (s.decEmit c).nDecl = s.nDecl := rfl
@[simp] theorem decEmit_freq (c : Byte) : (s.decEmit c).freq = s.freq := rfl
@[simp] theorem decEmit_cumLow (c : Byte) : (s.decEmit c).cumLow = s.cumLow := rfl
@[simp] theorem decEmit_cumHigh (c : Byte) : (s.decEmit c).cumHigh = s.cumHigh := rfl
@[simp] theorem decEmit_ibuf (c : Byte) : (s.decEmit c).ibuf = s.ibuf := rfl
@[simp] theorem decEmit_obuf (c : Byte) : (s.decEmit c).obuf = s.obuf.write s.decCount.toNat c := rfl

/-! ### decEnd -/

@[simp] theorem decEnd_port : s.decEnd.port = s.port := rfl
@[simp] theorem decEnd_rsp : s.decEnd.rsp = s.rsp := rfl
@[simp] theorem decEnd_phase : s.decEnd.phase = .decDone := rfl
@[simp] theorem decEnd_outValid : s.decEnd.outValid = true := rfl
@[simp] theorem decEnd_errCode : s.decEnd.errCode = s.errCode := rfl
@[simp] theorem decEnd_errInfo : s.decEnd.errInfo = s.errInfo := rfl
@[simp] theorem decEnd_prec : s.decEnd.prec = s.prec := rfl
@[simp] theorem decEnd_ibufSize : s.decEnd.ibufSize = s.ibufSize := rfl
@[simp] theorem decEnd_obufSize : s.decEnd.obufSize = s.obufSize := rfl
@[simp] theorem decEnd_inLen : s.decEnd.inLen = s.inLen := rfl
@[simp] theorem decEnd_outLen : s.decEnd.outLen = s.nDecl := rfl
@[simp] theorem decEnd_total : s.decEnd.total = s.total := rfl
@[simp] theorem decEnd_symCount : s.decEnd.symCount = s.symCount := rfl
@[simp] theorem decEnd_fmin : s.decEnd.fmin = s.fmin := rfl
@[simp] theorem decEnd_hdrLen : s.decEnd.hdrLen = s.hdrLen := rfl
@[simp] theorem decEnd_lower : s.decEnd.lower = s.lower := rfl
@[simp] theorem decEnd_upper : s.decEnd.upper = s.upper := rfl
@[simp] theorem decEnd_pending : s.decEnd.pending = s.pending := rfl
@[simp] theorem decEnd_tag : s.decEnd.tag = s.tag := rfl
@[simp] theorem decEnd_bitCount : s.decEnd.bitCount = s.bitCount := rfl
@[simp] theorem decEnd_rdIdx : s.decEnd.rdIdx = s.rdIdx := rfl
@[simp] theorem decEnd_bitLen : s.decEnd.bitLen = s.bitLen := rfl
@[simp] theorem decEnd_encPos : s.decEnd.encPos = s.encPos := rfl
@[simp] theorem decEnd_decCount : s.decEnd.decCount = s.decCount := rfl
@[simp] theorem decEnd_nDecl : s.decEnd.nDecl = s.nDecl := rfl
@[simp] theorem decEnd_freq : s.decEnd.freq = s.freq := rfl
@[simp] theorem decEnd_cumLow : s.decEnd.cumLow = s.cumLow := rfl
@[simp] theorem decEnd_cumHigh : s.decEnd.cumHigh = s.cumHigh := rfl
@[simp] theorem decEnd_ibuf : s.decEnd.ibuf = s.ibuf := rfl
@[simp] theorem decEnd_obuf : s.decEnd.obuf = s.obuf := rfl

/-! ### decRenorm -/

@[simp] theorem decRenorm_port : s.decRenorm.port = s.port := rfl
@[simp] theorem decRenorm_rsp : s.decRenorm.rsp = s.rsp := rfl
@[simp] theorem decRenorm_phase : s.decRenorm.phase = s.phase := rfl
@[simp] theorem decRenorm_outValid : s.decRenorm.outValid = s.outValid := rfl
@[simp] theorem decRenorm_errCode : s.decRenorm.errCode = s.errCode := rfl
@[simp] theorem decRenorm_errInfo : s.decRenorm.errInfo = s.errInfo := rfl
@[simp] theorem decRenorm_prec : s.decRenorm.prec = s.prec := rfl
@[simp] theorem decRenorm_ibufSize : s.decRenorm.ibufSize = s.ibufSize := rfl
@[simp] theorem decRenorm_obufSize : s.decRenorm.obufSize = s.obufSize := rfl
@[simp] theorem decRenorm_inLen : s.decRenorm.inLen = s.inLen := rfl
@[simp] theorem decRenorm_outLen : s.decRenorm.outLen = s.outLen := rfl
@[simp] theorem decRenorm_total : s.decRenorm.total = s.total := rfl
@[simp] theorem decRenorm_symCount : s.decRenorm.symCount = s.symCount := rfl
@[simp] theorem decRenorm_fmin : s.decRenorm.fmin = s.fmin := rfl
@[simp] theorem decRenorm_hdrLen : s.decRenorm.hdrLen = s.hdrLen := rfl
@[simp] theorem decRenorm_lower : s.decRenorm.lower = BitVec.ofNat 32 (s.renormDec s.prec.toNat ⟨s.lower.toNat, s.upper.toNat, s.tag.toNat, s.rdIdx.toNat⟩).lower := rfl
@[simp] theorem decRenorm_upper : s.decRenorm.upper = BitVec.ofNat 32 (s.renormDec s.prec.toNat ⟨s.lower.toNat, s.upper.toNat, s.tag.toNat, s.rdIdx.toNat⟩).upper := rfl
@[simp] theorem decRenorm_pending : s.decRenorm.pending = s.pending := rfl
@[simp] theorem decRenorm_tag : s.decRenorm.tag = BitVec.ofNat 32 (s.renormDec s.prec.toNat ⟨s.lower.toNat, s.upper.toNat, s.tag.toNat, s.rdIdx.toNat⟩).tag := rfl
@[simp] theorem decRenorm_bitCount : s.decRenorm.bitCount = s.bitCount := rfl
@[simp] theorem decRenorm_rdIdx : s.decRenorm.rdIdx = BitVec.ofNat 32 (s.renormDec s.prec.toNat ⟨s.lower.toNat, s.upper.toNat, s.tag.toNat, s.rdIdx.toNat⟩).rdIdx := rfl
@[simp] theorem decRenorm_bitLen : s.decRenorm.bitLen = s.bitLen := rfl
@[simp] theorem decRenorm_encPos : s.decRenorm.encPos = s.encPos := rfl
@[simp] theorem decRenorm_decCount : s.decRenorm.decCount = s.decCount := rfl
@[simp] theorem decRenorm_nDecl : s.decRenorm.nDecl = s.nDecl := rfl
@[simp] theorem decRenorm_freq : s.decRenorm.freq = s.freq := rfl
@[simp] theorem decRenorm_cumLow : s.decRenorm.cumLow = s.cumLow := rfl
@[simp] theorem decRenorm_cumHigh : s.decRenorm.cumHigh = s.cumHigh := rfl
@[simp] theorem decRenorm_ibuf : s.decRenorm.ibuf = s.ibuf := rfl
@[simp] theorem decRenorm_obuf : s.decRenorm.obuf = s.obuf := rfl

/-! ### emit and emitAll: only OBUF and BIT_COUNT change -/

@[simp] theorem emit_port (b : Bool) : (s.emit b).port = s.port := rfl
@[simp] theorem emit_rsp (b : Bool) : (s.emit b).rsp = s.rsp := rfl
@[simp] theorem emit_phase (b : Bool) : (s.emit b).phase = s.phase := rfl
@[simp] theorem emit_outValid (b : Bool) : (s.emit b).outValid = s.outValid := rfl
@[simp] theorem emit_errCode (b : Bool) : (s.emit b).errCode = s.errCode := rfl
@[simp] theorem emit_errInfo (b : Bool) : (s.emit b).errInfo = s.errInfo := rfl
@[simp] theorem emit_prec (b : Bool) : (s.emit b).prec = s.prec := rfl
@[simp] theorem emit_ibufSize (b : Bool) : (s.emit b).ibufSize = s.ibufSize := rfl
@[simp] theorem emit_obufSize (b : Bool) : (s.emit b).obufSize = s.obufSize := rfl
@[simp] theorem emit_inLen (b : Bool) : (s.emit b).inLen = s.inLen := rfl
@[simp] theorem emit_outLen (b : Bool) : (s.emit b).outLen = s.outLen := rfl
@[simp] theorem emit_total (b : Bool) : (s.emit b).total = s.total := rfl
@[simp] theorem emit_symCount (b : Bool) : (s.emit b).symCount = s.symCount := rfl
@[simp] theorem emit_fmin (b : Bool) : (s.emit b).fmin = s.fmin := rfl
@[simp] theorem emit_hdrLen (b : Bool) : (s.emit b).hdrLen = s.hdrLen := rfl
@[simp] theorem emit_lower (b : Bool) : (s.emit b).lower = s.lower := rfl
@[simp] theorem emit_upper (b : Bool) : (s.emit b).upper = s.upper := rfl
@[simp] theorem emit_pending (b : Bool) : (s.emit b).pending = s.pending := rfl
@[simp] theorem emit_tag (b : Bool) : (s.emit b).tag = s.tag := rfl
@[simp] theorem emit_rdIdx (b : Bool) : (s.emit b).rdIdx = s.rdIdx := rfl
@[simp] theorem emit_bitLen (b : Bool) : (s.emit b).bitLen = s.bitLen := rfl
@[simp] theorem emit_encPos (b : Bool) : (s.emit b).encPos = s.encPos := rfl
@[simp] theorem emit_decCount (b : Bool) : (s.emit b).decCount = s.decCount := rfl
@[simp] theorem emit_nDecl (b : Bool) : (s.emit b).nDecl = s.nDecl := rfl
@[simp] theorem emit_freq (b : Bool) : (s.emit b).freq = s.freq := rfl
@[simp] theorem emit_cumLow (b : Bool) : (s.emit b).cumLow = s.cumLow := rfl
@[simp] theorem emit_cumHigh (b : Bool) : (s.emit b).cumHigh = s.cumHigh := rfl
@[simp] theorem emit_ibuf (b : Bool) : (s.emit b).ibuf = s.ibuf := rfl
@[simp] theorem emit_obuf (b : Bool) : (s.emit b).obuf = s.obuf.putBit (s.sinkAddress s.bitCount.toNat) s.bitCount.toNat b := rfl
@[simp] theorem emit_bitCount (b : Bool) : (s.emit b).bitCount = BitVec.ofNat 32 (s.bitCount.toNat + 1) := rfl

@[simp] theorem emitAll_port (bs : List Bool) : (s.emitAll bs).port = s.port := by
  induction bs generalizing s with
  | nil => rfl
  | cons b bs ih => exact (ih (s.emit b)).trans (emit_port s b)
@[simp] theorem emitAll_rsp (bs : List Bool) : (s.emitAll bs).rsp = s.rsp := by
  induction bs generalizing s with
  | nil => rfl
  | cons b bs ih => exact (ih (s.emit b)).trans (emit_rsp s b)
@[simp] theorem emitAll_phase (bs : List Bool) : (s.emitAll bs).phase = s.phase := by
  induction bs generalizing s with
  | nil => rfl
  | cons b bs ih => exact (ih (s.emit b)).trans (emit_phase s b)
@[simp] theorem emitAll_outValid (bs : List Bool) : (s.emitAll bs).outValid = s.outValid := by
  induction bs generalizing s with
  | nil => rfl
  | cons b bs ih => exact (ih (s.emit b)).trans (emit_outValid s b)
@[simp] theorem emitAll_errCode (bs : List Bool) : (s.emitAll bs).errCode = s.errCode := by
  induction bs generalizing s with
  | nil => rfl
  | cons b bs ih => exact (ih (s.emit b)).trans (emit_errCode s b)
@[simp] theorem emitAll_errInfo (bs : List Bool) : (s.emitAll bs).errInfo = s.errInfo := by
  induction bs generalizing s with
  | nil => rfl
  | cons b bs ih => exact (ih (s.emit b)).trans (emit_errInfo s b)
@[simp] theorem emitAll_prec (bs : List Bool) : (s.emitAll bs).prec = s.prec := by
  induction bs generalizing s with
  | nil => rfl
  | cons b bs ih => exact (ih (s.emit b)).trans (emit_prec s b)
@[simp] theorem emitAll_ibufSize (bs : List Bool) : (s.emitAll bs).ibufSize = s.ibufSize := by
  induction bs generalizing s with
  | nil => rfl
  | cons b bs ih => exact (ih (s.emit b)).trans (emit_ibufSize s b)
@[simp] theorem emitAll_obufSize (bs : List Bool) : (s.emitAll bs).obufSize = s.obufSize := by
  induction bs generalizing s with
  | nil => rfl
  | cons b bs ih => exact (ih (s.emit b)).trans (emit_obufSize s b)
@[simp] theorem emitAll_inLen (bs : List Bool) : (s.emitAll bs).inLen = s.inLen := by
  induction bs generalizing s with
  | nil => rfl
  | cons b bs ih => exact (ih (s.emit b)).trans (emit_inLen s b)
@[simp] theorem emitAll_outLen (bs : List Bool) : (s.emitAll bs).outLen = s.outLen := by
  induction bs generalizing s with
  | nil => rfl
  | cons b bs ih => exact (ih (s.emit b)).trans (emit_outLen s b)
@[simp] theorem emitAll_total (bs : List Bool) : (s.emitAll bs).total = s.total := by
  induction bs generalizing s with
  | nil => rfl
  | cons b bs ih => exact (ih (s.emit b)).trans (emit_total s b)
@[simp] theorem emitAll_symCount (bs : List Bool) : (s.emitAll bs).symCount = s.symCount := by
  induction bs generalizing s with
  | nil => rfl
  | cons b bs ih => exact (ih (s.emit b)).trans (emit_symCount s b)
@[simp] theorem emitAll_fmin (bs : List Bool) : (s.emitAll bs).fmin = s.fmin := by
  induction bs generalizing s with
  | nil => rfl
  | cons b bs ih => exact (ih (s.emit b)).trans (emit_fmin s b)
@[simp] theorem emitAll_hdrLen (bs : List Bool) : (s.emitAll bs).hdrLen = s.hdrLen := by
  induction bs generalizing s with
  | nil => rfl
  | cons b bs ih => exact (ih (s.emit b)).trans (emit_hdrLen s b)
@[simp] theorem emitAll_lower (bs : List Bool) : (s.emitAll bs).lower = s.lower := by
  induction bs generalizing s with
  | nil => rfl
  | cons b bs ih => exact (ih (s.emit b)).trans (emit_lower s b)
@[simp] theorem emitAll_upper (bs : List Bool) : (s.emitAll bs).upper = s.upper := by
  induction bs generalizing s with
  | nil => rfl
  | cons b bs ih => exact (ih (s.emit b)).trans (emit_upper s b)
@[simp] theorem emitAll_pending (bs : List Bool) : (s.emitAll bs).pending = s.pending := by
  induction bs generalizing s with
  | nil => rfl
  | cons b bs ih => exact (ih (s.emit b)).trans (emit_pending s b)
@[simp] theorem emitAll_tag (bs : List Bool) : (s.emitAll bs).tag = s.tag := by
  induction bs generalizing s with
  | nil => rfl
  | cons b bs ih => exact (ih (s.emit b)).trans (emit_tag s b)
@[simp] theorem emitAll_rdIdx (bs : List Bool) : (s.emitAll bs).rdIdx = s.rdIdx := by
  induction bs generalizing s with
  | nil => rfl
  | cons b bs ih => exact (ih (s.emit b)).trans (emit_rdIdx s b)
@[simp] theorem emitAll_bitLen (bs : List Bool) : (s.emitAll bs).bitLen = s.bitLen := by
  induction bs generalizing s with
  | nil => rfl
  | cons b bs ih => exact (ih (s.emit b)).trans (emit_bitLen s b)
@[simp] theorem emitAll_encPos (bs : List Bool) : (s.emitAll bs).encPos = s.encPos := by
  induction bs generalizing s with
  | nil => rfl
  | cons b bs ih => exact (ih (s.emit b)).trans (emit_encPos s b)
@[simp] theorem emitAll_decCount (bs : List Bool) : (s.emitAll bs).decCount = s.decCount := by
  induction bs generalizing s with
  | nil => rfl
  | cons b bs ih => exact (ih (s.emit b)).trans (emit_decCount s b)
@[simp] theorem emitAll_nDecl (bs : List Bool) : (s.emitAll bs).nDecl = s.nDecl := by
  induction bs generalizing s with
  | nil => rfl
  | cons b bs ih => exact (ih (s.emit b)).trans (emit_nDecl s b)
@[simp] theorem emitAll_freq (bs : List Bool) : (s.emitAll bs).freq = s.freq := by
  induction bs generalizing s with
  | nil => rfl
  | cons b bs ih => exact (ih (s.emit b)).trans (emit_freq s b)
@[simp] theorem emitAll_cumLow (bs : List Bool) : (s.emitAll bs).cumLow = s.cumLow := by
  induction bs generalizing s with
  | nil => rfl
  | cons b bs ih => exact (ih (s.emit b)).trans (emit_cumLow s b)
@[simp] theorem emitAll_cumHigh (bs : List Bool) : (s.emitAll bs).cumHigh = s.cumHigh := by
  induction bs generalizing s with
  | nil => rfl
  | cons b bs ih => exact (ih (s.emit b)).trans (emit_cumHigh s b)
@[simp] theorem emitAll_ibuf (bs : List Bool) : (s.emitAll bs).ibuf = s.ibuf := by
  induction bs generalizing s with
  | nil => rfl
  | cons b bs ih => exact (ih (s.emit b)).trans (emit_ibuf s b)

/-! ### encCommit and encFinishCommit -/

@[simp] theorem encCommit_port (v : EncInterval) (bs : List Bool) : (s.encCommit v bs).port = s.port := by
  simp [State.encCommit]
@[simp] theorem encCommit_rsp (v : EncInterval) (bs : List Bool) : (s.encCommit v bs).rsp = s.rsp := by
  simp [State.encCommit]
@[simp] theorem encCommit_phase (v : EncInterval) (bs : List Bool) : (s.encCommit v bs).phase = s.phase := by
  simp [State.encCommit]
@[simp] theorem encCommit_outValid (v : EncInterval) (bs : List Bool) : (s.encCommit v bs).outValid = s.outValid := by
  simp [State.encCommit]
@[simp] theorem encCommit_errCode (v : EncInterval) (bs : List Bool) : (s.encCommit v bs).errCode = s.errCode := by
  simp [State.encCommit]
@[simp] theorem encCommit_errInfo (v : EncInterval) (bs : List Bool) : (s.encCommit v bs).errInfo = s.errInfo := by
  simp [State.encCommit]
@[simp] theorem encCommit_prec (v : EncInterval) (bs : List Bool) : (s.encCommit v bs).prec = s.prec := by
  simp [State.encCommit]
@[simp] theorem encCommit_ibufSize (v : EncInterval) (bs : List Bool) : (s.encCommit v bs).ibufSize = s.ibufSize := by
  simp [State.encCommit]
@[simp] theorem encCommit_obufSize (v : EncInterval) (bs : List Bool) : (s.encCommit v bs).obufSize = s.obufSize := by
  simp [State.encCommit]
@[simp] theorem encCommit_inLen (v : EncInterval) (bs : List Bool) : (s.encCommit v bs).inLen = s.inLen := by
  simp [State.encCommit]
@[simp] theorem encCommit_outLen (v : EncInterval) (bs : List Bool) : (s.encCommit v bs).outLen = s.outLen := by
  simp [State.encCommit]
@[simp] theorem encCommit_total (v : EncInterval) (bs : List Bool) : (s.encCommit v bs).total = s.total := by
  simp [State.encCommit]
@[simp] theorem encCommit_symCount (v : EncInterval) (bs : List Bool) : (s.encCommit v bs).symCount = s.symCount := by
  simp [State.encCommit]
@[simp] theorem encCommit_fmin (v : EncInterval) (bs : List Bool) : (s.encCommit v bs).fmin = s.fmin := by
  simp [State.encCommit]
@[simp] theorem encCommit_hdrLen (v : EncInterval) (bs : List Bool) : (s.encCommit v bs).hdrLen = s.hdrLen := by
  simp [State.encCommit]
@[simp] theorem encCommit_lower (v : EncInterval) (bs : List Bool) : (s.encCommit v bs).lower = BitVec.ofNat 32 v.lower := by
  simp [State.encCommit]
@[simp] theorem encCommit_upper (v : EncInterval) (bs : List Bool) : (s.encCommit v bs).upper = BitVec.ofNat 32 v.upper := by
  simp [State.encCommit]
@[simp] theorem encCommit_pending (v : EncInterval) (bs : List Bool) : (s.encCommit v bs).pending = BitVec.ofNat 32 v.pending := by
  simp [State.encCommit]
@[simp] theorem encCommit_tag (v : EncInterval) (bs : List Bool) : (s.encCommit v bs).tag = s.tag := by
  simp [State.encCommit]
@[simp] theorem encCommit_bitCount (v : EncInterval) (bs : List Bool) : (s.encCommit v bs).bitCount = (s.emitAll bs).bitCount := by
  simp [State.encCommit]
@[simp] theorem encCommit_rdIdx (v : EncInterval) (bs : List Bool) : (s.encCommit v bs).rdIdx = s.rdIdx := by
  simp [State.encCommit]
@[simp] theorem encCommit_bitLen (v : EncInterval) (bs : List Bool) : (s.encCommit v bs).bitLen = s.bitLen := by
  simp [State.encCommit]
@[simp] theorem encCommit_encPos (v : EncInterval) (bs : List Bool) : (s.encCommit v bs).encPos = s.encPos + 1 := by
  simp [State.encCommit]
@[simp] theorem encCommit_decCount (v : EncInterval) (bs : List Bool) : (s.encCommit v bs).decCount = s.decCount := by
  simp [State.encCommit]
@[simp] theorem encCommit_nDecl (v : EncInterval) (bs : List Bool) : (s.encCommit v bs).nDecl = s.nDecl := by
  simp [State.encCommit]
@[simp] theorem encCommit_freq (v : EncInterval) (bs : List Bool) : (s.encCommit v bs).freq = s.freq := by
  simp [State.encCommit]
@[simp] theorem encCommit_cumLow (v : EncInterval) (bs : List Bool) : (s.encCommit v bs).cumLow = s.cumLow := by
  simp [State.encCommit]
@[simp] theorem encCommit_cumHigh (v : EncInterval) (bs : List Bool) : (s.encCommit v bs).cumHigh = s.cumHigh := by
  simp [State.encCommit]
@[simp] theorem encCommit_ibuf (v : EncInterval) (bs : List Bool) : (s.encCommit v bs).ibuf = s.ibuf := by
  simp [State.encCommit]
@[simp] theorem encCommit_obuf (v : EncInterval) (bs : List Bool) : (s.encCommit v bs).obuf = (s.emitAll bs).obuf := by
  simp [State.encCommit]
@[simp] theorem encFinishCommit_port : s.encFinishCommit.port = s.port := by
  simp [State.encFinishCommit]
@[simp] theorem encFinishCommit_rsp : s.encFinishCommit.rsp = s.rsp := by
  simp [State.encFinishCommit]
@[simp] theorem encFinishCommit_phase : s.encFinishCommit.phase = .encDone := by
  simp [State.encFinishCommit]
@[simp] theorem encFinishCommit_outValid : s.encFinishCommit.outValid = true := by
  simp [State.encFinishCommit]
@[simp] theorem encFinishCommit_errCode : s.encFinishCommit.errCode = s.errCode := by
  simp [State.encFinishCommit]
@[simp] theorem encFinishCommit_errInfo : s.encFinishCommit.errInfo = s.errInfo := by
  simp [State.encFinishCommit]
@[simp] theorem encFinishCommit_prec : s.encFinishCommit.prec = s.prec := by
  simp [State.encFinishCommit]
@[simp] theorem encFinishCommit_ibufSize : s.encFinishCommit.ibufSize = s.ibufSize := by
  simp [State.encFinishCommit]
@[simp] theorem encFinishCommit_obufSize : s.encFinishCommit.obufSize = s.obufSize := by
  simp [State.encFinishCommit]
@[simp] theorem encFinishCommit_inLen : s.encFinishCommit.inLen = s.inLen := by
  simp [State.encFinishCommit]
@[simp] theorem encFinishCommit_outLen : s.encFinishCommit.outLen = BitVec.ofNat 32 (s.hdrLen.toNat + ((s.emitAll s.encFinalBits).bitCount.toNat + 7) / 8) := by
  simp [State.encFinishCommit]
@[simp] theorem encFinishCommit_total : s.encFinishCommit.total = s.total := by
  simp [State.encFinishCommit]
@[simp] theorem encFinishCommit_symCount : s.encFinishCommit.symCount = s.symCount := by
  simp [State.encFinishCommit]
@[simp] theorem encFinishCommit_fmin : s.encFinishCommit.fmin = s.fmin := by
  simp [State.encFinishCommit]
@[simp] theorem encFinishCommit_hdrLen : s.encFinishCommit.hdrLen = s.hdrLen := by
  simp [State.encFinishCommit]
@[simp] theorem encFinishCommit_lower : s.encFinishCommit.lower = s.lower := by
  simp [State.encFinishCommit]
@[simp] theorem encFinishCommit_upper : s.encFinishCommit.upper = s.upper := by
  simp [State.encFinishCommit]
@[simp] theorem encFinishCommit_pending : s.encFinishCommit.pending = 0 := by
  simp [State.encFinishCommit]
@[simp] theorem encFinishCommit_tag : s.encFinishCommit.tag = s.tag := by
  simp [State.encFinishCommit]
@[simp] theorem encFinishCommit_bitCount : s.encFinishCommit.bitCount = (s.emitAll s.encFinalBits).bitCount := by
  simp [State.encFinishCommit]
@[simp] theorem encFinishCommit_rdIdx : s.encFinishCommit.rdIdx = s.rdIdx := by
  simp [State.encFinishCommit]
@[simp] theorem encFinishCommit_bitLen : s.encFinishCommit.bitLen = s.bitLen := by
  simp [State.encFinishCommit]
@[simp] theorem encFinishCommit_encPos : s.encFinishCommit.encPos = s.encPos := by
  simp [State.encFinishCommit]
@[simp] theorem encFinishCommit_decCount : s.encFinishCommit.decCount = s.decCount := by
  simp [State.encFinishCommit]
@[simp] theorem encFinishCommit_nDecl : s.encFinishCommit.nDecl = s.nDecl := by
  simp [State.encFinishCommit]
@[simp] theorem encFinishCommit_freq : s.encFinishCommit.freq = s.freq := by
  simp [State.encFinishCommit]
@[simp] theorem encFinishCommit_cumLow : s.encFinishCommit.cumLow = s.cumLow := by
  simp [State.encFinishCommit]
@[simp] theorem encFinishCommit_cumHigh : s.encFinishCommit.cumHigh = s.cumHigh := by
  simp [State.encFinishCommit]
@[simp] theorem encFinishCommit_ibuf : s.encFinishCommit.ibuf = s.ibuf := by
  simp [State.encFinishCommit]
@[simp] theorem encFinishCommit_obuf : s.encFinishCommit.obuf = (s.emitAll s.encFinalBits).obuf := by
  simp [State.encFinishCommit]

end Sys2Proof.Machine
end

