-- ==== Sys2Proof/Laws/Memory.lean ====
section
/-! SUPPORT. The byte buffers: read after write, every operation keeps the canonical form and the bounds, and the
big-endian form read back. -/

namespace Sys2Proof.Machine

/-! ### Cells -/

theorem cellsSorted_cons (c : Host.Cell) (l : List Host.Cell) :
    cellsSorted (c :: l) = true ↔ (∀ d ∈ l, c.1 < d.1) ∧ cellsSorted l = true := by
  induction l generalizing c with
  | nil => simp [cellsSorted]
  | cons d l ih =>
    simp only [cellsSorted, Bool.and_eq_true, decide_eq_true_eq, List.mem_cons, forall_eq_or_imp]
    constructor
    · rintro ⟨h, hs⟩
      exact ⟨⟨h, fun e he => h.trans (((ih d).1 hs).1 e he)⟩, hs⟩
    · rintro ⟨⟨h, -⟩, hs⟩
      exact ⟨h, hs⟩

theorem mem_insertCell {l : List Host.Cell} {a : Nat} {v : Byte} {c : Host.Cell} (h : c ∈ insertCell l a v) :
    c = (a, v) ∨ c ∈ l := by
  induction l with
  | nil => exact .inl (by simpa [insertCell] using h)
  | cons d l ih =>
    simp only [insertCell] at h
    split at h
    · simpa using h
    · split at h
      · rcases List.mem_cons.1 h with h | h
        · exact .inl h
        · exact .inr (List.mem_cons_of_mem _ h)
      · rcases List.mem_cons.1 h with h | h
        · exact .inr (h ▸ List.mem_cons_self)
        · exact (ih h).imp id (List.mem_cons_of_mem _)

theorem insertCell_sorted {l : List Host.Cell} (h : cellsSorted l = true) (a : Nat) (v : Byte) :
    cellsSorted (insertCell l a v) = true := by
  induction l with
  | nil => rfl
  | cons d l ih =>
    obtain ⟨h1, h2⟩ := (cellsSorted_cons d l).1 h
    simp only [insertCell]
    split
    · exact (cellsSorted_cons _ _).2 ⟨fun e he => by
        rcases List.mem_cons.1 he with rfl | he
        · assumption
        · have := h1 e he; simp only at *; omega, h⟩
    · split
      · rename_i _ heq
        exact (cellsSorted_cons _ _).2 ⟨fun e he => by have := h1 e he; simp only at *; omega, h2⟩
      · refine (cellsSorted_cons _ _).2 ⟨fun e he => ?_, ih h2⟩
        rcases mem_insertCell he with rfl | he
        · simp only at *; omega
        · exact h1 e he

theorem lookup_insert_same (l : List Host.Cell) (a : Nat) (v : Byte) : lookupCell (insertCell l a v) a = some v := by
  induction l with
  | nil => simp [insertCell, lookupCell]
  | cons d l ih =>
    simp only [insertCell]
    split
    · simp [lookupCell]
    · split
      · simp [lookupCell]
      · simp [lookupCell, *]

theorem lookup_insert_other (l : List Host.Cell) {a b : Nat} (v : Byte) (h : b ≠ a) :
    lookupCell (insertCell l a v) b = lookupCell l b := by
  induction l with
  | nil => simp [insertCell, lookupCell, h]
  | cons d l ih =>
    simp only [insertCell]
    split
    · simp [lookupCell, h]
    · split
      · rename_i _ heq
        simp [lookupCell, h, ← heq]
      · simp [lookupCell, ih]

/-! ### Memory -/

@[simp] theorem written_write_same (m : Memory) (a : Nat) (v : Byte) : (m.write a v).written a = some v :=
  lookup_insert_same _ _ _

theorem written_write_other (m : Memory) {a b : Nat} (v : Byte) (h : b ≠ a) :
    (m.write a v).written b = m.written b := lookup_insert_other _ _ h

@[simp] theorem epoch_write (m : Memory) (a : Nat) (v : Byte) : (m.write a v).epoch = m.epoch := rfl

@[simp] theorem read_write_same (b : Buffer) (m : Memory) (a : Nat) (v : Byte) : (m.write a v).read b a = v := by
  simp [Memory.read]

theorem read_write_other (b : Buffer) (m : Memory) {a c : Nat} (v : Byte) (h : c ≠ a) :
    (m.write a v).read b c = m.read b c := by
  simp [Memory.read, written_write_other m v h]

@[simp] theorem events_write (m : Memory) (a : Nat) (v : Byte) : (m.write a v).events = m.events := rfl

@[simp] theorem written_unspecified (m : Memory) (a : Nat) : m.unspecified.written a = none := rfl

theorem wf_write {m : Memory} (h : m.wf = true) (a : Nat) (v : Byte) : (m.write a v).wf = true :=
  insertCell_sorted h a v

@[simp] theorem wf_unspecified (m : Memory) : m.unspecified.wf = true := rfl

theorem read_of_written {m : Memory} {a : Nat} {v : Byte} (b : Buffer) (h : m.written a = some v) : m.read b a = v := by
  simp [Memory.read, h]

/-- Reading depends only on what was written where something was written. -/
theorem written_of_isSome {m : Memory} {a : Nat} (b : Buffer) (h : (m.written a).isSome = true) :
    m.written a = some (m.read b a) := by
  obtain ⟨v, hv⟩ := Option.isSome_iff_exists.1 h
  rw [read_of_written b hv, hv]

/-! ### Writing a list of cells -/

@[simp] theorem writeCells_nil (m : Memory) : m.writeCells [] = m := rfl

@[simp] theorem writeCells_cons (m : Memory) (c : Host.Cell) (cs : List Host.Cell) :
    m.writeCells (c :: cs) = (m.write c.1 c.2).writeCells cs := rfl

theorem writeCells_append (m : Memory) (cs ds : List Host.Cell) :
    m.writeCells (cs ++ ds) = (m.writeCells cs).writeCells ds := by
  simp [Memory.writeCells, List.foldl_append]

theorem wf_writeCells {m : Memory} (h : m.wf = true) (cs : List Host.Cell) : (m.writeCells cs).wf = true := by
  induction cs generalizing m with
  | nil => exact h
  | cons c cs ih => exact ih (wf_write h _ _)

@[simp] theorem epoch_writeCells (m : Memory) (cs : List Host.Cell) : (m.writeCells cs).epoch = m.epoch := by
  induction cs generalizing m with
  | nil => rfl
  | cons c cs ih => simp [ih]

theorem written_writeCells_other (m : Memory) (cs : List Host.Cell) {a : Nat} (h : ∀ c ∈ cs, c.1 ≠ a) :
    (m.writeCells cs).written a = m.written a := by
  induction cs generalizing m with
  | nil => rfl
  | cons c cs ih =>
    rw [writeCells_cons, ih _ fun d hd => h d (List.mem_cons_of_mem _ hd)]
    exact written_write_other m _ (h c List.mem_cons_self).symm

theorem read_writeCells_other (b : Buffer) (m : Memory) (cs : List Host.Cell) {a : Nat} (h : ∀ c ∈ cs, c.1 ≠ a) :
    (m.writeCells cs).read b a = m.read b a := by
  simp [Memory.read, written_writeCells_other m cs h]

/-- Where the cells' addresses do not repeat, each cell is what is read back. -/
theorem written_writeCells_mem (m : Memory) (cs : List Host.Cell) (hn : (cs.map Prod.fst).Nodup) {c : Host.Cell}
    (h : c ∈ cs) : (m.writeCells cs).written c.1 = some c.2 := by
  induction cs generalizing m with
  | nil => exact absurd h List.not_mem_nil
  | cons d cs ih =>
    rw [List.map_cons, List.nodup_cons] at hn
    rw [writeCells_cons]
    rcases List.mem_cons.1 h with rfl | h
    · rw [written_writeCells_other]
      · simp
      · intro e he heq
        exact hn.1 (heq ▸ List.mem_map_of_mem he)
    · exact ih _ hn.2 h

/-! ### Bytes made unspecified one by one -/

@[simp] theorem forget_nil (b : Buffer) (m : Memory) : m.forget b [] = m := rfl

@[simp] theorem forget_cons (b : Buffer) (m : Memory) (a : Nat) (as : List Nat) :
    m.forget b (a :: as) = (m.forgetByte b a).forget b as := rfl

@[simp] theorem events_forgetByte (b : Buffer) (m : Memory) (a : Nat) : (m.forgetByte b a).events = m.events + 1 := rfl

@[simp] theorem epoch_forgetByte (b : Buffer) (m : Memory) (a : Nat) : (m.forgetByte b a).epoch = m.epoch := rfl

@[simp] theorem read_forgetByte_same (b c : Buffer) (m : Memory) (a : Nat) :
    (m.forgetByte b a).read c a = Config.freeByte b (m.events + 1) a := read_write_same c m a _

theorem read_forgetByte_other (b c : Buffer) (m : Memory) {a d : Nat} (h : d ≠ a) :
    (m.forgetByte b a).read c d = m.read c d := read_write_other c m _ h

theorem wf_forget (b : Buffer) {m : Memory} (h : m.wf = true) (as : List Nat) : (m.forget b as).wf = true := by
  induction as generalizing m with
  | nil => exact h
  | cons a as ih => exact ih (wf_write h a _)

/-- No byte at another address changes. -/
theorem read_forget_other (b c : Buffer) (m : Memory) {as : List Nat} {a : Nat} (h : a ∉ as) :
    (m.forget b as).read c a = m.read c a := by
  induction as generalizing m with
  | nil => rfl
  | cons d as ih =>
    rw [List.mem_cons, not_or] at h
    rw [forget_cons, ih _ h.2, read_forgetByte_other b c m h.1]

/-- Writing cells leaves everything written that was written, and writes the cells' addresses. -/
theorem isSome_writeCells (m : Memory) (cs : List Host.Cell) {a : Nat}
    (h : (m.written a).isSome = true ∨ ∃ c ∈ cs, c.1 = a) : ((m.writeCells cs).written a).isSome = true := by
  induction cs generalizing m with
  | nil => simpa using h
  | cons c cs ih =>
    rw [writeCells_cons]
    apply ih
    by_cases hc : a = c.1
    · left; subst hc; simp
    · rcases h with h | ⟨d, hd, rfl⟩
      · left; rwa [written_write_other m _ hc]
      · rcases List.mem_cons.1 hd with rfl | hd
        · exact absurd rfl hc
        · exact .inr ⟨d, hd, rfl⟩

/-! ### Bounds -/

theorem BufferLegal.write {m : Memory} {size : Word32} (h : BufferLegal m size) {a : Nat} (v : Byte)
    (ha : a < size.toNat) : BufferLegal (m.write a v) size :=
  ⟨wf_write h.1 a v, fun c hc => by
    rcases mem_insertCell hc with rfl | hc
    · exact ha
    · exact h.2 c hc⟩

theorem BufferLegal.unspecified (m : Memory) (size : Word32) : BufferLegal m.unspecified size :=
  ⟨rfl, fun _ hc => absurd hc List.not_mem_nil⟩

theorem BufferLegal.writeCells {m : Memory} {size : Word32} (h : BufferLegal m size) {cs : List Host.Cell}
    (hc : ∀ c ∈ cs, c.1 < size.toNat) : BufferLegal (m.writeCells cs) size := by
  induction cs generalizing m with
  | nil => exact h
  | cons c cs ih =>
    exact ih (h.write c.2 (hc c List.mem_cons_self)) fun d hd => hc d (List.mem_cons_of_mem _ hd)

theorem BufferLegal.forget {m : Memory} {size : Word32} (h : BufferLegal m size) (b : Buffer) {as : List Nat}
    (ha : ∀ a ∈ as, a < size.toNat) : BufferLegal (m.forget b as) size := by
  induction as generalizing m with
  | nil => exact h
  | cons a as ih =>
    exact ih (m := m.forgetByte b a) (h.write _ (ha a List.mem_cons_self)) fun d hd => ha d (List.mem_cons_of_mem _ hd)

theorem WrittenBelow.mono {m : Memory} {n k : Nat} (h : WrittenBelow m n) (hk : k ≤ n) : WrittenBelow m k :=
  fun a ha => h a (by omega)

theorem WrittenBelow.write {m : Memory} {n : Nat} (h : WrittenBelow m n) (a : Nat) (v : Byte) :
    WrittenBelow (m.write a v) n := fun c hc => by
  by_cases hca : c = a
  · subst hca; simp
  · rw [written_write_other m v hca]; exact h c hc

theorem WrittenBelow.write_succ {m : Memory} {n : Nat} (h : WrittenBelow m n) (v : Byte) :
    WrittenBelow (m.write n v) (n + 1) := fun c hc => by
  by_cases hcn : c = n
  · subst hcn; simp
  · rw [written_write_other m v hcn]; exact h c (by omega)

theorem WrittenBelow.zero (m : Memory) : WrittenBelow m 0 := fun _ h => absurd h (Nat.not_lt_zero _)

/-! ### Big-endian values -/

theorem mem_bigEndianCells {addr n v : Nat} {c : Host.Cell} :
    c ∈ bigEndianCells addr n v ↔ ∃ i, i < n ∧ c = (addr + i, BitVec.ofNat 8 (v / 256 ^ (n - 1 - i))) := by
  simp [bigEndianCells, eq_comm]

theorem readBigEndian_congr {b : Buffer} {m k : Memory} {addr n : Nat}
    (h : ∀ i, i < n → m.read b (addr + i) = k.read b (addr + i)) :
    m.readBigEndian b addr n = k.readBigEndian b addr n := by
  unfold Memory.readBigEndian
  suffices ∀ (l : List Nat) (acc : Nat), (∀ i ∈ l, i < n) →
      l.foldl (fun acc i => acc * 256 + (m.read b (addr + i)).toNat) acc =
        l.foldl (fun acc i => acc * 256 + (k.read b (addr + i)).toNat) acc from
    this _ _ fun i hi => List.mem_range.1 hi
  intro l
  induction l with
  | nil => intro _ _; rfl
  | cons i l ih =>
    intro acc hl
    simp only [List.foldl_cons, h i (hl i List.mem_cons_self)]
    exact ih _ fun j hj => hl j (List.mem_cons_of_mem _ hj)

theorem readBigEndian_succ (b : Buffer) (m : Memory) (addr n : Nat) :
    m.readBigEndian b addr (n + 1) = m.readBigEndian b addr n * 256 + (m.read b (addr + n)).toNat := by
  simp [Memory.readBigEndian, List.range_succ, List.foldl_append]

theorem readBigEndian_lt (b : Buffer) (m : Memory) (addr n : Nat) : m.readBigEndian b addr n < 256 ^ n := by
  induction n with
  | zero => simp [Memory.readBigEndian]
  | succ n ih =>
    rw [readBigEndian_succ, pow_succ]
    have := (m.read b (addr + n)).isLt
    omega

/-- A big-endian value is read back from memory that holds its bytes. -/
theorem readBigEndian_of_bytes {b : Buffer} {m : Memory} {addr n v : Nat} (hv : v < 256 ^ n)
    (h : ∀ i, i < n → m.read b (addr + i) = BitVec.ofNat 8 (v / 256 ^ (n - 1 - i))) :
    m.readBigEndian b addr n = v := by
  induction n generalizing v with
  | zero => simp [Memory.readBigEndian] at *; omega
  | succ n ih =>
    rw [readBigEndian_succ, h n (by omega)]
    have hq : v / 256 < 256 ^ n := by
      rw [Nat.div_lt_iff_lt_mul (by norm_num)]; rwa [pow_succ] at hv
    rw [ih hq fun i hi => by
      rw [h i (by omega), Nat.div_div_eq_div_mul, ← pow_succ']
      congr 3; omega]
    simp only [Nat.add_sub_cancel, Nat.sub_self, pow_zero, Nat.div_one, BitVec.toNat_ofNat]
    omega

end Sys2Proof.Machine
end

