-- ==== Sys2Proof/Laws/Model.lean ====
section
/-! SUPPORT. The frequency model: entries of register arrays, prefix sums in closed form (42_frequency_model.md R143),
the least positive count, the symbols present, and the counts of an input (R141). -/

namespace Sys2Proof.Machine

/-! ### Register arrays -/

theorem entry_regArray (l : List Nat) (h : l.length = 256) (i : Nat) :
    entry (regArray l h) i = BitVec.ofNat 32 (l.getD i 0) := by
  simp only [entry, regArray, Vector.toList_mk]
  by_cases hi : i < l.length
  · simp [List.getD_eq_getElem?_getD, hi]
  · simp [List.getD_eq_getElem?_getD, Nat.le_of_not_lt hi]

@[simp] theorem toList_length (v : RegArray) : v.toList.length = 256 := by simp

theorem entry_eq_getElem (v : RegArray) {i : Nat} (h : i < 256) : entry v i = v.toList[i]'(by simp [h]) := by
  simp [entry, List.getD_eq_getElem?_getD, h]

@[simp] theorem entry_replicate (x : Word32) {i : Nat} (h : i < 256) :
    entry (Vector.replicate 256 x) i = x := by
  rw [entry, Vector.toList_replicate, List.getD_eq_getElem?_getD, List.getElem?_replicate, if_pos h, Option.getD_some]

theorem symEntry_setEntry (v : RegArray) (s c : Byte) (x : Word32) :
    symEntry (setEntry v s x) c = if c = s then x else symEntry v c := by
  have hs := s.isLt
  have hc := c.isLt
  simp only [symEntry, entry, setEntry, Vector.toList_mk, List.getD_eq_getElem?_getD, List.getElem?_set]
  by_cases h : c = s
  · subst h; simp [hc]
  · have : ¬ s.toNat = c.toNat := fun e => h (BitVec.eq_of_toNat_eq e.symm)
    simp [h, this]

theorem regArray_ext {v w : RegArray} (h : ∀ c : Byte, symEntry v c = symEntry w c) : v = w := by
  apply Vector.toList_inj.1
  refine List.ext_getElem (by simp) fun i hi hj => ?_
  have h256 : i < 256 := by simpa using hi
  have := h (BitVec.ofNat 8 i)
  simp only [symEntry, BitVec.toNat_ofNat] at this
  rw [Nat.mod_eq_of_lt (by omega : i < 2 ^ 8)] at this
  rwa [entry_eq_getElem v h256, entry_eq_getElem w h256] at this

/-! ### Prefix sums -/

theorem sumCounts_nil : sumCounts [] = 0 := rfl

@[simp] theorem sumCounts_cons (f : Word32) (fs : List Word32) : sumCounts (f :: fs) = f.toNat + sumCounts fs := by
  simp [sumCounts]

theorem sumCounts_append (l m : List Word32) : sumCounts (l ++ m) = sumCounts l + sumCounts m := by
  simp [sumCounts]

theorem sumCounts_take_le (l : List Word32) (i : Nat) : sumCounts (l.take i) ≤ sumCounts l := by
  conv_rhs => rw [← List.take_append_drop i l, sumCounts_append]
  omega

theorem sumCounts_take_succ (l : List Word32) {i : Nat} (h : i < l.length) :
    sumCounts (l.take (i + 1)) = sumCounts (l.take i) + (l[i]).toNat := by
  rw [List.take_succ_eq_append_getElem h, sumCounts_append]
  simp [sumCounts]

theorem sumCounts_take_mono (l : List Word32) {i j : Nat} (h : i ≤ j) :
    sumCounts (l.take i) ≤ sumCounts (l.take j) := by
  have := sumCounts_take_le (l.take j) i
  rwa [List.take_take, Nat.min_eq_left h] at this

theorem lowSums_getD (c : Nat) (l : List Word32) {i : Nat} (h : i < l.length) :
    (lowSums c l).getD i 0 = c + sumCounts (l.take i) := by
  induction l generalizing c i with
  | nil => simp at h
  | cons f fs ih =>
    cases i with
    | zero => simp [lowSums, sumCounts]
    | succ i =>
      have := ih (c + f.toNat) (i := i) (by simpa using h)
      simp only [lowSums, List.getD_cons_succ, this, List.take_succ_cons, sumCounts_cons]
      omega

theorem highSums_getD (c : Nat) (l : List Word32) {i : Nat} (h : i < l.length) :
    (highSums c l).getD i 0 = c + sumCounts (l.take (i + 1)) := by
  induction l generalizing c i with
  | nil => simp at h
  | cons f fs ih =>
    cases i with
    | zero => simp [highSums, sumCounts]
    | succ i =>
      have := ih (c + f.toNat) (i := i) (by simpa using h)
      simp only [highSums, List.getD_cons_succ, this, List.take_succ_cons, sumCounts_cons]
      omega

/-- CUM_LOW' in closed form (R143). -/
theorem buildModel_cumLow {f : RegArray} (hT : (buildModel f).total < 2 ^ 32) {i : Nat} (hi : i < 256) :
    (entry (buildModel f).cumLow i).toNat = sumCounts (f.toList.take i) := by
  have h := sumCounts_take_le f.toList i
  simp only [buildModel] at hT ⊢
  rw [entry_regArray, lowSums_getD _ _ (by simpa using hi), BitVec.toNat_ofNat, Nat.zero_add, Nat.mod_eq_of_lt]
  omega

/-- CUM_HIGH' in closed form (R143). -/
theorem buildModel_cumHigh {f : RegArray} (hT : (buildModel f).total < 2 ^ 32) {i : Nat} (hi : i < 256) :
    (entry (buildModel f).cumHigh i).toNat = sumCounts (f.toList.take (i + 1)) := by
  have h := sumCounts_take_le f.toList (i + 1)
  simp only [buildModel] at hT ⊢
  rw [entry_regArray, highSums_getD _ _ (by simpa using hi), BitVec.toNat_ofNat, Nat.zero_add, Nat.mod_eq_of_lt]
  omega

/-- CUM_HIGH'[s] = CUM_LOW'[s] + FREQ[s] (R143). -/
theorem buildModel_cumHigh_eq {f : RegArray} (hT : (buildModel f).total < 2 ^ 32) {i : Nat} (hi : i < 256) :
    (entry (buildModel f).cumHigh i).toNat = (entry (buildModel f).cumLow i).toNat + (entry f i).toNat := by
  rw [buildModel_cumHigh hT hi, buildModel_cumLow hT hi, sumCounts_take_succ _ (by simpa using hi),
    entry_eq_getElem f hi]

theorem buildModel_cumHigh_le {f : RegArray} (hT : (buildModel f).total < 2 ^ 32) {i : Nat} (hi : i < 256) :
    (entry (buildModel f).cumHigh i).toNat ≤ (buildModel f).total := by
  rw [buildModel_cumHigh hT hi]; exact sumCounts_take_le _ _

/-! ### The least positive count -/

theorem toNat_pos {f : Word32} (h : f ≠ 0) : 0 < f.toNat :=
  Nat.pos_of_ne_zero fun e => h (BitVec.eq_of_toNat_eq e)

theorem minPositive_mem {l : List Word32} (h : ∃ f ∈ l, f ≠ 0) : ∃ f ∈ l, f ≠ 0 ∧ minPositive l = f.toNat := by
  induction l with
  | nil => obtain ⟨_, h, _⟩ := h; exact absurd h List.not_mem_nil
  | cons g l ih =>
    simp only [minPositive]
    by_cases hg : g = 0
    · obtain ⟨f, hf, hf0⟩ := h
      rcases List.mem_cons.1 hf with rfl | hf
      · exact absurd hg hf0
      · obtain ⟨e, he, he0, heq⟩ := ih ⟨f, hf, hf0⟩
        exact ⟨e, List.mem_cons_of_mem _ he, he0, by rw [if_pos hg, heq]⟩
    · rw [if_neg hg]
      by_cases hl : ∃ f ∈ l, f ≠ 0
      · obtain ⟨e, he, he0, heq⟩ := ih hl
        have := toNat_pos he0
        rw [if_neg (by omega)]
        rcases Nat.le_total g.toNat (minPositive l) with hm | hm
        · exact ⟨g, List.mem_cons_self, hg, by omega⟩
        · exact ⟨e, List.mem_cons_of_mem _ he, he0, by omega⟩
      · have : minPositive l = 0 := by
          have hz : ∀ f ∈ l, f = 0 := by simpa using hl
          clear h hl ih
          induction l with
          | nil => rfl
          | cons e l ih =>
            rw [minPositive, if_pos (hz e List.mem_cons_self)]
            exact ih fun f hf => hz f (List.mem_cons_of_mem _ hf)
        exact ⟨g, List.mem_cons_self, hg, by rw [if_pos this]⟩

theorem minPositive_le {l : List Word32} {f : Word32} (h : f ∈ l) (hf : f ≠ 0) : minPositive l ≤ f.toNat := by
  induction l with
  | nil => exact absurd h List.not_mem_nil
  | cons g l ih =>
    simp only [minPositive]
    rcases List.mem_cons.1 h with rfl | h
    · rw [if_neg hf]; split <;> omega
    · have := ih h
      obtain ⟨e, _, he, heq⟩ := minPositive_mem ⟨f, h, hf⟩
      have := toNat_pos he
      split
      · assumption
      · rw [if_neg (by omega)]; omega

theorem minPositive_pos {l : List Word32} (h : 0 < sumCounts l) : 0 < minPositive l := by
  have : ∃ f ∈ l, f ≠ 0 := by
    by_contra hc
    have hz : ∀ f ∈ l, f = 0 := by simpa using hc
    have : sumCounts l = 0 := by
      clear h hc
      induction l with
      | nil => rfl
      | cons e l ih =>
        rw [sumCounts_cons, ih fun f hf => hz f (List.mem_cons_of_mem _ hf), hz e List.mem_cons_self]; rfl
    omega
  obtain ⟨f, _, hf, heq⟩ := minPositive_mem this
  rw [heq]; exact toNat_pos hf

/-- FMIN is at most the count of a symbol present (R142). -/
theorem fmin_le {f : RegArray} {i : Nat} (hi : i < 256) (h : entry f i ≠ 0) :
    (buildModel f).fmin ≤ (entry f i).toNat := by
  refine minPositive_le ?_ h
  rw [entry_eq_getElem f hi]; exact List.getElem_mem _

theorem le_sumCounts {l : List Word32} {f : Word32} (h : f ∈ l) : f.toNat ≤ sumCounts l := by
  induction l with
  | nil => exact absurd h List.not_mem_nil
  | cons g l ih =>
    rw [sumCounts_cons]
    rcases List.mem_cons.1 h with rfl | h
    · omega
    · have := ih h; omega

theorem fmin_le_total (f : RegArray) : (buildModel f).fmin ≤ (buildModel f).total := by
  by_cases h : ∃ g ∈ f.toList, g ≠ 0
  · obtain ⟨g, hg, _, heq⟩ := minPositive_mem h
    show minPositive _ ≤ sumCounts _
    rw [heq]; exact le_sumCounts hg
  · have hz : ∀ g ∈ f.toList, g = 0 := by simpa using h
    suffices ∀ l : List Word32, (∀ g ∈ l, g = 0) → minPositive l = 0 by
      show minPositive _ ≤ sumCounts _
      rw [this _ hz]; omega
    intro l hl
    induction l with
    | nil => rfl
    | cons e l ih =>
      rw [minPositive, if_pos (hl e List.mem_cons_self)]
      exact ih fun f hf => hl f (List.mem_cons_of_mem _ hf)

/-! ### The symbols present -/

theorem mem_symbolsOf {f : RegArray} {c : Byte} : c ∈ symbolsOf f ↔ symEntry f c ≠ 0 := by
  simp only [symbolsOf, List.mem_map, List.mem_filter, List.mem_range, decide_eq_true_eq, ne_eq, symEntry]
  constructor
  · rintro ⟨i, ⟨hi, h⟩, rfl⟩
    rwa [BitVec.toNat_ofNat, Nat.mod_eq_of_lt (by omega : i < 2 ^ 8)]
  · intro h
    exact ⟨c.toNat, ⟨c.isLt, h⟩, by simp⟩

theorem symbolsOf_sorted (f : RegArray) : (symbolsOf f).Pairwise fun a b => a.toNat < b.toNat := by
  rw [symbolsOf, List.pairwise_map]
  refine (List.Pairwise.filter _ List.pairwise_lt_range).imp_of_mem fun {a b} ha hb h => ?_
  have ha' := (List.mem_filter.1 ha).1
  have hb' := (List.mem_filter.1 hb).1
  rw [List.mem_range] at ha' hb'
  rwa [BitVec.toNat_ofNat, BitVec.toNat_ofNat, Nat.mod_eq_of_lt (by omega : a < 2 ^ 8),
    Nat.mod_eq_of_lt (by omega : b < 2 ^ 8)]

theorem symbolsOf_nodup (f : RegArray) : (symbolsOf f).Nodup :=
  (symbolsOf_sorted f).imp fun {a b} h => by rintro rfl; omega

/-- SYMCOUNT is the number of symbols present (R142). -/
theorem symbolsOf_length (f : RegArray) : (symbolsOf f).length = (buildModel f).symCount := by
  have key : ∀ l : List Word32, ((List.range l.length).filter fun i => l.getD i 0 ≠ 0).length = l.countP (· ≠ 0) := by
    intro l
    induction l using List.reverseRecOn with
    | nil => rfl
    | append_singleton l a ih =>
      have h1 : (List.range l.length).filter (fun i => decide ((l ++ [a]).getD i 0 ≠ 0)) =
          (List.range l.length).filter fun i => decide (l.getD i 0 ≠ 0) := by
        apply List.filter_congr
        intro i hi
        simp [List.getD_eq_getElem?_getD, List.getElem?_append_left (List.mem_range.1 hi)]
      rw [List.length_append, List.length_singleton, List.range_succ, List.filter_append, h1, List.length_append, ih,
        List.countP_append]
      congr 1
      by_cases ha : a = 0
      · simp [List.getD_eq_getElem?_getD, ha]
      · have hb : ¬ a = 0#32 := ha
        simp [List.getD_eq_getElem?_getD, hb]
  have := key f.toList
  rw [toList_length] at this
  rw [symbolsOf, List.length_map]
  exact this

theorem symCount_le (f : RegArray) : (buildModel f).symCount ≤ 256 := by
  have := List.countP_le_length (p := fun x : Word32 => decide (x ≠ 0)) (l := f.toList)
  simpa [buildModel] using this

theorem symCount_pos {f : RegArray} (h : 0 < (buildModel f).total) : 0 < (buildModel f).symCount := by
  have hm := minPositive_pos h
  have : ∃ g ∈ f.toList, g ≠ 0 := by
    by_contra hc
    have hz : ∀ g ∈ f.toList, g = 0 := by simpa using hc
    have : sumCounts f.toList = 0 := by
      have : ∀ l : List Word32, (∀ g ∈ l, g = 0) → sumCounts l = 0 := by
        intro l hl
        induction l with
        | nil => rfl
        | cons e l ih =>
          rw [sumCounts_cons, ih fun f hf => hl f (List.mem_cons_of_mem _ hf), hl e List.mem_cons_self]; rfl
      exact this _ hz
    have h' : 0 < sumCounts f.toList := h
    omega
  exact List.countP_pos_iff.2 (by obtain ⟨g, hg, h0⟩ := this; exact ⟨g, hg, by simpa using h0⟩)

/-! ### Counting -/

theorem symEntry_countBytes (bytes : List Byte) (c : Byte) :
    symEntry (countBytes bytes) c = BitVec.ofNat 32 (bytes.count c) := by
  have hc := c.isLt
  rw [symEntry, countBytes, entry_regArray, List.getD_eq_getElem?_getD, List.getElem?_map, List.getElem?_range hc]
  simp

theorem symEntry_countBytes_toNat {bytes : List Byte} (h : bytes.length < 2 ^ 32) (c : Byte) :
    (symEntry (countBytes bytes) c).toNat = bytes.count c := by
  have := List.count_le_length (a := c) (l := bytes)
  rw [symEntry_countBytes, BitVec.toNat_ofNat, Nat.mod_eq_of_lt (by omega)]

theorem sum_indicator (l : List Nat) (k : Nat) : (l.map fun s => if s = k then 1 else 0).sum = l.count k := by
  induction l with
  | nil => rfl
  | cons a l ih =>
    rw [List.map_cons, List.sum_cons, ih, List.count_cons, Nat.add_comm]
    simp

theorem sum_counts (l : List Nat) (hl : ∀ i ∈ l, i < 256) (bytes : List Byte) :
    (l.map fun s => bytes.count (BitVec.ofNat 8 s)).sum = (bytes.map fun b => l.count b.toNat).sum := by
  induction bytes with
  | nil => induction l with
    | nil => rfl
    | cons a l ih => simp
  | cons b bs ih =>
    rw [List.map_cons, List.sum_cons, ← ih, ← sum_indicator l b.toNat, ← List.sum_map_add]
    congr 1
    apply List.map_congr_left
    intro s hs
    have hs' := hl s hs
    rw [List.count_cons, Nat.add_comm]
    congr 1
    by_cases h : s = b.toNat
    · subst h; simp
    · have : ¬ b = BitVec.ofNat 8 s := fun e => h (by
        rw [e, BitVec.toNat_ofNat, Nat.mod_eq_of_lt (by omega)])
      simp [h, this]

/-- The counts of the 256 byte values add up to the length (R141). -/
theorem sum_count_bytes (bytes : List Byte) :
    ((List.range 256).map fun s => bytes.count (BitVec.ofNat 8 s)).sum = bytes.length := by
  rw [sum_counts _ (fun i hi => List.mem_range.1 hi)]
  induction bytes with
  | nil => rfl
  | cons b bs ih =>
    rw [List.map_cons, List.sum_cons, ih, List.length_cons,
      List.count_eq_one_of_mem List.nodup_range (List.mem_range.2 b.isLt), Nat.add_comm]

theorem sumCounts_countBytes {bytes : List Byte} (h : bytes.length < 2 ^ 32) :
    sumCounts (countBytes bytes).toList = bytes.length := by
  rw [← sum_count_bytes bytes, sumCounts]
  simp only [countBytes, regArray, Vector.toList_mk, List.map_map]
  congr 1
  apply List.map_congr_left
  intro s _
  have := List.count_le_length (a := BitVec.ofNat 8 s) (l := bytes)
  simp only [Function.comp_apply, BitVec.toNat_ofNat]
  exact Nat.mod_eq_of_lt (by omega)

@[simp] theorem inputBytes_length (s : State) (n : Nat) : (s.inputBytes n).length = n := by simp [State.inputBytes]

end Sys2Proof.Machine
end

