-- ==== Sys2Proof/Laws/Decoder.lean ====
section
/-! SUPPORT. What the header parser accepts and what the search finds (43_bitstream_packer.md R168, 46_decoder.md R224). -/

namespace Sys2Proof.Machine

variable {s : State}

/-- A frequency fits its register. -/
theorem fileFreq_lt (s : State) (j : Nat) : s.fileFreq j < 2 ^ 32 := readBigEndian_lt _ _ _ _

/-- What the loop over the pairs has checked and filled in when it ends well. -/
theorem parsePairs_ok {n : Nat} : ∀ {j : Nat} {f g : RegArray}, s.parsePairs n j f = .ok g →
    (∀ i, i < n → symEntry f (s.fileSymbol (j + i)) = 0 ∧ s.fileFreq (j + i) ≠ 0 ∧
      (symEntry g (s.fileSymbol (j + i))).toNat = s.fileFreq (j + i)) ∧
    (∀ i k, i < k → k < n → s.fileSymbol (j + i) ≠ s.fileSymbol (j + k)) ∧
    ∀ c, (∀ i, i < n → s.fileSymbol (j + i) ≠ c) → symEntry g c = symEntry f c := by
  induction n with
  | zero =>
    intro j f g h
    cases h
    exact ⟨fun i hi => absurd hi (Nat.not_lt_zero i), fun i k _ hk => absurd hk (Nat.not_lt_zero k), fun _ _ => rfl⟩
  | succ n ih =>
    intro j f g h
    rw [State.parsePairs] at h
    split at h
    · cases h
    · rename_i hd
      split at h
      · cases h
      · rename_i hz
        have hd : symEntry f (s.fileSymbol j) = 0 := Decidable.not_not.1 hd
        have hz : s.fileFreq j ≠ 0 := hz
        obtain ⟨h1, h2, h3⟩ := ih h
        have hne : ∀ i, i < n → s.fileSymbol j ≠ s.fileSymbol (j + 1 + i) := by
          intro i hi e
          have h0 := (h1 i hi).1
          rw [symEntry_setEntry, if_pos (by exact e.symm)] at h0
          have := congrArg BitVec.toNat h0
          rw [BitVec.toNat_ofNat] at this
          exact hz ((Nat.mod_eq_of_lt (fileFreq_lt s j)).symm.trans this)
        refine ⟨?_, ?_, ?_⟩
        · intro i hi
          cases i with
          | zero =>
            refine ⟨hd, hz, ?_⟩
            have h0 := h3 (s.fileSymbol j) fun i hi e => hne i hi e.symm
            rw [symEntry_setEntry, if_pos (by rfl)] at h0
            rw [Nat.add_zero, h0, BitVec.toNat_ofNat]
            exact Nat.mod_eq_of_lt (fileFreq_lt s j)
          | succ i =>
            have := h1 i (by omega)
            rw [symEntry_setEntry, if_neg (fun e => hne i (by omega) e.symm)] at this
            rwa [show j + (i + 1) = j + 1 + i by omega]
        · intro i k hik hk
          cases k with
          | zero => omega
          | succ k =>
            cases i with
            | zero =>
              have := hne k (by omega)
              rwa [Nat.add_zero, show j + (k + 1) = j + 1 + k by omega]
            | succ i =>
              have := h2 i k (by omega) (by omega)
              rwa [show j + (i + 1) = j + 1 + i by omega, show j + (k + 1) = j + 1 + k by omega]
        · intro c hc
          rw [h3 c fun i hi => by
            have := hc (i + 1) (by omega)
            rwa [show j + (i + 1) = j + 1 + i by omega] at this]
          rw [symEntry_setEntry, if_neg fun e => hc 0 (by omega) e.symm]

/-- What the parser has checked when it returns, and what it returns. -/
theorem headerParse_ok {h : Header} (hp : s.headerParse = .ok h) :
    HeaderFits s ∧ s.parsePairs s.fileK 0 (Vector.replicate 256 0) = .ok h.freq ∧
    sumCounts h.freq.toList = s.fileN ∧ headerLength s.fileK < s.inLen.toNat ∧ s.fileN ≤ s.obufSize.toNat ∧
    h.n = s.fileN ∧ h.hdrLen = headerLength s.fileK ∧ h.bitLen = 8 * (s.inLen.toNat - headerLength s.fileK) := by
  have hk : s.ibuf.readBigEndian .ibuf 0 2 = s.fileK := rfl
  have hn : s.ibuf.readBigEndian .ibuf (2 + 5 * s.fileK) 4 = s.fileN := rfl
  rw [State.headerParse] at hp
  simp only [hk, hn] at hp
  split at hp
  · cases hp
  split at hp
  · cases hp
  split at hp
  · cases hp
  split at hp
  · cases hp
  rename_i f hf
  split at hp
  · cases hp
  split at hp
  · cases hp
  split at hp
  · cases hp
  rename_i hsum _ _
  cases hp
  exact ⟨⟨by omega, by omega, by omega, by omega⟩, hf, Decidable.not_not.1 hsum, by omega, by omega, rfl, rfl, rfl⟩

/-- The search answers a symbol present whose candidate interval contains TAG. -/
theorem search_some {c : Byte} (h : s.search = some c) :
    symEntry s.freq c ≠ 0 ∧ (s.candidate c).1 ≤ s.tag.toNat ∧ s.tag.toNat < (s.candidate c).2 := by
  have h1 := List.find?_some h
  have h2 := List.mem_of_find?_eq_some h
  rw [mem_symbolsOf] at h2
  exact ⟨h2, by simpa [State.tagMatches] using h1⟩

end Sys2Proof.Machine
end

