-- ==== Sys2Proof/Laws/Exec.lean ====
section
/-! SUPPORT. How a command ends: one inversion lemma per shared operation of `Ops.lean` (`finish`, `inPhases`,
`execPrimitive`, the parts of a sequence, `execSequence`), so that a proof about `exec` never unfolds them. -/

namespace Sys2Proof.Machine

variable {s t : State}

/-! ### Primitives -/

/-- A primitive that answers a next state completed, or took an error. -/
theorem finish_next {r : Exec (State × Word32)} (h : finish s r = .next t) :
    (∃ u d, r = .ok (u, d) ∧ t = u.respond .ok d) ∨ ∃ e info, r = raise e info ∧ t = takeError e info s := by
  rcases r with (⟨e, info⟩ | f) | ⟨u, d⟩
  · exact .inr ⟨e, info, rfl, by simpa [finish] using h.symm⟩
  · cases h
  · exact .inl ⟨u, d, rfl, by simpa [finish] using h.symm⟩

theorem finish_ok {r : Exec (State × Word32)} {u : State} {d : Word32} (h : r = .ok (u, d)) :
    finish s r = .next (u.respond .ok d) := by subst h; rfl

theorem finish_raise (e : ErrorKind) (info : Word32) :
    finish s (raise e info : Exec (State × Word32)) = .next (takeError e info s) := rfl

theorem inPhases_pass {m : Mnemonic} {body : State → Exec (State × Word32)} (h : phasesOf m s.phase = true) :
    inPhases m body s = body s := by simp [inPhases, h]

theorem inPhases_fail {m : Mnemonic} {body : State → Exec (State × Word32)} (h : phasesOf m s.phase = false) :
    inPhases m body s = raise .phase (zext32 m.opcode) := by simp [inPhases, h]

/-- A command that runs in ERROR is one of the four of 30_encoding.md R91 step 2. -/
theorem runsInError_of_phasesOf {m : Mnemonic} (h : phasesOf m .error = true) : runsInError m = true := by
  cases m <;> simp_all [phasesOf, runsInError]

/-- Everything a primitive command can do when it answers a next state: it was refused, it completed, or it raised. -/
theorem execPrimitive_next {m : Mnemonic} {body : State → Exec (State × Word32)} (h : execPrimitive m body s = .next t) :
    (s.phase = .error ∧ runsInError m = false ∧ t = refuse s) ∨
    (phasesOf m s.phase = true ∧ ∃ u d, body s = .ok (u, d) ∧ t = u.respond .ok d) ∨
    (phasesOf m s.phase = true ∧ ∃ e info, body s = raise e info ∧ t = takeError e info s) ∨
    (phasesOf m s.phase = false ∧ s.phase ≠ .error ∧ t = takeError .phase (zext32 m.opcode) s) := by
  unfold execPrimitive at h
  split at h
  · rename_i hc
    exact .inl ⟨hc.1, hc.2, by simpa using h.symm⟩
  · rename_i hc
    by_cases hp : phasesOf m s.phase = true
    · rw [inPhases_pass hp] at h
      obtain ⟨u, d, hb, ht⟩ | ⟨e, info, hb, ht⟩ := finish_next h
      · exact .inr (.inl ⟨hp, u, d, hb, ht⟩)
      · exact .inr (.inr (.inl ⟨hp, e, info, hb, ht⟩))
    · rw [Bool.not_eq_true] at hp
      rw [inPhases_fail hp, finish_raise] at h
      refine .inr (.inr (.inr ⟨hp, fun he => ?_, by simpa using h.symm⟩))
      rw [he] at hp hc
      cases m <;> simp_all [phasesOf, runsInError]

/-- A primitive in one of its phases ends as its rule does. -/
theorem execPrimitive_pass {m : Mnemonic} {body : State → Exec (State × Word32)} (h : phasesOf m s.phase = true) :
    execPrimitive m body s = finish s (body s) := by
  have hc : ¬ (s.phase = .error ∧ runsInError m = false) := by
    rintro ⟨he, hr⟩
    rw [he] at h
    rw [runsInError_of_phasesOf h] at hr
    cases hr
  rw [execPrimitive, if_neg hc, inPhases_pass h]

/-- A primitive outside its phases, in no error, raises ERR_PHASE with its opcode (30_encoding.md R91 step 3). -/
theorem execPrimitive_wrongPhase {m : Mnemonic} {body : State → Exec (State × Word32)}
    (h : phasesOf m s.phase = false) (he : s.phase ≠ .error) :
    execPrimitive m body s = .next (takeError .phase (zext32 m.opcode) s) := by
  rw [execPrimitive, if_neg fun hc => he hc.1, inPhases_fail h, finish_raise]

/-- A primitive that does not run in ERROR is refused there (60_exceptions.md R247). -/
theorem execPrimitive_refused {m : Mnemonic} {body : State → Exec (State × Word32)}
    (h : runsInError m = false) (he : s.phase = .error) : execPrimitive m body s = .next (refuse s) := by
  rw [execPrimitive, if_pos ⟨he, h⟩]

/-- A primitive stops only where its rule does. -/
theorem execPrimitive_fault {m : Mnemonic} {body : State → Exec (State × Word32)} {f : Fault}
    (h : execPrimitive m body s = .fault f) : body s = stop f := by
  unfold execPrimitive at h
  split at h
  · cases h
  · unfold inPhases at h
    split at h
    · match hb : body s, h with
      | .error (.stop g), h => simpa [finish, stop] using h
    · cases h

theorem execPrimitive_not_refused {m : Mnemonic} {body : State → Exec (State × Word32)} {r : Refusal} :
    execPrimitive m body s ≠ .refused r := by
  unfold execPrimitive
  split
  · simp
  · match inPhases m body s with
    | .ok _ => simp [finish]
    | .error (.raise _ _) => simp [finish]
    | .error (.stop _) => simp [finish]

/-! ### Sequences -/

theorem runPrimitive_ok {body : State → Exec (State × Word32)} (h : runPrimitive body s = .ok t) :
    ∃ d, body s = .ok (t, d) := by
  unfold runPrimitive at h
  split at h
  · rename_i u d hb; exact ⟨d, by simpa [hb] using h⟩
  · cases h

theorem runPrimitive_of_ok {body : State → Exec (State × Word32)} {d : Word32} (h : body s = .ok (t, d)) :
    runPrimitive body s = .ok t := by simp [runPrimitive, h]

theorem runPrimitive_error {body : State → Exec (State × Word32)} {u : State} {a : Abort}
    (h : runPrimitive body s = .error (u, a)) : u = s ∧ body s = .error a := by
  unfold runPrimitive at h
  split at h
  · cases h
  · rename_i b hb
    simp only [Except.error.injEq, Prod.mk.injEq] at h
    exact ⟨h.1.symm, by rw [hb, h.2]⟩

theorem andThen_ok {r : Run} {next : State → Run} (h : andThen r next = .ok t) : ∃ u, r = .ok u ∧ next u = .ok t := by
  cases r with
  | ok u => exact ⟨u, rfl, h⟩
  | error e => cases h

/-- A sequence fails in its first part, or in the rest of it. -/
theorem andThen_error {r : Run} {next : State → Run} {e : State × Abort} (h : andThen r next = .error e) :
    r = .error e ∨ ∃ u, r = .ok u ∧ next u = .error e := by
  cases r with
  | ok u => exact .inr ⟨u, rfl, h⟩
  | error f => exact .inl (by simpa [andThen] using h)

@[simp] theorem repeatPrimitive_zero (body : State → Exec (State × Word32)) : repeatPrimitive body 0 s = .ok s := rfl

theorem repeatPrimitive_succ (body : State → Exec (State × Word32)) (n : Nat) :
    repeatPrimitive body (n + 1) s = andThen (runPrimitive body s) (repeatPrimitive body n) := by
  rw [repeatPrimitive]
  cases runPrimitive body s <;> rfl

/-- What every completed primitive keeps, a completed repetition keeps. -/
theorem repeatPrimitive_ok {body : State → Exec (State × Word32)} {p : State → Prop}
    (step : ∀ {u v d}, p u → body u = .ok (v, d) → p v) {n : Nat} (hs : p s) (h : repeatPrimitive body n s = .ok t) :
    p t := by
  induction n generalizing s with
  | zero => cases h; exact hs
  | succ n ih =>
    rw [repeatPrimitive_succ] at h
    obtain ⟨u, hu, h⟩ := andThen_ok h
    obtain ⟨d, hd⟩ := runPrimitive_ok hu
    exact ih (step hs hd) h

/-- A repetition that fails fails in one primitive, on a state that the primitives before it led to. -/
theorem repeatPrimitive_error {body : State → Exec (State × Word32)} {p : State → Prop}
    (step : ∀ {u v d}, p u → body u = .ok (v, d) → p v) {n : Nat} {u : State} {a : Abort} (hs : p s)
    (h : repeatPrimitive body n s = .error (u, a)) : p u ∧ body u = .error a := by
  induction n generalizing s with
  | zero => cases h
  | succ n ih =>
    rw [repeatPrimitive_succ] at h
    obtain h | ⟨v, hv, h⟩ := andThen_error h
    · obtain ⟨rfl, hb⟩ := runPrimitive_error h
      exact ⟨hs, hb⟩
    · obtain ⟨d, hd⟩ := runPrimitive_ok hv
      exact ih (step hs hd) h

/-- A sequence that answers a next state completed, or took the error of the primitive that failed (R246). -/
theorem finishRun_next {r : Run} (h : finishRun r = .next t) :
    (∃ u, r = .ok u ∧ t = u.respond .ok u.outLen) ∨
    ∃ u e info, r = .error (u, .raise e info) ∧ t = takeError e info u := by
  rcases r with ⟨u, ⟨e, info⟩ | f⟩ | u
  · exact .inr ⟨u, e, info, rfl, by simpa [finishRun] using h.symm⟩
  · cases h
  · exact .inl ⟨u, rfl, by simpa [finishRun] using h.symm⟩

/-- Everything a macro command can do when it answers a next state. -/
theorem execSequence_next {m : Mnemonic} {run : State → Run} (h : execSequence m run s = .next t) :
    (s.phase = .error ∧ runsInError m = false ∧ t = refuse s) ∨
    (phasesOf m s.phase = true ∧ ∃ u, run s = .ok u ∧ t = u.respond .ok u.outLen) ∨
    (phasesOf m s.phase = true ∧ ∃ u e info, run s = .error (u, .raise e info) ∧ t = takeError e info u) ∨
    (phasesOf m s.phase = false ∧ t = takeError .phase (zext32 m.opcode) s) := by
  unfold execSequence at h
  split at h
  · rename_i hc
    exact .inl ⟨hc.1, hc.2, by simpa using h.symm⟩
  · split at h
    · rename_i hp
      obtain ⟨u, hr, ht⟩ | ⟨u, e, info, hr, ht⟩ := finishRun_next h
      · exact .inr (.inl ⟨hp, u, hr, ht⟩)
      · exact .inr (.inr (.inl ⟨hp, u, e, info, hr, ht⟩))
    · rename_i hp
      exact .inr (.inr (.inr ⟨by simpa using hp, by simpa using h.symm⟩))

/-- A macro command in one of its phases ends as its sequence does. -/
theorem execSequence_pass {m : Mnemonic} {run : State → Run} (h : phasesOf m s.phase = true) :
    execSequence m run s = finishRun (run s) := by
  have hc : ¬ (s.phase = .error ∧ runsInError m = false) := by
    rintro ⟨he, hr⟩
    rw [he] at h
    rw [runsInError_of_phasesOf h] at hr
    cases hr
  rw [execSequence, if_neg hc, if_pos h]

/-! ### Reset -/

/-- The buffers of the power-on state are in canonical form. -/
theorem powerOn_wf (a b : Word32) :
    (State.powerOn a b).ibuf.wf = true ∧ (State.powerOn a b).obuf.wf = true := by
  simp [State.powerOn, Memory.wf, cellsSorted]

/-- The buffers of the reset state are in canonical form. -/
theorem reset_wf : State.reset.ibuf.wf = true ∧ State.reset.obuf.wf = true := by
  simp [State.reset, State.powerOn, Memory.wf, cellsSorted]

/-! ### rst_n while a command is in progress -/

theorem mem_obufWrites {i : Instr} {a : Nat} : a ∈ obufWrites i s t ↔ MayWriteObuf i s t a := by
  have hbits : a ∈ (List.range (t.bitCount.toNat - s.bitCount.toNat)).map
      (fun j => s.sinkAddress (s.bitCount.toNat + j)) ↔
      ∃ j, s.bitCount.toNat ≤ j ∧ j < t.bitCount.toNat ∧ a = s.sinkAddress j := by
    rw [List.mem_map]
    constructor
    · rintro ⟨j, hj, rfl⟩
      exact ⟨s.bitCount.toNat + j, by omega, by rw [List.mem_range] at hj; omega, rfl⟩
    · rintro ⟨j, h1, h2, rfl⟩
      exact ⟨j - s.bitCount.toNat, List.mem_range.2 (by omega), by rw [Nat.add_sub_cancel' h1]⟩
  cases i with
  | encStep => exact hbits
  | encFinish => exact hbits
  | _ => simp [obufWrites, MayWriteObuf]

/-- OBUF after abandoning a command that would have completed. -/
theorem abandonedObuf_completed {w : Word64} {i : Instr} (hs : s.phase ≠ .error) (hd : decode w = .ok i)
    (he : exec i s = .next t) (ht : t.phase ≠ .error) :
    abandonedObuf w s = s.obuf.forget .obuf (obufWrites i s t) := by
  simp [abandonedObuf, hs, hd, he, ht]

theorem abandonedObuf_error {w : Word64} (hs : s.phase = .error) : abandonedObuf w s = s.obuf := if_pos hs

/-- In every case OBUF keeps its bytes but those the command may have written, or is wholly unspecified. -/
theorem abandonedObuf_cases (w : Word64) (s : State) : abandonedObuf w s = s.obuf ∨
    abandonedObuf w s = s.obuf.unspecified ∨
    ∃ i t, decode w = .ok i ∧ exec i s = .next t ∧ t.phase ≠ .error ∧
      abandonedObuf w s = s.obuf.forget .obuf (obufWrites i s t) := by
  by_cases hs : s.phase = .error
  · exact .inl (abandonedObuf_error hs)
  right
  cases hd : decode w with
  | error e => exact .inl (by simp [abandonedObuf, hs, hd])
  | ok i =>
    cases he : exec i s with
    | next t =>
      by_cases ht : t.phase = .error
      · exact .inl (by simp [abandonedObuf, hs, hd, he, ht])
      · exact .inr ⟨i, t, rfl, he, ht, abandonedObuf_completed hs hd he ht⟩
    | fault f => exact .inl (by simp [abandonedObuf, hs, hd, he])
    | refused r => exact .inl (by simp [abandonedObuf, hs, hd, he])

theorem mem_ibufWrites {i : Instr} {a : Nat} (h : a ∈ ibufWrites i s) :
    (∃ b, i = .inWrite b) ∧ s.phase = .idle ∧ a = s.inLen.toNat ∧ a < s.ibufSize.toNat := by
  cases i with
  | inWrite b =>
    rw [ibufWrites] at h
    split at h
    · rename_i hp
      rw [List.mem_singleton] at h
      exact ⟨⟨b, rfl⟩, hp.1, h, h ▸ hp.2⟩
    · exact absurd h List.not_mem_nil
  | _ => exact absurd h List.not_mem_nil

/-- Abandoning a command changes no byte of IBUF but the one an IN_WRITE writes. -/
theorem read_abandonedIbuf {w : Word64} {a : Nat} (b : Buffer) (h : a ≠ s.inLen.toNat) :
    (abandonedIbuf w s).read b a = s.ibuf.read b a := by
  rw [abandonedIbuf]
  split
  · exact read_forget_other _ b _ fun ha => h (mem_ibufWrites ha).2.2.1
  · rfl

end Sys2Proof.Machine
end

