-- ==== Sys2Proof/Laws/Packer.lean ====
section
/-! SUPPORT. What the bit sink and the header writer do to OBUF (43_bitstream_packer.md R161, R167): where they write,
what they leave alone, and that the canonical form stays. -/

namespace Sys2Proof.Machine

/-! ### One bit -/

variable {m : Memory} {a j : Nat} {b : Bool}

theorem wf_putBit (h : m.wf = true) (a j : Nat) (b : Bool) : (m.putBit a j b).wf = true := by
  unfold Memory.putBit
  split
  · exact wf_write (wf_write h _ _) _ _
  · exact wf_write h _ _

@[simp] theorem epoch_putBit (m : Memory) (a j : Nat) (b : Bool) : (m.putBit a j b).epoch = m.epoch := by
  unfold Memory.putBit
  split <;> simp

theorem written_putBit_other {c : Nat} (h : c ≠ a) : (m.putBit a j b).written c = m.written c := by
  unfold Memory.putBit
  split <;> simp [written_write_other _ _ h]

theorem read_putBit_other {c : Nat} (h : c ≠ a) (d : Buffer) : (m.putBit a j b).read d c = m.read d c := by
  simp [Memory.read, written_putBit_other h]

theorem written_putBit_same (m : Memory) (a j : Nat) (b : Bool) : ((m.putBit a j b).written a).isSome = true := by
  simp [Memory.putBit]

/-- The byte a bit goes into (R161). -/
theorem read_putBit_same (m : Memory) (a j : Nat) (b : Bool) :
    (m.putBit a j b).read .obuf a = (if j % 8 = 0 then 0 else m.read .obuf a) ||| (bitByte b <<< (7 - j % 8)) := by
  unfold Memory.putBit
  split <;> simp

theorem BufferLegal.putBit {size : Word32} (h : BufferLegal m size) (ha : a < size.toNat) (j : Nat) (b : Bool) :
    BufferLegal (m.putBit a j b) size := by
  unfold Memory.putBit
  split
  · exact (h.write _ ha).write _ ha
  · exact h.write _ ha

theorem WrittenBelow.putBit {n : Nat} (h : WrittenBelow m n) (a j : Nat) (b : Bool) :
    WrittenBelow (m.putBit a j b) n := by
  intro c hc
  rcases eq_or_ne c a with rfl | hn
  · exact written_putBit_same _ _ _ _
  · rw [written_putBit_other hn]; exact h c hc

/-! ### A run of bits -/

variable {s : State} {bits : List Bool}

@[simp] theorem emitAll_nil (s : State) : s.emitAll [] = s := rfl

@[simp] theorem emitAll_cons (s : State) (b : Bool) (bs : List Bool) : s.emitAll (b :: bs) = (s.emit b).emitAll bs := rfl

theorem emitAll_append (s : State) (bs cs : List Bool) : s.emitAll (bs ++ cs) = (s.emitAll bs).emitAll cs := by
  simp [State.emitAll, List.foldl_append]

theorem emit_bitCount_toNat (h : s.bitCount.toNat + 1 < 2 ^ 32) (b : Bool) :
    (s.emit b).bitCount.toNat = s.bitCount.toNat + 1 := by
  rw [State.emit, BitVec.toNat_ofNat, Nat.mod_eq_of_lt h]

/-- BIT_COUNT grows by the number of bits emitted (10_state.md R23). -/
theorem emitAll_bitCount (h : s.bitCount.toNat + bits.length < 2 ^ 32) :
    (s.emitAll bits).bitCount.toNat = s.bitCount.toNat + bits.length := by
  induction bits generalizing s with
  | nil => rfl
  | cons b bs ih =>
    rw [List.length_cons] at h
    have h1 := emit_bitCount_toNat (s := s) (by omega) b
    rw [emitAll_cons, ih (by omega), h1, List.length_cons]
    omega

/-- The bytes before the first bit's byte and after the last bit's byte stay. -/
theorem emitAll_written_other (h : s.bitCount.toNat + bits.length < 2 ^ 32) {c : Nat}
    (hc : c < s.hdrLen.toNat + s.bitCount.toNat / 8 ∨
      s.hdrLen.toNat + (s.bitCount.toNat + bits.length + 7) / 8 ≤ c) :
    (s.emitAll bits).obuf.written c = s.obuf.written c := by
  induction bits generalizing s with
  | nil => rfl
  | cons b bs ih =>
    rw [List.length_cons] at h hc
    have h1 := emit_bitCount_toNat (s := s) (by omega) b
    rw [emitAll_cons, ih (by omega) (by rw [h1, emit_hdrLen]; omega)]
    exact written_putBit_other (by rw [State.sinkAddress]; omega)

theorem emitAll_epoch (s : State) (bits : List Bool) : (s.emitAll bits).obuf.epoch = s.obuf.epoch := by
  induction bits generalizing s with
  | nil => rfl
  | cons b bs ih => rw [emitAll_cons, ih]; simp [State.emit]

theorem emitAll_wf (h : s.obuf.wf = true) (bits : List Bool) : (s.emitAll bits).obuf.wf = true := by
  induction bits generalizing s with
  | nil => exact h
  | cons b bs ih => exact ih (s := s.emit b) (wf_putBit h _ _ _)

/-- Bits that fit in OBUF (R163) leave it legal. -/
theorem emitAll_legal {size : Word32} (hl : BufferLegal s.obuf size) (h : s.bitCount.toNat + bits.length < 2 ^ 32)
    (hf : s.hdrLen.toNat + (s.bitCount.toNat + bits.length + 7) / 8 ≤ size.toNat) :
    BufferLegal (s.emitAll bits).obuf size := by
  induction bits generalizing s with
  | nil => exact hl
  | cons b bs ih =>
    rw [List.length_cons] at h hf
    have h1 := emit_bitCount_toNat (s := s) (by omega) b
    refine ih (s := s.emit b) (hl.putBit (by rw [State.sinkAddress]; omega) _ _) (by omega) ?_
    rw [h1, emit_hdrLen]
    omega

/-- The bytes of the header and of the bits so far are all written. -/
theorem emitAll_writtenBelow (hw : WrittenBelow s.obuf (s.hdrLen.toNat + (s.bitCount.toNat + 7) / 8))
    (h : s.bitCount.toNat + bits.length < 2 ^ 32) :
    WrittenBelow (s.emitAll bits).obuf (s.hdrLen.toNat + (s.bitCount.toNat + bits.length + 7) / 8) := by
  induction bits generalizing s with
  | nil => exact hw
  | cons b bs ih =>
    rw [List.length_cons] at h ⊢
    have h1 := emit_bitCount_toNat (s := s) (by omega) b
    have := ih (s := s.emit b) ?_ (by omega)
    · rw [h1, emit_hdrLen] at this
      rwa [emitAll_cons, show s.bitCount.toNat + (bs.length + 1) = s.bitCount.toNat + 1 + bs.length by omega]
    · intro c hc
      rw [h1, emit_hdrLen] at hc
      rcases eq_or_ne c (s.sinkAddress s.bitCount.toNat) with rfl | hn
      · exact written_putBit_same _ _ _ _
      · rw [show (s.emit b).obuf = s.obuf.putBit (s.sinkAddress s.bitCount.toNat) s.bitCount.toNat b from rfl,
          written_putBit_other hn]
        apply hw
        rw [State.sinkAddress] at hn
        omega

/-! ### The header -/

theorem mem_pairCells {f : RegArray} {l : List Byte} {j : Nat} {c : Host.Cell} (h : c ∈ pairCells f j l) :
    2 + 5 * j ≤ c.1 ∧ c.1 < 2 + 5 * (j + l.length) := by
  induction l generalizing j with
  | nil => simp [pairCells] at h
  | cons s rest ih =>
    rw [pairCells, List.mem_append, List.mem_append, mem_bigEndianCells, mem_bigEndianCells] at h
    rw [List.length_cons]
    obtain (⟨i, hi, rfl⟩ | ⟨i, hi, rfl⟩) | h := h
    · simp only; omega
    · simp only; omega
    · have := ih h
      omega

/-- The pairs fill every byte of their part of the header. -/
theorem pairCells_cover (f : RegArray) (l : List Byte) (j : Nat) {a : Nat} (h1 : 2 + 5 * j ≤ a)
    (h2 : a < 2 + 5 * (j + l.length)) : ∃ c ∈ pairCells f j l, c.1 = a := by
  induction l generalizing j with
  | nil => simp at h2; omega
  | cons s rest ih =>
    rw [List.length_cons] at h2
    by_cases ha : a < 2 + 5 * (j + 1)
    · by_cases h0 : a = 2 + 5 * j
      · exact ⟨(2 + 5 * j + 0, _), by
          rw [pairCells, List.mem_append, List.mem_append, mem_bigEndianCells]
          exact .inl (.inl ⟨0, by omega, rfl⟩), h0.symm⟩
      · exact ⟨(3 + 5 * j + (a - (3 + 5 * j)), _), by
          rw [pairCells, List.mem_append, List.mem_append, mem_bigEndianCells, mem_bigEndianCells]
          exact .inl (.inr ⟨a - (3 + 5 * j), by omega, rfl⟩), by simp only; omega⟩
    · obtain ⟨c, hc, rfl⟩ := ih (j + 1) (by omega) (by omega)
      exact ⟨c, by rw [pairCells]; exact List.mem_append_right _ hc, rfl⟩

/-- The header's cells lie below the header length (30_encoding.md R92). -/
theorem headerCells_lt (hk : (symbolsOf s.freq).length = s.symCount.toNat) {c : Host.Cell} (h : c ∈ s.headerCells) :
    c.1 < headerLength s.symCount.toNat := by
  rw [State.headerCells, List.mem_append, List.mem_append, mem_bigEndianCells, mem_bigEndianCells] at h
  rw [headerLength]
  obtain (⟨i, hi, rfl⟩ | h) | ⟨i, hi, rfl⟩ := h
  · simp only; omega
  · have := mem_pairCells h
    omega
  · simp only; omega

/-- The header's cells fill it. -/
theorem headerCells_cover (hk : (symbolsOf s.freq).length = s.symCount.toNat) {a : Nat}
    (h : a < headerLength s.symCount.toNat) : ∃ c ∈ s.headerCells, c.1 = a := by
  rw [headerLength] at h
  by_cases h2 : a < 2
  · exact ⟨(0 + a, _), by
      rw [State.headerCells, List.mem_append, List.mem_append, mem_bigEndianCells]
      exact .inl (.inl ⟨a, h2, rfl⟩), by simp⟩
  · by_cases h3 : a < 2 + 5 * s.symCount.toNat
    · obtain ⟨c, hc, rfl⟩ := pairCells_cover s.freq (symbolsOf s.freq) 0 (a := a) (by omega) (by omega)
      exact ⟨c, by rw [State.headerCells]; exact List.mem_append_left _ (List.mem_append_right _ hc), rfl⟩
    · exact ⟨(2 + 5 * s.symCount.toNat + (a - (2 + 5 * s.symCount.toNat)), _), by
        rw [State.headerCells, List.mem_append, mem_bigEndianCells]
        exact .inr ⟨a - (2 + 5 * s.symCount.toNat), by omega, rfl⟩, by simp only; omega⟩

/-- With room for it, the header is written into OBUF and HDR_LEN set, and nothing else changes (R167). -/
theorem headerWrite_ok (hk : (symbolsOf s.freq).length = s.symCount.toNat)
    (hf : headerLength s.symCount.toNat ≤ s.obufSize.toNat) :
    s.headerWrite = .ok { s with
      obuf := s.obuf.writeCells s.headerCells
      hdrLen := BitVec.ofNat 32 (headerLength s.symCount.toNat) } := by
  rw [State.headerWrite, if_pos]
  rw [List.all_eq_true]
  intro c hc
  exact decide_eq_true (lt_of_lt_of_le (headerCells_lt hk hc) hf)

end Sys2Proof.Machine
end

