-- ==== Sys2Proof/Laws/PerInstr.lean ====
section
/-! SUPPORT. Statements made for every command, constructor by constructor (30_encoding.md R83): every `Instr` has an
operand exactly when its form has one, and it fits the form's field. -/

namespace Sys2Proof.Laws.OperandFits

/-- The command's operand fits its form. -/
def Statement (i : Instr) : Prop := i.wellFormed = true

theorem nop : Statement .nop := rfl
theorem softReset : Statement .softReset := rfl
theorem clear : Statement .clear := rfl
theorem setPrec (p : BitVec 5) : Statement (.setPrec p) := decide_eq_true p.isLt
theorem rdReg (a : BitVec 12) : Statement (.rdReg a) := decide_eq_true a.isLt
theorem inClear : Statement .inClear := rfl
theorem inWrite (b : Byte) : Statement (.inWrite b) := decide_eq_true b.isLt
theorem outRead (x : Word32) : Statement (.outRead x) := decide_eq_true x.isLt
theorem fmCount : Statement .fmCount := rfl
theorem fmBuild : Statement .fmBuild := rfl
theorem encStart : Statement .encStart := rfl
theorem encStep : Statement .encStep := rfl
theorem encFinish : Statement .encFinish := rfl
theorem decStart : Statement .decStart := rfl
theorem decStep : Statement .decStep := rfl
theorem compress : Statement .compress := rfl
theorem decompress : Statement .decompress := rfl

end Sys2Proof.Laws.OperandFits
end

