-- ==== Sys2Proof/Laws/Registers.lean ====
section
/-! SUPPORT. What each phase says of the registers makes their values legal (10_state.md R21): outside ERROR,
`RegistersLegal` follows from the rest of the invariant. -/

namespace Sys2Proof.Machine

variable {s : State}

theorem symEntry_zero (c : Byte) : symEntry (Vector.replicate 256 0) c = 0 := entry_replicate 0 c.isLt

theorem zeroArray_le {v : RegArray} (h : v = Vector.replicate 256 0) (c : Byte) : (symEntry v c).toNat ≤ 2 ^ 28 := by
  rw [h, symEntry_zero]; exact Nat.zero_le _

theorem whole_le (s : State) : s.whole ≤ 2 ^ 31 := Nat.pow_le_pow_right (by decide) (by omega)

theorem symEntry_toNat_le_total (f : RegArray) (c : Byte) : (symEntry f c).toNat ≤ (buildModel f).total := by
  have hc : c.toNat < 256 := c.isLt
  rw [symEntry, entry_eq_getElem f hc]
  exact le_sumCounts (List.getElem_mem _)

/-- The bounds on the three register arrays and on what BuildModel computes beside them. -/
structure ModelBounded (s : State) : Prop where
  freq     : ∀ c : Byte, (symEntry s.freq c).toNat ≤ 2 ^ 28
  cumLow   : ∀ c : Byte, (symEntry s.cumLow c).toNat ≤ 2 ^ 28
  cumHigh  : ∀ c : Byte, (symEntry s.cumHigh c).toNat ≤ 2 ^ 28
  total    : s.total.toNat ≤ 2 ^ 28
  symCount : s.symCount.toNat ≤ 256
  fmin     : s.fmin.toNat ≤ 2 ^ 28

theorem ModelBounded.ofZero (hf : ∀ c : Byte, (symEntry s.freq c).toNat ≤ 2 ^ 28) (h : ModelZero s) : ModelBounded s := by
  obtain ⟨h1, h2, h3, h4, h5⟩ := h
  exact ⟨hf, zeroArray_le h1, zeroArray_le h2, by simp [h3], by simp [h4], by simp [h5]⟩

theorem ModelBounded.ofBuilt (h : ModelBuilt s) : ModelBounded s := by
  obtain ⟨h1, h2, h3, h4, h5, -, h6, -⟩ := h
  have hT : (buildModel s.freq).total < 2 ^ 32 := by omega
  have hhigh : ∀ c : Byte, (symEntry s.cumHigh c).toNat ≤ (buildModel s.freq).total := fun c => by
    rw [h2]; exact buildModel_cumHigh_le hT c.isLt
  refine ⟨fun c => (symEntry_toNat_le_total s.freq c).trans (by omega), fun c => ?_, fun c => (hhigh c).trans (by omega),
    h6, h4 ▸ symCount_le s.freq, ?_⟩
  · have h := hhigh c
    rw [h2, symEntry, buildModel_cumHigh_eq hT c.isLt] at h
    rw [h1, symEntry]
    omega
  · have := fmin_le_total s.freq
    omega

/-- HDR_LEN of a model lies in 11..1286 (10_state.md R39). -/
theorem hdrLen_bounds (h : ModelBuilt s) (hl : HeaderLength s) : 11 ≤ s.hdrLen.toNat ∧ s.hdrLen.toNat ≤ 1286 := by
  obtain ⟨-, -, h3, h4, -, h6, -⟩ := h
  have h1 := symCount_pos (f := s.freq) (by omega)
  have h2 := symCount_le s.freq
  rw [HeaderLength, headerLength] at hl
  omega

theorem freq_counted (hi : InputLegal s) (hs : SizesLegal s) (h : InputCounted s) (c : Byte) :
    (symEntry s.freq c).toNat ≤ 2 ^ 28 := by
  have hl : (s.inputBytes s.inLen.toNat).length < 2 ^ 32 := by rw [inputBytes_length]; exact s.inLen.isLt
  have h1 := symEntry_toNat_le_total s.freq c
  have h2 : (buildModel s.freq).total = s.inLen.toNat := by
    rw [h.2]; exact (sumCounts_countBytes hl).trans (inputBytes_length s _)
  have h3 := hi.1
  have h4 := hs.2.1
  omega

/-- Legal model registers, and coder registers that are 0. -/
theorem RegistersLegal.ofCoderZero (hm : ModelBounded s) (h : CoderZero s) : RegistersLegal s := by
  obtain ⟨h1, h2, h3, ⟨h4, h5, h6⟩, h7, h8, h9, h10, h11⟩ := h
  exact ⟨hm.freq, hm.cumLow, hm.cumHigh, hm.total, hm.symCount, hm.fmin, by simp [h1], by simp [h2], by simp [h3],
    by simp [h4], by simp [h7], by simp [h5], by simp [h8], by simp [h9], by simp [h6], by simp [h10], by simp [h11]⟩

/-- While encoding and after it. -/
theorem RegistersLegal.ofEncoder (hm : ModelBuilt s) (hh : HeaderLength s) (hw : IntervalWide s) (hq : 0 < s.quarter)
    (hp : s.pending.toNat < 2 ^ 31) (hb : s.bitCount.toNat ≤ 8 * s.obufSize.toNat) (he : s.encPos.toNat ≤ s.inLen.toNat)
    (hd : DecoderZero s) : RegistersLegal s := by
  obtain ⟨h1, h2, h3, h4, h5⟩ := hd
  obtain ⟨-, -, hu, hr, -⟩ := hw
  have hw := whole_le s
  have b := ModelBounded.ofBuilt hm
  exact ⟨b.freq, b.cumLow, b.cumHigh, b.total, b.symCount, b.fmin, .inr (hdrLen_bounds hm hh), by omega, by omega, hp,
    by simp [h1], hb, by simp [h2], by simp [h3], he, by simp [h4], by simp [h5]⟩

/-- While decoding and after it. -/
theorem RegistersLegal.ofDecoder (hi : InputLegal s) (hm : ModelBuilt s) (hf : FileLegal s) (hv : IntervalIn s)
    (ht : TagIn s) (hc : s.decCount.toNat ≤ s.nDecl.toNat) (he : EncoderZero s) : RegistersLegal s := by
  obtain ⟨h1, h2, h3⟩ := he
  obtain ⟨hh, -, hl, -, hr, -, hn⟩ := hf
  obtain ⟨hv1, hv2⟩ := hv
  obtain ⟨-, ht⟩ := ht
  have hw := whole_le s
  have hi := hi.1
  have b := ModelBounded.ofBuilt hm
  exact ⟨b.freq, b.cumLow, b.cumHigh, b.total, b.symCount, b.fmin, .inr (hdrLen_bounds hm hh), by omega, by omega,
    by simp [h1], by omega, by simp [h2], hr, by omega, by simp [h3], hc, hn⟩

theorem quarter_pos (h : PrecLegal s) : 0 < s.quarter := by
  have : 2 ^ 2 ≤ s.whole := Nat.pow_le_pow_right (by decide) h
  rw [State.quarter]
  omega

/-- Outside ERROR the registers' values are legal because of what their phase says of them. -/
theorem RegistersLegal.ofPhaseInv (hs : SizesLegal s) (hp : PrecLegal s) (hi : InputLegal s) (ho : OutputLegal s)
    (h : PhaseInv s) (he : s.phase ≠ .error) : RegistersLegal s := by
  have hq := quarter_pos hp
  rw [PhaseInv] at h
  split at h
  · exact .ofCoderZero (.ofZero (zeroArray_le h.1) h.2.1) h.2.2
  · exact .ofCoderZero (.ofZero (freq_counted hi hs h.1) h.2.1) h.2.2
  · exact .ofCoderZero (.ofBuilt h.2.1) h.2.2
  · obtain ⟨-, hm, hh, -, hw, hpos, hcap, -, -, -, hd⟩ := h
    have := hs.2.2.2
    rw [State.capBits] at hcap
    exact .ofEncoder hm hh hw hq (by omega) (by omega) hpos hd
  · obtain ⟨-, hm, hh, -, hw, hpos, hpend, -, hout, -, -, hd⟩ := h
    have := ho.2.2.1
    exact .ofEncoder hm hh hw hq (by simp [hpend]) (by omega) (by simp [hpos]) hd
  · obtain ⟨hm, hf, ⟨-, -, hu, hr, -⟩, ht, hc, -, hez⟩ := h
    exact .ofDecoder hi hm hf ⟨by omega, hu⟩ ht (by omega) hez
  · obtain ⟨hm, hf, hv, ht, hc, -, hez⟩ := h
    exact .ofDecoder hi hm hf hv ht (by simp [hc]) hez
  · exact absurd ‹_› he

/-- Outside ERROR the invariant needs no separate look at the registers. -/
theorem Inv.ofPhaseInv (he : s.phase ≠ .error) (sizes : SizesLegal s) (prec : PrecLegal s)
    (ibuf : BufferLegal s.ibuf s.ibufSize) (obuf : BufferLegal s.obuf s.obufSize) (input : InputLegal s)
    (output : OutputLegal s) (err : ErrorLegal s) (phase : PhaseInv s) : Inv s :=
  ⟨sizes, prec, ibuf, obuf, input, output, err, .ofPhaseInv sizes prec input output phase he, phase⟩

/-- Taking an error keeps the registers RegistersLegal speaks of (60_exceptions.md R245). -/
theorem RegistersLegal.takeError (h : RegistersLegal s) (e : ErrorKind) (info : Word32) :
    RegistersLegal (takeError e info s) :=
  ⟨h.freq, h.cumLow, h.cumHigh, h.total, h.symCount, h.fmin, h.hdrLen, h.lower, h.upper, h.pending, h.tag, h.bitCount,
    h.rdIdx, h.bitLen, h.encPos, h.decCount, h.nDecl⟩

/-- A response leaves the registers alone. -/
theorem RegistersLegal.respond (h : RegistersLegal s) (st : RspStatus) (data : Word32) :
    RegistersLegal (s.respond st data) :=
  ⟨h.freq, h.cumLow, h.cumHigh, h.total, h.symCount, h.fmin, h.hdrLen, h.lower, h.upper, h.pending, h.tag, h.bitCount,
    h.rdIdx, h.bitLen, h.encPos, h.decCount, h.nDecl⟩

end Sys2Proof.Machine
end

