-- ==== Sys2Proof/Laws/Renorm.lean ====
section
/-! SUPPORT. What one loop of the renormalizer can do (44_interval_renormalizer.md R182 to R185): how often it rescales,
how the width, the pending bits and the tag follow, and when it ends. -/

namespace Sys2Proof.Machine

/-! ### The constants (00_scope.md R7) -/

/-- Every legal precision has QUARTER >= 1, and WHOLE, HALF and THREEQ are its multiples. -/
theorem pow_quarters {p : Nat} (hp : 2 ≤ p) :
    ∃ q, 0 < q ∧ 2 ^ p = 4 * q ∧ 2 ^ p / 2 = 2 * q ∧ 2 ^ p / 4 = q ∧ 2 ^ (p - 2) = q := by
  obtain ⟨k, rfl⟩ := Nat.exists_eq_add_of_le hp
  have h : 2 ^ (2 + k) = 4 * 2 ^ k := by rw [Nat.pow_add]
  have hk : 0 < 2 ^ k := Nat.two_pow_pos k
  refine ⟨2 ^ k, hk, h, by omega, by omega, ?_⟩
  rw [Nat.add_sub_cancel_left]

/-! ### Narrow -/

/-- A narrowed bound stays in the interval (R181). -/
theorem narrow_bound_le {total lo up c : Nat} (h : lo ≤ up) (hc : c ≤ total) : lo + ((up - lo) * c) / total ≤ up := by
  rcases Nat.eq_zero_or_pos total with rfl | hT
  · simp only [Nat.div_zero, Nat.add_zero]; exact h
  · have : ((up - lo) * c) / total ≤ up - lo := by
      apply Nat.div_le_of_le_mul
      rw [Nat.mul_comm total]
      exact Nat.mul_le_mul_left _ hc
    omega

/-- Narrowed bounds keep the order of the cumulative bounds. -/
theorem narrow_mono {total lo up c d : Nat} (h : c ≤ d) :
    lo + ((up - lo) * c) / total ≤ lo + ((up - lo) * d) / total :=
  Nat.add_le_add_left (Nat.div_le_div_right (Nat.mul_le_mul_left _ h)) _

/-! ### Decision bits -/

@[simp] theorem decisionBits_length (b : Bool) (n : Nat) : (decisionBits b n).length = n + 1 := by simp [decisionBits]

@[simp] theorem finalBits_length (p lower pending : Nat) : (finalBits p lower pending).length = pending + 2 := by
  unfold finalBits
  split <;> simp

/-! ### RenormEnc, phase by phase -/

/-- What k rescalings of phase 1 do: each doubles the width and adds one to the bits emitted plus the bits pending. -/
theorem renormEncPhase1_spec {p : Nat} (hp : 2 ≤ p) (fuel : Nat) (v : EncInterval) (hv : v.lower < v.upper)
    (hw : v.upper ≤ 2 ^ p) :
    ∃ k, k ≤ fuel ∧
      (renormEncPhase1 p fuel v).1.upper - (renormEncPhase1 p fuel v).1.lower = 2 ^ k * (v.upper - v.lower) ∧
      (renormEncPhase1 p fuel v).1.lower < (renormEncPhase1 p fuel v).1.upper ∧
      (renormEncPhase1 p fuel v).1.upper ≤ 2 ^ p ∧
      (renormEncPhase1 p fuel v).2.length + (renormEncPhase1 p fuel v).1.pending = v.pending + k := by
  obtain ⟨q, hq, hW, hH, hQ, -⟩ := pow_quarters hp
  induction fuel generalizing v with
  | zero => exact ⟨0, le_refl _, by simp [renormEncPhase1], hv, hw, by simp [renormEncPhase1]⟩
  | succ fuel ih =>
    rw [renormEncPhase1]
    split
    · obtain ⟨k, hk, h1, h2, h3, h4⟩ := ih ⟨2 * v.lower, 2 * v.upper, 0⟩ (by simp; omega) (by simp; omega)
      refine ⟨k + 1, by omega, ?_, h2, h3, ?_⟩
      · rw [h1, Nat.pow_succ, Nat.mul_assoc]
        congr 1
        show 2 * v.upper - 2 * v.lower = _
        omega
      · simp only [List.length_append, decisionBits_length]
        simp only at h4
        omega
    · split
      · obtain ⟨k, hk, h1, h2, h3, h4⟩ := ih ⟨2 * (v.lower - 2 ^ p / 2), 2 * (v.upper - 2 ^ p / 2), 0⟩
          (by simp; omega) (by simp; omega)
        refine ⟨k + 1, by omega, ?_, h2, h3, ?_⟩
        · rw [h1, Nat.pow_succ, Nat.mul_assoc, ← Nat.mul_sub]
          congr 2
          omega
        · simp only [List.length_append, decisionBits_length]
          simp only at h4
          omega
      · exact ⟨0, by omega, by simp, hv, hw, by simp⟩

/-- Phase 1 has ended when the fuel covers the doublings that fit in WHOLE (R188): neither E1 nor E2 applies. -/
theorem renormEncPhase1_exit {p : Nat} (hp : 2 ≤ p) (fuel : Nat) (v : EncInterval) (hv : v.lower < v.upper)
    (hw : v.upper ≤ 2 ^ p) (hf : 2 ^ p ≤ 2 ^ fuel * (v.upper - v.lower)) :
    (renormEncPhase1 p fuel v).1.lower ≤ 2 ^ p / 2 ∧ 2 ^ p / 2 ≤ (renormEncPhase1 p fuel v).1.upper := by
  obtain ⟨q, hq, hW, hH, hQ, -⟩ := pow_quarters hp
  induction fuel generalizing v with
  | zero => simp only [renormEncPhase1]; omega
  | succ fuel ih =>
    rw [Nat.pow_succ, Nat.mul_assoc] at hf
    rw [renormEncPhase1]
    split
    · refine ih ⟨2 * v.lower, 2 * v.upper, 0⟩ (by simp; omega) (by simp; omega) ?_
      rwa [← Nat.mul_sub]
    · split
      · refine ih ⟨2 * (v.lower - 2 ^ p / 2), 2 * (v.upper - 2 ^ p / 2), 0⟩ (by simp; omega) (by simp; omega) ?_
        have : 2 * (v.upper - 2 ^ p / 2) - 2 * (v.lower - 2 ^ p / 2) = 2 * (v.upper - v.lower) := by omega
        simpa only [this] using hf
      · constructor <;> dsimp only <;> omega

/-- What k rescalings of phase 2 do: each doubles the width, adds one pending bit, and leaves HALF inside (R190). -/
theorem renormEncPhase2_spec {p : Nat} (hp : 2 ≤ p) (fuel : Nat) (v : EncInterval)
    (hl : v.lower ≤ 2 ^ p / 2) (hu : 2 ^ p / 2 ≤ v.upper) (hv : v.lower < v.upper) (hw : v.upper ≤ 2 ^ p) :
    ∃ k, k ≤ fuel ∧
      (renormEncPhase2 p fuel v).upper - (renormEncPhase2 p fuel v).lower = 2 ^ k * (v.upper - v.lower) ∧
      (renormEncPhase2 p fuel v).lower ≤ 2 ^ p / 2 ∧ 2 ^ p / 2 ≤ (renormEncPhase2 p fuel v).upper ∧
      (renormEncPhase2 p fuel v).lower < (renormEncPhase2 p fuel v).upper ∧
      (renormEncPhase2 p fuel v).upper ≤ 2 ^ p ∧
      (renormEncPhase2 p fuel v).pending = v.pending + k := by
  obtain ⟨q, hq, hW, hH, hQ, -⟩ := pow_quarters hp
  induction fuel generalizing v with
  | zero => exact ⟨0, le_refl _, by simp [renormEncPhase2], hl, hu, hv, hw, rfl⟩
  | succ fuel ih =>
    rw [renormEncPhase2]
    split
    · obtain ⟨k, hk, h1, h2, h3, h4, h5, h6⟩ := ih
        ⟨2 * (v.lower - 2 ^ p / 4), 2 * (v.upper - 2 ^ p / 4), v.pending + 1⟩
        (by simp; omega) (by simp; omega) (by simp; omega) (by simp; omega)
      refine ⟨k + 1, by omega, ?_, h2, h3, h4, h5, ?_⟩
      · rw [h1, Nat.pow_succ, Nat.mul_assoc, ← Nat.mul_sub]
        congr 2
        omega
      · rw [h6, Nat.add_assoc, Nat.add_comm 1]
    · exact ⟨0, by omega, by simp, hl, hu, hv, hw, rfl⟩

/-- Phase 2 has ended when the fuel covers the doublings that fit in WHOLE: E3 does not apply. -/
theorem renormEncPhase2_exit {p : Nat} (hp : 2 ≤ p) (fuel : Nat) (v : EncInterval) (hv : v.lower < v.upper)
    (hw : v.upper ≤ 2 ^ p) (hf : 2 ^ p ≤ 2 ^ fuel * (v.upper - v.lower)) :
    (renormEncPhase2 p fuel v).lower ≤ 2 ^ p / 4 ∨ 3 * (2 ^ p / 4) ≤ (renormEncPhase2 p fuel v).upper := by
  obtain ⟨q, hq, hW, hH, hQ, -⟩ := pow_quarters hp
  induction fuel generalizing v with
  | zero => simp only [renormEncPhase2]; omega
  | succ fuel ih =>
    rw [Nat.pow_succ, Nat.mul_assoc] at hf
    rw [renormEncPhase2]
    split
    · refine ih ⟨2 * (v.lower - 2 ^ p / 4), 2 * (v.upper - 2 ^ p / 4), v.pending + 1⟩ (by simp; omega) (by simp; omega) ?_
      have : 2 * (v.upper - 2 ^ p / 4) - 2 * (v.lower - 2 ^ p / 4) = 2 * (v.upper - v.lower) := by omega
      simpa only [this] using hf
    · omega

/-! ### RenormDec, loop by loop -/

variable (s : State)

/-- Phase 1 of the decoder moves the bounds as the encoder's does, whatever is pending. -/
theorem renormDecPhase1_bounds (p fuel : Nat) (v : DecInterval) (n : Nat) :
    (s.renormDecPhase1 p fuel v).lower = (renormEncPhase1 p fuel ⟨v.lower, v.upper, n⟩).1.lower ∧
    (s.renormDecPhase1 p fuel v).upper = (renormEncPhase1 p fuel ⟨v.lower, v.upper, n⟩).1.upper := by
  induction fuel generalizing v n with
  | zero => exact ⟨rfl, rfl⟩
  | succ fuel ih =>
    rw [State.renormDecPhase1, renormEncPhase1]
    split
    · simpa [State.rescaleDec] using ih (s.rescaleDec 0 v) 0
    · split
      · simpa [State.rescaleDec] using ih (s.rescaleDec (2 ^ p / 2) v) 0
      · exact ⟨rfl, rfl⟩

/-- Phase 2 of the decoder moves the bounds as the encoder's does. -/
theorem renormDecPhase2_bounds (p fuel : Nat) (v : DecInterval) (n : Nat) :
    (s.renormDecPhase2 p fuel v).lower = (renormEncPhase2 p fuel ⟨v.lower, v.upper, n⟩).lower ∧
    (s.renormDecPhase2 p fuel v).upper = (renormEncPhase2 p fuel ⟨v.lower, v.upper, n⟩).upper := by
  induction fuel generalizing v n with
  | zero => exact ⟨rfl, rfl⟩
  | succ fuel ih =>
    rw [State.renormDecPhase2, renormEncPhase2]
    split
    · simpa [State.rescaleDec] using ih (s.rescaleDec (2 ^ p / 4) v) (n + 1)
    · exact ⟨rfl, rfl⟩

/-- A tag inside the interval. -/
def DecInterval.TagInside (v : DecInterval) : Prop := v.lower ≤ v.tag ∧ v.tag < v.upper

/-- A rescaling about a base at or below the lower bound keeps the tag inside, whatever bit comes (R191). -/
theorem rescaleDec_tag {v : DecInterval} {base : Nat} (hb : base ≤ v.lower) (h : v.TagInside) :
    (s.rescaleDec base v).TagInside := by
  obtain ⟨h1, h2⟩ := h
  have hbit : (s.sourceBit v.rdIdx).toNat ≤ 1 := Bool.toNat_le _
  constructor <;> simp only [State.rescaleDec, shiftIn] <;> omega

theorem renormDecPhase1_tag (p fuel : Nat) {v : DecInterval} (h : v.TagInside) :
    (s.renormDecPhase1 p fuel v).TagInside := by
  induction fuel generalizing v with
  | zero => exact h
  | succ fuel ih =>
    rw [State.renormDecPhase1]
    split
    · exact ih (rescaleDec_tag s (Nat.zero_le _) h)
    · split
      · rename_i hl
        exact ih (rescaleDec_tag s hl.le h)
      · exact h

theorem renormDecPhase2_tag (p fuel : Nat) {v : DecInterval} (h : v.TagInside) :
    (s.renormDecPhase2 p fuel v).TagInside := by
  induction fuel generalizing v with
  | zero => exact h
  | succ fuel ih =>
    rw [State.renormDecPhase2]
    split
    · rename_i hl
      exact ih (rescaleDec_tag s hl.1.le h)
    · exact h

/-- The read index stays within 1 .. BIT_LEN + 1 (43_bitstream_packer.md R166). -/
theorem nextIndex_le {n rd : Nat} (h : rd ≤ n + 1) : rd ≤ nextIndex n rd ∧ nextIndex n rd ≤ n + 1 := by
  unfold nextIndex
  split <;> omega

theorem renormDecPhase1_rdIdx (p fuel : Nat) {v : DecInterval} (h : v.rdIdx ≤ s.bitLen.toNat + 1) :
    v.rdIdx ≤ (s.renormDecPhase1 p fuel v).rdIdx ∧ (s.renormDecPhase1 p fuel v).rdIdx ≤ s.bitLen.toNat + 1 := by
  induction fuel generalizing v with
  | zero => exact ⟨le_refl _, h⟩
  | succ fuel ih =>
    have hn := nextIndex_le h
    have key : ∀ base, v.rdIdx ≤ (s.renormDecPhase1 p fuel (s.rescaleDec base v)).rdIdx ∧
        (s.renormDecPhase1 p fuel (s.rescaleDec base v)).rdIdx ≤ s.bitLen.toNat + 1 := fun base =>
      ⟨hn.1.trans (ih (v := s.rescaleDec base v) hn.2).1, (ih (v := s.rescaleDec base v) hn.2).2⟩
    rw [State.renormDecPhase1]
    split
    · exact key 0
    · split
      · exact key _
      · exact ⟨le_refl _, h⟩

theorem renormDecPhase2_rdIdx (p fuel : Nat) {v : DecInterval} (h : v.rdIdx ≤ s.bitLen.toNat + 1) :
    v.rdIdx ≤ (s.renormDecPhase2 p fuel v).rdIdx ∧ (s.renormDecPhase2 p fuel v).rdIdx ≤ s.bitLen.toNat + 1 := by
  induction fuel generalizing v with
  | zero => exact ⟨le_refl _, h⟩
  | succ fuel ih =>
    have hn := nextIndex_le h
    rw [State.renormDecPhase2]
    split
    · have := ih (v := s.rescaleDec (2 ^ p / 4) v) hn.2
      exact ⟨hn.1.trans this.1, this.2⟩
    · exact ⟨le_refl _, h⟩

/-- Shifting n bits into a tag below 2^k leaves one below 2^(k + n) (46_decoder.md R221). -/
theorem shiftBits_lt (n : Nat) : ∀ (k tag rd : Nat), tag < 2 ^ k → (s.shiftBits n tag rd).1 < 2 ^ (k + n) := by
  induction n with
  | zero => intro k tag rd h; exact h
  | succ n ih =>
    intro k tag rd h
    rw [State.shiftBits, Nat.add_comm n, ← Nat.add_assoc]
    apply ih
    have hbit : (s.sourceBit rd).toNat ≤ 1 := Bool.toNat_le _
    rw [shiftIn, Nat.pow_succ]
    omega

theorem shiftBits_rdIdx (n : Nat) : ∀ (tag rd : Nat), rd ≤ s.bitLen.toNat + 1 →
    rd ≤ (s.shiftBits n tag rd).2 ∧ (s.shiftBits n tag rd).2 ≤ s.bitLen.toNat + 1 := by
  induction n with
  | zero => intro tag rd h; exact ⟨le_refl _, h⟩
  | succ n ih =>
    intro tag rd h
    have hn := nextIndex_le h
    have := ih (shiftIn tag (s.sourceBit rd)) (nextIndex s.bitLen.toNat rd) hn.2
    exact ⟨hn.1.trans this.1, this.2⟩

end Sys2Proof.Machine
end

