-- ==== Sys2Proof/Tests/Slice0.lean ====
section
/-! SUPPORT. The model's own tests, each with its source in the spec, the WellFormed smoke tests, and a witness for the
hypotheses of every obligation that has any. -/

namespace Sys2Proof.Tests

open Sys2Proof Sys2Proof.Machine

-- One test after another: each `decide +kernel` waits for the kernel, and one waiting thread per test is too many.
set_option Elab.async false

/-! ### Helpers -/

/-- A field of the next state an outcome holds. -/
def get {α : Type} (f : State → α) : Host.Outcome State Fault Refusal → Option α
  | .next t => some (f t)
  | .fault _ => none
  | .refused _ => none

/-- The response in an outcome. -/
def rspOf (o : Host.Outcome State Fault Refusal) : Option Word64 := (get State.rsp o).join

/-- A buffer that holds these bytes from address 0 on. -/
def bytesFrom (bytes : List Byte) : Memory := { cells := bytes.zipIdx.map fun x => (x.2, x.1), epoch := 0, events := 0 }

/-- IDLE, with precision p and an input loaded into IBUF; both buffers have 64 bytes. -/
def loaded (p : BitVec 5) (bytes : List Byte) : State :=
  { State.powerOn 64 64 with prec := p, inLen := BitVec.ofNat 32 bytes.length, ibuf := bytesFrom bytes }

/-- A register array with these entries and 0 elsewhere. -/
def arrayOf (entries : List (Byte × Word32)) : RegArray :=
  entries.foldl (fun f e => setEntry f e.1 e.2) (Vector.replicate 256 0)

/-- The word offered to a state, run as its next step. -/
def run (w : Nat) (s : State) : Host.Outcome State Fault Refusal := step (s.withFetchWord 64 w)

/-- In ERROR with this code and info. -/
def failed (e : ErrorKind) (info : Word32) : State := takeError e info (State.powerOn 64 64)

/-! ### WellFormed refuses (30_encoding.md R83, R98) -/

theorem test_refuses_operand_of_nop : SourceCommand.wellFormed ⟨.nop, some 0⟩ = false := by decide
theorem test_refuses_missing_operand : SourceCommand.wellFormed ⟨.inWrite, none⟩ = false := by decide
theorem test_refuses_wide_byte : SourceCommand.wellFormed ⟨.inWrite, some 256⟩ = false := by decide
theorem test_refuses_wide_precision : SourceCommand.wellFormed ⟨.setPrec, some 32⟩ = false := by decide
theorem test_refuses_wide_address : SourceCommand.wellFormed ⟨.rdReg, some 0x1000⟩ = false := by decide
theorem test_refuses_wide_index : SourceCommand.wellFormed ⟨.outRead, some 0x100000000⟩ = false := by decide
theorem test_refuses_load_of_wide_byte : ProgramLine.wellFormed (.inLoad [0x41, 0x100]) = false := by decide
theorem test_refuses_dump_past_index : ProgramLine.wellFormed (.outDump 0x100000001) = false := by decide
theorem test_accepts_last_index : SourceCommand.wellFormed ⟨.outRead, some 0xFFFFFFFF⟩ = true := by decide

/-! ### Decoding and encoding (30_encoding.md R84, R89, R90, R97) -/

theorem test_decode_control : decode 0x030000000000001F = .ok (.setPrec 31) ∧
    decode 0x0400000000000FFF = .ok (.rdReg 0xFFF) ∧ decode 0x0200000000000000 = .ok .clear := by decide
theorem test_decode_data : decode 0x11000000000000FF = .ok (.inWrite 0xFF) ∧
    decode 0x12000000FFFFFFFF = .ok (.outRead 0xFFFFFFFF) ∧ decode 0x1000000000000000 = .ok .inClear := by decide
theorem test_decode_model : decode 0x2000000000000000 = .ok .fmCount ∧ decode 0x2100000000000000 = .ok .fmBuild := by
  decide
theorem test_decode_coder : decode 0x3100000000000000 = .ok .encStep ∧ decode 0x4100000000000000 = .ok .decStep ∧
    decode 0x5000000000000000 = .ok .compress ∧ decode 0x5100000000000000 = .ok .decompress := by decide
theorem test_decode_rejects : decode 0xFF00000000000000 = .error .reservedOpcode ∧
    decode 0x0500000000000000 = .error .reservedOpcode ∧ decode 0x0000000100000000 = .error .rsvdNotZero ∧
    decode 0x0000000000000001 = .error .operandNotZero ∧ decode 0x0300000000000020 = .error .operandNotZero ∧
    decode 0x0400000000001000 = .error .operandNotZero ∧ decode 0x1100000000000100 = .error .operandNotZero := by decide
/-- 30_encoding.md R90: 239 reserved opcodes. -/
theorem test_reserved_count :
    ((List.range 256).filter fun o => (mnemonicOf (BitVec.ofNat 8 o)).isNone).length = 239 := by decide +kernel
/-- 30_encoding.md R97's examples, from text. -/
theorem test_assemble : assembleText ["SET_PREC 16".toList, "IN_WRITE 0x41 ; A".toList, "RD_REG 0x00C".toList,
    "OUT_READ 26".toList] =
    some [0x0300000000000010, 0x1100000000000041, 0x040000000000000C, 0x120000000000001A] := by decide +kernel
/-- 30_encoding.md R98. -/
theorem test_assemble_load : assembleText ["IN_LOAD \"AB\"".toList, "ENC_STEP *2".toList, "OUT_DUMP 2".toList] =
    some [0x1000000000000000, 0x1100000000000041, 0x1100000000000042, 0x3100000000000000, 0x3100000000000000,
      0x1200000000000000, 0x1200000000000001] := by decide +kernel

/-! ### One step of each command (95_test_vectors.md) -/

/-- V-CTL-1. -/
theorem test_nop : rspOf (run 0x0000000000000000 State.reset) = some 0 := by decide +kernel
/-- V-CTL-2. -/
theorem test_nop_error : rspOf (run 0x0000000000000000 (failed .emptyInput 0)) = some 0x0001070000000000 := by
  decide +kernel
/-- V-CTL-16: PREC = 16 and IN_LEN = 0. -/
theorem test_softReset : get (fun t => (t.rsp, t.prec, t.inLen)) (run 0x0100000000000000 (loaded 12 [0x41])) =
    some (some 0, 16, 0) := by decide +kernel
/-- V-CTL-15: ERR_CODE = 0, PREC and IN_LEN kept. -/
theorem test_clear : get (fun t => (t.rsp, t.phase, t.errCode, t.prec, t.inLen))
    (run 0x0200000000000000 (takeError .phase 3 (loaded 12 [0x41]))) = some (some 0, .idle, 0, 12, 1) := by
  decide +kernel
/-- V-CTL-3. -/
theorem test_setPrec : get (fun t => (t.rsp, t.prec)) (run 0x030000000000000C State.reset) = some (some 0, 12) := by
  decide +kernel
/-- V-CTL-6: ERR_INFO = 1, PREC still 16. -/
theorem test_setPrec_small : get (fun t => (t.rsp, t.errInfo, t.prec)) (run 0x0300000000000001 State.reset) =
    some (some 0x0103070000000000, 1, 16) := by decide +kernel
/-- V-CTL-10. -/
theorem test_rdReg : rspOf (run 0x0400000000000003 State.reset) = some 0x10 := by decide +kernel
/-- V-CTL-13: refused, ERR_INFO still 0x16. -/
theorem test_rdReg_refused : get (fun t => (t.rsp, t.errInfo)) (run 0x0400000000000016 (failed .operand 0x16)) =
    some (some 0x0211070000000000, 0x16) := by decide +kernel
/-- V-IO-3. -/
theorem test_inClear : get (fun t => (t.rsp, t.inLen)) (run 0x1000000000000000 (loaded 16 [1, 2, 3])) =
    some (some 0, 0) := by decide +kernel
/-- V-IO-1. -/
theorem test_inWrite : get (fun t => (t.rsp, t.readByte .ibuf 0, t.inLen)) (run 0x1100000000000041 State.reset) =
    some (some 0, 0x41, 1) := by decide +kernel
/-- V-IO-2: IBUF_SIZE = 2 and IN_LEN = 2. -/
theorem test_inWrite_full : get (fun t => (t.rsp, t.errInfo, t.inLen))
    (run 0x1100000000000043 { loaded 16 [0x41, 0x42] with ibufSize := 2 }) =
    some (some 0x0113070000000000, 1, 2) := by decide +kernel

/-- A file of 29 bytes in OBUF whose last byte is 0x60 (S1). -/
def s1Done : State :=
  { State.powerOn 64 64 with phase := .encDone, outValid := true, outLen := 29, obuf := { cells := [(28, 0x60)], epoch := 0, events := 0 } }
/-- V-IO-6. -/
theorem test_outRead : rspOf (run 0x120000000000001C s1Done) = some 0x0000040000000060 := by decide +kernel
/-- V-IO-7. -/
theorem test_outRead_past : get (fun t => (t.rsp, t.errInfo)) (run 0x120000000000001D s1Done) =
    some (some 0x0111070000000000, 29) := by decide +kernel

/-- V-FM-1's counting, on `"AAB"` (V-ENC-3). -/
theorem test_fmCount : get (fun t => (t.rsp, symEntry t.freq 0x41, symEntry t.freq 0x43))
    (run 0x2000000000000000 (loaded 4 [0x41, 0x41, 0x42])) = some (some 0x0000010000000003, 2, 0) := by decide +kernel
/-- V-FM-3. -/
theorem test_fmCount_empty : rspOf (run 0x2000000000000000 State.reset) = some 0x0101070000000000 := by decide +kernel

/-- COUNTED with the counts of `"AAAAAAAAB"`. -/
def counted9 (p : BitVec 5) : State :=
  { State.powerOn 64 64 with prec := p, phase := .counted, inLen := 9, freq := arrayOf [(0x41, 8), (0x42, 1)] }
/-- V-FM-7: ERR_INFO = 9, TOTAL stays 0. -/
theorem test_fmBuild_precision : get (fun t => (t.rsp, t.errInfo, t.total)) (run 0x2100000000000000 (counted9 4)) =
    some (some 0x0103070000000000, 9, 0) := by decide +kernel
/-- V-FM-9. -/
theorem test_fmBuild : get (fun t => (t.rsp, t.fmin, symEntry t.cumLow 0x42, symEntry t.cumHigh 0x42))
    (run 0x2100000000000000 (counted9 6)) = some (some 0x0000020000000009, 1, 8, 9) := by decide +kernel

/-- MODEL_READY with the model of `"BA"`. -/
def modelBA : State :=
  { State.powerOn 64 64 with
    phase := .modelReady, inLen := 2, freq := arrayOf [(0x41, 1), (0x42, 1)], total := 2, symCount := 2, fmin := 1 }
/-- V-PK-3, `"BA"`: the 16 header bytes, in ascending symbol order. -/
theorem test_encStart : get (fun t => (t.rsp, t.hdrLen, (List.range 16).map (t.readByte .obuf)))
    (run 0x3000000000000000 modelBA) = some (some 0x0000030000000000, 16,
      [0, 2, 0x41, 0, 0, 0, 1, 0x42, 0, 0, 0, 1, 0, 0, 0, 2]) := by decide +kernel
/-- 45_encoder.md R201: OBUF_SIZE <= 6 + 5K. -/
theorem test_encStart_room : get (fun t => (t.rsp, t.errInfo)) (run 0x3000000000000000 { modelBA with obufSize := 16 }) =
    some (some 0x0113070000000000, 2) := by decide +kernel

/-- V-ENC-1 before its step 5 (OBUF byte 26 holds the bits `00000`). -/
def s1Step5 : State :=
  { State.powerOn 64 64 with
    phase := .encoding, inLen := 10, encPos := 5, hdrLen := 26, lower := 10176, upper := 42384, pending := 1,
    bitCount := 5, total := 10, cumLow := arrayOf [(0x42, 4)], cumHigh := arrayOf [(0x42, 7)],
    ibuf := { cells := [(5, 0x42)], epoch := 0, events := 0 }, obuf := { cells := [(26, 0)], epoch := 0, events := 0 } }
/-- V-ENC-1, step 5: it emits `011`. -/
theorem test_encStep : get (fun t => (t.rsp, t.lower, t.upper, t.pending, t.encPos, t.readByte .obuf 26))
    (run 0x3100000000000000 s1Step5) = some (some 0x0000030000000008, 26700, 65348, 0, 6, 0x03) := by decide +kernel
/-- V-ENC-4: OBUF_SIZE = 27, 8 + 0 + 2 > 8. -/
theorem test_encStep_capacity : get (fun t => (t.rsp, t.bitCount, t.pending))
    (run 0x3100000000000000 { s1Step5 with obufSize := 27 }) = some (some 0x0113070000000000, 5, 1) := by decide +kernel
/-- V-ENC-1, ENC_FINISH: `011`, last byte 0x60. -/
theorem test_encFinish : get (fun t => (t.rsp, t.bitCount, t.pending, t.lower, t.readByte .obuf 28))
    (run 0x3200000000000000 { s1Step5 with
      encPos := 10, lower := 13952, upper := 37696, pending := 1, bitCount := 16 }) =
    some (some 0x000004000000001D, 19, 0, 13952, 0x60) := by decide +kernel
/-- V-ENC-5. -/
theorem test_encFinish_early : get (fun t => (t.rsp, t.errInfo)) (run 0x3200000000000000 s1Step5) =
    some (some 0x0112070000000000, 0x32) := by decide +kernel

/-- V-PK-4: symbol 0x41 listed twice, pair 1. -/
theorem test_decStart_duplicate : get (fun t => (t.rsp, t.errInfo)) (run 0x4000000000000000
    (loaded 16 [0, 2, 0x41, 0, 0, 0, 1, 0x41, 0, 0, 0, 1, 0, 0, 0, 2, 0x40])) =
    some (some 0x0102070000000000, 7) := by decide +kernel
/-- V-DEC-2, the file of `"A"`: TAG 16384, RD_IDX 9. -/
theorem test_decStart : get (fun t => (t.rsp, t.tag, t.rdIdx, t.hdrLen, t.bitLen)) (run 0x4000000000000000
    (loaded 16 [0, 1, 0x41, 0, 0, 0, 1, 0, 0, 0, 1, 0x40])) =
    some (some 0x0000050000000001, 16384, 9, 11, 8) := by decide +kernel

/-- V-DEC-1 after DEC_START (payload `03 cc 60`). -/
def s1Decoding : State :=
  { State.powerOn 64 64 with
    phase := .decoding, inLen := 29, hdrLen := 26, bitLen := 24, nDecl := 10, total := 10, upper := 65536,
    tag := 972, rdIdx := 17, freq := arrayOf [(0x41, 4), (0x42, 3), (0x43, 2), (0x44, 1)],
    cumLow := arrayOf [(0x42, 4), (0x43, 7), (0x44, 9)],
    cumHigh := arrayOf [(0x41, 4), (0x42, 7), (0x43, 9), (0x44, 10)],
    ibuf := { cells := [(26, 0x03), (27, 0xCC), (28, 0x60)], epoch := 0, events := 0 } }
/-- V-DEC-1, step 0. -/
theorem test_decStep : get (fun t => (t.rsp, t.lower, t.upper, t.tag, t.rdIdx, t.readByte .obuf 0))
    (run 0x4100000000000000 s1Decoding) = some (some 0x0000050000000041, 0, 52428, 1944, 18, 0x41) := by decide +kernel
/-- V-DEC-1, step 9: no renormalization after the last symbol. -/
theorem test_decStep_last : get (fun t => (t.rsp, t.lower, t.upper, t.tag, t.rdIdx, t.outLen))
    (run 0x4100000000000000 { s1Decoding with
      decCount := 9, lower := 11896, upper := 41576, tag := 38912, rdIdx := 25 }) =
    some (some 0x0000060000000044, 38608, 41576, 38912, 25, 10) := by decide +kernel
/-- V-ENC-2, `"A"` at P = 16. -/
theorem test_compress : rspOf (run 0x5000000000000000 (loaded 16 [0x41])) = some 0x000004000000000C := by decide +kernel
/-- V-DEC-2, `"A"` at P = 16. -/
theorem test_decompress : rspOf (run 0x5100000000000000
    (loaded 16 [0, 1, 0x41, 0, 0, 0, 1, 0, 0, 0, 1, 0x40])) = some 0x0000060000000001 := by decide +kernel
/-- 60_exceptions.md R259: 0xFF in IDLE, then FM_COUNT refused. -/
theorem test_illegal : get (fun t => (t.rsp, t.errInfo)) (run 0xFF00000000000000 State.reset) =
    some (some 0x0110070000000000, 0xFF000000) ∧
    rspOf (run 0x2000000000000000 (failed .illegalCommand 0xFF000000)) = some 0x0210070000000000 := by decide +kernel

/-! ### The units (95_test_vectors.md 2.5) -/

/-- V-RN-1. -/
theorem test_narrow : narrow 10 0 53680 4 7 = (21472, 37576) ∧ narrow 10 11896 41576 9 10 = (38608, 41576) := by decide
/-- V-RN-2: strict comparisons, E1 and E2 with pending bits, E3 twice. -/
theorem test_renormEnc : renormEnc 4 ⟨8, 12, 0⟩ = (⟨8, 12, 0⟩, []) ∧
    renormEnc 4 ⟨0, 7, 2⟩ = (⟨0, 14, 0⟩, [false, true, true]) ∧ renormEnc 4 ⟨7, 9, 0⟩ = (⟨4, 12, 2⟩, []) ∧
    renormEnc 4 ⟨15, 16, 1⟩ = (⟨8, 16, 0⟩, [true, false, true, true]) := by decide
/-- V-RN-4: LOWER = QUARTER takes the first branch. -/
theorem test_finalBits : finalBits 4 4 1 = [false, true, true] ∧ finalBits 4 8 0 = [true, false] := by decide

/-! ### States that satisfy the invariant -/

/-- IDLE with an input loaded. -/
theorem loaded_inv {p : BitVec 5} {bytes : List Byte} (hp : 2 ≤ p.toNat) (hn : bytes.length ≤ 64)
    (hl : BufferLegal (bytesFrom bytes) 64) (hw : WrittenBelow (bytesFrom bytes) bytes.length) :
    Inv (loaded p bytes) := by
  have hlen : (loaded p bytes).inLen.toNat = bytes.length := by
    show (BitVec.ofNat 32 bytes.length).toNat = _
    rw [BitVec.toNat_ofNat, Nat.mod_eq_of_lt (by omega)]
  exact .ofPhaseInv nofun
    (sizes := by simp [SizesLegal, loaded, State.powerOn])
    (prec := hp)
    (ibuf := hl)
    (obuf := ⟨rfl, by intro c hc; cases hc⟩)
    (input := ⟨by rw [hlen]; exact hn, by rw [hlen]; exact hw⟩)
    (output := ⟨by simp [loaded, State.powerOn], fun _ => rfl, Nat.zero_le _, WrittenBelow.zero _⟩)
    (err := ⟨fun h => (nomatch h), fun _ => ⟨rfl, rfl⟩⟩)
    (phase := ⟨rfl, ⟨rfl, rfl, rfl, rfl, rfl⟩, rfl, rfl, rfl, ⟨rfl, rfl, rfl⟩, rfl, rfl, rfl, rfl, rfl⟩)

/-- The counts of `"AAB"`. -/
def aab : RegArray := countBytes [0x41, 0x41, 0x42]

theorem aab_entry (c : Byte) : symEntry aab c = BitVec.ofNat 32 ([0x41, 0x41, 0x42].count c) := symEntry_countBytes _ c

theorem aab_total : sumCounts aab.toList = 3 := sumCounts_countBytes (bytes := [0x41, 0x41, 0x42]) (by decide)

theorem aab_symbols : symbolsOf aab = [0x41, 0x42] := by
  have hp : (symbolsOf aab).Perm [0x41, 0x42] := by
    rw [List.perm_ext_iff_of_nodup (symbolsOf_nodup _) (by decide)]
    intro c
    rw [mem_symbolsOf, aab_entry]
    revert c
    decide +kernel
  exact hp.eq_of_pairwise (le := fun a b => a.toNat < b.toNat) (fun a b _ _ h1 h2 => by omega) (symbolsOf_sorted _) (by decide)

theorem aab_symCount : (buildModel aab).symCount = 2 := by rw [← symbolsOf_length, aab_symbols]; rfl

theorem aab_fmin : (buildModel aab).fmin = 1 := by
  have hB : entry aab (0x42 : Byte).toNat = 1 := by rw [← symEntry, aab_entry]; decide
  have h1 : (buildModel aab).fmin ≤ (1 : Word32).toNat := by
    rw [← hB]
    exact fmin_le (by decide) (by rw [hB]; decide)
  have h0 : 0 < sumCounts aab.toList := by rw [aab_total]; exact Nat.zero_lt_succ 2
  have h2 : 0 < minPositive aab.toList := minPositive_pos h0
  have h4 : (buildModel aab).fmin = minPositive aab.toList := by rw [buildModel]
  have h3 : (1 : Word32).toNat = 1 := rfl
  omega

/-- IDLE with `"AAB"` loaded, P = 4. -/
def input : State := loaded 4 [0x41, 0x41, 0x42]

/-- The file of `"AAB"` at P = 4 (V-ENC-2). -/
def fileAAB : List Byte := [0, 2, 0x41, 0, 0, 0, 2, 0x42, 0, 0, 0, 1, 0, 0, 0, 3, 0x40]

/-- `"AAB"` after FM_COUNT. -/
def counted : State := { input with phase := .counted, freq := aab }

/-- `"AAB"` after FM_BUILD, with the given OBUF_SIZE. -/
def modelReady (size : Word32) : State :=
  { counted with
    obufSize := size, phase := .modelReady, cumLow := (buildModel aab).cumLow, cumHigh := (buildModel aab).cumHigh,
    total := 3, symCount := 2, fmin := 1 }

/-- `"AAB"` while encoding (V-ENC-3): the interval, the position, the bits emitted and the payload bytes so far. -/
def encoding (size lower upper pos bits : Word32) (payload : List Byte) : State :=
  { modelReady size with
    phase := .encoding, hdrLen := 16, lower := lower, upper := upper, encPos := pos, bitCount := bits,
    obuf := bytesFrom (fileAAB.take 16 ++ payload) }

/-- `"AAB"` after ENC_FINISH. -/
def encDone : State :=
  { encoding 64 8 12 3 3 [0x40] with phase := .encDone, outValid := true, outLen := 17 }

/-- IDLE with the file of `"AAB"` loaded. -/
def file : State := loaded 4 fileAAB

/-- The file of `"AAB"` while decoding (V-DEC-2). -/
def decoding (lower upper tag rd count : Word32) (out : List Byte) : State :=
  { file with
    phase := .decoding, freq := aab, cumLow := (buildModel aab).cumLow, cumHigh := (buildModel aab).cumHigh,
    total := 3, symCount := 2, fmin := 1, hdrLen := 16, bitLen := 8, nDecl := 3, lower := lower, upper := upper,
    tag := tag, rdIdx := rd, decCount := count, obuf := bytesFrom out }

theorem input_inv : Inv input := loaded_inv (by decide) (by decide) ⟨by decide, by decide⟩
  (by unfold WrittenBelow; decide)

theorem file_inv : Inv file := loaded_inv (by decide) (by decide) ⟨by decide, by decide⟩
  (by unfold WrittenBelow; decide)

theorem input_bytes : input.inputBytes 3 = [0x41, 0x41, 0x42] := by decide

theorem built {s : State} (h1 : s.freq = aab) (h2 : s.cumLow = (buildModel aab).cumLow)
    (h3 : s.cumHigh = (buildModel aab).cumHigh) (h4 : s.total = 3) (h5 : s.symCount = 2) (h6 : s.fmin = 1)
    (h7 : s.prec = 4) : ModelBuilt s := by
  refine ⟨by rw [h1, h2], by rw [h1, h3], by rw [h1, h4]; exact aab_total.symm, by rw [h1, h5, aab_symCount]; rfl,
    by rw [h1, h6, aab_fmin]; rfl, ?_, ?_, ?_⟩ <;> simp [h4, h6, h7, State.quarter, State.whole]

theorem header {s : State} (h1 : s.freq = aab) (h4 : s.total = 3) (h5 : s.symCount = 2)
    (h : ∀ c ∈ (bytesFrom (fileAAB.take 16)).cells, s.obuf.written c.1 = some c.2) : HeaderInObuf s := by
  have hA : symEntry aab 0x41 = 2 := by rw [aab_entry]; decide
  have hB : symEntry aab 0x42 = 1 := by rw [aab_entry]; decide
  have hc : s.headerCells = (bytesFrom (fileAAB.take 16)).cells := by
    rw [State.headerCells, h1, h4, h5, aab_symbols, pairCells, pairCells, pairCells, hA, hB]
    decide
  rw [HeaderInObuf, hc]
  exact h

/-- `"AAB"` has three bytes. -/
theorem three_ne : (BitVec.ofNat 32 [0x41, 0x41, (0x42 : Byte)].length) ≠ 0 := by decide

theorem counted_inv : Inv counted :=
  .ofPhaseInv nofun
    (sizes := by unfold SizesLegal; decide)
    (prec := by unfold PrecLegal; decide)
    (ibuf := input_inv.ibuf)
    (obuf := ⟨rfl, by intro c hc; cases hc⟩)
    (input := input_inv.input)
    (output := ⟨by simp [counted, input, loaded, State.powerOn], fun _ => rfl, Nat.zero_le _, WrittenBelow.zero _⟩)
    (err := ⟨fun h => (nomatch h), fun _ => ⟨rfl, rfl⟩⟩)
    (phase := ⟨⟨three_ne, rfl⟩, ⟨rfl, rfl, rfl, rfl, rfl⟩, rfl, rfl, rfl, ⟨rfl, rfl, rfl⟩, rfl, rfl, rfl, rfl, rfl⟩)

theorem modelReady_inv {size : Word32} (h1 : 1 ≤ size.toNat) (h2 : size.toNat ≤ 2 ^ 28) : Inv (modelReady size) :=
  .ofPhaseInv nofun
    (sizes := ⟨counted_inv.sizes.1, counted_inv.sizes.2.1, h1, h2⟩)
    (prec := counted_inv.prec)
    (ibuf := counted_inv.ibuf)
    (obuf := ⟨rfl, by intro c hc; cases hc⟩)
    (input := counted_inv.input)
    (output := ⟨by simp [modelReady, counted, input, loaded, State.powerOn], fun _ => rfl, Nat.zero_le _, WrittenBelow.zero _⟩)
    (err := ⟨fun h => (nomatch h), fun _ => ⟨rfl, rfl⟩⟩)
    (phase := ⟨⟨three_ne, rfl⟩, built rfl rfl rfl rfl rfl rfl rfl, rfl, rfl, rfl, ⟨rfl, rfl, rfl⟩, rfl, rfl, rfl, rfl, rfl⟩)

theorem encoding_inv {size lower upper pos bits : Word32} {payload : List Byte} (h1 : 1 ≤ size.toNat)
    (h2 : size.toNat ≤ 2 ^ 28) (ho : BufferLegal (bytesFrom (fileAAB.take 16 ++ payload)) size)
    (hw : WrittenBelow (bytesFrom (fileAAB.take 16 ++ payload)) (16 + (bits.toNat + 7) / 8))
    (hh : ∀ c ∈ (bytesFrom (fileAAB.take 16)).cells, (bytesFrom (fileAAB.take 16 ++ payload)).written c.1 = some c.2)
    (hi : IntervalWide (encoding size lower upper pos bits payload)) (hp : pos.toNat ≤ 3) (hb : 16 < size.toNat ∧ bits.toNat + 2 ≤ 8 * (size.toNat - 16))
    (ht : TrailingZero (encoding size lower upper pos bits payload)) :
    Inv (encoding size lower upper pos bits payload) :=
  .ofPhaseInv nofun
    (sizes := ⟨counted_inv.sizes.1, counted_inv.sizes.2.1, h1, h2⟩)
    (prec := counted_inv.prec)
    (ibuf := counted_inv.ibuf)
    (obuf := ho)
    (input := counted_inv.input)
    (output := ⟨by simp [encoding, modelReady, counted, input, loaded, State.powerOn], fun _ => rfl, Nat.zero_le _, WrittenBelow.zero _⟩)
    (err := ⟨fun h => (nomatch h), fun _ => ⟨rfl, rfl⟩⟩)
    (phase := ⟨⟨three_ne, rfl⟩, built rfl rfl rfl rfl rfl rfl rfl, rfl, hb.1, hi, hp, hb.2, hw,
      header rfl rfl rfl hh, ht, rfl, rfl, rfl, rfl, rfl⟩)

theorem trailingZero_of_lt {s : State} (h : ∀ j, j < 8 * ((s.bitCount.toNat + 7) / 8) → s.bitCount.toNat ≤ j →
    s.payloadBit j = false) : TrailingZero s := fun j a b => h j b a

/-- After ENC_START. -/
theorem encoding_first_inv : Inv (encoding 64 0 16 0 0 []) :=
  encoding_inv (by decide) (by decide) ⟨by decide, by decide⟩ (by unfold WrittenBelow; decide) (by decide)
    (by unfold IntervalWide; decide) (by decide) (by decide) (trailingZero_of_lt (by decide))

/-- Every symbol encoded. -/
theorem encoding_last_inv : Inv (encoding 64 8 12 3 1 [0]) :=
  encoding_inv (by decide) (by decide) ⟨by decide, by decide⟩ (by unfold WrittenBelow; decide) (by decide)
    (by unfold IntervalWide; decide) (by decide) (by decide) (trailingZero_of_lt (by decide))

/-- OBUF almost full: 6 bits of the one payload byte. -/
theorem encoding_full_inv : Inv (encoding 17 0 10 1 6 [0]) :=
  encoding_inv (by decide) (by decide) ⟨by decide, by decide⟩ (by unfold WrittenBelow; decide) (by decide)
    (by unfold IntervalWide; decide) (by decide) (by decide) (trailingZero_of_lt (by decide))

theorem encDone_inv : Inv encDone :=
  .ofPhaseInv nofun
    (sizes := encoding_last_inv.sizes)
    (prec := counted_inv.prec)
    (ibuf := counted_inv.ibuf)
    (obuf := ⟨by decide, by decide⟩)
    (input := counted_inv.input)
    (output := ⟨by simp [encDone], by simp [encDone], by decide, by unfold WrittenBelow; decide⟩)
    (err := ⟨fun h => (nomatch h), fun _ => ⟨rfl, rfl⟩⟩)
    (phase := ⟨⟨three_ne, rfl⟩, built rfl rfl rfl rfl rfl rfl rfl, rfl, by decide, by unfold IntervalWide; decide, rfl, rfl,
      by decide, by decide, header rfl rfl rfl (by decide), trailingZero_of_lt (by decide), rfl, rfl, rfl, rfl, rfl⟩)

theorem hdr_lt : (16 : Word32).toNat < (BitVec.ofNat 32 fileAAB.length).toNat := by decide

theorem three_le : (3 : Word32).toNat ≤ (64 : Word32).toNat := by decide

theorem decoding_inv {lower upper tag rd count : Word32} {out : List Byte} (ho : BufferLegal (bytesFrom out) 64)
    (hw : WrittenBelow (bytesFrom out) count.toNat)
    (hi : IntervalWide (decoding lower upper tag rd count out)) (ht : lower.toNat ≤ tag.toNat ∧ tag.toNat < upper.toNat)
    (hr : 1 ≤ rd.toNat ∧ rd.toNat ≤ 9) (hc : count.toNat < 3) : Inv (decoding lower upper tag rd count out) :=
  .ofPhaseInv nofun
    (sizes := file_inv.sizes)
    (prec := file_inv.prec)
    (ibuf := file_inv.ibuf)
    (obuf := ho)
    (input := file_inv.input)
    (output := ⟨by simp [decoding, file, loaded, State.powerOn], fun _ => rfl, Nat.zero_le _, WrittenBelow.zero _⟩)
    (err := ⟨fun h => (nomatch h), fun _ => ⟨rfl, rfl⟩⟩)
    (phase := ⟨built rfl rfl rfl rfl rfl rfl rfl, ⟨rfl, hdr_lt, rfl, hr.1, hr.2, rfl, three_le⟩, hi, ht, hc, hw, rfl, rfl, rfl⟩)

/-- After DEC_START. -/
theorem decoding_first_inv : Inv (decoding 0 16 4 5 0 []) :=
  decoding_inv ⟨by decide, by decide⟩ (by unfold WrittenBelow; decide) (by unfold IntervalWide; decide)
    (by decide) (by decide) (by decide)

/-- Before the last DEC_STEP. -/
theorem decoding_last_inv : Inv (decoding 0 12 8 6 2 [0x41, 0x41]) :=
  decoding_inv ⟨by decide, by decide⟩ (by unfold WrittenBelow; decide) (by unfold IntervalWide; decide)
    (by decide) (by decide) (by decide)

theorem failed_inv : Inv (failed .operand 0x16) where
  sizes := by unfold SizesLegal; decide
  prec := by unfold PrecLegal; decide
  ibuf := ⟨rfl, by intro c hc; cases hc⟩
  obuf := ⟨rfl, by intro c hc; cases hc⟩
  input := ⟨Nat.zero_le _, WrittenBelow.zero _⟩
  output := ⟨by simp [failed], fun _ => rfl, Nat.zero_le _, WrittenBelow.zero _⟩
  err := ⟨fun _ => ⟨.operand, rfl⟩, fun h => absurd rfl h⟩
  regs := .takeError (s := State.powerOn 64 64) (.ofCoderZero
    (.ofZero (zeroArray_le rfl) ⟨rfl, rfl, rfl, rfl, rfl⟩) ⟨rfl, rfl, rfl, ⟨rfl, rfl, rfl⟩, rfl, rfl, rfl, rfl, rfl⟩) _ _
  phase := trivial

/-! ### Witnesses: for every obligation with hypotheses, and every clause of it, a state and operands that meet them -/

theorem next_of_get {α : Type} {f : State → α} {o : Host.Outcome State Fault Refusal} {a : α} (h : get f o = some a) :
    ∃ t, o = .next t ∧ f t = a := by
  cases o with
  | next t => exact ⟨t, rfl, Option.some.inj h⟩
  | fault f => cases h
  | refused r => cases h

theorem witness_DecodingAnEncodedCommandGivesItBack : Instr.wellFormed (.outRead 0xFFFFFFFF) = true := by decide

theorem witness_EncodingADecodedWordGivesItBack : decode 0x0400000000000FFF = .ok (.rdReg 0xFFF) := by decide

theorem witness_IllegalWordsAreNotExecuted : (∃ e, decode 0x0300000000000020 = .error e) ∧
    ∃ e, decode 0x52000000FFFFFFFF = .error e := ⟨⟨.operandNotZero, by decide⟩, ⟨.reservedOpcode, by decide⟩⟩

theorem witness_OpcodeTableAgreesWithTheDecoder :
    ∃ r ∈ opcodeTable, r.matches 0x11000000000000FF = true := 
  ⟨⟨.inWrite, 0x1100000000000000, 0xFFFFFFFFFFFFFF00⟩, by simp [opcodeTable], by decide⟩

theorem witness_EveryCommandIsAnsweredByAResponseWord :
    (∃ t, handleCommand 0x0000000000000000 State.reset = .next t) ∧
    (∃ t, handleCommand 0x0300000000000001 State.reset = .next t ∧ t.phase = .error) ∧
    ∃ t, handleCommand 0x2000000000000000 (failed .operand 0x16) = .next t := by
  refine ⟨?_, ?_, ?_⟩
  · obtain ⟨t, h, -⟩ := next_of_get (show get State.phase (handleCommand 0 State.reset) = some .idle by decide +kernel)
    exact ⟨t, h⟩
  · exact next_of_get (show get State.phase (handleCommand 0x0300000000000001 State.reset) = some .error by decide +kernel)
  · obtain ⟨t, h, -⟩ := next_of_get (show get State.phase (handleCommand 0x2000000000000000 (failed .operand 0x16)) =
      some .error by decide +kernel)
    exact ⟨t, h⟩

theorem witness_AssembledProgramsAreLegalWords :
    (∃ ws, assembleProgram [.command ⟨.setPrec, some 31⟩, .outDump 1] = some ws) ∧ 2 ^ 32 ≤ 2 ^ 32 :=
  ⟨⟨[0x030000000000001F, 0x1200000000000000], by decide⟩, le_refl _⟩

theorem witness_AStepRunsTheDecodedCommand :
    { State.reset with port := [.command 0x2000000000000000] }.port = .command 0x2000000000000000 :: [] ∧
    decode 0x2000000000000000 = .ok .fmCount ∧ State.reset.port = [] ∧
    { State.reset with port := [.command 0x0500000000000000] }.port = .command 0x0500000000000000 :: [] ∧
    decode 0x0500000000000000 = .error .reservedOpcode := ⟨rfl, by decide, rfl, rfl, by decide⟩

theorem witness_TheResetPinResetsEveryRegister :
    { State.reset with port := [.reset] }.port = .reset :: [] ∧
    { State.reset with port := [.resetDuring 0x5000000000000000] }.port = .resetDuring 0x5000000000000000 :: [] ∧
    (∀ b, decode 0x5000000000000000 ≠ .ok (.inWrite b)) ∧ (failed .operand 0x16).phase = .error ∧
    decode 0x3200000000000000 = .ok .encFinish ∧
    ∃ v, exec .encFinish (encoding 64 8 12 3 1 [0]) = .next v ∧ v.phase ≠ .error ∧
      ¬ MayWriteObuf .encFinish (encoding 64 8 12 3 1 [0]) v 17 := by
  refine ⟨rfl, rfl, fun b h => ?_, rfl, by decide, ?_⟩
  · rw [show decode 0x5000000000000000 = .ok .compress by decide] at h
    cases h
  obtain ⟨v, hv, he⟩ := next_of_get (f := fun v => (v.phase, v.bitCount.toNat))
    (show get _ (exec .encFinish (encoding 64 8 12 3 1 [0])) = some (.encDone, 3) by decide +kernel)
  simp only [Prod.mk.injEq] at he
  refine ⟨v, hv, by rw [he.1]; decide, fun ⟨j, _, hj, ha⟩ => ?_⟩
  rw [State.sinkAddress, show (encoding 64 8 12 3 1 [0]).hdrLen.toNat = 16 from rfl] at ha
  omega

/-- 93_implementation_defined.md U6: rst_n during IN_WRITE 0x41 leaves IBUF[0] and OBUF; it empties the input. -/
theorem test_abandon_inWrite : get (fun t => (t.readByte .ibuf 0, t.readByte .ibuf 2, t.inLen, t.obuf, t.rsp))
    (step { loaded 4 [1] with
      port := [.resetDuring 0x1100000000000041], ibuf := bytesFrom [1, 2, 3], obuf := bytesFrom [7] }) = some (1, 3, 0, bytesFrom [7], none) := by decide +kernel
/-- The same during DEC_STEP: OBUF[0], written by the step before, stays. -/
theorem test_abandon_decStep : get (fun t => (t.readByte .obuf 0, t.phase))
    (step { decoding 0 12 8 6 2 [0x41, 0x41] with port := [.resetDuring 0x4100000000000000] }) =
    some (0x41, .idle) := by decide +kernel

theorem witness_ResetLeavesTheResetValues : State.reset.readRegister 0x003 = some 16 ∧
    State.reset.readRegister 0x3FF = some 0 := by decide +kernel

theorem witness_NopAnswersAndChangesNothing : (State.reset.phase = .idle ∧ State.reset.errCode = 0) ∧
    (failed .emptyInput 0).phase = .error ∧ (failed .emptyInput 0).errCode = 0x01 := ⟨⟨rfl, rfl⟩, rfl, rfl⟩

theorem witness_ClearKeepsTheInput : State.reset.readRegister 0x006 = some 0 ∧
    State.reset.readRegister 0x015 = some 0 := by decide +kernel

theorem witness_SetPrecSetsThePrecision : State.reset.phase = .idle ∧ 2 ≤ (2 : BitVec 5).toNat ∧ (1 : BitVec 5).toNat < 2 ∧
    (encDone.phase ≠ .idle ∧ encDone.phase ≠ .error) ∧
    (0x0300000000000020 : Word64).extractLsb' 56 8 = 0x03 ∧ 32 ≤ ((0x0300000000000020 : Word64).extractLsb' 0 32).toNat :=
  ⟨rfl, by decide, by decide, ⟨by decide, by decide⟩, by decide, by decide⟩

theorem witness_RdRegReadsTheRegisterMap :
    (0x016 ≤ (0x016 : BitVec 12).toNat ∧ (0x016 : BitVec 12).toNat ≤ 0x0FF) ∧
    (0x016 ≤ (0x0FF : BitVec 12).toNat ∧ (0x0FF : BitVec 12).toNat ≤ 0x0FF) ∧ 0x400 ≤ (0x400 : BitVec 12).toNat ∧
    0x400 ≤ (0xFFF : BitVec 12).toNat ∧ State.reset.phase ≠ .error ∧ (failed .operand 0x16).phase = .error :=
  ⟨by decide, by decide, by decide, by decide, by decide, rfl⟩

theorem witness_InClearEmptiesTheInput : input.phase = .idle ∧ counted.phase ≠ .idle ∧ counted.phase ≠ .error :=
  ⟨rfl, by decide, by decide⟩

theorem witness_InWriteAppendsAByte : input.phase = .idle ∧
    { input with ibufSize := 4 }.inLen.toNat < { input with ibufSize := 4 }.ibufSize.toNat ∧
    { input with ibufSize := 3 }.inLen = { input with ibufSize := 3 }.ibufSize ∧
    counted.phase ≠ .idle ∧ counted.phase ≠ .error := ⟨rfl, by decide, by decide, by decide, by decide⟩

theorem witness_OutReadReadsTheResult : Inv encDone ∧ encDone.phase = .encDone ∧
    (16 : Word32).toNat < encDone.outLen.toNat ∧ encDone.outLen.toNat ≤ (17 : Word32).toNat ∧
    encDone.outLen.toNat ≤ encDone.obufSize.toNat ∧
    (encoding 64 0 16 0 0 []).phase ≠ .encDone ∧ (encoding 64 0 16 0 0 []).phase ≠ .decDone ∧
    (encoding 64 0 16 0 0 []).phase ≠ .error :=
  ⟨encDone_inv, rfl, by decide, by decide, by decide, by decide, by decide, by decide⟩

theorem witness_FmCountCountsTheInput : input.phase = .idle ∧ input.inLen ≠ 0 ∧ input.inLen.toNat ≤ input.ibufSize.toNat ∧
    State.reset.phase = .idle ∧ State.reset.inLen = 0 ∧ counted.phase ≠ .idle ∧ counted.phase ≠ .error :=
  ⟨rfl, by decide, by decide, rfl, rfl, by decide, by decide⟩

theorem witness_CountsAddUpToTheInputLength : ∃ t, exec .fmCount input = .next t ∧ t.phase = .counted :=
  next_of_get (by decide +kernel)

theorem aab_least : LeastPositive aab 1 := by
  refine .inr ⟨⟨0x42, by rw [aab_entry]; decide, by rw [aab_entry]; decide⟩, fun c h => ?_⟩
  have : (symEntry aab c).toNat ≠ 0 := fun e => h (BitVec.eq_of_toNat_eq e)
  omega

theorem aab_sum : sumBelow aab 256 = 3 := by decide +kernel

/-- P = 4: 3 <= 1 * 4; P = 3: 1 * 2 < 3. -/
theorem witness_FmBuildBuildsTheModel : counted.phase = .counted ∧ sumBelow counted.freq 256 < 2 ^ 32 ∧
    LeastPositive counted.freq 1 ∧ sumBelow counted.freq 256 ≤ 1 * counted.quarter ∧
    1 * { counted with prec := 3 }.quarter < sumBelow { counted with prec := 3 }.freq 256 := by
  refine ⟨rfl, ?_, aab_least, ?_, ?_⟩
  · rw [show counted.freq = aab from rfl, aab_sum]; decide
  · rw [show counted.freq = aab from rfl, aab_sum]; decide
  · rw [show ({ counted with prec := 3 } : State).freq = aab from rfl, aab_sum]; decide

theorem witness_TheModelPartitionsTheTotal : (∃ t, exec .fmBuild (counted9 6) = .next t ∧ t.phase = .modelReady) ∧
    ∃ t, exec .decStart (loaded 16 [0, 1, 0x41, 0, 0, 0, 1, 0, 0, 0, 1, 0x40]) = .next t ∧ t.phase = .decoding :=
  ⟨next_of_get (by decide +kernel), next_of_get (by decide +kernel)⟩

theorem witness_TheSinkPacksBitsMsbFirst : State.reset.bitCount = 0 ∧ [true, false, true].length + 7 < 2 ^ 32 ∧
    0 < [true, false, true].length ∧ [true, false, true].length ≤ 7 ∧ 7 < 8 * (([true, false, true].length + 7) / 8) :=
  ⟨rfl, by decide, by decide, by decide, by decide⟩

/-- OBUF_SIZE 17 and 16 about 6 + 5K = 16. -/
theorem witness_EncStartWritesTheHeader : (Inv (modelReady 17) ∧ (modelReady 17).phase = .modelReady ∧
      6 + 5 * (modelReady 17).symCount.toNat < (modelReady 17).obufSize.toNat) ∧
    Inv (modelReady 16) ∧ (modelReady 16).phase = .modelReady ∧
      (modelReady 16).obufSize.toNat ≤ 6 + 5 * (modelReady 16).symCount.toNat :=
  ⟨⟨modelReady_inv (by decide) (by decide), rfl, by decide⟩, modelReady_inv (by decide) (by decide), rfl, by decide⟩

theorem witness_DecStartAcceptsTheEncodersHeader : Inv encDone ∧ encDone.phase = .encDone ∧ Inv file ∧
    file.phase = .idle ∧ file.prec = encDone.prec ∧ file.inLen = encDone.outLen ∧
    (∀ a, a < encDone.outLen.toNat → file.readByte .ibuf a = encDone.readByte .obuf a) ∧
    encDone.inLen.toNat ≤ file.obufSize.toNat := by
  refine ⟨encDone_inv, rfl, file_inv, rfl, rfl, by decide, ?_, by decide⟩
  intro a ha
  have ha : a < 17 := ha
  interval_cases a <;> rfl

/-- A loaded file satisfies the invariant. -/
theorem loaded_file {bytes : List Byte} (hn : bytes.length ≤ 64) (hl : BufferLegal (bytesFrom bytes) 64)
    (hw : WrittenBelow (bytesFrom bytes) bytes.length) : Inv (loaded 16 bytes) ∧ (loaded 16 bytes).phase = .idle :=
  ⟨loaded_inv (by decide) hn hl hw, rfl⟩

/-- The files of V-PK-4, one for each clause. -/
def badFiles : List (List Byte) :=
  [[0], [0, 0, 0, 0, 0, 0], [0, 2, 0x41, 0, 0, 0, 1, 0x42],
   [0, 2, 0x41, 0, 0, 0, 1, 0x41, 0, 0, 0, 1, 0, 0, 0, 2, 0x40],
   [0, 2, 0x41, 0, 0, 0, 0, 0x42, 0, 0, 0, 1, 0, 0, 0, 1, 0x40],
   [0, 2, 0x41, 0, 0, 0, 1, 0x42, 0, 0, 0, 1, 0, 0, 0, 3, 0x40]] ++
  [[0, 2, 0x41, 0, 0, 0, 1, 0x42, 0, 0, 0, 1, 0, 0, 0, 2],
   [0, 1, 0x41, 0, 0, 0, 0x41, 0, 0, 0, 0x41, 0x40],
   [1, 1] ++ List.replicate 20 0]

/-- The file of one row. -/
def bad (n : Nat) : State := loaded 16 (badFiles.getD n [])

theorem bad_inv : ∀ n, n < 9 → Inv (bad n) ∧ (bad n).phase = .idle := by
  have h : ∀ n, n < 9 → (badFiles.getD n []).length ≤ 64 ∧ (bytesFrom (badFiles.getD n [])).wf = true ∧
      (∀ c ∈ (bytesFrom (badFiles.getD n [])).cells, c.1 < (64 : Word32).toNat) ∧
      ∀ a, a < (badFiles.getD n []).length → ((bytesFrom (badFiles.getD n [])).written a).isSome = true := by
    decide +kernel
  intro n hn
  obtain ⟨h1, h2, h3, h4⟩ := h n hn
  exact loaded_file h1 ⟨h2, h3⟩ h4

/-- `GoodPairs`, from a check. -/
theorem goodPairs_of {s : State} {n : Nat}
    (h : ∀ j, j < n → (∀ i, i < j → s.fileSymbol i ≠ s.fileSymbol j) ∧ s.fileFreq j ≠ 0) : GoodPairs s n :=
  fun j hj => ⟨fun ⟨i, hi, e⟩ => (h j hj).1 i hi e, (h j hj).2⟩

theorem witness_DecStartReportsTheFirstHeaderError_lengths : (bad 0).inLen.toNat < 2 ∧
    (2 ≤ (bad 1).inLen.toNat ∧ (bad 1).fileK = 0) ∧ (2 ≤ (bad 8).inLen.toNat ∧ 256 < (bad 8).fileK) ∧
    (2 ≤ (bad 2).inLen.toNat ∧ 1 ≤ (bad 2).fileK ∧ (bad 2).fileK ≤ 256 ∧
      (bad 2).inLen.toNat < 6 + 5 * (bad 2).fileK) := by decide +kernel

theorem witness_DecStartReportsTheFirstHeaderError_pairs :
    (HeaderFits (bad 3) ∧ 1 < (bad 3).fileK ∧ GoodPairs (bad 3) 1 ∧ DuplicatePair (bad 3) 1) ∧
    (HeaderFits (bad 4) ∧ 0 < (bad 4).fileK ∧ GoodPairs (bad 4) 0 ∧ ¬ DuplicatePair (bad 4) 0 ∧ (bad 4).fileFreq 0 = 0) := by
  refine ⟨⟨by unfold HeaderFits; decide +kernel, by decide +kernel, goodPairs_of (by decide +kernel), 0, by decide, ?_⟩,
    by unfold HeaderFits; decide +kernel, by decide +kernel, goodPairs_of (by decide), fun ⟨i, hi, _⟩ => absurd hi (by omega),
    by decide +kernel⟩
  decide +kernel

theorem witness_DecStartReportsTheFirstHeaderError_rest :
    (HeaderFits (bad 5) ∧ GoodPairs (bad 5) (bad 5).fileK ∧ (bad 5).fileSum ≠ (bad 5).fileN) ∧
    (HeaderFits (bad 6) ∧ GoodPairs (bad 6) (bad 6).fileK ∧ (bad 6).fileSum = (bad 6).fileN ∧
      (bad 6).inLen.toNat = 6 + 5 * (bad 6).fileK) ∧
    (HeaderFits (bad 7) ∧ GoodPairs (bad 7) (bad 7).fileK ∧ (bad 7).fileSum = (bad 7).fileN ∧
      6 + 5 * (bad 7).fileK < (bad 7).inLen.toNat ∧ (bad 7).obufSize.toNat < (bad 7).fileN) := by
  refine ⟨⟨by unfold HeaderFits; decide +kernel, goodPairs_of (by decide +kernel), by decide +kernel⟩,
    ⟨by unfold HeaderFits; decide +kernel, goodPairs_of (by decide +kernel), by decide +kernel, by decide +kernel⟩,
    by unfold HeaderFits; decide +kernel, goodPairs_of (by decide +kernel), by decide +kernel, by decide +kernel,
    by decide +kernel⟩

/-- `"AAB"`'s file at P = 3: 1 * 2 < 3. -/
theorem witness_DecStartReportsTheFirstHeaderError_precision :
    Inv (loaded 3 fileAAB) ∧ (loaded 3 fileAAB).phase = .idle ∧ HeaderFits (loaded 3 fileAAB) ∧
    GoodPairs (loaded 3 fileAAB) (loaded 3 fileAAB).fileK ∧
    (loaded 3 fileAAB).fileSum = (loaded 3 fileAAB).fileN ∧
    6 + 5 * (loaded 3 fileAAB).fileK < (loaded 3 fileAAB).inLen.toNat ∧
    (loaded 3 fileAAB).fileN ≤ (loaded 3 fileAAB).obufSize.toNat ∧
    ∃ j, j < (loaded 3 fileAAB).fileK ∧ (loaded 3 fileAAB).fileFreq j * (loaded 3 fileAAB).quarter < (loaded 3 fileAAB).fileN :=
  ⟨loaded_inv (by decide) (by decide) file_inv.ibuf file_inv.input.2, rfl, by unfold HeaderFits; decide +kernel,
    goodPairs_of (by decide +kernel), by decide +kernel, by decide +kernel, by decide +kernel, 1, by decide +kernel,
    by decide +kernel⟩

theorem witness_NarrowStaysInsideTheInterval : 1 ≤ 1 ∧ 0 ≤ 1 ∧ 0 ≤ 1 ∧ 1 ≤ 1 := by decide

theorem witness_RenormEncIsItsTwoLoops : 2 ≤ 4 ∧ (⟨15, 16, 1⟩ : EncInterval).lower < 16 ∧ 16 ≤ 2 ^ 4 := by decide

theorem witness_RenormDecIsItsTwoLoops : 2 ≤ 4 ∧ 13 ≤ 13 ∧ 13 < 14 ∧ 14 ≤ 2 ^ 4 ∧ 9 ≤ file.bitLen.toNat + 9 := by decide

theorem witness_RenormalizationLeavesAWideInterval : 2 ≤ 2 ∧ 3 < 4 ∧ 4 ≤ 2 ^ 2 := by decide

theorem witness_RenormalizationRescalesAtMostPTimes : 2 ≤ 31 ∧ 0 < 1 ∧ 1 ≤ 2 ^ 31 ∧ 1 ≤ State.reset.bitLen.toNat + 1 := by
  decide

theorem witness_NarrowNeverCollapses : (Inv (encoding 64 0 16 0 0 []) ∧ (encoding 64 0 16 0 0 []).phase = .encoding ∧
      symEntry (encoding 64 0 16 0 0 []).freq 0x41 ≠ 0) ∧
    (∃ t, exec .encStep (encoding 64 8 12 3 1 [0]) = .next t) ∧
    Inv (decoding 0 16 4 5 0 []) ∧ (decoding 0 16 4 5 0 []).phase = .decoding := by
  refine ⟨⟨encoding_first_inv, rfl, ?_⟩, ?_, decoding_first_inv, rfl⟩
  · show symEntry aab 0x41 ≠ 0
    rw [aab_entry]; decide
  · obtain ⟨t, h, -⟩ := next_of_get (show get State.phase (exec .encStep (encoding 64 8 12 3 1 [0])) = some .error by
      decide +kernel)
    exact ⟨t, h⟩

theorem witness_TheTagStaysInTheInterval : (∃ t, exec .decStart file = .next t ∧ t.phase = .decoding) ∧
    PrecLegal s1Decoding ∧ (∃ t, exec .decStep s1Decoding = .next t ∧ t.phase = .decoding) ∧
    ∃ t, exec .decStep { s1Decoding with decCount := 9 } = .next t ∧ t.phase = .decDone :=
  ⟨next_of_get (by decide +kernel), by unfold PrecLegal; decide, next_of_get (by decide +kernel),
    next_of_get (by decide +kernel)⟩

theorem witness_DatapathProductsFit64Bits : Inv (encoding 64 0 16 0 0 []) ∧
    (encoding 64 0 16 0 0 []).phase = .encoding ∧ Inv (decoding 0 16 4 5 0 []) ∧
    (decoding 0 16 4 5 0 []).phase = .decoding := ⟨encoding_first_inv, rfl, decoding_first_inv, rfl⟩

/-- CUM_LOW and CUM_HIGH of `A`, from 42_frequency_model.md R142. -/
theorem aab_cum_A : symEntry (buildModel aab).cumLow 0x41 = 0 ∧ symEntry (buildModel aab).cumHigh 0x41 = 2 := by
  decide +kernel

/-- ENC_STEP of `A` in (0, 16): (0, 10), no bits, room for the 2 final ones. In (0, 10) with 6 of 8 payload bits used: E1,
one bit, and 6 + 1 + 2 > 8. At the end of the input: ENC_POS = IN_LEN. -/
theorem witness_EncStepEncodesOneSymbol :
    (Inv (encoding 64 0 16 0 0 []) ∧ (encoding 64 0 16 0 0 []).encPos.toNat < (encoding 64 0 16 0 0 []).inLen.toNat ∧
      EncPhase1 4 ⟨0 + (16 - 0) * (symEntry (buildModel aab).cumLow 0x41).toNat / 3,
        0 + (16 - 0) * (symEntry (buildModel aab).cumHigh 0x41).toNat / 3, 0⟩ [] ⟨0, 10, 0⟩ ∧
      EncPhase2 4 ⟨0, 10, 0⟩ ⟨0, 10, 0⟩ ∧ 0 + 0 + 0 + 2 ≤ 8 * (64 - 16)) ∧
    (Inv (encoding 17 0 10 1 6 [0]) ∧ (encoding 17 0 10 1 6 [0]).encPos.toNat < (encoding 17 0 10 1 6 [0]).inLen.toNat ∧
      EncPhase1 4 ⟨0 + (10 - 0) * (symEntry (buildModel aab).cumLow 0x41).toNat / 3,
        0 + (10 - 0) * (symEntry (buildModel aab).cumHigh 0x41).toNat / 3, 0⟩ [false] ⟨0, 12, 0⟩ ∧
      EncPhase2 4 ⟨0, 12, 0⟩ ⟨0, 12, 0⟩ ∧ 8 * (17 - 16) < 6 + 1 + 0 + 2) ∧
    Inv (encoding 64 8 12 3 1 [0]) ∧ (encoding 64 8 12 3 1 [0]).encPos = (encoding 64 8 12 3 1 [0]).inLen := by
  rw [aab_cum_A.1, aab_cum_A.2]
  exact ⟨⟨encoding_first_inv, by decide, .done (by decide), .done (by decide), by decide⟩,
    ⟨encoding_full_inv, by decide, .e1 (v := ⟨0, 6, 0⟩) (bits := []) (by decide) (.done (by decide)), .done (by decide),
      by decide⟩, encoding_last_inv, by decide⟩

theorem witness_EncFinishClosesTheFile : (Inv (encoding 64 8 12 3 1 [0]) ∧ (encoding 64 8 12 3 1 [0]).phase = .encoding ∧
      (encoding 64 8 12 3 1 [0]).encPos = (encoding 64 8 12 3 1 [0]).inLen) ∧
    Inv (encoding 64 0 16 0 0 []) ∧ (encoding 64 0 16 0 0 []).encPos.toNat < (encoding 64 0 16 0 0 []).inLen.toNat :=
  ⟨⟨encoding_last_inv, rfl, by decide⟩, encoding_first_inv, by decide⟩

theorem witness_TheCapacityCheckIsExact :
    (∃ t, exec .encStep (encoding 64 0 16 0 0 []) = .next t ∧ t.phase = .encoding) ∧
    (∃ t, exec .encFinish (encoding 64 8 12 3 1 [0]) = .next t ∧ t.phase = .encDone) ∧
    (∃ t, execAll (List.replicate 0 .encStep ++ [.encFinish]) (encoding 64 8 12 3 1 [0]) = .next t ∧ t.phase = .encDone) ∧
    Inv (encoding 17 0 10 1 6 [0]) ∧ (∃ t, exec .encStep (encoding 17 0 10 1 6 [0]) = .next t ∧ t.errCode = 0x13) ∧
    Inv { encoding 17 0 10 1 6 [0] with obufSize := 64 } ∧
    ∃ u, execAll (List.replicate 2 .encStep ++ [.encFinish]) { encoding 17 0 10 1 6 [0] with obufSize := 64 } = .next u ∧
      u.phase = .encDone :=
  ⟨next_of_get (by decide +kernel), next_of_get (by decide +kernel), next_of_get (by decide +kernel), encoding_full_inv,
    next_of_get (by decide +kernel), encoding_inv (size := 64) (by decide) (by decide) ⟨by decide, by decide⟩
      (by unfold WrittenBelow; decide) (by decide) (by unfold IntervalWide; decide) (by decide) (by decide)
      (trailingZero_of_lt (by decide)), next_of_get (by decide +kernel)⟩

theorem witness_CompressIsItsSequence : input.phase = .idle := rfl

/-- `"AAB"` at P = 4: each count times QUARTER is at least 3, and 6 + 5 * 2 + (4 * 3 + 9) / 8 = 18 <= 64. -/
theorem witness_CompressCompletes : Inv input ∧ input.phase = .idle ∧ input.inLen ≠ 0 ∧
    (∀ c : Byte, input.occurrences c ≠ 0 → input.inLen.toNat ≤ input.occurrences c * input.quarter) ∧
    6 + 5 * input.distinctBytes + (input.prec.toNat * input.inLen.toNat + 9) / 8 ≤ input.obufSize.toNat :=
  ⟨input_inv, rfl, by decide, by decide +kernel, by decide +kernel⟩

/-- The file of `"A"` (V-ENC-2). -/
def fileA : List Byte := [0, 1, 0x41, 0, 0, 0, 1, 0, 0, 0, 1, 0x40]

theorem letterA_inv : Inv (loaded 16 [0x41]) :=
  loaded_inv (by decide) (by decide) ⟨by decide, by decide⟩ (by unfold WrittenBelow; decide)

theorem fileA_inv : Inv (loaded 16 fileA) :=
  loaded_inv (by decide) (by decide) ⟨by decide, by decide⟩ (by unfold WrittenBelow; decide)

theorem compress_letterA : ∃ t, exec .compress (loaded 16 [0x41]) = .next t ∧
    (t.phase, t.outLen, (List.range 12).map (t.readByte .obuf)) = (.encDone, 12, fileA) :=
  next_of_get (f := fun t => (t.phase, t.outLen, (List.range 12).map (t.readByte .obuf))) (by decide +kernel)

/-- `"A"` in a machine with another OBUF_SIZE, an old result in OBUF, an old byte in IBUF and more on the port. -/
def otherA : State :=
  { loaded 16 [0x41] with
    obufSize := 12, obuf := bytesFrom [0xFF, 0xFF], ibuf := bytesFrom [0x41, 0x42], port := [.reset] }

theorem otherA_inv : Inv otherA := .ofPhaseInv nofun
  (sizes := by unfold SizesLegal; decide)
  (prec := letterA_inv.prec)
  (ibuf := ⟨by decide, by decide⟩)
  (obuf := ⟨by decide, by decide⟩)
  (input := ⟨by decide, by unfold WrittenBelow; decide⟩)
  (output := ⟨letterA_inv.output.1, fun _ => rfl, Nat.zero_le _, WrittenBelow.zero _⟩)
  (err := letterA_inv.err)
  (phase := letterA_inv.phase)

/-- The same input in two machines that differ in everything the statement leaves free. -/
theorem witness_CompressIsDeterministic : ∃ t t' : State, Inv (loaded 16 [0x41]) ∧ Inv otherA ∧
    (loaded 16 [0x41]).inLen = otherA.inLen ∧ (loaded 16 [0x41]).prec = otherA.prec ∧
    (∀ a, a < (loaded 16 [0x41]).inLen.toNat → (loaded 16 [0x41]).readByte .ibuf a = otherA.readByte .ibuf a) ∧
    exec .compress (loaded 16 [0x41]) = .next t ∧ t.phase = .encDone ∧
    exec .compress otherA = .next t' ∧ t'.phase = .encDone := by
  obtain ⟨t, h, e⟩ := compress_letterA
  obtain ⟨t', h', e'⟩ := next_of_get (f := State.phase) (show get _ (exec .compress otherA) = some .encDone by
    decide +kernel)
  refine ⟨t, t', letterA_inv, otherA_inv, rfl, rfl, fun a ha => ?_, h, congrArg Prod.fst e, h', e'⟩
  have ha : a < 1 := ha
  obtain rfl : a = 0 := by omega
  rfl

theorem witness_DecompressInvertsCompress : ∃ t : State, Inv (loaded 16 [0x41]) ∧ (loaded 16 [0x41]).phase = .idle ∧
    exec .compress (loaded 16 [0x41]) = .next t ∧ t.phase = .encDone ∧ Inv (loaded 16 fileA) ∧
    (loaded 16 fileA).phase = .idle ∧ (loaded 16 fileA).prec = (loaded 16 [0x41]).prec ∧
    (loaded 16 fileA).inLen = t.outLen ∧
    (∀ a, a < t.outLen.toNat → (loaded 16 fileA).readByte .ibuf a = t.readByte .obuf a) ∧
    (loaded 16 [0x41]).inLen.toNat ≤ (loaded 16 fileA).obufSize.toNat := by
  obtain ⟨t, h, e⟩ := compress_letterA
  simp only [Prod.mk.injEq] at e
  obtain ⟨e1, e2, e3⟩ := e
  refine ⟨t, letterA_inv, rfl, h, e1, fileA_inv, rfl, rfl, by rw [e2]; rfl, ?_, by decide⟩
  intro a ha
  rw [e2] at ha
  have ha : a < 12 := ha
  have hm : ((List.range 12).map (t.readByte .obuf))[a]? = fileA[a]? := by rw [e3]
  rw [List.getElem?_map, List.getElem?_range ha] at hm
  have hf : fileA[a]? = some ((loaded 16 fileA).readByte .ibuf a) := by
    interval_cases a <;> rfl
  rw [hf] at hm
  exact (Option.some.inj hm).symm

theorem file_accepted : FileAccepted file where
  header := by unfold HeaderFits; decide +kernel
  pairs := goodPairs_of (by decide +kernel)
  sum := by decide +kernel
  payload := by decide +kernel
  room := by decide +kernel
  precision := by decide +kernel

theorem witness_DecStartLoadsTheFile : Inv file ∧ file.phase = .idle ∧ FileAccepted file := ⟨file_inv, rfl, file_accepted⟩

theorem witness_DecStepDecodesOneSymbol : (Inv (decoding 0 16 4 5 0 []) ∧ (decoding 0 16 4 5 0 []).phase = .decoding ∧
      (decoding 0 16 4 5 0 []).decCount.toNat + 1 < (decoding 0 16 4 5 0 []).nDecl.toNat) ∧
    Inv (decoding 0 12 8 6 2 [0x41, 0x41]) ∧
      (decoding 0 12 8 6 2 [0x41, 0x41]).decCount.toNat + 1 = (decoding 0 12 8 6 2 [0x41, 0x41]).nDecl.toNat :=
  ⟨⟨decoding_first_inv, rfl, by decide⟩, decoding_last_inv, by decide⟩

theorem witness_SearchAlwaysFindsASymbol : Inv (decoding 0 16 4 5 0 []) ∧ (decoding 0 16 4 5 0 []).phase = .decoding ∧
    (decoding 0 16 4 5 0 []).lower.toNat ≤ 15 ∧ 15 < (decoding 0 16 4 5 0 []).upper.toNat ∧
    ∃ t, exec .decStep s1Decoding = .next t ∧ t.phase = .decoding :=
  ⟨decoding_first_inv, rfl, by decide, by decide, next_of_get (by decide +kernel)⟩

theorem witness_AnySearchOrderFindsTheSameSymbol : Inv (decoding 0 16 4 5 0 []) ∧
    (decoding 0 16 4 5 0 []).phase = .decoding ∧
    [0x42, 0x41].Perm (symbolsOf (decoding 0 16 4 5 0 []).freq) := by
  refine ⟨decoding_first_inv, rfl, ?_⟩
  rw [show (decoding 0 16 4 5 0 []).freq = aab from rfl, aab_symbols]
  exact .swap _ _ _

theorem witness_DecompressIsItsSequence : State.reset.phase = .idle ∧
    (∃ a, exec .decStart State.reset = .next a ∧ a.phase = .error) ∧
    (∃ a, exec .decStart (loaded 16 fileA) = .next a ∧ (a.phase, a.nDecl) = (.decoding, 1)) ∧
    ∃ t, execAll (decompressSequence 1) (loaded 16 fileA) = .next t ∧ t.phase = .decDone :=
  ⟨rfl, next_of_get (by decide +kernel), next_of_get (f := fun a => (a.phase, a.nDecl)) (by decide +kernel),
    next_of_get (by decide +kernel)⟩

theorem witness_DecompressCompletes : Inv file ∧ file.phase = .idle ∧ FileAccepted file := ⟨file_inv, rfl, file_accepted⟩

theorem witness_ErrorsArePrecise : input.phase ≠ .error ∧ decode 0x2100000000000000 ≠ .ok .compress ∧
    decode 0x2100000000000000 ≠ .ok .decompress ∧
    ∃ t, handleCommand 0x2100000000000000 input = .next t ∧ t.phase = .error :=
  ⟨by decide, by decide, by decide, next_of_get (by decide +kernel)⟩

theorem witness_MacroErrorsAreThoseOfOnePrimitive : State.reset.phase = .idle ∧
    (∃ t, exec .compress State.reset = .next t ∧ t.phase = .error) ∧
    ∃ t, exec .decompress State.reset = .next t ∧ t.phase = .error :=
  ⟨rfl, next_of_get (by decide +kernel), next_of_get (by decide +kernel)⟩

theorem witness_ErrorsNeverNest : (failed .operand 0x16).phase = .error ∧
    (∃ e, decode 0xFF00000000000000 = .error e) ∧ Instr.fmCount ≠ .nop ∧
    (failed .operand 0x16).readRegister (0x016 : BitVec 12).toNat = none ∧
    ∃ t, handleCommand 0x2000000000000000 (failed .operand 0x16) = .next t ∧ t.phase = .error :=
  ⟨rfl, ⟨.reservedOpcode, by decide⟩, by decide, rfl, next_of_get (by decide +kernel)⟩

theorem witness_OnlyClearAndResetLeaveError : (failed .operand 0x16).phase = .error ∧
    (∃ t, step { failed .operand 0x16 with port := [.command 0x0200000000000000] } = .next t ∧ t.phase = .idle) ∧
    ∃ t, step { failed .operand 0x16 with port := [.reset] } = .next t ∧ t.phase = .idle :=
  ⟨rfl, next_of_get (by decide +kernel), next_of_get (by decide +kernel)⟩

theorem witness_CommandsOutsideTheirPhasesRaise : (counted.phase ≠ .error ∧ counted.phase ≠ .idle) ∧
    (counted.phase ≠ .encDone ∧ counted.phase ≠ .decDone) ∧ (input.phase ≠ .error ∧ input.phase ≠ .counted) ∧
    input.phase ≠ .modelReady ∧ input.phase ≠ .encoding ∧ input.phase ≠ .decoding := by decide

/-- A state, for each command that can raise an error inside its phases, in which it does. -/
theorem witness_ErrorsEachCommandCanRaise :
    (∃ t, exec (.setPrec 1) input = .next t ∧ t.errCode = 0x03) ∧
    (∃ t, exec (.rdReg 0x400) input = .next t ∧ t.errCode = 0x11) ∧
    (∃ t, exec .fmCount State.reset = .next t ∧ t.errCode = 0x01) ∧
    (∃ t, exec .compress State.reset = .next t ∧ t.errCode = 0x01) ∧
    (∃ t, exec (.outRead 17) encDone = .next t ∧ t.errCode = 0x11) ∧
    (∃ t, exec .encStart (modelReady 16) = .next t ∧ t.errCode = 0x13) ∧
    (∃ t, exec .encStep (encoding 64 8 12 3 1 [0]) = .next t ∧ t.errCode = 0x12) ∧
    (∃ t, exec .encFinish (encoding 64 0 16 0 0 []) = .next t ∧ t.errCode = 0x12) ∧
    (∃ t, exec .decStart (bad 3) = .next t ∧ t.errCode = 0x02) ∧
    ∃ t, exec .decompress (bad 0) = .next t ∧ t.errCode = 0x04 :=
  ⟨next_of_get (by decide +kernel), next_of_get (by decide +kernel), next_of_get (by decide +kernel),
    next_of_get (by decide +kernel), next_of_get (by decide +kernel), next_of_get (by decide +kernel),
    next_of_get (by decide +kernel), next_of_get (by decide +kernel), next_of_get (by decide +kernel),
    next_of_get (by decide +kernel)⟩

theorem witness_ResetSatisfiesTheInvariant : 1 ≤ (1 : Word32).toNat ∧ (0x10000000 : Word32).toNat ≤ 2 ^ 28 := by decide

theorem witness_EveryStepKeepsTheInvariant : Inv input ∧ Inv (failed .operand 0x16) ∧ ∃ t, step input = .next t :=
  ⟨input_inv, failed_inv, input, rfl⟩

theorem witness_EveryStepAnswersANextState : Inv (encoding 64 0 16 0 0 []) ∧ Inv (decoding 0 12 8 6 2 [0x41, 0x41]) ∧
    Inv { failed .operand 0x16 with port := [.command 0] } :=
  ⟨encoding_first_inv, decoding_last_inv, { failed_inv with regs := { failed_inv.regs with } }⟩

theorem witness_DerivedInvariantsHoldAfterEveryStep :
    (Inv (encoding 64 0 16 0 0 []) ∧ ∃ t, step (encoding 64 0 16 0 0 []) = .next t ∧ t.phase = .encoding) ∧
    (Inv (decoding 0 16 4 5 0 []) ∧ ∃ t, step (decoding 0 16 4 5 0 []) = .next t ∧ t.phase = .decoding) ∧
    Inv encDone ∧ ∃ t, step encDone = .next t ∧ t.outValid = true :=
  ⟨⟨encoding_first_inv, _, rfl, rfl⟩, ⟨decoding_first_inv, _, rfl, rfl⟩, encDone_inv, _, rfl, rfl⟩

theorem witness_TheInputIsConstantDuringAnOperation : Instr.inClear ≠ .softReset ∧ counted.phase ≠ .idle ∧
    (∃ t, exec .inClear counted = .next t ∧ t.phase = .error) ∧ ∃ t, exec .fmCount input = .next t ∧ t.phase = .counted :=
  ⟨by decide, by decide, next_of_get (by decide +kernel), next_of_get (by decide +kernel)⟩

theorem witness_PhaseTransitions : Inv input ∧ (∃ t, exec .fmCount input = .next t ∧ t.phase = .counted) ∧
    Inv (encoding 64 8 12 3 1 [0]) ∧ (∃ t, exec .encFinish (encoding 64 8 12 3 1 [0]) = .next t ∧ t.phase = .encDone) ∧
    Inv (failed .operand 0x16) ∧ (failed .operand 0x16).phase = .error ∧
    ∃ t, exec .fmCount (failed .operand 0x16) = .next t ∧ t.phase = .error :=
  ⟨input_inv, next_of_get (by decide +kernel), encoding_last_inv, next_of_get (by decide +kernel), failed_inv, rfl,
    next_of_get (by decide +kernel)⟩
end Sys2Proof.Tests
end

section
/-! PROOFS. The limits of 00_scope.md: the 64-bit datapath (R8), the corner that reaches R8's strict bound (log 16),
and the legal parameters of the reset state (R6). -/

namespace Sys2Proof.Machine

/-! ### The reset state (00_scope.md R6, 10_state.md R53) -/

/-- Power-on reset of an instance with legal buffer sizes: IDLE, with every model and coder register 0 and nothing
written to either buffer. -/
theorem Inv.powerOn {a b : Word32} (ha : 1 ≤ a.toNat) (ha' : a.toNat ≤ 2 ^ 28) (hb : 1 ≤ b.toNat)
    (hb' : b.toNat ≤ 2 ^ 28) : Inv (State.powerOn a b) :=
  .ofPhaseInv nofun
    (sizes := ⟨ha, ha', hb, hb'⟩)
    (prec := by simp [PrecLegal, State.powerOn])
    (ibuf := ⟨rfl, nofun⟩)
    (obuf := ⟨rfl, nofun⟩)
    (input := ⟨Nat.zero_le _, .zero _⟩)
    (output := ⟨by simp [State.powerOn], fun _ => rfl, Nat.zero_le _, .zero _⟩)
    (err := ⟨nofun, fun _ => ⟨rfl, rfl⟩⟩)
    (phase := ⟨rfl, ⟨rfl, rfl, rfl, rfl, rfl⟩, rfl, rfl, rfl, ⟨rfl, rfl, rfl⟩, rfl, rfl, rfl, rfl, rfl⟩)

/-- Settles O55: the invariant of a power-on state, and the sizes 64 and 64 of `State.reset` are legal. -/
theorem resetSatisfiesTheInvariant : Obligations.ResetSatisfiesTheInvariant :=
  ⟨fun _ _ => Inv.powerOn, Inv.powerOn (by decide) (by decide) (by decide) (by decide)⟩

/-! ### The datapath's products (00_scope.md R8) -/

theorem quarter_le (s : State) : s.quarter ≤ 2 ^ 29 := by
  have := whole_le s
  rw [State.quarter]
  omega

/-- A product `range * cum` of 44_interval_renormalizer.md R181, from `range <= 2^31` and `cum <= 2^28`. -/
theorem RegistersLegal.range_mul_le {s : State} (h : RegistersLegal s) {cum : Nat} (hc : cum ≤ 2 ^ 28) :
    (s.upper.toNat - s.lower.toNat) * cum ≤ 2 ^ 59 :=
  calc (s.upper.toNat - s.lower.toNat) * cum
    _ ≤ 2 ^ 31 * 2 ^ 28 := Nat.mul_le_mul ((Nat.sub_le _ _).trans h.upper) hc
    _ = 2 ^ 59 := by norm_num

/-- The product of the precision check (42_frequency_model.md R144). -/
theorem RegistersLegal.fmin_mul_quarter_lt {s : State} (h : RegistersLegal s) : s.fmin.toNat * s.quarter < 2 ^ 64 :=
  calc s.fmin.toNat * s.quarter
    _ ≤ 2 ^ 28 * 2 ^ 29 := Nat.mul_le_mul h.fmin (quarter_le s)
    _ < 2 ^ 64 := by norm_num

/-- Settles O33, from the legal values of UPPER, CUM_LOW, CUM_HIGH and FMIN. -/
theorem datapathProductsFit64Bits : Obligations.DatapathProductsFit64Bits := by
  intro s hs _ c
  have hr := hs.regs
  exact ⟨hr.range_mul_le (hr.cumHigh c), hr.range_mul_le (hr.cumLow c), hr.fmin_mul_quarter_lt⟩

/-! ### The corner where a product is 2^59 (log 16)

A file that declares 2^28 times the byte `A`, read at P = 31 into an OBUF of 2^28 bytes. After DEC_START the interval is
[0, 2^31) and CUM_HIGH of `A` is TOTAL = 2^28. -/

/-- The header of one symbol (30_encoding.md R92) and one payload byte. -/
def cornerFile : List Byte := [0, 1, 0x41, 0x10, 0, 0, 0, 0x10, 0, 0, 0, 0]

/-- IDLE at P = 31 with the file loaded. -/
def cornerLoaded : State :=
  { State.powerOn 12 0x10000000 with
    prec := 31, inLen := 12
    ibuf := { cells := (List.range 12).zip cornerFile, epoch := 0, events := 0 } }

/-- The counts the file declares. -/
def cornerFreq : RegArray := setEntry (Vector.replicate 256 0) 0x41 0x10000000

/-- The registers after DEC_START on the file. -/
def cornerDecoding : State :=
  { cornerLoaded with
    rsp := some (responseWord .ok 0 .decoding 0x10000000)
    phase := .decoding, freq := cornerFreq
    cumLow := (buildModel cornerFreq).cumLow, cumHigh := (buildModel cornerFreq).cumHigh
    total := 0x10000000, symCount := 1, fmin := 0x10000000
    hdrLen := 11, bitLen := 8, nDecl := 0x10000000, upper := 0x80000000, rdIdx := 9 }

/-- The corner is reached by a command: DEC_START goes from the loaded file to it. -/
theorem decStart_cornerLoaded : exec .decStart cornerLoaded = .next cornerDecoding := by
  have h : primDecStart cornerLoaded = .ok ({ cornerDecoding with rsp := none }, 0x10000000) := by decide +kernel
  have hphase : phasesOf .decStart cornerLoaded.phase = true := rfl
  rw [exec, execDecStart, execPrimitive_pass hphase, finish_ok h]
  rfl

/-- BuildModel on the file's counts (42_frequency_model.md R142). -/
theorem buildModel_cornerFreq :
    (buildModel cornerFreq).total = 2 ^ 28 ∧ (buildModel cornerFreq).symCount = 1 ∧
      (buildModel cornerFreq).fmin = 2 ^ 28 ∧ symEntry (buildModel cornerFreq).cumHigh 0x41 = 0x10000000 := by
  decide +kernel

theorem cornerDecoding_built : ModelBuilt cornerDecoding := by
  obtain ⟨htotal, hsym, hmin, -⟩ := buildModel_cornerFreq
  exact ⟨rfl, rfl, htotal.symm, hsym.symm, hmin.symm, by decide, by decide, by decide⟩

theorem cornerDecoding_inv : Inv cornerDecoding :=
  .ofPhaseInv nofun
    (sizes := by unfold SizesLegal; decide)
    (prec := by unfold PrecLegal; decide)
    (ibuf := ⟨by decide, by decide⟩)
    (obuf := ⟨rfl, nofun⟩)
    (input := ⟨by decide, by unfold WrittenBelow; decide⟩)
    (output := ⟨by decide, fun _ => rfl, Nat.zero_le _, .zero _⟩)
    (err := ⟨nofun, fun _ => ⟨rfl, rfl⟩⟩)
    (phase := ⟨cornerDecoding_built, ⟨rfl, by decide, rfl, by decide, by decide, rfl, by decide⟩,
      by unfold IntervalWide; decide, by unfold TagIn; decide, by decide, .zero _, rfl, rfl, rfl⟩)

/-- Refutes O34: at the corner the product of `A` is (2^31 - 0) * 2^28 = 2^59. -/
theorem not_datapathProductsStayBelowTwoToThe59 : ¬ Obligations.DatapathProductsStayBelowTwoToThe59 := by
  intro h
  obtain ⟨-, -, -, hhigh⟩ := buildModel_cornerFreq
  have hlt : (2 ^ 31 - 0) * (symEntry (buildModel cornerFreq).cumHigh 0x41).toNat < 2 ^ 59 :=
    h cornerDecoding cornerDecoding_inv (.inr rfl) 0x41
  rw [hhigh] at hlt
  exact absurd hlt (by decide)

end Sys2Proof.Machine
end

section
/-! PROOFS. The state as a whole (10_state.md): every command is a run of completed primitives and an answer, what each
completed primitive leaves, the phase transitions (R25), the reset values (R53), and the invariant with the derived
invariants of R49. -/

namespace Sys2Proof.Machine

/-! ### Every command is a run of completed primitives, answered once (30_encoding.md R91, 60_exceptions.md R246) -/

/-- The rule of a primitive command; COMPRESS and DECOMPRESS have none of their own. -/
def ruleOf : Instr → Option (State → Exec (State × Word32))
  | .nop => some primNop
  | .softReset => some primSoftReset
  | .clear => some primClear
  | .setPrec p => some (primSetPrec p)
  | .rdReg addr => some (primRdReg addr)
  | .inClear => some primInClear
  | .inWrite byte => some (primInWrite byte)
  | .outRead idx => some (primOutRead idx)
  | .fmCount => some primFmCount
  | .fmBuild => some primFmBuild
  | .encStart => some primEncStart
  | .encStep => some primEncStep
  | .encFinish => some primEncFinish
  | .decStart => some primDecStart
  | .decStep => some primDecStep
  | .compress | .decompress => none

/-- The primitive command i, in one of its phases, completes from s in t. -/
def Completes (i : Instr) (s t : State) : Prop :=
  phasesOf i.mnemonic s.phase = true ∧ ∃ rule d, ruleOf i = some rule ∧ rule s = .ok (t, d)

/-- Completed primitives, one after another, lead from a state to another. -/
abbrev Leads : State → State → Prop := Relation.ReflTransGen fun s t => ∃ i, Completes i s t

/-- `t` is the answer to a command in `u`: a response, or an error taken. -/
def Answers (u t : State) : Prop := (∃ st d, t = u.respond st d) ∨ ∃ e info, t = takeError e info u

/-- A primitive command is its rule, run as one; RD_REG may be refused before (60_exceptions.md R248). -/
theorem exec_of_ruleOf {i : Instr} {rule : State → Exec (State × Word32)} (hr : ruleOf i = some rule) (s : State) :
    exec i s = execPrimitive i.mnemonic rule s ∨ s.phase = .error ∧ exec i s = .next (refuse s) := by
  cases i with
  | rdReg addr =>
    cases hr
    show execRdReg addr s = _ ∨ _ ∧ execRdReg addr s = _
    rw [execRdReg]
    split
    · rename_i hc
      exact .inr ⟨hc.1, rfl⟩
    · exact .inl rfl
  | compress | decompress => cases hr
  | _ => cases hr; exact .inl rfl

variable {s t u : State} {i : Instr}

/-- What a primitive command can do when it answers a next state: it completes, it is refused in ERROR, or it takes an
error. -/
theorem exec_primitive_next {rule : State → Exec (State × Word32)} (hr : ruleOf i = some rule)
    (h : exec i s = .next t) :
    (∃ u d, Completes i s u ∧ t = u.respond .ok d) ∨ (s.phase = .error ∧ t = refuse s) ∨
      ∃ e info, t = takeError e info s := by
  obtain he | ⟨hp, he⟩ := exec_of_ruleOf hr s
  · rw [he] at h
    obtain ⟨hp, -, ht⟩ | ⟨hp, u, d, hb, ht⟩ | ⟨-, e, info, -, ht⟩ | ⟨-, -, ht⟩ := execPrimitive_next h
    · exact .inr (.inl ⟨hp, ht⟩)
    · exact .inl ⟨u, d, ⟨hp, rule, d, hr, hb⟩, ht⟩
    · exact .inr (.inr ⟨e, info, ht⟩)
    · exact .inr (.inr ⟨_, _, ht⟩)
  · rw [he] at h
    exact .inr (.inl ⟨hp, by simpa using h.symm⟩)

/-! #### Sequences -/

/-- A sequence that ends in `r`, completed or not, led by completed primitives to the state it ends with. -/
def Run.LeadsFrom (s : State) : Run → Prop
  | .ok u => Leads s u
  | .error (u, _) => Leads s u

theorem inPhases_ok {m : Mnemonic} {body : State → Exec (State × Word32)} {d : Word32}
    (h : inPhases m body s = .ok (t, d)) : phasesOf m s.phase = true ∧ body s = .ok (t, d) := by
  unfold inPhases at h
  split at h
  · exact ⟨‹_›, h⟩
  · cases h

theorem Completes.ofInPhases {rule : State → Exec (State × Word32)} {d : Word32} (hr : ruleOf i = some rule)
    (h : inPhases i.mnemonic rule s = .ok (t, d)) : Completes i s t := by
  obtain ⟨hp, hb⟩ := inPhases_ok h
  exact ⟨hp, rule, d, hr, hb⟩

theorem runPrimitive_completes {rule : State → Exec (State × Word32)} (hr : ruleOf i = some rule)
    (h : runPrimitive (inPhases i.mnemonic rule) s = .ok t) : Completes i s t := by
  obtain ⟨d, hd⟩ := runPrimitive_ok h
  exact .ofInPhases hr hd

theorem runPrimitive_leadsFrom {rule : State → Exec (State × Word32)} (hr : ruleOf i = some rule) (h : Leads s u) :
    (runPrimitive (inPhases i.mnemonic rule) u).LeadsFrom s := by
  cases hrun : runPrimitive (inPhases i.mnemonic rule) u with
  | ok v => exact h.tail ⟨i, runPrimitive_completes hr hrun⟩
  | error e =>
    obtain ⟨rfl, -⟩ := runPrimitive_error hrun
    exact h

theorem andThen_leadsFrom {r : Run} {next : State → Run} (hr : r.LeadsFrom s)
    (hn : ∀ u, Leads s u → (next u).LeadsFrom s) : (andThen r next).LeadsFrom s := by
  cases r with
  | ok u => exact hn u hr
  | error e => exact hr

theorem repeatPrimitive_leadsFrom {rule : State → Exec (State × Word32)} (hr : ruleOf i = some rule) (n : Nat)
    (h : Leads s u) : (repeatPrimitive (inPhases i.mnemonic rule) n u).LeadsFrom s := by
  induction n generalizing u with
  | zero => exact h
  | succ n ih =>
    rw [repeatPrimitive_succ]
    exact andThen_leadsFrom (runPrimitive_leadsFrom hr h) fun v hv => ih hv

theorem runCompress_leadsFrom (s : State) : (runCompress s).LeadsFrom s :=
  andThen_leadsFrom (runPrimitive_leadsFrom (i := .fmCount) rfl .refl) fun _ ha =>
  andThen_leadsFrom (runPrimitive_leadsFrom (i := .fmBuild) rfl ha) fun _ hb =>
  andThen_leadsFrom (runPrimitive_leadsFrom (i := .encStart) rfl hb) fun _ hc =>
  andThen_leadsFrom (repeatPrimitive_leadsFrom (i := .encStep) rfl _ hc) fun _ hd =>
  runPrimitive_leadsFrom (i := .encFinish) rfl hd

theorem runDecompress_leadsFrom (s : State) : (runDecompress s).LeadsFrom s :=
  andThen_leadsFrom (runPrimitive_leadsFrom (i := .decStart) rfl .refl) fun _ ha =>
  repeatPrimitive_leadsFrom (i := .decStep) rfl _ ha

theorem execSequence_leads {m : Mnemonic} {run : State → Run} (hrun : (run s).LeadsFrom s)
    (h : execSequence m run s = .next t) : ∃ u, Leads s u ∧ Answers u t := by
  obtain ⟨-, -, ht⟩ | ⟨-, u, hr, ht⟩ | ⟨-, u, e, info, hr, ht⟩ | ⟨-, ht⟩ := execSequence_next h
  · exact ⟨s, .refl, .inl ⟨_, _, ht⟩⟩
  · rw [hr] at hrun
    exact ⟨u, hrun, .inl ⟨_, _, ht⟩⟩
  · rw [hr] at hrun
    exact ⟨u, hrun, .inr ⟨e, info, ht⟩⟩
  · exact ⟨s, .refl, .inr ⟨_, _, ht⟩⟩

/-- Everything a command can do: completed primitives, none or more, and then its one answer. -/
theorem exec_leads (h : exec i s = .next t) : ∃ u, Leads s u ∧ Answers u t := by
  cases hr : ruleOf i with
  | some rule =>
    obtain ⟨u, d, hc, ht⟩ | ⟨-, ht⟩ | ⟨e, info, ht⟩ := exec_primitive_next hr h
    · exact ⟨u, .single ⟨i, hc⟩, .inl ⟨_, d, ht⟩⟩
    · exact ⟨s, .refl, .inl ⟨_, _, ht⟩⟩
    · exact ⟨s, .refl, .inr ⟨e, info, ht⟩⟩
  | none =>
    cases i with
    | compress => exact execSequence_leads (runCompress_leadsFrom s) h
    | decompress => exact execSequence_leads (runDecompress_leadsFrom s) h
    | _ => cases hr

/-- What every completed primitive keeps, and every answer, every command keeps. -/
theorem exec_keeps {p : State → Prop} (hc : ∀ {i s t}, p s → Completes i s t → p t)
    (ha : ∀ {s t}, p s → Answers s t → p t) (hs : p s) (h : exec i s = .next t) : p t := by
  obtain ⟨u, hl, ht⟩ := exec_leads h
  refine ha ?_ ht
  clear ht h
  induction hl with
  | refl => exact hs
  | tail _ hstep ih =>
    obtain ⟨j, hj⟩ := hstep
    exact hc ih hj

variable {d : Word32}

/-! ### What a completed primitive checked and left -/

/-- A rule that completed passed its check. -/
theorem ite_raise_eq_ok {α : Type} {c : Prop} [Decidable c] {e : ErrorKind} {info : Word32} {rest : Exec α} {x : α} :
    (if c then raise e info else rest) = .ok x ↔ ¬ c ∧ rest = .ok x := by
  by_cases h : c <;> simp [h, raise]

theorem ite_stop_eq_ok {α : Type} {c : Prop} [Decidable c] {f : Fault} {rest : Exec α} {x : α} :
    (if c then stop f else rest) = .ok x ↔ ¬ c ∧ rest = .ok x := by
  by_cases h : c <;> simp [h, stop]

theorem primSetPrec_ok {p : BitVec 5} (h : primSetPrec p s = .ok (t, d)) :
    2 ≤ p.toNat ∧ t = { s with prec := p } := by
  obtain ⟨hp, h⟩ := ite_raise_eq_ok.1 h
  cases h
  exact ⟨Nat.le_of_not_lt hp, rfl⟩

theorem primRdReg_ok {addr : BitVec 12} (h : primRdReg addr s = .ok (t, d)) : t = s := by
  unfold primRdReg at h
  split at h
  · cases h
  · cases h
    rfl

theorem primInWrite_ok {byte : Byte} (h : primInWrite byte s = .ok (t, d)) :
    s.inLen.toNat < s.ibufSize.toNat ∧
      t = { s with ibuf := s.ibuf.write s.inLen.toNat byte, inLen := s.inLen + 1 } := by
  simp only [primInWrite, ite_raise_eq_ok, ite_stop_eq_ok] at h
  obtain ⟨-, hroom, h⟩ := h
  cases h
  exact ⟨Nat.lt_of_not_le hroom, rfl⟩

theorem primOutRead_ok {idx : Word32} (h : primOutRead idx s = .ok (t, d)) : t = s := by
  simp only [primOutRead, ite_raise_eq_ok, ite_stop_eq_ok] at h
  obtain ⟨-, -, h⟩ := h
  cases h
  rfl

theorem primFmCount_ok (h : primFmCount s = .ok (t, d)) :
    s.inLen ≠ 0 ∧ t = { s with freq := countBytes (s.inputBytes s.inLen.toNat), phase := .counted } := by
  simp only [primFmCount, ite_raise_eq_ok, ite_stop_eq_ok] at h
  obtain ⟨hne, -, h⟩ := h
  cases h
  exact ⟨hne, rfl⟩

/-- The precision check passes: `TOTAL <= FMIN * QUARTER` (42_frequency_model.md R144). -/
theorem total_le_of_not_precisionFails {m : ModelRegs} {q : Nat} (h : ¬ precisionFails m q = true) :
    m.total ≤ m.fmin * q := by
  simpa [precisionFails] using h

theorem primFmBuild_ok (h : primFmBuild s = .ok (t, d)) :
    (buildModel s.freq).total ≤ (buildModel s.freq).fmin * s.quarter ∧
      t = { s.withModel (buildModel s.freq) with phase := .modelReady } := by
  simp only [primFmBuild, ite_raise_eq_ok, ite_stop_eq_ok] at h
  obtain ⟨-, hprec, h⟩ := h
  cases h
  exact ⟨total_le_of_not_precisionFails hprec, rfl⟩

/-- The state ENC_START leaves (45_encoder.md R201): the header in OBUF, and the coder set up. -/
def State.encStarted (s : State) : State :=
  { s with
    obuf := s.obuf.writeCells s.headerCells
    hdrLen := BitVec.ofNat 32 (headerLength s.symCount.toNat)
    lower := 0
    upper := BitVec.ofNat 32 s.whole
    pending := 0
    bitCount := 0
    encPos := 0
    phase := .encoding }

theorem primEncStart_ok (h : primEncStart s = .ok (t, d)) :
    headerLength s.symCount.toNat < s.obufSize.toNat ∧ (∀ c ∈ s.headerCells, c.1 < s.obufSize.toNat) ∧
      t = s.encStarted := by
  simp only [primEncStart, State.headerWrite, ite_raise_eq_ok] at h
  obtain ⟨hroom, h⟩ := h
  by_cases hcells : s.headerCells.all (fun c => c.1 < s.obufSize.toNat) = true
  · rw [if_pos hcells] at h
    cases h
    exact ⟨Nat.lt_of_not_le hroom, by simpa using hcells, rfl⟩
  · rw [if_neg hcells] at h
    cases h

/-- Emitting bits changes only OBUF and BIT_COUNT (43_bitstream_packer.md R161). -/
theorem emitAll_eq (s : State) (bits : List Bool) :
    s.emitAll bits = { s with obuf := (s.emitAll bits).obuf, bitCount := (s.emitAll bits).bitCount } := by
  induction bits generalizing s with
  | nil => rfl
  | cons b bs ih => exact ih (s.emit b)

theorem encCommit_eq (s : State) (v : EncInterval) (bits : List Bool) :
    s.encCommit v bits = { s with
      obuf := (s.emitAll bits).obuf
      bitCount := (s.emitAll bits).bitCount
      lower := BitVec.ofNat 32 v.lower
      upper := BitVec.ofNat 32 v.upper
      pending := BitVec.ofNat 32 v.pending
      encPos := s.encPos + 1 } := by
  rw [State.encCommit, emitAll_eq s bits]

theorem encFinishCommit_eq (s : State) :
    s.encFinishCommit = { s with
      obuf := (s.emitAll s.encFinalBits).obuf
      bitCount := (s.emitAll s.encFinalBits).bitCount
      outLen := s.encFinishCommit.outLen
      pending := 0
      outValid := true
      phase := .encDone } := by
  rw [State.encFinishCommit, emitAll_eq s s.encFinalBits]
  rfl

theorem primEncStep_ok (h : primEncStep s = .ok (t, d)) :
    s.encPos ≠ s.inLen ∧ s.encNarrow.1 < s.encNarrow.2 ∧ s.encNarrow.2 ≤ s.whole ∧
      s.bitCount.toNat + s.encRenorm.2.length + s.encRenorm.1.pending + 2 ≤ s.capBits ∧
      s.bitCount.toNat + s.encRenorm.2.length + s.encRenorm.1.pending < 2 ^ 32 ∧
      t = s.encCommit s.encRenorm.1 s.encRenorm.2 := by
  simp only [primEncStep, ite_raise_eq_ok, ite_stop_eq_ok] at h
  obtain ⟨hpos, -, -, -, hnonempty, hwhole, hroom, hwidth, h⟩ := h
  cases h
  exact ⟨hpos, Nat.lt_of_not_le hnonempty, Nat.le_of_not_lt hwhole, Nat.le_of_not_lt hroom,
    Nat.lt_of_not_le hwidth, rfl⟩

theorem primEncFinish_ok (h : primEncFinish s = .ok (t, d)) :
    s.inLen.toNat ≤ s.encPos.toNat ∧
      s.hdrLen.toNat + (s.bitCount.toNat + s.encFinalBits.length + 7) / 8 ≤ s.obufSize.toNat ∧
      s.bitCount.toNat + s.encFinalBits.length < 2 ^ 32 ∧ t = s.encFinishCommit := by
  simp only [primEncFinish, ite_raise_eq_ok, ite_stop_eq_ok] at h
  obtain ⟨hpos, hroom, hwidth, h⟩ := h
  cases h
  exact ⟨Nat.le_of_not_lt hpos, by simpa [State.sinkFits] using hroom, Nat.lt_of_not_le hwidth, rfl⟩

/-- The state DEC_START leaves (46_decoder.md R222): the header's fields and model, and the tag. -/
def State.decStarted (s : State) (hd : Header) : State := { (s.decLoad hd).initTag with phase := .decoding }

theorem primDecStart_ok (h : primDecStart s = .ok (t, d)) :
    ∃ hd : Header, s.headerParse = .ok hd ∧
      (buildModel hd.freq).total ≤ (buildModel hd.freq).fmin * s.quarter ∧ t = s.decStarted hd := by
  obtain ⟨-, h⟩ := ite_stop_eq_ok.1 h
  split at h
  · cases h
  rename_i hd hparse
  simp only [ite_raise_eq_ok, ite_stop_eq_ok] at h
  obtain ⟨hprec, -, h⟩ := h
  cases h
  exact ⟨hd, hparse, total_le_of_not_precisionFails hprec, rfl⟩

theorem primDecStep_ok (h : primDecStep s = .ok (t, d)) :
    ∃ sym, s.search = some sym ∧ s.decCount.toNat < s.obufSize.toNat ∧ (s.candidate sym).2 ≤ s.whole ∧
      (s.decCount + 1 = s.nDecl ∧ t = (s.decEmit sym).decEnd ∨
        s.decCount + 1 ≠ s.nDecl ∧ t = (s.decEmit sym).decRenorm) := by
  obtain ⟨-, h⟩ := ite_stop_eq_ok.1 h
  obtain ⟨-, h⟩ := ite_stop_eq_ok.1 h
  split at h
  · cases h
  rename_i sym hsym
  obtain ⟨hroom, h⟩ := ite_stop_eq_ok.1 h
  obtain ⟨hwhole, h⟩ := ite_stop_eq_ok.1 h
  refine ⟨sym, hsym, Nat.lt_of_not_le hroom, Nat.le_of_not_lt hwhole, ?_⟩
  by_cases hlast : s.decCount + 1 = s.nDecl
  · rw [if_pos hlast] at h
    cases h
    exact .inl ⟨hlast, rfl⟩
  · simp only [if_neg hlast, ite_stop_eq_ok] at h
    obtain ⟨-, -, h⟩ := h
    cases h
    exact .inr ⟨hlast, rfl⟩

/-- No primitive changes the buffer sizes (10_state.md R31). -/
theorem Completes.sizes (h : Completes i s t) : t.ibufSize = s.ibufSize ∧ t.obufSize = s.obufSize := by
  obtain ⟨-, rule, d, hr, h⟩ := h
  cases i <;> cases hr
  case nop | softReset | clear | inClear => cases h; exact ⟨rfl, rfl⟩
  case setPrec p => obtain ⟨-, rfl⟩ := primSetPrec_ok h; exact ⟨rfl, rfl⟩
  case rdReg addr => obtain rfl := primRdReg_ok h; exact ⟨rfl, rfl⟩
  case inWrite b => obtain ⟨-, rfl⟩ := primInWrite_ok h; exact ⟨rfl, rfl⟩
  case outRead x => obtain rfl := primOutRead_ok h; exact ⟨rfl, rfl⟩
  case fmCount => obtain ⟨-, rfl⟩ := primFmCount_ok h; exact ⟨rfl, rfl⟩
  case fmBuild => obtain ⟨-, rfl⟩ := primFmBuild_ok h; exact ⟨rfl, rfl⟩
  case encStart => obtain ⟨-, -, rfl⟩ := primEncStart_ok h; exact ⟨rfl, rfl⟩
  case encStep => obtain ⟨-, -, -, -, -, rfl⟩ := primEncStep_ok h; simp
  case encFinish => obtain ⟨-, -, -, rfl⟩ := primEncFinish_ok h; simp
  case decStart => obtain ⟨hd, -, -, rfl⟩ := primDecStart_ok h; exact ⟨rfl, rfl⟩
  case decStep =>
    obtain ⟨sym, -, -, -, ⟨-, rfl⟩ | ⟨-, rfl⟩⟩ := primDecStep_ok h
    · exact ⟨rfl, rfl⟩
    · exact ⟨rfl, rfl⟩

/-- Nor does any command (10_state.md R31). -/
theorem exec_sizes (h : exec i s = .next t) : t.ibufSize = s.ibufSize ∧ t.obufSize = s.obufSize := by
  refine exec_keeps (p := fun u => u.ibufSize = s.ibufSize ∧ u.obufSize = s.obufSize) ?_ ?_ ⟨rfl, rfl⟩ h
  · rintro j u v ⟨h1, h2⟩ hc
    obtain ⟨h3, h4⟩ := hc.sizes
    exact ⟨h3.trans h1, h4.trans h2⟩
  · rintro u v hu (⟨st, d, rfl⟩ | ⟨e, info, rfl⟩)
    · exact hu
    · exact hu

/-- A number that fits a register is read back from it. -/
theorem toNat_ofNat_of_lt {w n : Nat} (h : n < 2 ^ w) : (BitVec.ofNat w n).toNat = n := by
  rw [BitVec.toNat_ofNat, Nat.mod_eq_of_lt h]

/-! ### What a phase adds to the invariant -/

theorem Inv.idle (h : Inv s) (hp : s.phase = .idle) : IdleInv s := by
  have hphase := h.phase
  rwa [PhaseInv, hp] at hphase

theorem Inv.counted (h : Inv s) (hp : s.phase = .counted) : CountedInv s := by
  have hphase := h.phase
  rwa [PhaseInv, hp] at hphase

theorem Inv.modelReady (h : Inv s) (hp : s.phase = .modelReady) : ModelReadyInv s := by
  have hphase := h.phase
  rwa [PhaseInv, hp] at hphase

theorem Inv.encoding (h : Inv s) (hp : s.phase = .encoding) : EncodingInv s := by
  have hphase := h.phase
  rwa [PhaseInv, hp] at hphase

theorem Inv.encDone (h : Inv s) (hp : s.phase = .encDone) : EncDoneInv s := by
  have hphase := h.phase
  rwa [PhaseInv, hp] at hphase

theorem Inv.decoding (h : Inv s) (hp : s.phase = .decoding) : DecodingInv s := by
  have hphase := h.phase
  rwa [PhaseInv, hp] at hphase

theorem Inv.decDone (h : Inv s) (hp : s.phase = .decDone) : DecDoneInv s := by
  have hphase := h.phase
  rwa [PhaseInv, hp] at hphase

theorem PhaseInv.ofIdle (hp : s.phase = .idle) (h : IdleInv s) : PhaseInv s := by rwa [PhaseInv, hp]

theorem PhaseInv.ofEncoding (hp : s.phase = .encoding) (h : EncodingInv s) : PhaseInv s := by rwa [PhaseInv, hp]

theorem PhaseInv.ofDecoding (hp : s.phase = .decoding) (h : DecodingInv s) : PhaseInv s := by rwa [PhaseInv, hp]

/-! ### Answers, and what the host does on the port, keep the invariant -/

/-- The invariant does not speak of the port, nor of the response (30_encoding.md R80). -/
theorem Inv.withPins (h : Inv s) (port : List PortInput) (rsp : Option Word64) :
    Inv { s with port := port, rsp := rsp } where
  sizes := h.sizes
  prec := h.prec
  ibuf := h.ibuf
  obuf := h.obuf
  input := h.input
  output := h.output
  err := h.err
  regs := ⟨h.regs.freq, h.regs.cumLow, h.regs.cumHigh, h.regs.total, h.regs.symCount, h.regs.fmin, h.regs.hdrLen,
    h.regs.lower, h.regs.upper, h.regs.pending, h.regs.tag, h.regs.bitCount, h.regs.rdIdx, h.regs.bitLen,
    h.regs.encPos, h.regs.decCount, h.regs.nDecl⟩
  phase := h.phase

theorem Inv.respond (h : Inv s) (st : RspStatus) (d : Word32) : Inv (s.respond st d) := h.withPins _ _

/-- Error entry keeps the registers, and ERROR asks nothing beside their legal values (60_exceptions.md R245). -/
theorem Inv.takeError (h : Inv s) (e : ErrorKind) (info : Word32) : Inv (takeError e info s) where
  sizes := h.sizes
  prec := h.prec
  ibuf := h.ibuf
  obuf := .unspecified _ _
  input := h.input
  output := ⟨by simp, fun _ => rfl, Nat.zero_le _, .zero _⟩
  err := ⟨fun _ => ⟨e, rfl⟩, fun hp => absurd rfl hp⟩
  regs := h.regs.takeError e info
  phase := trivial

theorem Inv.answers (h : Inv s) (ha : Answers s t) : Inv t := by
  obtain ⟨st, d, rfl⟩ | ⟨e, info, rfl⟩ := ha
  · exact h.respond st d
  · exact h.takeError e info

/-! ### Resets (10_state.md R53, 40_control.md R111, R112) -/

/-- Every register at its reset value, but PREC and IN_LEN, over legal buffers: SOFT_RESET, CLEAR and rst_n. -/
theorem Inv.resetKeeping (h : Inv s) {port : List PortInput} {rsp : Option Word64} {prec : BitVec 5} {inLen : Word32}
    {ibuf obuf : Memory} (hprec : 2 ≤ prec.toNat) (hlen : inLen.toNat ≤ s.ibufSize.toNat)
    (hwritten : WrittenBelow ibuf inLen.toNat) (hibuf : BufferLegal ibuf s.ibufSize)
    (hobuf : BufferLegal obuf s.obufSize) :
    Inv { State.powerOn s.ibufSize s.obufSize with
      port := port, rsp := rsp, prec := prec, inLen := inLen, ibuf := ibuf, obuf := obuf } :=
  .ofPhaseInv nofun
    (sizes := h.sizes)
    (prec := hprec)
    (ibuf := hibuf)
    (obuf := hobuf)
    (input := ⟨hlen, hwritten⟩)
    (output := ⟨by simp [State.powerOn], fun _ => rfl, Nat.zero_le _, .zero _⟩)
    (err := ⟨nofun, fun _ => ⟨rfl, rfl⟩⟩)
    (phase := ⟨rfl, ⟨rfl, rfl, rfl, rfl, rfl⟩, rfl, rfl, rfl, ⟨rfl, rfl, rfl⟩, rfl, rfl, rfl, rfl, rfl⟩)

theorem Inv.resetRegisters (h : Inv s) : Inv (resetRegisters s) :=
  h.resetKeeping (prec := 16) (inLen := 0) (by decide) (Nat.zero_le _) (.zero _) h.ibuf h.obuf

theorem Inv.clearRegisters (h : Inv s) : Inv (clearRegisters s) :=
  h.resetKeeping h.prec h.input.1 h.input.2 h.ibuf h.obuf

/-! ### Commands that work on the input (40_control.md R113, 41_data_io.md R130, R131) -/

/-- What no command but the two resets and the input commands changes: the sizes, PREC, the input and the error
fields. -/
structure SameInput (s t : State) : Prop where
  ibufSize : t.ibufSize = s.ibufSize
  obufSize : t.obufSize = s.obufSize
  prec     : t.prec = s.prec
  ibuf     : t.ibuf = s.ibuf
  inLen    : t.inLen = s.inLen
  errCode  : t.errCode = s.errCode
  errInfo  : t.errInfo = s.errInfo

/-- A command over the same input, outside ERROR, owes the invariant OBUF, the output and its phase. -/
theorem Inv.sameInput (h : Inv s) (hp : s.phase ≠ .error) (hi : SameInput s t) (ht : t.phase ≠ .error)
    (obuf : BufferLegal t.obuf t.obufSize) (output : OutputLegal t) (phase : PhaseInv t) : Inv t :=
  .ofPhaseInv ht
    (sizes := by rw [SizesLegal, hi.ibufSize, hi.obufSize]; exact h.sizes)
    (prec := by rw [PrecLegal, hi.prec]; exact h.prec)
    (ibuf := by rw [hi.ibuf, hi.ibufSize]; exact h.ibuf)
    (obuf := obuf)
    (input := by rw [InputLegal, hi.inLen, hi.ibufSize, hi.ibuf]; exact h.input)
    (output := output)
    (err := ⟨fun he => absurd he ht, fun _ => by rw [hi.errCode, hi.errInfo]; exact h.err.2 hp⟩)
    (phase := phase)

/-- Outside ENC_DONE and DEC_DONE there is no output (10_state.md R26, R33). -/
theorem OutputLegal.none (hv : t.outValid = false) (hl : t.outLen = 0) (he : t.phase ≠ .encDone)
    (hd : t.phase ≠ .decDone) : OutputLegal t :=
  ⟨by simp [hv, he, hd], fun _ => hl, by simp [hl], by rw [hl]; exact .zero _⟩

/-- Outside ENC_DONE and DEC_DONE there was no output. -/
theorem Inv.noOutput (h : Inv s) (he : s.phase ≠ .encDone) (hd : s.phase ≠ .decDone) :
    s.outValid = false ∧ s.outLen = 0 := by
  obtain ⟨hiff, hlen, -, -⟩ := h.output
  have hv : s.outValid = false := by simpa [he, hd] using hiff
  exact ⟨hv, hlen hv⟩

theorem Inv.setPrec (h : Inv s) (hp : s.phase = .idle) {p : BitVec 5} (hprec : 2 ≤ p.toNat) :
    Inv { s with prec := p } :=
  .ofPhaseInv (by simp [hp]) h.sizes hprec h.ibuf h.obuf h.input h.output h.err
    (phase := .ofIdle hp (h.idle hp))

theorem Inv.inClear (h : Inv s) (hp : s.phase = .idle) : Inv { s with inLen := 0 } :=
  .ofPhaseInv (by simp [hp]) h.sizes h.prec h.ibuf h.obuf ⟨Nat.zero_le _, .zero _⟩ h.output h.err
    (phase := .ofIdle hp (h.idle hp))

theorem Inv.inWrite (h : Inv s) (hp : s.phase = .idle) (hroom : s.inLen.toNat < s.ibufSize.toNat) (byte : Byte) :
    Inv { s with ibuf := s.ibuf.write s.inLen.toNat byte, inLen := s.inLen + 1 } := by
  obtain ⟨-, hsize, -, -⟩ := h.sizes
  have hlen : (s.inLen + 1).toNat = s.inLen.toNat + 1 := by bv_omega
  exact .ofPhaseInv (by simp [hp]) h.sizes h.prec (h.ibuf.write byte hroom) h.obuf
    ⟨by simp only [hlen]; omega, by simp only [hlen]; exact h.input.2.write_succ byte⟩ h.output h.err
    (phase := .ofIdle hp (h.idle hp))

/-! ### FM_COUNT and FM_BUILD (42_frequency_model.md R140, R146) -/

theorem Inv.fmCount (h : Inv s) (hp : s.phase = .idle) (hne : s.inLen ≠ 0) :
    Inv { s with freq := countBytes (s.inputBytes s.inLen.toNat), phase := .counted } := by
  obtain ⟨hv, hl⟩ := h.noOutput (by simp [hp]) (by simp [hp])
  obtain ⟨-, hmodel, hcoder⟩ := h.idle hp
  exact h.sameInput (by simp [hp]) ⟨rfl, rfl, rfl, rfl, rfl, rfl, rfl⟩ nofun h.obuf (.none hv hl nofun nofun)
    ⟨⟨hne, rfl⟩, hmodel, hcoder⟩

/-- The counts of the input add up to its length (R141). -/
theorem InputCounted.total_eq (h : InputCounted s) : (buildModel s.freq).total = s.inLen.toNat := by
  obtain ⟨-, hfreq⟩ := h
  rw [hfreq]
  exact (sumCounts_countBytes (by rw [inputBytes_length]; exact s.inLen.isLt)).trans (inputBytes_length s _)

/-- Committing BuildModel's results for FREQ, within their bounds and past the precision check, builds the model. -/
theorem ModelBuilt.ofModel (f : RegArray) (hf : t.freq = f) (h1 : 1 ≤ (buildModel f).total)
    (h2 : (buildModel f).total ≤ 2 ^ 28) (hprec : (buildModel f).total ≤ (buildModel f).fmin * t.quarter)
    (hlow : t.cumLow = (buildModel f).cumLow) (hhigh : t.cumHigh = (buildModel f).cumHigh)
    (htotal : t.total = BitVec.ofNat 32 (buildModel f).total)
    (hsym : t.symCount = BitVec.ofNat 9 (buildModel f).symCount)
    (hmin : t.fmin = BitVec.ofNat 32 (buildModel f).fmin) : ModelBuilt t := by
  have hsymLe := symCount_le f
  have hminLe := fmin_le_total f
  have htotal : t.total.toNat = (buildModel f).total := by
    rw [htotal, toNat_ofNat_of_lt (by omega)]
  have hsym : t.symCount.toNat = (buildModel f).symCount := by
    rw [hsym, toNat_ofNat_of_lt (by omega)]
  have hmin : t.fmin.toNat = (buildModel f).fmin := by rw [hmin, toNat_ofNat_of_lt (by omega)]
  subst hf
  exact ⟨hlow, hhigh, htotal, hsym, hmin, by omega, by omega, by rwa [htotal, hmin]⟩

theorem Inv.fmBuild (h : Inv s) (hp : s.phase = .counted)
    (hprec : (buildModel s.freq).total ≤ (buildModel s.freq).fmin * s.quarter) :
    Inv { s.withModel (buildModel s.freq) with phase := .modelReady } := by
  obtain ⟨hv, hl⟩ := h.noOutput (by simp [hp]) (by simp [hp])
  obtain ⟨hcounted, -, hcoder⟩ := h.counted hp
  have htotal := hcounted.total_eq
  have hpos := toNat_pos hcounted.1
  obtain ⟨hlen, -⟩ := h.input
  obtain ⟨-, hsize, -, -⟩ := h.sizes
  have hbuilt : ModelBuilt { s.withModel (buildModel s.freq) with phase := .modelReady } :=
    .ofModel s.freq rfl (by omega) (by omega) hprec rfl rfl rfl rfl rfl
  exact h.sameInput (by simp [hp]) ⟨rfl, rfl, rfl, rfl, rfl, rfl, rfl⟩ nofun h.obuf (.none hv hl nofun nofun)
    ⟨hcounted, hbuilt, hcoder⟩

/-! ### The header in OBUF (43_bitstream_packer.md R167) -/

theorem map_fst_bigEndianCells (addr n v : Nat) : (bigEndianCells addr n v).map Prod.fst = List.range' addr n := by
  simp [bigEndianCells, List.range'_eq_map_range, Function.comp_def]

theorem map_fst_pairCells (f : RegArray) (l : List Byte) (j : Nat) :
    (pairCells f j l).map Prod.fst = List.range' (2 + 5 * j) (5 * l.length) := by
  induction l generalizing j with
  | nil => rfl
  | cons c rest ih =>
    have hbyte : List.range' (2 + 5 * j) 1 ++ List.range' (3 + 5 * j) 4 = List.range' (2 + 5 * j) 5 := by
      rw [show 3 + 5 * j = 2 + 5 * j + 1 by omega, List.range'_append_1]
    rw [pairCells, List.map_append, List.map_append, map_fst_bigEndianCells, map_fst_bigEndianCells, ih, hbyte,
      show 2 + 5 * (j + 1) = 2 + 5 * j + 5 by omega, List.range'_append_1, List.length_cons]
    congr 1
    omega

/-- The header's cells are at the addresses 0 .. 6 + 5K - 1, each once (30_encoding.md R92). -/
theorem map_fst_headerCells (hk : (symbolsOf s.freq).length = s.symCount.toNat) :
    s.headerCells.map Prod.fst = List.range' 0 (headerLength s.symCount.toNat) := by
  rw [State.headerCells, List.map_append, List.map_append, map_fst_bigEndianCells, map_fst_bigEndianCells,
    map_fst_pairCells, hk, Nat.mul_zero, Nat.add_zero]
  have h1 := List.range'_append_1 (s := 0) (m := 2) (n := 5 * s.symCount.toNat)
  have h2 := List.range'_append_1 (s := 0) (m := 2 + 5 * s.symCount.toNat) (n := 4)
  rw [Nat.zero_add] at h1 h2
  rw [h1, h2, headerLength]
  congr 1
  omega

theorem headerCells_nodup (hk : (symbolsOf s.freq).length = s.symCount.toNat) : (s.headerCells.map Prod.fst).Nodup := by
  rw [map_fst_headerCells hk]
  exact List.nodup_range'

/-- Once written, the header lies in OBUF. -/
theorem written_headerCells (m : Memory) (hk : (symbolsOf s.freq).length = s.symCount.toNat) {c : Host.Cell}
    (hc : c ∈ s.headerCells) : (m.writeCells s.headerCells).written c.1 = some c.2 :=
  written_writeCells_mem m _ (headerCells_nodup hk) hc

theorem ModelBuilt.symbols_length (h : ModelBuilt s) : (symbolsOf s.freq).length = s.symCount.toNat := by
  obtain ⟨-, -, -, hsym, -⟩ := h
  rw [symbolsOf_length, hsym]

/-! ### ENC_START (45_encoder.md R201) -/

theorem whole_toNat (s : State) : (BitVec.ofNat 32 s.whole).toNat = s.whole := by
  have := whole_le s
  rw [toNat_ofNat_of_lt (by omega)]

/-- The initial interval (0, WHOLE) is wide (10_state.md R49 (a)). -/
theorem IntervalWide.initial (hl : t.lower = 0) (hu : t.upper = BitVec.ofNat 32 t.whole) : IntervalWide t := by
  have hzero : (0 : Word32).toNat = 0 := rfl
  rw [IntervalWide, hl, hu, whole_toNat, State.half, State.quarter, hzero]
  exact ⟨Nat.zero_le _, Nat.div_le_self _ _, le_refl _, Nat.div_le_self _ _, .inl (Nat.zero_le _)⟩

theorem Inv.encStart (h : Inv s) (hp : s.phase = .modelReady)
    (hroom : headerLength s.symCount.toNat < s.obufSize.toNat) (hcells : ∀ c ∈ s.headerCells, c.1 < s.obufSize.toNat) :
    Inv s.encStarted := by
  obtain ⟨hv, hl⟩ := h.noOutput (by simp [hp]) (by simp [hp])
  obtain ⟨hcounted, hbuilt, -, -, -, -, hdecoder⟩ := h.modelReady hp
  have hk := hbuilt.symbols_length
  have hsym := h.regs.symCount
  have hlen : s.encStarted.hdrLen.toNat = headerLength s.symCount.toNat :=
    toNat_ofNat_of_lt (by rw [headerLength]; omega)
  have hbits : s.encStarted.bitCount.toNat = 0 := rfl
  have hhdrRoom : s.encStarted.hdrLen.toNat < s.obufSize.toNat := hlen ▸ hroom
  have hcap : 0 + 0 + 2 ≤ s.encStarted.capBits := by
    show 2 ≤ 8 * (s.obufSize.toNat - s.encStarted.hdrLen.toNat)
    omega
  have hwritten : WrittenBelow s.encStarted.obuf
      (s.encStarted.hdrLen.toNat + (s.encStarted.bitCount.toNat + 7) / 8) := by
    rw [hlen, hbits]
    exact fun a ha => isSome_writeCells _ _ (.inr (headerCells_cover hk ha))
  have htrail : TrailingZero s.encStarted := fun j _ hj => absurd hj (by simp [hbits])
  exact h.sameInput (by simp [hp]) ⟨rfl, rfl, rfl, rfl, rfl, rfl, rfl⟩ nofun (h.obuf.writeCells hcells)
    (.none hv hl nofun nofun)
    ⟨hcounted, hbuilt, hlen, hhdrRoom, .initial rfl rfl, Nat.zero_le _, hcap, hwritten,
      fun c hc => written_headerCells s.obuf hk hc, htrail, hdecoder⟩

/-! ### Bits after the last one emitted are 0 (43_bitstream_packer.md R161) -/

theorem bitByte_shift_getLsbD (b : Bool) {k m : Nat} (hk : k < 8) (hm : m < 8) :
    (bitByte b <<< k).getLsbD m = (b && decide (m = k)) := by
  cases b
  · simp [bitByte]
  · interval_cases k <;> interval_cases m <;> rfl

theorem TrailingZero.emit (h : TrailingZero s) (hc : s.bitCount.toNat + 1 < 2 ^ 32) (b : Bool) :
    TrailingZero (s.emit b) := by
  intro j hj hj'
  rw [emit_bitCount_toNat hc] at hj hj'
  have hbyte : j / 8 = s.bitCount.toNat / 8 := by omega
  have haddr : (s.emit b).sinkAddress j = s.sinkAddress s.bitCount.toNat := by
    rw [State.sinkAddress, State.sinkAddress, emit_hdrLen, hbyte]
  have hbit : (bitByte b <<< (7 - s.bitCount.toNat % 8)).getLsbD (7 - j % 8) = false := by
    rw [bitByte_shift_getLsbD b (by omega) (by omega), decide_eq_false (by omega), Bool.and_false]
  show ((s.obuf.putBit (s.sinkAddress s.bitCount.toNat) s.bitCount.toNat b).read .obuf
    ((s.emit b).sinkAddress j)).getLsbD (7 - j % 8) = false
  rw [haddr, read_putBit_same, BitVec.getLsbD_or, hbit, Bool.or_false]
  split
  · simp
  · have := h j (by omega) (by omega)
    rwa [State.payloadBit, State.sinkAddress, hbyte] at this

theorem TrailingZero.emitAll {bits : List Bool} (h : TrailingZero s) (hc : s.bitCount.toNat + bits.length < 2 ^ 32) :
    TrailingZero (s.emitAll bits) := by
  induction bits generalizing s with
  | nil => exact h
  | cons b bs ih =>
    rw [List.length_cons] at hc
    exact ih (h.emit (by omega) b) (by rw [emit_bitCount_toNat (by omega)]; omega)

/-- Bits emitted behind the header leave it as it is. -/
theorem HeaderInObuf.emitAll {bits : List Bool} (h : HeaderInObuf s) (hm : ModelBuilt s) (hl : HeaderLength s)
    (hc : s.bitCount.toNat + bits.length < 2 ^ 32) {c : Host.Cell} (hmem : c ∈ s.headerCells) :
    (s.emitAll bits).obuf.written c.1 = some c.2 := by
  have hlt := headerCells_lt hm.symbols_length hmem
  rw [HeaderLength] at hl
  rw [emitAll_written_other hc (.inl (by omega))]
  exact h c hmem

/-! ### The interval after renormalization (44_interval_renormalizer.md R186) -/

/-- The bounds of an interval between two steps (10_state.md R49 (a)). -/
def WideBounds (p lo up : Nat) : Prop :=
  lo ≤ 2 ^ p / 2 ∧ 2 ^ p / 2 ≤ up ∧ up ≤ 2 ^ p ∧ 2 ^ p / 4 ≤ up - lo ∧ (lo ≤ 2 ^ p / 4 ∨ 3 * (2 ^ p / 4) ≤ up)

theorem intervalWide_iff : IntervalWide s ↔ WideBounds s.prec.toNat s.lower.toNat s.upper.toNat := Iff.rfl

theorem WideBounds.upper_lt {p lo up : Nat} (h : WideBounds p lo up) (hp : p < 32) : up < 2 ^ 32 := by
  obtain ⟨-, -, hup, -, -⟩ := h
  exact hup.trans_lt (Nat.pow_lt_pow_right (by decide) hp)

theorem WideBounds.lower_lt {p lo up : Nat} (h : WideBounds p lo up) (hp : p < 32) : lo < 2 ^ 32 := by
  have hup := h.upper_lt hp
  obtain ⟨hlo, hhalf, -⟩ := h
  exact (hlo.trans hhalf).trans_lt hup

/-- Registers that hold wide bounds hold a wide interval. -/
theorem IntervalWide.ofBounds {lo up : Nat} (h : WideBounds t.prec.toNat lo up) (hl : t.lower = BitVec.ofNat 32 lo)
    (hu : t.upper = BitVec.ofNat 32 up) : IntervalWide t := by
  have hlower := h.lower_lt t.prec.isLt
  have hupper := h.upper_lt t.prec.isLt
  rwa [intervalWide_iff, hl, hu, toNat_ofNat_of_lt hlower, toNat_ofNat_of_lt hupper]

theorem renormEnc_wide {p : Nat} (hp : 2 ≤ p) {v : EncInterval} (hv : v.lower < v.upper) (hw : v.upper ≤ 2 ^ p) :
    WideBounds p (renormEnc p v).1.lower (renormEnc p v).1.upper := by
  have hfuel : ∀ {w : EncInterval}, w.lower < w.upper → 2 ^ p ≤ 2 ^ p * (w.upper - w.lower) := fun h =>
    Nat.le_mul_of_pos_right _ (Nat.sub_pos_of_lt h)
  obtain ⟨-, -, -, hv1, hw1, -⟩ := renormEncPhase1_spec hp p v hv hw
  obtain ⟨hl1, hu1⟩ := renormEncPhase1_exit hp p v hv hw (hfuel hv)
  obtain ⟨-, -, -, hl2, hu2, -, hw2, -⟩ := renormEncPhase2_spec hp p _ hl1 hu1 hv1 hw1
  have hexit := renormEncPhase2_exit hp p _ hv1 hw1 (hfuel hv1)
  obtain ⟨q, -, hW, hH, hQ, -⟩ := pow_quarters hp
  refine ⟨hl2, hu2, hw2, ?_, hexit⟩
  rw [renormEnc]
  dsimp only
  omega

/-- RenormDec moves the bounds as RenormEnc does. -/
theorem renormDec_bounds (s : State) (p : Nat) (v : DecInterval) (n : Nat) :
    (s.renormDec p v).lower = (renormEnc p ⟨v.lower, v.upper, n⟩).1.lower ∧
    (s.renormDec p v).upper = (renormEnc p ⟨v.lower, v.upper, n⟩).1.upper := by
  obtain ⟨hl, hu⟩ := renormDecPhase1_bounds s p p v n
  have h2 := renormDecPhase2_bounds s p p (s.renormDecPhase1 p p v)
    (renormEncPhase1 p p ⟨v.lower, v.upper, n⟩).1.pending
  rwa [hl, hu] at h2

theorem renormDec_wide (s : State) {p : Nat} (hp : 2 ≤ p) {v : DecInterval} (hv : v.lower < v.upper)
    (hw : v.upper ≤ 2 ^ p) : WideBounds p (s.renormDec p v).lower (s.renormDec p v).upper := by
  obtain ⟨hl, hu⟩ := renormDec_bounds s p v 0
  rw [hl, hu]
  exact renormEnc_wide hp hv hw

theorem renormDec_tag (s : State) (p : Nat) {v : DecInterval} (h : v.TagInside) : (s.renormDec p v).TagInside :=
  renormDecPhase2_tag s p p (renormDecPhase1_tag s p p h)

theorem renormDec_rdIdx (s : State) (p : Nat) {v : DecInterval} (h : v.rdIdx ≤ s.bitLen.toNat + 1) :
    v.rdIdx ≤ (s.renormDec p v).rdIdx ∧ (s.renormDec p v).rdIdx ≤ s.bitLen.toNat + 1 := by
  obtain ⟨h1, h2⟩ := renormDecPhase1_rdIdx s p p h
  obtain ⟨h3, h4⟩ := renormDecPhase2_rdIdx s p p h2
  exact ⟨h1.trans h3, h4⟩

/-! ### ENC_STEP and ENC_FINISH (45_encoder.md R202, R203) -/

theorem Inv.encCommit (h : Inv s) (hp : s.phase = .encoding) (hpos : s.encPos ≠ s.inLen) {v : EncInterval}
    {bits : List Bool} (hv : WideBounds s.prec.toNat v.lower v.upper)
    (hroom : s.bitCount.toNat + bits.length + v.pending + 2 ≤ s.capBits)
    (hwidth : s.bitCount.toNat + bits.length + v.pending < 2 ^ 32) : Inv (s.encCommit v bits) := by
  obtain ⟨hov, hol⟩ := h.noOutput (by simp [hp]) (by simp [hp])
  obtain ⟨hcounted, hbuilt, hhdr, hhdrRoom, -, hposLe, -, hwritten, hheader, htrail, hdecoder⟩ := h.encoding hp
  have hbits : s.bitCount.toNat + bits.length < 2 ^ 32 := by omega
  have hcount := emitAll_bitCount hbits
  have hpending : (BitVec.ofNat 32 v.pending).toNat = v.pending := toNat_ofNat_of_lt (by omega)
  have hobuf : BufferLegal (s.emitAll bits).obuf s.obufSize := by
    rw [State.capBits] at hroom
    exact emitAll_legal h.obuf hbits (by omega)
  have hposLe' : (s.encPos + 1).toNat ≤ s.inLen.toNat := by bv_omega
  have hphase : EncodingInv (s.encCommit v bits) := by
    rw [encCommit_eq]
    refine ⟨hcounted, hbuilt, hhdr, hhdrRoom, .ofBounds hv rfl rfl, hposLe', ?_, ?_,
      fun c hc => hheader.emitAll hbuilt hhdr hbits hc, ?_, hdecoder⟩
    · simpa only [State.capBits, hcount, hpending] using hroom
    · simpa only [hcount] using emitAll_writtenBelow hwritten hbits
    · have htrail := htrail.emitAll hbits
      rw [emitAll_eq] at htrail
      exact htrail
  rw [encCommit_eq] at hphase ⊢
  exact h.sameInput (by simp [hp]) ⟨rfl, rfl, rfl, rfl, rfl, rfl, rfl⟩ (by simp [hp]) hobuf
    (.none hov hol (by simp [hp]) (by simp [hp])) (.ofEncoding hp hphase)

theorem Inv.encFinishCommit (h : Inv s) (hp : s.phase = .encoding) (hpos : s.inLen.toNat ≤ s.encPos.toNat)
    (hroom : s.hdrLen.toNat + (s.bitCount.toNat + s.encFinalBits.length + 7) / 8 ≤ s.obufSize.toNat)
    (hwidth : s.bitCount.toNat + s.encFinalBits.length < 2 ^ 32) : Inv s.encFinishCommit := by
  obtain ⟨hcounted, hbuilt, hhdr, hhdrRoom, hwide, hposLe, -, hwritten, hheader, htrail, hdecoder⟩ := h.encoding hp
  obtain ⟨-, -, -, hsize⟩ := h.sizes
  have hcount := emitAll_bitCount hwidth
  have hlen : s.encFinalBits.length = s.pending.toNat + 2 := finalBits_length _ _ _
  have hout : s.encFinishCommit.outLen.toNat =
      s.hdrLen.toNat + (s.bitCount.toNat + s.encFinalBits.length + 7) / 8 := by
    rw [encFinishCommit_outLen, hcount, toNat_ofNat_of_lt (by omega)]
  have hposEq : s.encPos = s.inLen := BitVec.eq_of_toNat_eq (by omega)
  have hphase : EncDoneInv s.encFinishCommit := by
    rw [encFinishCommit_eq]
    refine ⟨hcounted, hbuilt, hhdr, hhdrRoom, hwide, hposEq, rfl, ?_, ?_,
      fun c hc => hheader.emitAll hbuilt hhdr hwidth hc, ?_, hdecoder⟩
    · simp only [hcount]
      omega
    · simp only [hcount, hout]
    · have htrail := htrail.emitAll hwidth
      rw [emitAll_eq] at htrail
      exact htrail
  have houtput : OutputLegal s.encFinishCommit := by
    refine ⟨by simp, by simp, ?_, ?_⟩
    · rwa [hout, encFinishCommit_obufSize]
    · rw [hout, encFinishCommit_obuf]
      exact emitAll_writtenBelow hwritten hwidth
  have hobuf : BufferLegal s.encFinishCommit.obuf s.encFinishCommit.obufSize := by
    rw [encFinishCommit_obuf, encFinishCommit_obufSize]
    exact emitAll_legal h.obuf hwidth hroom
  rw [encFinishCommit_eq] at hphase houtput hobuf ⊢
  exact h.sameInput (by simp [hp]) ⟨rfl, rfl, rfl, rfl, rfl, rfl, rfl⟩ nofun hobuf houtput hphase

/-! ### DEC_START (43_bitstream_packer.md R168, 46_decoder.md R222) -/

/-- The symbols of the pairs the parser went through are those with a count. -/
theorem mem_symbolsOf_parsePairs {k : Nat} {g : RegArray}
    (h : s.parsePairs k 0 (Vector.replicate 256 0) = .ok g) (c : Byte) :
    c ∈ symbolsOf g ↔ c ∈ (List.range k).map s.fileSymbol := by
  obtain ⟨hpair, -, hother⟩ := parsePairs_ok h
  simp only [Nat.zero_add] at hpair hother
  rw [mem_symbolsOf, List.mem_map]
  constructor
  · intro hne
    by_contra hc
    refine hne ((hother c fun j hj e => hc ⟨j, List.mem_range.2 hj, e⟩).trans (symEntry_zero c))
  · rintro ⟨j, hj, rfl⟩ hzero
    obtain ⟨-, hfreq, hentry⟩ := hpair j (List.mem_range.1 hj)
    rw [hzero] at hentry
    exact hfreq hentry.symm

/-- K of the file is the number of symbols with a count: no pair repeats a symbol. -/
theorem parsePairs_symCount {k : Nat} {g : RegArray} (h : s.parsePairs k 0 (Vector.replicate 256 0) = .ok g) :
    (buildModel g).symCount = k := by
  obtain ⟨-, hdistinct, -⟩ := parsePairs_ok h
  simp only [Nat.zero_add] at hdistinct
  have hnodup : ((List.range k).map s.fileSymbol).Nodup := by
    refine List.nodup_range.map_on fun i hi j hj e => ?_
    rw [List.mem_range] at hi hj
    rcases Nat.lt_trichotomy i j with hij | hij | hij
    · exact absurd e (hdistinct i j hij hj)
    · exact hij
    · exact absurd e.symm (hdistinct j i hij hi)
  have hperm : (symbolsOf g).Perm ((List.range k).map s.fileSymbol) :=
    (List.perm_ext_iff_of_nodup (symbolsOf_nodup g) hnodup).2 (mem_symbolsOf_parsePairs h)
  rw [← symbolsOf_length, hperm.length_eq, List.length_map, List.length_range]

/-- The counts of a file with a pair are not all 0. -/
theorem parsePairs_total_pos {k : Nat} {g : RegArray} (h : s.parsePairs k 0 (Vector.replicate 256 0) = .ok g)
    (hk : 1 ≤ k) : 1 ≤ (buildModel g).total := by
  obtain ⟨hpair, -, -⟩ := parsePairs_ok h
  obtain ⟨-, hfreq, hentry⟩ := hpair 0 hk
  have hle := symEntry_toNat_le_total g (s.fileSymbol (0 + 0))
  omega

/-- Tag initialization from a loaded file leaves the tag in the initial interval and the read index within the payload
(46_decoder.md R221). -/
theorem initTag_bounds (s : State) (hb : s.bitLen.toNat + 1 < 2 ^ 32) :
    s.initTag.tag.toNat < s.whole ∧ 1 ≤ s.initTag.rdIdx.toNat ∧ s.initTag.rdIdx.toNat ≤ s.bitLen.toNat + 1 := by
  have htag := shiftBits_lt s s.prec.toNat 0 0 1 (by simp)
  obtain ⟨hrd1, hrd2⟩ := shiftBits_rdIdx s s.prec.toNat 0 1 (by omega)
  have hwhole := whole_le s
  rw [Nat.zero_add] at htag
  have htagNat : s.initTag.tag.toNat = (s.shiftBits s.prec.toNat 0 1).1 :=
    toNat_ofNat_of_lt (htag.trans_le (hwhole.trans (by decide)))
  have hrdNat : s.initTag.rdIdx.toNat = (s.shiftBits s.prec.toNat 0 1).2 := toNat_ofNat_of_lt (by omega)
  rw [htagNat, hrdNat]
  exact ⟨htag, hrd1, hrd2⟩

/-- The registers DEC_START loads hold the header's fields. -/
theorem decLoad_registers (h : Inv s) {hd : Header} (hparse : s.headerParse = .ok hd) :
    (s.decLoad hd).hdrLen.toNat = hd.hdrLen ∧ (s.decLoad hd).bitLen.toNat = hd.bitLen ∧
      (s.decLoad hd).nDecl.toNat = hd.n ∧ hd.bitLen + 1 < 2 ^ 32 := by
  obtain ⟨hin, -⟩ := h.input
  obtain ⟨-, hisize, -, hosize⟩ := h.sizes
  obtain ⟨-, -, -, hpayload, hroom, hn, hhdr, hbits⟩ := headerParse_ok hparse
  exact ⟨toNat_ofNat_of_lt (by omega), toNat_ofNat_of_lt (by omega),
    toNat_ofNat_of_lt (by omega), by omega⟩

theorem Inv.decStart (h : Inv s) (hp : s.phase = .idle) {hd : Header} (hparse : s.headerParse = .ok hd)
    (hprec : (buildModel hd.freq).total ≤ (buildModel hd.freq).fmin * s.quarter) :
    Inv (s.decStarted hd) := by
  obtain ⟨hv, hl⟩ := h.noOutput (by simp [hp]) (by simp [hp])
  obtain ⟨-, -, -, -, -, hencoder, -⟩ := h.idle hp
  obtain ⟨-, -, -, hosize⟩ := h.sizes
  obtain ⟨⟨-, hk, -, -⟩, hpairs, hsum, hpayload, hroom, hn, hhdr, hbits⟩ := headerParse_ok hparse
  obtain ⟨hhdrNat, hbitsNat, hnNat, hwidth⟩ := decLoad_registers h hparse
  have hpos := parsePairs_total_pos hpairs hk
  have htotal : (buildModel hd.freq).total = hd.n := hsum.trans hn.symm
  obtain ⟨htag, hrd1, hrd2⟩ := initTag_bounds (s.decLoad hd) (by omega)
  have hbuilt : ModelBuilt (s.decStarted hd) :=
    .ofModel hd.freq rfl hpos (by omega) hprec rfl rfl rfl rfl rfl
  have hheader : HeaderLength (s.decStarted hd) := by
    obtain ⟨-, -, -, hsym, -⟩ := hbuilt
    rw [HeaderLength, hsym]
    show (s.decLoad hd).hdrLen.toNat = headerLength (buildModel hd.freq).symCount
    rw [hhdrNat, parsePairs_symCount hpairs, hhdr]
  have hfile : FileLegal (s.decStarted hd) := by
    refine ⟨hheader, ?_, ?_, hrd1, hrd2, ?_, ?_⟩
    · show (s.decLoad hd).hdrLen.toNat < s.inLen.toNat
      omega
    · show (s.decLoad hd).bitLen.toNat = 8 * (s.inLen.toNat - (s.decLoad hd).hdrLen.toNat)
      omega
    · show BitVec.ofNat 32 hd.n = BitVec.ofNat 32 (buildModel hd.freq).total
      rw [htotal]
    · show (s.decLoad hd).nDecl.toNat ≤ s.obufSize.toNat
      omega
  have htagIn : TagIn (s.decStarted hd) := by
    refine ⟨Nat.zero_le _, ?_⟩
    show (s.decLoad hd).initTag.tag.toNat < (BitVec.ofNat 32 s.whole).toNat
    rw [whole_toNat]
    exact htag
  have hcount : (0 : Word32).toNat < (s.decLoad hd).nDecl.toNat := by
    rw [hnNat]
    exact htotal ▸ hpos
  exact h.sameInput (by simp [hp]) ⟨rfl, rfl, rfl, rfl, rfl, rfl, rfl⟩ nofun h.obuf (.none hv hl nofun nofun)
    ⟨hbuilt, hfile, .initial rfl rfl, htagIn, hcount, .zero _, hencoder⟩

/-! ### DEC_STEP (46_decoder.md R223, R225) -/

theorem decCount_succ (h : s.decCount.toNat < s.nDecl.toNat) : (s.decCount + 1).toNat = s.decCount.toNat + 1 := by
  bv_omega

/-- The registers of the narrowed interval hold it, and it has the tag inside. -/
theorem decEmit_interval {sym : Byte} (hsym : s.search = some sym) (hwhole : (s.candidate sym).2 ≤ s.whole) :
    IntervalIn (s.decEmit sym) ∧ TagIn (s.decEmit sym) := by
  obtain ⟨-, hlow, hhigh⟩ := search_some hsym
  have hwholeLe := whole_le s
  have hlower : (s.decEmit sym).lower.toNat = (s.candidate sym).1 := toNat_ofNat_of_lt (by omega)
  have hupper : (s.decEmit sym).upper.toNat = (s.candidate sym).2 := toNat_ofNat_of_lt (by omega)
  rw [IntervalIn, TagIn, hlower, hupper]
  exact ⟨⟨by omega, hwhole⟩, hlow, hhigh⟩

/-- The decoder's interval, tag and read index, as its registers hold them. -/
def State.decInterval (s : State) : DecInterval := ⟨s.lower.toNat, s.upper.toNat, s.tag.toNat, s.rdIdx.toNat⟩

/-- RenormDec on the registers leaves a wide interval with the tag inside, and a read index within the payload. -/
theorem decRenorm_registers (hprec : PrecLegal s) (hi : IntervalIn s) (ht : TagIn s)
    (hr : s.rdIdx.toNat ≤ s.bitLen.toNat + 1) (hb : s.bitLen.toNat + 1 < 2 ^ 32) :
    IntervalWide s.decRenorm ∧ TagIn s.decRenorm ∧ s.rdIdx.toNat ≤ s.decRenorm.rdIdx.toNat ∧
      s.decRenorm.rdIdx.toNat ≤ s.bitLen.toNat + 1 := by
  obtain ⟨hlt, hwhole⟩ := hi
  have hwide := renormDec_wide s (v := s.decInterval) hprec hlt hwhole
  obtain ⟨ht1, ht2⟩ := renormDec_tag s s.prec.toNat (v := s.decInterval) ht
  obtain ⟨hr1, hr2⟩ := renormDec_rdIdx s s.prec.toNat (v := s.decInterval) hr
  have hup := hwide.upper_lt s.prec.isLt
  have hlower : s.decRenorm.lower.toNat = (s.renormDec s.prec.toNat s.decInterval).lower :=
    toNat_ofNat_of_lt (ht1.trans_lt (ht2.trans hup))
  have hupper : s.decRenorm.upper.toNat = (s.renormDec s.prec.toNat s.decInterval).upper :=
    toNat_ofNat_of_lt hup
  have htag : s.decRenorm.tag.toNat = (s.renormDec s.prec.toNat s.decInterval).tag :=
    toNat_ofNat_of_lt (ht2.trans hup)
  have hrd : s.decRenorm.rdIdx.toNat = (s.renormDec s.prec.toNat s.decInterval).rdIdx :=
    toNat_ofNat_of_lt (hr2.trans_lt hb)
  rw [TagIn, hlower, hupper, htag, hrd]
  exact ⟨.ofBounds hwide rfl rfl, ⟨ht1, ht2⟩, hr1, hr2⟩

/-- The last symbol commits the result. -/
theorem Inv.decEnd (h : Inv s) (hp : s.phase = .decoding) {sym : Byte} (hsym : s.search = some sym)
    (hroom : s.decCount.toNat < s.obufSize.toNat) (hwhole : (s.candidate sym).2 ≤ s.whole)
    (hlast : s.decCount + 1 = s.nDecl) : Inv (s.decEmit sym).decEnd := by
  obtain ⟨hbuilt, hfile, -, -, hcount, hwritten, hencoder⟩ := h.decoding hp
  obtain ⟨hinterval, htag⟩ := decEmit_interval hsym hwhole
  have hn : s.nDecl.toNat = s.decCount.toNat + 1 := by rw [← hlast, decCount_succ hcount]
  have houtput : OutputLegal (s.decEmit sym).decEnd := by
    refine ⟨by simp, by simp, ?_, ?_⟩
    · show s.nDecl.toNat ≤ s.obufSize.toNat
      omega
    · show WrittenBelow (s.obuf.write s.decCount.toNat sym) s.nDecl.toNat
      rw [hn]
      exact hwritten.write_succ sym
  exact h.sameInput (by simp [hp]) ⟨rfl, rfl, rfl, rfl, rfl, rfl, rfl⟩ nofun (h.obuf.write sym hroom)
    houtput ⟨hbuilt, hfile, hinterval, htag, hlast, rfl, hencoder⟩

/-- Every other symbol is followed by a renormalization. -/
theorem Inv.decRenorm (h : Inv s) (hp : s.phase = .decoding) {sym : Byte} (hsym : s.search = some sym)
    (hroom : s.decCount.toNat < s.obufSize.toNat) (hwhole : (s.candidate sym).2 ≤ s.whole)
    (hmore : s.decCount + 1 ≠ s.nDecl) : Inv (s.decEmit sym).decRenorm := by
  obtain ⟨hv, hl⟩ := h.noOutput (by simp [hp]) (by simp [hp])
  obtain ⟨hbuilt, ⟨hhdr, hpayload, hbits, hrd1, hrd2, hdecl⟩, -, -, hcount, hwritten, hencoder⟩ := h.decoding hp
  obtain ⟨hin, -⟩ := h.input
  obtain ⟨-, hisize, -, -⟩ := h.sizes
  obtain ⟨hinterval, htag⟩ := decEmit_interval hsym hwhole
  obtain ⟨hwide, htag', hr1, hr2⟩ := decRenorm_registers (s := s.decEmit sym) h.prec hinterval htag hrd2
    (by rw [decEmit_bitLen]; omega)
  have hcount' : (s.decCount + 1).toNat < s.nDecl.toNat := by bv_omega
  have hwritten' : WrittenBelow (s.obuf.write s.decCount.toNat sym) (s.decCount + 1).toNat := by
    rw [decCount_succ hcount]
    exact hwritten.write_succ sym
  have hdecoding : DecodingInv (s.decEmit sym).decRenorm :=
    ⟨hbuilt, ⟨hhdr, hpayload, hbits, hrd1.trans hr1, hr2, hdecl⟩, hwide, htag', hcount', hwritten', hencoder⟩
  exact h.sameInput (by simp [hp]) ⟨rfl, rfl, rfl, rfl, rfl, rfl, rfl⟩ (by simp [hp]) (h.obuf.write sym hroom)
    (.none hv hl (by simp [hp]) (by simp [hp])) (.ofDecoding hp hdecoding)

/-! ### Every command keeps the invariant -/

theorem Inv.encStep (h : Inv s) (hp : s.phase = .encoding) (hstep : primEncStep s = .ok (t, d)) : Inv t := by
  obtain ⟨hpos, hnonempty, hwhole, hroom, hwidth, rfl⟩ := primEncStep_ok hstep
  exact h.encCommit hp hpos (renormEnc_wide h.prec hnonempty hwhole) hroom hwidth

theorem Inv.decStep (h : Inv s) (hp : s.phase = .decoding) (hstep : primDecStep s = .ok (t, d)) : Inv t := by
  obtain ⟨sym, hsym, hroom, hwhole, ⟨hlast, rfl⟩ | ⟨hmore, rfl⟩⟩ := primDecStep_ok hstep
  · exact h.decEnd hp hsym hroom hwhole hlast
  · exact h.decRenorm hp hsym hroom hwhole hmore

theorem Inv.completes (h : Inv s) (hc : Completes i s t) : Inv t := by
  obtain ⟨hp, rule, d, hr, hok⟩ := hc
  cases i <;> cases hr
  case nop => cases hok; exact h
  case softReset => cases hok; exact h.resetRegisters
  case clear => cases hok; exact h.clearRegisters
  case setPrec p => obtain ⟨hprec, rfl⟩ := primSetPrec_ok hok; exact h.setPrec (of_decide_eq_true hp) hprec
  case rdReg addr => obtain rfl := primRdReg_ok hok; exact h
  case inClear => cases hok; exact h.inClear (of_decide_eq_true hp)
  case inWrite b => obtain ⟨hroom, rfl⟩ := primInWrite_ok hok; exact h.inWrite (of_decide_eq_true hp) hroom b
  case outRead x => obtain rfl := primOutRead_ok hok; exact h
  case fmCount => obtain ⟨hne, rfl⟩ := primFmCount_ok hok; exact h.fmCount (of_decide_eq_true hp) hne
  case fmBuild => obtain ⟨hprec, rfl⟩ := primFmBuild_ok hok; exact h.fmBuild (of_decide_eq_true hp) hprec
  case encStart =>
    obtain ⟨hroom, hcells, rfl⟩ := primEncStart_ok hok
    exact h.encStart (of_decide_eq_true hp) hroom hcells
  case encStep => exact h.encStep (of_decide_eq_true hp) hok
  case encFinish =>
    obtain ⟨hpos, hroom, hwidth, rfl⟩ := primEncFinish_ok hok
    exact h.encFinishCommit (of_decide_eq_true hp) hpos hroom hwidth
  case decStart =>
    obtain ⟨hd, hparse, hprec, rfl⟩ := primDecStart_ok hok
    exact h.decStart (of_decide_eq_true hp) hparse hprec
  case decStep => exact h.decStep (of_decide_eq_true hp) hok

theorem Inv.exec (h : Inv s) (he : exec i s = .next t) : Inv t := exec_keeps Inv.completes Inv.answers h he

/-! ### Phase transitions (10_state.md R25) -/

/-- Where a completed primitive goes, and from where: the rows of R25. -/
def PhaseRow (i : Instr) (s t : State) : Prop :=
  match i with
  | .nop | .rdReg _ | .outRead _ => t.phase = s.phase
  | .softReset | .clear => t.phase = .idle
  | .setPrec _ | .inClear | .inWrite _ => s.phase = .idle ∧ t.phase = .idle
  | .fmCount => s.phase = .idle ∧ t.phase = .counted
  | .fmBuild => s.phase = .counted ∧ t.phase = .modelReady
  | .encStart => s.phase = .modelReady ∧ t.phase = .encoding
  | .encStep => s.phase = .encoding ∧ t.phase = .encoding
  | .encFinish => s.phase = .encoding ∧ t.phase = .encDone
  | .decStart => s.phase = .idle ∧ t.phase = .decoding ∧ t.decCount = 0
  | .decStep => s.phase = .decoding ∧ t.decCount = s.decCount + 1 ∧ t.nDecl = s.nDecl ∧
      (s.decCount + 1 ≠ s.nDecl ∧ t.phase = .decoding ∨ s.decCount + 1 = s.nDecl ∧ t.phase = .decDone)
  | .compress | .decompress => False

theorem Completes.phaseRow (hc : Completes i s t) : PhaseRow i s t := by
  obtain ⟨hp, rule, d, hr, hok⟩ := hc
  cases i <;> cases hr
  case nop | softReset | clear => cases hok; rfl
  case rdReg addr => exact congrArg State.phase (primRdReg_ok hok)
  case outRead x => exact congrArg State.phase (primOutRead_ok hok)
  case setPrec p =>
    obtain ⟨-, rfl⟩ := primSetPrec_ok hok
    exact ⟨of_decide_eq_true hp, of_decide_eq_true hp⟩
  case inClear => cases hok; exact ⟨of_decide_eq_true hp, of_decide_eq_true hp⟩
  case inWrite b =>
    obtain ⟨-, rfl⟩ := primInWrite_ok hok
    exact ⟨of_decide_eq_true hp, of_decide_eq_true hp⟩
  case fmCount => obtain ⟨-, rfl⟩ := primFmCount_ok hok; exact ⟨of_decide_eq_true hp, rfl⟩
  case fmBuild => obtain ⟨-, rfl⟩ := primFmBuild_ok hok; exact ⟨of_decide_eq_true hp, rfl⟩
  case encStart => obtain ⟨-, -, rfl⟩ := primEncStart_ok hok; exact ⟨of_decide_eq_true hp, rfl⟩
  case encStep =>
    obtain ⟨-, -, -, -, -, rfl⟩ := primEncStep_ok hok
    have hp : s.phase = .encoding := of_decide_eq_true hp
    exact ⟨hp, (encCommit_phase s _ _).trans hp⟩
  case encFinish =>
    obtain ⟨-, -, -, rfl⟩ := primEncFinish_ok hok
    exact ⟨of_decide_eq_true hp, encFinishCommit_phase s⟩
  case decStart => obtain ⟨hd, -, -, rfl⟩ := primDecStart_ok hok; exact ⟨of_decide_eq_true hp, rfl, rfl⟩
  case decStep =>
    have hp : s.phase = .decoding := of_decide_eq_true hp
    obtain ⟨sym, -, -, -, ⟨hlast, rfl⟩ | ⟨hmore, rfl⟩⟩ := primDecStep_ok hok
    · exact ⟨hp, rfl, rfl, .inr ⟨hlast, rfl⟩⟩
    · exact ⟨hp, rfl, rfl, .inl ⟨hmore, hp⟩⟩

theorem exec_nop (s : State) : exec .nop s = .next (s.respond .ok 0) := execPrimitive_pass rfl

theorem exec_softReset (s : State) : exec .softReset s = .next ((resetRegisters s).respond .ok 0) :=
  execPrimitive_pass rfl

theorem exec_clear (s : State) : exec .clear s = .next ((clearRegisters s).respond .ok 0) := execPrimitive_pass rfl

/-- In ERROR every command but CLEAR and SOFT_RESET stays there (60_exceptions.md R247). -/
theorem exec_in_error (hs : s.phase = .error) (h : exec i s = .next t) (hc : i ≠ .clear) (hr : i ≠ .softReset) :
    t.phase = .error := by
  cases hrule : ruleOf i with
  | some rule =>
    obtain ⟨u, d, hcomp, rfl⟩ | ⟨-, rfl⟩ | ⟨e, info, rfl⟩ := exec_primitive_next hrule h
    · have hrow := hcomp.phaseRow
      have hphase := hcomp.1
      rw [hs] at hphase
      cases i with
      | nop | rdReg => exact Eq.trans hrow hs
      | softReset => exact absurd rfl hr
      | clear => exact absurd rfl hc
      | _ => cases hphase
    · exact hs
    · rfl
  | none =>
    cases i with
    | compress | decompress =>
      obtain ⟨-, -, rfl⟩ | ⟨hphase, -⟩ | ⟨hphase, -⟩ | ⟨-, rfl⟩ := execSequence_next h
      · exact hs
      · rw [hs] at hphase; cases hphase
      · rw [hs] at hphase; cases hphase
      · rfl
    | _ => cases hrule

/-- A primitive command that does not end in ERROR completed. -/
theorem exec_primitive_completes {rule : State → Exec (State × Word32)} (hr : ruleOf i = some rule)
    (h : exec i s = .next t) (ht : t.phase ≠ .error) : ∃ u d, Completes i s u ∧ t = u.respond .ok d := by
  obtain hcomp | ⟨hs, rfl⟩ | ⟨e, info, rfl⟩ := exec_primitive_next hr h
  · exact hcomp
  · exact absurd hs ht
  · exact absurd rfl ht

/-- COMPRESS or DECOMPRESS that does not end in ERROR completed its sequence. -/
theorem execSequence_completes {m : Mnemonic} {run : State → Run} (h : execSequence m run s = .next t)
    (ht : t.phase ≠ .error) : phasesOf m s.phase = true ∧ ∃ u, run s = .ok u ∧ t = u.respond .ok u.outLen := by
  obtain ⟨hs, -, rfl⟩ | ⟨hp, u, hr, hu⟩ | ⟨-, u, e, info, -, rfl⟩ | ⟨-, rfl⟩ := execSequence_next h
  · exact absurd hs ht
  · exact ⟨hp, u, hr, hu⟩
  · exact absurd rfl ht
  · exact absurd rfl ht

theorem runCompress_phase (h : runCompress s = .ok u) : u.phase = .encDone := by
  obtain ⟨a, -, h⟩ := andThen_ok h
  obtain ⟨b, -, h⟩ := andThen_ok h
  obtain ⟨c, -, h⟩ := andThen_ok h
  obtain ⟨e, -, h⟩ := andThen_ok h
  obtain ⟨-, hu⟩ := (runPrimitive_completes (i := .encFinish) rfl h).phaseRow
  exact hu

/-- As many DEC_STEPs as there are symbols left end in DEC_DONE (46_decoder.md R226). -/
theorem repeatDecStep_phase {n : Nat} (hs : Inv s) (hp : s.phase = .decoding)
    (hn : s.decCount.toNat + n = s.nDecl.toNat)
    (h : repeatPrimitive (inPhases .decStep primDecStep) n s = .ok u) : u.phase = .decDone := by
  induction n generalizing s with
  | zero =>
    obtain ⟨-, -, -, -, hcount, -, -⟩ := hs.decoding hp
    omega
  | succ n ih =>
    rw [repeatPrimitive_succ] at h
    obtain ⟨v, hv, h⟩ := andThen_ok h
    have hcomp := runPrimitive_completes (i := .decStep) rfl hv
    obtain ⟨-, hcount, hdecl, hend⟩ := hcomp.phaseRow
    have hsucc := decCount_succ (s := s) (by omega)
    have hn' : v.decCount.toNat + n = v.nDecl.toNat := by rw [hcount, hdecl, hsucc]; omega
    obtain ⟨-, hvp⟩ | ⟨hlast, hvp⟩ := hend
    · exact ih (hs.completes hcomp) hvp hn' h
    · have hzero : n = 0 := by rw [hcount, hdecl, hlast] at hn'; omega
      subst hzero
      cases h
      exact hvp

theorem runDecompress_phase (hs : Inv s) (h : runDecompress s = .ok u) : u.phase = .decDone := by
  obtain ⟨a, ha, h⟩ := andThen_ok h
  have hcomp := runPrimitive_completes (i := .decStart) rfl ha
  obtain ⟨-, hap, hcount⟩ := hcomp.phaseRow
  exact repeatDecStep_phase (hs.completes hcomp) hap (by simp [hcount]) h

/-- Settles O60: a command that takes no error goes where the row of each primitive it completes says. -/
theorem phaseTransitions : Obligations.PhaseTransitions := by
  intro i s t hs h
  refine ⟨fun hp => exec_in_error hp h, ?_⟩
  have row : ∀ {rule}, ruleOf i = some rule → t.phase ≠ .error → ∃ u, PhaseRow i s u ∧ t.phase = u.phase := by
    intro rule hr ht
    obtain ⟨u, d, hcomp, rfl⟩ := exec_primitive_completes hr h ht
    exact ⟨u, hcomp.phaseRow, rfl⟩
  cases i with
  | nop => cases (exec_nop s).symm.trans h; rfl
  | softReset => cases (exec_softReset s).symm.trans h; rfl
  | clear => cases (exec_clear s).symm.trans h; rfl
  | compress =>
    intro ht
    obtain ⟨hp, u, hrun, rfl⟩ := execSequence_completes h ht
    have hu := runCompress_phase hrun
    exact ⟨of_decide_eq_true hp, hu⟩
  | decompress =>
    intro ht
    obtain ⟨hp, u, hrun, rfl⟩ := execSequence_completes h ht
    have hu := runDecompress_phase hs hrun
    exact ⟨of_decide_eq_true hp, hu⟩
  | decStart =>
    intro ht
    obtain ⟨u, ⟨hp, hu, -⟩, htu⟩ := row rfl ht
    exact ⟨hp, htu.trans hu⟩
  | decStep =>
    intro ht
    obtain ⟨u, ⟨hp, -, -, hend⟩, htu⟩ := row rfl ht
    obtain ⟨-, -, -, -, hcount, -, -⟩ := hs.decoding hp
    have hsucc := decCount_succ hcount
    obtain ⟨hmore, hu⟩ | ⟨hlast, hu⟩ := hend
    · have hne : s.decCount.toNat + 1 ≠ s.nDecl.toNat := fun e => hmore (BitVec.eq_of_toNat_eq (hsucc.trans e))
      exact ⟨hp, .inl ⟨by omega, htu.trans hu⟩⟩
    · exact ⟨hp, .inr ⟨by rw [← hsucc, hlast], htu.trans hu⟩⟩
  | rdReg | outRead =>
    intro ht
    obtain ⟨u, hu, htu⟩ := row rfl ht
    exact htu.trans hu
  | _ =>
    intro ht
    obtain ⟨u, ⟨hp, hu⟩, htu⟩ := row rfl ht
    exact ⟨hp, htu.trans hu⟩

/-! ### rst_n while a command is in progress (70_reset_and_hazards.md R270; log 3) -/

/-- Emitting commands keep HDR_LEN, so the bytes of their bits lie where the header length after them says. -/
theorem emitted_lt (hbits : t.hdrLen.toNat + (t.bitCount.toNat + 7) / 8 ≤ s.obufSize.toNat)
    (hhdr : t.hdrLen = s.hdrLen) {a : Nat}
    (ha : ∃ j, s.bitCount.toNat ≤ j ∧ j < t.bitCount.toNat ∧ a = s.sinkAddress j) : a < s.obufSize.toNat := by
  obtain ⟨j, -, hj, rfl⟩ := ha
  rw [State.sinkAddress, ← hhdr]
  omega

/-- Every byte a command writes lies in OBUF (20_memory.md R69). -/
theorem mayWriteObuf_lt (hs : Inv s) (h : exec i s = .next t) (ht : t.phase ≠ .error) {a : Nat}
    (ha : MayWriteObuf i s t a) : a < s.obufSize.toNat := by
  have hinv := hs.exec h
  obtain ⟨-, hsize⟩ := exec_sizes h
  obtain ⟨-, hrow⟩ := phaseTransitions i s t hs h
  obtain ⟨-, -, hout, -⟩ := hinv.output
  cases i with
  | encStart =>
    obtain ⟨-, -, -, hroom, -⟩ := hinv.encoding (hrow ht).2
    exact ha.trans (hsize ▸ hroom)
  | encStep =>
    obtain ⟨-, -, -, hroom, -, -, hcap, -⟩ := hinv.encoding (hrow ht).2
    obtain ⟨u, d, ⟨-, rule, d', hr, hok⟩, rfl⟩ := exec_primitive_completes rfl h ht
    cases hr
    obtain ⟨-, -, -, -, -, rfl⟩ := primEncStep_ok hok
    rw [State.capBits] at hcap
    rw [hsize] at hcap hroom
    exact emitted_lt (by omega) (by simp) ha
  | encFinish =>
    obtain ⟨-, -, -, -, -, -, -, -, hlen, -⟩ := hinv.encDone (hrow ht).2
    obtain ⟨u, d, ⟨-, rule, d', hr, hok⟩, rfl⟩ := exec_primitive_completes rfl h ht
    cases hr
    obtain ⟨-, -, -, rfl⟩ := primEncFinish_ok hok
    rw [hsize, hlen] at hout
    exact emitted_lt hout (by simp) ha
  | decStep =>
    obtain ⟨-, ⟨-, -, -, -, -, -, hdecl⟩, -, -, hcount, -⟩ := hs.decoding (hrow ht).1
    obtain rfl : a = s.decCount.toNat := ha
    omega
  | compress | decompress => exact lt_of_lt_of_le ha (hsize ▸ hout)
  | _ => exact ha.elim

theorem abandonedIbuf_legal (h : Inv s) (w : Word64) : BufferLegal (abandonedIbuf w s) s.ibufSize := by
  rw [abandonedIbuf]
  split
  · refine h.ibuf.forget _ fun a ha => ?_
    obtain ⟨-, -, -, hlt⟩ := mem_ibufWrites ha
    exact hlt
  · exact h.ibuf

theorem abandonedObuf_legal (h : Inv s) (w : Word64) : BufferLegal (abandonedObuf w s) s.obufSize := by
  obtain he | he | ⟨i, t, -, hexec, ht, he⟩ := abandonedObuf_cases w s
  · rw [he]
    exact h.obuf
  · rw [he]
    exact .unspecified _ _
  · rw [he]
    exact h.obuf.forget _ fun a ha => mayWriteObuf_lt h hexec ht (mem_obufWrites.1 ha)

theorem Inv.abandon (h : Inv s) (w : Word64) : Inv (abandon w s) :=
  h.resetKeeping (prec := 16) (inLen := 0) (by decide) (Nat.zero_le _) (.zero _) (abandonedIbuf_legal h w)
    (abandonedObuf_legal h w)

/-! ### Every step keeps the invariant -/

theorem Inv.handleIllegal (h : Inv s) (w : Word64) : Inv (handleIllegal w s) := by
  rw [Machine.handleIllegal]
  split
  · exact h.respond _ _
  · exact h.takeError _ _

theorem Inv.handleInput (h : Inv s) {x : PortInput} (he : handleInput x s = .next t) : Inv t := by
  cases x with
  | command w =>
    replace he : handleCommand w s = .next t := he
    rw [handleCommand] at he
    split at he
    · cases he
      exact h.handleIllegal w
    · exact h.exec he
  | reset =>
    cases he
    exact h.resetRegisters.withPins _ _
  | resetDuring w =>
    cases he
    exact h.abandon w

/-- Settles O56, by what happens on the port: nothing, a command, or a reset. -/
theorem everyStepKeepsTheInvariant : Obligations.EveryStepKeepsTheInvariant := by
  intro s t hs h
  rw [step] at h
  split at h
  · cases h
    exact hs
  · exact (hs.withPins _ _).handleInput h

/-- The phases in which there is a model (10_state.md R49 (c)). -/
theorem Inv.modelBuilt (h : Inv s) (hp : s.phase = .modelReady ∨ s.phase = .encoding ∨ s.phase = .encDone ∨
    s.phase = .decoding ∨ s.phase = .decDone) : ModelBuilt s := by
  obtain hp | hp | hp | hp | hp := hp
  · obtain ⟨-, hbuilt, -⟩ := h.modelReady hp
    exact hbuilt
  · obtain ⟨-, hbuilt, -⟩ := h.encoding hp
    exact hbuilt
  · obtain ⟨-, hbuilt, -⟩ := h.encDone hp
    exact hbuilt
  · obtain ⟨hbuilt, -⟩ := h.decoding hp
    exact hbuilt
  · obtain ⟨hbuilt, -⟩ := h.decDone hp
    exact hbuilt

/-- Settles O58: R49 (a) to (d) are part of the invariant, which the step keeps. -/
theorem derivedInvariantsHoldAfterEveryStep : Obligations.DerivedInvariantsHoldAfterEveryStep := by
  intro s t hs h
  have ht := everyStepKeepsTheInvariant s t hs h
  obtain ⟨⟨hvalid, -⟩, -⟩ := ht.output
  refine ⟨fun hp => ?_, fun hp => ?_, fun hp => ?_, hvalid⟩
  · obtain ⟨-, -, -, -, hwide, -⟩ := ht.encoding hp
    exact hwide
  · obtain ⟨-, -, ⟨hlow, hhigh, hwhole, hwidth, hquarter⟩, ⟨htag1, htag2⟩, -⟩ := ht.decoding hp
    exact ⟨hlow, hhigh, hwhole, hwidth, hquarter, htag1, htag2⟩
  · obtain ⟨-, -, -, -, -, hpos, -, hprec⟩ := ht.modelBuilt hp
    exact ⟨hpos, hprec⟩

/-! ### The reset values (10_state.md R53) -/

theorem status_powerOn (n m : Word32) : (State.powerOn n m).status = 0 := by
  show (0 : BitVec 28) ++ BitVec.ofBool false ++ (0 : BitVec 3) = 0
  decide

/-- The registers of a power-on state: all 0 but PREC and the sizes. -/
theorem readRegister_powerOn (n m : Word32) {a : Nat} {v : Word32} (h : (State.powerOn n m).readRegister a = some v) :
    v = if a = 0x003 then 16 else if a = 0x004 then n else if a = 0x005 then m else 0 := by
  rw [State.readRegister] at h
  split at h
  · rw [State.scalarRegister.eq_def] at h
    split at h
    · cases h
      exact status_powerOn n m
    all_goals cases h <;> rfl
  · have hzero : ∀ i, i < 256 → some v = some (entry (Vector.replicate 256 0) i) → v = 0 := by
      intro i hi hv
      rwa [entry_replicate 0 hi, Option.some.injEq] at hv
    have ha : v = 0 := by
      split at h
      · exact hzero _ (by omega) h.symm
      split at h
      · exact hzero _ (by omega) h.symm
      split at h
      · exact hzero _ (by omega) h.symm
      · cases h
    rw [ha, if_neg (by omega), if_neg (by omega), if_neg (by omega)]

/-- Settles O10: SOFT_RESET leaves the registers of the power-on state, and that state's buffers list no byte. -/
theorem resetLeavesTheResetValues : Obligations.ResetLeavesTheResetValues := by
  intro s
  have hrsp : responseWord .ok 0 .idle 0 = 0 := by decide
  have hregs : ∀ a v, (State.powerOn s.ibufSize s.obufSize).readRegister a = some v →
      v = if a = 0x003 then 16 else if a = 0x004 then s.ibufSize else if a = 0x005 then s.obufSize else 0 :=
    fun _ _ => readRegister_powerOn s.ibufSize s.obufSize
  refine ⟨⟨_, exec_softReset s, congrArg some hrsp, rfl, rfl, rfl, hregs, rfl, rfl⟩, rfl, rfl, hregs, fun b a => ?_⟩
  cases b <;> rfl

end Sys2Proof.Machine
end

section
/-! PROOFS. The command word (30_encoding.md R82 to R84, R89, R97 to R99): its fields, the opcode map and the operand
forms; a word decodes to a command exactly when it is the command's encoding; which words are illegal; the opcode table;
the assembler. -/

namespace Sys2Proof.Machine

/-! ### The fields of a command word (30_encoding.md R82) -/

theorem opcField_append (o : BitVec 8) (r : BitVec 24) (v : Word32) : opcField (o ++ r ++ v) = o :=
  (BitVec.extractLsb'_append_eq_of_le (by decide)).trans BitVec.extractLsb'_append_eq_left

theorem rsvdField_append (o : BitVec 8) (r : BitVec 24) (v : Word32) : rsvdField (o ++ r ++ v) = r :=
  (BitVec.extractLsb'_append_eq_of_le (by decide)).trans BitVec.extractLsb'_append_eq_right

theorem operandField_append (o : BitVec 8) (r : BitVec 24) (v : Word32) : operandField (o ++ r ++ v) = v :=
  BitVec.extractLsb'_append_eq_right

/-- A word is its three fields, in order. -/
theorem append_fields (w : Word64) : opcField w ++ rsvdField w ++ operandField w = w := by
  have hhigh : opcField w ++ rsvdField w = w.extractLsb' 32 32 :=
    BitVec.extractLsb'_append_extractLsb'_eq_extractLsb' (by rfl)
  have hall : w.extractLsb' 32 32 ++ operandField w = w.extractLsb' 0 64 :=
    BitVec.extractLsb'_append_extractLsb'_eq_extractLsb' (by rfl)
  rw [hhigh, hall, BitVec.extractLsb'_eq_self]

/-- Words are equal when their three fields are. -/
theorem append_fields_inj {o o' : BitVec 8} {r r' : BitVec 24} {v v' : Word32} :
    (o ++ r ++ v : Word64) = o' ++ r' ++ v' ↔ o = o' ∧ r = r' ∧ v = v' := by
  refine ⟨fun h => ⟨?_, ?_, ?_⟩, by rintro ⟨rfl, rfl, rfl⟩; rfl⟩
  · simpa only [opcField_append] using congrArg opcField h
  · simpa only [rsvdField_append] using congrArg rsvdField h
  · simpa only [operandField_append] using congrArg operandField h

/-- A word is a command word of R97 exactly when its fields say so. -/
theorem commandWord_eq_iff {o : BitVec 8} {v : Word32} {w : Word64} :
    commandWord o v = w ↔ opcField w = o ∧ rsvdField w = 0 ∧ operandField w = v := by
  rw [eq_comm, ← append_fields w, commandWord, append_fields_inj, append_fields]

/-- The bits of OPERAND from bit k up are 0 exactly when the field's number is below 2^k. -/
theorem operandField_lt_iff (w : Word64) {k : Nat} (hk : k ≤ 32) :
    (operandField w).toNat < 2 ^ k ↔ w.extractLsb' k (32 - k) = 0 := by
  have hfield : (operandField w).toNat = w.toNat % 2 ^ 32 := by simp [operandField]
  have hbits : (w.extractLsb' k (32 - k)).toNat = w.toNat % 2 ^ 32 / 2 ^ k := by
    rw [BitVec.extractLsb'_toNat, Nat.shiftRight_eq_div_pow, ← Nat.mod_mul_right_div_self, ← pow_add,
      Nat.add_sub_cancel' hk]
  rw [← BitVec.toNat_inj, hbits, hfield, BitVec.ofNat_eq_ofNat, BitVec.toNat_ofNat, Nat.zero_mod, Nat.div_eq_zero_iff]
  simp

/-! ### The opcode map (30_encoding.md R89) -/

theorem mnemonicOf_opcode (m : Mnemonic) : mnemonicOf m.opcode = some m := by cases m <;> rfl

/-- An OPC value names a mnemonic exactly when it is that mnemonic's opcode. -/
theorem mnemonicOf_eq_some_iff {opc : BitVec 8} {m : Mnemonic} : mnemonicOf opc = some m ↔ opc = m.opcode := by
  refine ⟨fun h => BitVec.eq_of_toNat_eq ?_, by rintro rfl; exact mnemonicOf_opcode m⟩
  unfold mnemonicOf at h
  split at h <;> cases h <;> assumption

theorem mnemonicOf_eq_none_iff {opc : BitVec 8} : mnemonicOf opc = none ↔ ∀ m : Mnemonic, opc ≠ m.opcode := by
  simp only [Option.eq_none_iff_forall_ne_some, ne_eq, mnemonicOf_eq_some_iff]

theorem instrOf_mnemonic (m : Mnemonic) (v : Word32) : (instrOf m v).mnemonic = m := by cases m <;> rfl

/-! ### The operand forms (30_encoding.md R83) -/

theorem operandLegal_iff {f : OperandForm} {v : Word32} : operandLegal f v = true ↔ v.toNat < 2 ^ f.width :=
  decide_eq_true_iff

theorem formWidth_le (f : OperandForm) : f.width ≤ 32 := by cases f <;> decide

theorem toNat_setWidth_32_lt {n : Nat} (h : n ≤ 32) (x : BitVec n) : (x.setWidth 32).toNat < 2 ^ n := by
  rw [BitVec.toNat_setWidth_of_le h]
  exact x.isLt

/-- The OPERAND field of a command is legal for its form. -/
theorem operandBits_legal (i : Instr) : operandLegal i.mnemonic.form (operandBits i) = true := by
  rw [operandLegal_iff]
  cases i with
  | setPrec p => exact toNat_setWidth_32_lt (by decide) p
  | rdReg a => exact toNat_setWidth_32_lt (by decide) a
  | inWrite b => exact toNat_setWidth_32_lt (by decide) b
  | outRead x => exact x.isLt
  | _ => decide

theorem extractLsb'_setWidth_32 {n : Nat} (h : n ≤ 32) (x : BitVec n) : (x.setWidth 32).extractLsb' 0 n = x := by
  rw [← BitVec.setWidth_eq_extractLsb' h, BitVec.setWidth_setWidth_of_le _ h, BitVec.setWidth_eq]

/-- A command is its mnemonic with its OPERAND field. -/
theorem instrOf_operandBits (i : Instr) : instrOf i.mnemonic (operandBits i) = i := by
  cases i with
  | setPrec p => exact congrArg Instr.setPrec (extractLsb'_setWidth_32 (by decide) p)
  | rdReg a => exact congrArg Instr.rdReg (extractLsb'_setWidth_32 (by decide) a)
  | inWrite b => exact congrArg Instr.inWrite (extractLsb'_setWidth_32 (by decide) b)
  | _ => rfl

theorem setWidth_32_extractLsb' {n : Nat} {v : Word32} (h : v.toNat < 2 ^ n) : (v.extractLsb' 0 n).setWidth 32 = v := by
  apply BitVec.eq_of_toNat_eq
  rw [BitVec.toNat_setWidth, BitVec.extractLsb'_toNat, Nat.shiftRight_zero, Nat.mod_eq_of_lt h, Nat.mod_eq_of_lt v.isLt]

/-- A legal OPERAND field loses no bit in the command. -/
theorem operandBits_instrOf {m : Mnemonic} {v : Word32} (h : operandLegal m.form v = true) :
    operandBits (instrOf m v) = v := by
  rw [operandLegal_iff] at h
  have hnone : m.form = .none → 0 = v := fun hm => by
    rw [hm] at h
    exact (BitVec.eq_of_toNat_eq (Nat.lt_one_iff.1 h)).symm
  cases m with
  | setPrec | rdReg | inWrite => exact setWidth_32_extractLsb' h
  | outRead => rfl
  | _ => exact hnone rfl

/-! ### The decoder and the encoder -/

theorem decode_of_reserved {w : Word64} (h : ∀ m : Mnemonic, opcField w ≠ m.opcode) :
    decode w = .error .reservedOpcode := by
  rw [decode, mnemonicOf_eq_none_iff.2 h]

/-- What the decoder checks of a word with the opcode of m. -/
theorem decode_ok_iff_of_opcode {w : Word64} {m : Mnemonic} {i : Instr} (h : opcField w = m.opcode) :
    decode w = .ok i ↔ rsvdField w = 0 ∧ operandLegal m.form (operandField w) = true ∧ instrOf m (operandField w) = i := by
  rw [decode, mnemonicOf_eq_some_iff.2 h]
  by_cases hrsvd : rsvdField w = 0#24 <;> by_cases hlegal : operandLegal m.form (operandField w) = true <;>
    simp [hrsvd, hlegal]

/-- What the decoder checks of a word, and what it answers. -/
theorem decode_ok_iff {w : Word64} {i : Instr} : decode w = .ok i ↔ ∃ m : Mnemonic,
    opcField w = m.opcode ∧ rsvdField w = 0 ∧ operandLegal m.form (operandField w) = true ∧
      instrOf m (operandField w) = i := by
  refine ⟨fun h => ?_, fun ⟨m, hm, h⟩ => (decode_ok_iff_of_opcode hm).2 h⟩
  by_cases hm : ∃ m : Mnemonic, opcField w = m.opcode
  · obtain ⟨m, hm⟩ := hm
    exact ⟨m, hm, (decode_ok_iff_of_opcode hm).1 h⟩
  · rw [decode_of_reserved (not_exists.1 hm)] at h
    cases h

/-- A word decodes to a command exactly when it is the command's encoding (30_encoding.md R83, R99). -/
theorem decode_eq_ok_iff {w : Word64} {i : Instr} : decode w = .ok i ↔ encode i = w := by
  rw [decode_ok_iff, encode, commandWord_eq_iff]
  constructor
  · rintro ⟨m, hopc, hrsvd, hlegal, rfl⟩
    exact ⟨by rw [instrOf_mnemonic, hopc], hrsvd, (operandBits_instrOf hlegal).symm⟩
  · rintro ⟨hopc, hrsvd, hoperand⟩
    exact ⟨i.mnemonic, hopc, hrsvd, hoperand ▸ operandBits_legal i, hoperand ▸ instrOf_operandBits i⟩

theorem decode_encode (i : Instr) : decode (encode i) = .ok i := decode_eq_ok_iff.2 rfl

/-- Settles O2: a command's word is its encoding, and a 64-bit number is the word it numbers. -/
theorem decodingAnEncodedCommandGivesItBack : Obligations.DecodingAnEncodedCommandGivesItBack := by
  intro i _
  have hlt : (encode i).toNat < 2 ^ 64 := (encode i).isLt
  refine ⟨decode_encode i, ?_⟩
  rw [decodeTableWord, Nat.mod_eq_of_lt hlt, if_pos hlt, BitVec.ofNat_toNat, BitVec.setWidth_eq, decode_encode]

/-- Settles O3: the other direction of `decode_eq_ok_iff`. -/
theorem encodingADecodedWordGivesItBack : Obligations.EncodingADecodedWordGivesItBack :=
  fun _ _ => decode_eq_ok_iff.1

/-! ### Legal and illegal words (30_encoding.md R84) -/

/-- A word is decoded or it is illegal. -/
theorem exists_decode_error_iff {w : Word64} : (∃ e, decode w = .error e) ↔ ¬ ∃ i, decode w = .ok i := by
  cases decode w <;> simp

/-- The legal words with the opcode of m: RSVD is 0, and so is every bit of OPERAND that m's form leaves unused. -/
theorem exists_decode_ok_iff_of_opcode {w : Word64} {m : Mnemonic} (h : opcField w = m.opcode) :
    (∃ i, decode w = .ok i) ↔ rsvdField w = 0 ∧ w.extractLsb' m.form.width (32 - m.form.width) = 0 := by
  simp only [decode_ok_iff_of_opcode h, exists_and_left, exists_eq', and_true, operandLegal_iff,
    operandField_lt_iff w (formWidth_le m.form)]

theorem mem_allMnemonics (m : Mnemonic) : m ∈ allMnemonics := by cases m <;> decide

/-- The OPC column of the opcode map. -/
theorem mem_opcodes_iff {opc : BitVec 8} : opc ∈ ([0x00, 0x01, 0x02, 0x03, 0x04, 0x10, 0x11, 0x12, 0x20, 0x21, 0x30, 0x31,
    0x32, 0x40, 0x41, 0x50, 0x51] : List (BitVec 8)) ↔ ∃ m : Mnemonic, opc = m.opcode := by
  change opc ∈ allMnemonics.map Mnemonic.opcode ↔ _
  simp [mem_allMnemonics, eq_comm]

/-- Settles O4: the opcode decides which bits must be 0, and step 1 of R91 is what `handleCommand` does with no command. -/
theorem illegalWordsAreNotExecuted : Obligations.IllegalWordsAreNotExecuted := by
  intro w s
  refine ⟨?_, fun ⟨e, he⟩ => ?_⟩
  · rw [exists_decode_error_iff]
    by_cases hm : ∃ m : Mnemonic, opcField w = m.opcode
    · obtain ⟨m, hm⟩ := hm
      rw [exists_decode_ok_iff_of_opcode hm, show w.extractLsb' 56 8 = m.opcode from hm]
      cases m <;> simp [Mnemonic.opcode, Mnemonic.form, OperandForm.width, rsvdField, Decidable.imp_iff_not_or]
    · refine iff_of_true ?_ (.inl fun hopc => hm (mem_opcodes_iff.1 hopc))
      rw [decode_of_reserved (not_exists.1 hm)]
      exact nofun
  · rw [handleCommand, he]
    rfl

/-! ### The opcode table (opcode_table.json) -/

/-- The row of a mnemonic, from its opcode and its form. -/
def tableRow (m : Mnemonic) : OpcodeRow :=
  { mnemonic := m
    pattern := commandWord m.opcode 0
    mask := BitVec.allOnes 8 ++ BitVec.allOnes 24 ++ (BitVec.allOnes 32 <<< m.form.width : Word32) }

theorem opcodeTable_eq : opcodeTable = allMnemonics.map tableRow := by decide

theorem mem_opcodeTable {r : OpcodeRow} : r ∈ opcodeTable ↔ ∃ m, tableRow m = r := by
  simp [opcodeTable_eq, mem_allMnemonics]

theorem and_shiftLeft_allOnes_eq_zero_iff (v : Word32) (k : Nat) :
    v &&& (BitVec.allOnes 32 <<< k) = 0 ↔ v.toNat < 2 ^ k := by
  have hle : v.toNat / 2 ^ k * 2 ^ k < 2 ^ 32 := (Nat.div_mul_le_self _ _).trans_lt v.isLt
  rw [← BitVec.shiftLeft_ushiftRight, ← BitVec.toNat_inj, BitVec.toNat_shiftLeft, BitVec.toNat_ushiftRight,
    Nat.shiftLeft_eq, Nat.shiftRight_eq_div_pow, Nat.mod_eq_of_lt hle]
  simp

/-- A word matches the row of m exactly when it has m's opcode and every bit that must be 0 is. -/
theorem matches_tableRow_iff {m : Mnemonic} {w : Word64} : (tableRow m).matches w = true ↔
    opcField w = m.opcode ∧ rsvdField w = 0 ∧ operandLegal m.form (operandField w) = true := by
  rw [OpcodeRow.matches, decide_eq_true_iff, operandLegal_iff, ← and_shiftLeft_allOnes_eq_zero_iff]
  conv_lhs => rw [← append_fields w]
  rw [tableRow, BitVec.and_append, BitVec.and_append, BitVec.and_allOnes, BitVec.and_allOnes, commandWord,
    append_fields_inj]

/-- A word that matches the row of m decodes to a command of m. -/
theorem exists_decode_of_matches {m : Mnemonic} {w : Word64} (h : (tableRow m).matches w = true) :
    ∃ i, decode w = .ok i ∧ i.mnemonic = m := by
  obtain ⟨hopc, hrsvd, hlegal⟩ := matches_tableRow_iff.1 h
  exact ⟨_, (decode_ok_iff_of_opcode hopc).2 ⟨hrsvd, hlegal, rfl⟩, instrOf_mnemonic m _⟩

theorem legalWord_iff {w : Word64} : legalWord w = true ↔ ∃ m, (tableRow m).matches w = true := by
  simp [legalWord, opcodeTable_eq, mem_allMnemonics]

/-- Settles O5: a row is its mnemonic's opcode and form, so matching it is what the decoder checks. -/
theorem opcodeTableAgreesWithTheDecoder : Obligations.OpcodeTableAgreesWithTheDecoder := by
  intro w
  refine ⟨⟨fun h => ?_, fun ⟨i, hi⟩ => ?_⟩, fun r hr h => ?_⟩
  · obtain ⟨m, hm⟩ := legalWord_iff.1 h
    obtain ⟨i, hi, -⟩ := exists_decode_of_matches hm
    exact ⟨i, hi⟩
  · obtain ⟨m, hopc, hrsvd, hlegal, -⟩ := decode_ok_iff.1 hi
    exact legalWord_iff.2 ⟨m, matches_tableRow_iff.2 ⟨hopc, hrsvd, hlegal⟩⟩
  · obtain ⟨m, rfl⟩ := mem_opcodeTable.1 hr
    exact exists_decode_of_matches h

/-- Settles O1: each word is the encoding of its command. -/
theorem specWordsDecode : Obligations.SpecWordsDecode :=
  ⟨decode_encode .nop, decode_encode .softReset, decode_encode .clear, decode_encode (.setPrec 16),
    decode_encode (.rdReg 0x00C), decode_encode .inClear, decode_encode (.inWrite 0x41), decode_encode (.outRead 26),
    decode_encode .fmCount, decode_encode .fmBuild, decode_encode .encStart, decode_encode .encStep,
    decode_encode .encFinish, decode_encode .decStart, decode_encode .decStep, decode_encode .compress,
    decode_encode .decompress⟩

/-! ### The assembler (30_encoding.md R97, R98) -/

/-- Every command is well formed (30_encoding.md R83). -/
theorem wellFormed_instr (i : Instr) : i.wellFormed = true := by
  cases i with
  | setPrec p => exact Laws.OperandFits.setPrec p
  | rdReg a => exact Laws.OperandFits.rdReg a
  | inWrite b => exact Laws.OperandFits.inWrite b
  | outRead x => exact Laws.OperandFits.outRead x
  | _ => rfl

/-- The operand a program line writes is the OPERAND field. -/
theorem ofNat_toSource_operand (i : Instr) : BitVec.ofNat 32 (i.toSource.operand.getD 0) = operandBits i := by
  cases i with
  | outRead x => exact BitVec.ofNat_toNat 32 x |>.trans (BitVec.setWidth_eq x)
  | setPrec x | rdReg x | inWrite x => exact BitVec.ofNat_toNat 32 x
  | _ => rfl

theorem assembleCommand_toSource (i : Instr) : assembleCommand i.toSource = some i := by
  have hwf : i.toSource.wellFormed = true := wellFormed_instr i
  rw [assembleCommand, if_pos hwf, ofNat_toSource_operand]
  exact congrArg some (instrOf_operandBits i)

/-- A line that stands for these commands gives their words. -/
theorem assembleProgram_line {l : ProgramLine} {is : List Instr} (h : expandLine l = is.map Instr.toSource) :
    assembleProgram [l] = some (is.map encode) := by
  have hword : ((fun c => (assembleCommand c).map encode) ∘ Instr.toSource) = fun i => pure (encode i) := by
    funext i
    simp [assembleCommand_toSource]
  rw [assembleProgram, List.flatMap_singleton, h, List.mapM_map, hword, List.mapM_pure]
  rfl

theorem exists_of_mem_mapM {α β : Type} {f : α → Option β} {b : β} :
    ∀ {l : List α} {bs : List β}, l.mapM f = some bs → b ∈ bs → ∃ a ∈ l, f a = some b
  | [], bs, h, hb => by cases h; cases hb
  | a :: l, bs, h, hb => by
    simp only [List.mapM_cons, Option.bind_eq_bind, Option.bind_eq_some_iff, Option.pure_def, Option.some.injEq] at h
    obtain ⟨b', ha, bs', hl, rfl⟩ := h
    obtain rfl | hb := List.mem_cons.1 hb
    · exact ⟨a, List.mem_cons_self, ha⟩
    · obtain ⟨a', hmem, ha'⟩ := exists_of_mem_mapM hl hb
      exact ⟨a', List.mem_cons_of_mem _ hmem, ha'⟩

/-- Every word the assembler makes is the encoding of a command. -/
theorem mem_assembleProgram {lines : List ProgramLine} {ws : List Word64} {w : Word64}
    (h : assembleProgram lines = some ws) (hw : w ∈ ws) : ∃ i, encode i = w := by
  obtain ⟨c, -, hc⟩ := exists_of_mem_mapM h hw
  obtain ⟨i, -, hi⟩ := Option.map_eq_some_iff.1 hc
  exact ⟨i, hi⟩

/-- The operands of OUT_DUMP n fit the field of OUT_READ, n = 2^32 included. -/
theorem expandLine_outDump {n : Nat} (hn : n ≤ 2 ^ 32) :
    expandLine (.outDump n) = ((List.range n).map fun k => Instr.outRead (BitVec.ofNat 32 k)).map Instr.toSource := by
  rw [expandLine, List.map_map]
  refine List.map_congr_left fun k hk => ?_
  have hlt : k < 2 ^ 32 := (List.mem_range.1 hk).trans_le hn
  simp only [Function.comp_apply, Instr.toSource, Instr.mnemonic, BitVec.toNat_ofNat, Nat.mod_eq_of_lt hlt]

/-- Settles O7: each pseudo-instruction's expansion is a list of commands' program lines. -/
theorem assembledProgramsAreLegalWords : Obligations.AssembledProgramsAreLegalWords := by
  refine ⟨fun lines ws h w hw => ?_, fun i => assembleProgram_line (is := [i]) rfl, fun bytes => ?_, fun n => ?_,
    fun n => ?_, fun n hn => ?_⟩
  · obtain ⟨i, rfl⟩ := mem_assembleProgram h hw
    exact ⟨i, decode_encode i⟩
  · have hexp : expandLine (.inLoad (bytes.map BitVec.toNat)) =
        (.inClear :: bytes.map Instr.inWrite).map Instr.toSource := by
      simp [expandLine, Instr.toSource, Instr.mnemonic]
    rw [assembleProgram_line hexp, List.map_cons, List.map_map]
    rfl
  · rw [assembleProgram_line (is := List.replicate n .encStep) (by rw [List.map_replicate]; rfl), List.map_replicate]
  · rw [assembleProgram_line (is := List.replicate n .decStep) (by rw [List.map_replicate]; rfl), List.map_replicate]
  · rw [assembleProgram_line (expandLine_outDump hn), List.map_map]
    rfl

end Sys2Proof.Machine
end

section
/-! PROOFS. How a command word is answered (30_encoding.md R80, R85, R87, R91): a step runs the decoded command, a command
outside its phases raises ERR_PHASE, and every command word gets one response whose status says what happened. -/

namespace Sys2Proof.Machine

/-! ### A step (R80, R91) -/

theorem handleCommand_of_decode {w : Word64} {i : Instr} (h : decode w = .ok i) (s : State) :
    handleCommand w s = exec i s := by
  rw [handleCommand, h]

theorem step_command {s : State} {w : Word64} {rest : List PortInput} (h : s.port = .command w :: rest) :
    step s = handleCommand w { s with port := rest } := by
  rw [step, h]
  rfl

/-- Settles O8: `step` hands the head of the port to `handleCommand`, which runs what it decodes to. -/
theorem aStepRunsTheDecodedCommand : Obligations.AStepRunsTheDecodedCommand := by
  refine ⟨fun _ _ _ => step_command, fun s w rest i hport hdec => ?_, fun s hport => ?_, fun s w i hdec => ?_⟩
  · rw [step_command hport, handleCommand_of_decode hdec]
  · rw [step, hport]
  · have hword : BitVec.ofNat 64 (w.toNat % 2 ^ 64) = w := by
      rw [Nat.mod_eq_of_lt w.isLt, BitVec.ofNat_toNat, BitVec.setWidth_eq]
    have hport : (s.withFetchWord 64 w.toNat).port = .command w :: s.port := by
      rw [State.withFetchWord, hword]
    rw [step_command hport, handleCommand_of_decode hdec]
    rfl

/-! ### A command outside its phases (R91 step 3) -/

variable {s t u : State} {i : Instr}

theorem errorTaken_takeError (e : ErrorKind) (info : Word32) (s : State) : ErrorTaken e info s (takeError e info s) :=
  ⟨rfl, rfl, rfl, rfl, rfl, rfl, rfl, rfl⟩

theorem execSequence_wrongPhase {m : Mnemonic} {run : State → Run} (h : phasesOf m s.phase = false)
    (he : s.phase ≠ .error) : execSequence m run s = .next (takeError .phase (zext32 m.opcode) s) := by
  rw [execSequence, if_neg fun hc => he hc.1, if_neg (by simp [h])]

theorem exec_wrongPhase (h : phasesOf i.mnemonic s.phase = false) (he : s.phase ≠ .error) :
    exec i s = .next (takeError .phase (zext32 i.mnemonic.opcode) s) := by
  cases hr : ruleOf i with
  | some rule =>
    obtain hexec | ⟨hs, -⟩ := exec_of_ruleOf hr s
    · rw [hexec, execPrimitive_wrongPhase h he]
    · exact absurd hs he
  | none =>
    cases i with
    | compress | decompress => exact execSequence_wrongPhase h he
    | _ => cases hr

/-- Settles O53: the phases the statement lists are the complement of `phasesOf`. -/
theorem commandsOutsideTheirPhasesRaise : Obligations.CommandsOutsideTheirPhasesRaise := by
  intro i s he hphase
  have hfail : phasesOf i.mnemonic s.phase = false := by
    cases i with
    | nop | softReset | clear | rdReg => exact hphase.elim
    | outRead x =>
      obtain ⟨henc, hdec⟩ := hphase
      simp [phasesOf, Instr.mnemonic, henc, hdec]
    | _ => exact decide_eq_false hphase
  exact ⟨_, exec_wrongPhase hfail he, errorTaken_takeError _ _ s⟩

/-! ### The fields of the response word (R85) -/

section ResponseWord

variable (st : RspStatus) (c : BitVec 8) (ph : Phase) (d : Word32)

/-- The fields above DATA and the zero byte over it. -/
theorem extractLsb'_responseWord {k n : Nat} (h : 40 ≤ k) : (responseWord st c ph d).extractLsb' k n =
    (st.code ++ c ++ (0 : BitVec 5) ++ ph.code).extractLsb' (k - 40) n :=
  calc (responseWord st c ph d).extractLsb' k n
    _ = (st.code ++ c ++ (0 : BitVec 5) ++ ph.code ++ (0 : BitVec 8)).extractLsb' (k - 32) n :=
      BitVec.extractLsb'_append_eq_of_le (by omega)
    _ = (st.code ++ c ++ (0 : BitVec 5) ++ ph.code).extractLsb' (k - 32 - 8) n :=
      BitVec.extractLsb'_append_eq_of_le (by omega)
    _ = (st.code ++ c ++ (0 : BitVec 5) ++ ph.code).extractLsb' (k - 40) n := by rw [Nat.sub_sub]

theorem responseWord_phase : (responseWord st c ph d).extractLsb' 40 3 = ph.code :=
  (extractLsb'_responseWord st c ph d (by decide)).trans BitVec.extractLsb'_append_eq_right

theorem responseWord_above_phase : (responseWord st c ph d).extractLsb' 43 5 = 0 :=
  (extractLsb'_responseWord st c ph d (by decide)).trans <|
    (BitVec.extractLsb'_append_eq_of_le (by decide)).trans BitVec.extractLsb'_append_eq_right

theorem responseWord_errCode : (responseWord st c ph d).extractLsb' 48 8 = c :=
  (extractLsb'_responseWord st c ph d (by decide)).trans <|
    (BitVec.extractLsb'_append_eq_of_le (by decide)).trans <|
    (BitVec.extractLsb'_append_eq_of_le (by decide)).trans BitVec.extractLsb'_append_eq_right

theorem responseWord_status : (responseWord st c ph d).extractLsb' 56 8 = st.code :=
  (extractLsb'_responseWord st c ph d (by decide)).trans <|
    (BitVec.extractLsb'_append_eq_of_le (by decide)).trans <|
    (BitVec.extractLsb'_append_eq_of_le (by decide)).trans BitVec.extractLsb'_append_eq_left

theorem responseWord_above_data : (responseWord st c ph d).extractLsb' 32 8 = 0 :=
  (BitVec.extractLsb'_append_eq_of_le (by decide)).trans BitVec.extractLsb'_append_eq_right

theorem responseWord_data : (responseWord st c ph d).extractLsb' 0 32 = d :=
  BitVec.extractLsb'_append_eq_right

end ResponseWord

/-! ### The answers to a command word (R87, R91) -/

/-- A completed primitive does not lead to ERROR. -/
theorem Completes.phase_ne_error (hc : Completes i s t) (hs : s.phase ≠ .error) : t.phase ≠ .error := by
  have hrow := hc.phaseRow
  cases i with
  | nop | rdReg | outRead => exact fun ht => hs (hrow.symm.trans ht)
  | softReset | clear => exact fun ht => nomatch hrow.symm.trans ht
  | setPrec | inClear | inWrite | fmCount | fmBuild | encStart | encStep | encFinish =>
    obtain ⟨-, hphase⟩ := hrow
    exact fun ht => nomatch hphase.symm.trans ht
  | decStart =>
    obtain ⟨-, hphase, -⟩ := hrow
    exact fun ht => nomatch hphase.symm.trans ht
  | decStep =>
    obtain ⟨-, -, -, ⟨-, hphase⟩ | ⟨-, hphase⟩⟩ := hrow <;> exact fun ht => nomatch hphase.symm.trans ht
  | compress | decompress => exact hrow.elim

theorem Leads.phase_ne_error (h : Leads s u) (hs : s.phase ≠ .error) : u.phase ≠ .error := by
  induction h with
  | refl => exact hs
  | tail _ hstep ih =>
    obtain ⟨i, hi⟩ := hstep
    exact hi.phase_ne_error ih

/-- A command that does not run in ERROR is refused there (30_encoding.md R91 step 2). -/
theorem exec_refused (hs : s.phase = .error) (h : runsInError i.mnemonic = false) : exec i s = .next (refuse s) := by
  cases hr : ruleOf i with
  | some rule =>
    obtain hexec | ⟨-, hexec⟩ := exec_of_ruleOf hr s
    · rw [hexec, execPrimitive_refused h hs]
    · exact hexec
  | none =>
    cases i with
    | compress | decompress => exact if_pos ⟨hs, h⟩
    | _ => cases hr

/-- RD_REG in ERROR answers the register, or is refused where no register is (60_exceptions.md R248). -/
theorem exec_rdReg_in_error (hs : s.phase = .error) (addr : BitVec 12) :
    exec (.rdReg addr) s = .next (refuse s) ∨ ∃ v, exec (.rdReg addr) s = .next (s.respond .ok v) := by
  change execRdReg addr s = _ ∨ ∃ v, execRdReg addr s = _
  unfold execRdReg
  cases hv : s.readRegister (regAddress addr) with
  | none => exact .inl (if_pos ⟨hs, rfl⟩)
  | some v =>
    have hrule : primRdReg addr s = .ok (s, v) := by rw [primRdReg, hv]
    rw [if_neg (by simp), execPrimitive_pass rfl, finish_ok hrule]
    exact .inr ⟨v, rfl⟩

/-- In ERROR a command is refused or completes: errors never nest (60_exceptions.md R248). -/
theorem exec_in_error_answers (hs : s.phase = .error) (h : exec i s = .next t) :
    t = refuse s ∨ ∃ (u : State) (d : Word32), t = u.respond .ok d := by
  cases i with
  | nop => rw [exec_nop] at h; cases h; exact .inr ⟨_, _, rfl⟩
  | softReset => rw [exec_softReset] at h; cases h; exact .inr ⟨_, _, rfl⟩
  | clear => rw [exec_clear] at h; cases h; exact .inr ⟨_, _, rfl⟩
  | rdReg addr =>
    obtain hexec | ⟨v, hexec⟩ := exec_rdReg_in_error hs addr
    · rw [hexec] at h; cases h; exact .inl rfl
    · rw [hexec] at h; cases h; exact .inr ⟨_, _, rfl⟩
  | _ => rw [exec_refused hs rfl] at h; cases h; exact .inl rfl

/-- `t` is an answer a command gives outside ERROR: it completed outside ERROR, or it took an error. -/
def AnswersOutsideError (t : State) : Prop :=
  (∃ (u : State) (d : Word32), u.phase ≠ .error ∧ t = u.respond .ok d) ∨ ∃ u e info, t = takeError e info u

theorem execSequence_answersOutsideError {m : Mnemonic} {run : State → Run} (hs : s.phase ≠ .error)
    (hrun : (run s).LeadsFrom s) (h : execSequence m run s = .next t) : AnswersOutsideError t := by
  obtain ⟨he, -⟩ | ⟨-, u, hr, ht⟩ | ⟨-, u, e, info, -, ht⟩ | ⟨-, ht⟩ := execSequence_next h
  · exact absurd he hs
  · rw [hr] at hrun
    exact .inl ⟨u, _, Leads.phase_ne_error hrun hs, ht⟩
  · exact .inr ⟨u, e, info, ht⟩
  · exact .inr ⟨s, _, _, ht⟩

theorem exec_answersOutsideError (hs : s.phase ≠ .error) (h : exec i s = .next t) : AnswersOutsideError t := by
  cases hr : ruleOf i with
  | some rule =>
    obtain ⟨u, d, hc, ht⟩ | ⟨he, -⟩ | ⟨e, info, ht⟩ := exec_primitive_next hr h
    · exact .inl ⟨u, d, hc.phase_ne_error hs, ht⟩
    · exact absurd he hs
    · exact .inr ⟨s, e, info, ht⟩
  | none =>
    cases i with
    | compress => exact execSequence_answersOutsideError hs (runCompress_leadsFrom s) h
    | decompress => exact execSequence_answersOutsideError hs (runDecompress_leadsFrom s) h
    | _ => cases hr

/-- How a command word is answered: OK, and ERROR is not entered; an error taken outside ERROR; or a refusal in ERROR. -/
theorem handleCommand_answers {w : Word64} (h : handleCommand w s = .next t) :
    (∃ (u : State) (d : Word32), t = u.respond .ok d ∧ (u.phase = .error → s.phase = .error)) ∨
    (s.phase ≠ .error ∧ ∃ u e info, t = takeError e info u) ∨
    (s.phase = .error ∧ t = refuse s) := by
  cases hdec : decode w with
  | error e =>
    rw [handleCommand, hdec] at h
    cases h
    by_cases hs : s.phase = .error
    · exact .inr (.inr ⟨hs, if_pos hs⟩)
    · exact .inr (.inl ⟨hs, s, _, _, if_neg hs⟩)
  | ok i =>
    rw [handleCommand_of_decode hdec] at h
    by_cases hs : s.phase = .error
    · obtain ht | ⟨u, d, ht⟩ := exec_in_error_answers hs h
      · exact .inr (.inr ⟨hs, ht⟩)
      · exact .inl ⟨u, d, ht, fun _ => hs⟩
    · obtain ⟨u, d, hu, ht⟩ | ht := exec_answersOutsideError hs h
      · exact .inl ⟨u, d, ht, fun hue => absurd hue hu⟩
      · exact .inr (.inl ⟨hs, ht⟩)

theorem ErrorKind.code_ne_zero (e : ErrorKind) : e.code ≠ 0 := by cases e <;> decide

/-- Settles O6: the fields are those of `responseWord`, the status says which of the three answers was given. -/
theorem everyCommandIsAnsweredByAResponseWord : Obligations.EveryCommandIsAnsweredByAResponseWord := by
  intro w s t h
  obtain ⟨u, d, rfl, hu⟩ | ⟨hs, u, e, info, rfl⟩ | ⟨hs, rfl⟩ := handleCommand_answers h
  · exact ⟨_, rfl, responseWord_errCode .., responseWord_above_phase .., responseWord_phase ..,
      responseWord_above_data .., .inl ⟨responseWord_status .., hu⟩⟩
  · exact ⟨_, rfl, responseWord_errCode .., responseWord_above_phase .., responseWord_phase ..,
      responseWord_above_data .., .inr (.inl ⟨responseWord_status .., responseWord_data .., hs, rfl, e.code_ne_zero⟩)⟩
  · exact ⟨_, rfl, responseWord_errCode .., responseWord_above_phase .., responseWord_phase ..,
      responseWord_above_data .., .inr (.inr ⟨responseWord_status .., responseWord_data .., hs, rfl⟩)⟩

end Sys2Proof.Machine
end

section
/-! PROOFS. The control commands (40_control.md): NOP (R110), CLEAR (R112), SET_PREC (R113), and RD_REG (R114) over the
register map (10_state.md R21, R30). -/

namespace Sys2Proof.Machine

variable {s : State}

/-! ### The word and the outcome of a command -/

/-- The word of a command is its opcode's word with the operand in the low bits (30_encoding.md R83, R97). -/
theorem encode_eq_or (i : Instr) :
    encode i = commandWord i.mnemonic.opcode 0 ||| (operandBits i).setWidth 64 := by
  refine BitVec.eq_of_getLsbD_eq fun k hk => ?_
  simp only [encode, commandWord, BitVec.getLsbD_append, BitVec.getLsbD_or, BitVec.getLsbD_setWidth]
  by_cases hlow : k < 32
  · simp [hlow, hk]
  · have hoperand : (operandBits i).getLsbD k = false := BitVec.getLsbD_of_ge _ _ (Nat.not_lt.1 hlow)
    simp [hlow, hoperand]

/-- Outside ERROR, a primitive command in one of its phases ends as its rule does (30_encoding.md R91 step 4). -/
theorem exec_eq_finish {i : Instr} {rule : State → Exec (State × Word32)} (hr : ruleOf i = some rule)
    (hp : phasesOf i.mnemonic s.phase = true) (he : s.phase ≠ .error) : exec i s = finish s (rule s) := by
  obtain hexec | ⟨hs, -⟩ := exec_of_ruleOf hr s
  · rw [hexec, execPrimitive_pass hp]
  · exact absurd hs he

/-! ### The register map (10_state.md R21) -/

theorem scalarRegister_of_le (s : State) {a : Nat} (h : 0x016 ≤ a) : s.scalarRegister a = none := by
  rw [State.scalarRegister.eq_def]
  split
  case h_23 => rfl
  all_goals omega

theorem readRegister_freq (s : State) (c : Byte) : s.readRegister (0x100 + c.toNat) = some (symEntry s.freq c) := by
  have hc : c.toNat < 256 := c.isLt
  rw [State.readRegister, if_neg (by omega), if_pos (by omega), Nat.add_sub_cancel_left, symEntry]

theorem readRegister_cumLow (s : State) (c : Byte) : s.readRegister (0x200 + c.toNat) = some (symEntry s.cumLow c) := by
  have hc : c.toNat < 256 := c.isLt
  rw [State.readRegister, if_neg (by omega), if_neg (by omega), if_pos (by omega), Nat.add_sub_cancel_left, symEntry]

theorem readRegister_cumHigh (s : State) (c : Byte) :
    s.readRegister (0x300 + c.toNat) = some (symEntry s.cumHigh c) := by
  have hc : c.toNat < 256 := c.isLt
  rw [State.readRegister, if_neg (by omega), if_neg (by omega), if_neg (by omega), if_pos (by omega),
    Nat.add_sub_cancel_left, symEntry]

/-- The two gaps of the register map. -/
theorem readRegister_unmapped (s : State) {a : Nat} (h : (0x016 ≤ a ∧ a ≤ 0x0FF) ∨ 0x400 ≤ a) :
    s.readRegister a = none := by
  rw [State.readRegister]
  obtain ⟨hlow, hhigh⟩ | hhigh := h
  · rw [if_pos (by omega), scalarRegister_of_le s hlow]
  · rw [if_neg (by omega), if_neg (by omega), if_neg (by omega), if_neg (by omega)]

/-- The RD_REG address of entry c of an array that stands below 0xF00. -/
theorem regAddress_array {base : BitVec 12} (h : base.toNat ≤ 0xF00) (c : Byte) :
    regAddress (base + c.setWidth 12) = base.toNat + c.toNat := by
  have hc : c.toNat < 256 := c.isLt
  rw [regAddress, BitVec.toNat_add, BitVec.toNat_setWidth_of_le (by decide), Nat.mod_eq_of_lt (by omega)]

/-! ### NOP (R110) -/

/-- Settles O11: NOP responds 0 and leaves the state; the two words are R110's examples. -/
theorem nopAnswersAndChangesNothing : Obligations.NopAnswersAndChangesNothing := by
  refine ⟨by decide, fun s => ⟨exec_nop s, fun hs he => ?_, fun hs he => ?_⟩⟩
  · rw [hs, he]
    decide
  · rw [hs, he]
    decide

/-! ### CLEAR (R112) -/

/-- PREC and IN_LEN are read at 0x003 and 0x006 only. -/
theorem readRegister_withPrecInLen (s : State) (p : BitVec 5) (n : Word32) {a : Nat} (hp : a ≠ 0x003) (hn : a ≠ 0x006) :
    { s with prec := p, inLen := n }.readRegister a = s.readRegister a := by
  have hscalar : { s with prec := p, inLen := n }.scalarRegister a = s.scalarRegister a := by
    rw [State.scalarRegister.eq_def]
    split
    case h_4 => exact absurd rfl hp
    case h_7 => exact absurd rfl hn
    case h_23 => rw [State.scalarRegister] <;> assumption
    all_goals rfl
  rw [State.readRegister, State.readRegister, hscalar]

/-- CLEAR leaves every register but PREC, IN_LEN and the sizes as after power-on, 0. -/
theorem readRegister_clearRegisters {a : Nat} {v : Word32} (h : (clearRegisters s).readRegister a = some v)
    (ha : a ∉ [0x003, 0x004, 0x005, 0x006]) : v = 0 := by
  simp only [List.mem_cons, List.not_mem_nil, or_false, not_or] at ha
  obtain ⟨hprec, hibuf, hobuf, hlen⟩ := ha
  have hpow : (State.powerOn s.ibufSize s.obufSize).readRegister a = some v :=
    (readRegister_withPrecInLen (resetRegisters s) s.prec s.inLen hprec hlen).symm.trans h
  rw [readRegister_powerOn _ _ hpow, if_neg hprec, if_neg hibuf, if_neg hobuf]

/-- Settles O12: CLEAR is `clearRegisters`, whose four kept registers are those of the state before. -/
theorem clearKeepsTheInput : Obligations.ClearKeepsTheInput := by
  have hrsp : responseWord .ok 0 .idle 0 = 0 := by decide
  refine ⟨by decide, fun s => ⟨_, exec_clear s, congrArg some hrsp, rfl, rfl, rfl, rfl, rfl, fun a v h => ?_⟩⟩
  split
  · rename_i ha
    rw [← h]
    fin_cases ha <;> rfl
  · rename_i ha
    exact congrArg some (readRegister_clearRegisters h ha)

/-! ### SET_PREC (R113) -/

/-- SET_PREC in IDLE ends as its rule does: PREC takes a precision of at least 2, and 0 and 1 raise. -/
theorem exec_setPrec (hs : s.phase = .idle) (p : BitVec 5) : exec (.setPrec p) s = finish s (primSetPrec p s) :=
  exec_eq_finish rfl (by rw [hs]; rfl) (by rw [hs]; decide)

theorem exec_setPrec_of_le (hs : s.phase = .idle) {p : BitVec 5} (hp : 2 ≤ p.toNat) :
    exec (.setPrec p) s = .next ({ s with prec := p }.respond .ok 0) := by
  have hrule : primSetPrec p s = .ok ({ s with prec := p }, 0) := if_neg (Nat.not_lt.2 hp)
  rw [exec_setPrec hs, finish_ok hrule]

theorem exec_setPrec_of_lt (hs : s.phase = .idle) {p : BitVec 5} (hp : p.toNat < 2) :
    exec (.setPrec p) s = .next (takeError .precisionOverflow (zext32 p) s) := by
  have hrule : primSetPrec p s = raise .precisionOverflow (zext32 p) := if_pos hp
  rw [exec_setPrec hs, hrule, finish_raise]

theorem encode_setPrec (p : BitVec 5) : encode (.setPrec p) = 0x0300000000000000 ||| p.setWidth 64 := by
  have hword : commandWord Mnemonic.setPrec.opcode 0 = 0x0300000000000000 := by decide
  have hoperand : (p.setWidth 32).setWidth 64 = p.setWidth 64 := BitVec.setWidth_setWidth (by decide)
  rw [encode_eq_or, operandBits, hoperand]
  exact congrArg (· ||| _) hword

/-- Settles O13: SET_PREC's rule in IDLE, ERR_PHASE outside it, and the decoder's check of the five operand bits. -/
theorem setPrecSetsThePrecision : Obligations.SetPrecSetsThePrecision := by
  intro p s
  refine ⟨encode_setPrec p, fun hs hp => ?_, fun hs hp => ?_, fun hs he => ?_, fun w hopc hbig => ?_⟩
  · rw [exec_setPrec_of_le hs hp, ← hs]
    rfl
  · exact ⟨_, exec_setPrec_of_lt hs hp, errorTaken_takeError _ _ s⟩
  · exact ⟨_, exec_wrongPhase (decide_eq_false hs) he, errorTaken_takeError _ _ s⟩
  · rw [exists_decode_error_iff]
    rintro ⟨i, hi⟩
    obtain ⟨-, hlegal, -⟩ := (decode_ok_iff_of_opcode (m := .setPrec) hopc).1 hi
    exact absurd (operandLegal_iff.1 hlegal) (Nat.not_lt.2 hbig)

/-! ### RD_REG (R114) -/

theorem exec_rdReg_mapped {addr : BitVec 12} {v : Word32} (h : s.readRegister (regAddress addr) = some v) :
    exec (.rdReg addr) s = .next (s.respond .ok v) := by
  have hrule : primRdReg addr s = .ok (s, v) := by rw [primRdReg, h]
  have hmapped : ¬ (s.phase = .error ∧ s.readRegister (regAddress addr) = none) := by simp [h]
  change execRdReg addr s = _
  rw [execRdReg, if_neg hmapped, execPrimitive_pass rfl, finish_ok hrule]

theorem exec_rdReg_unmapped {addr : BitVec 12} (h : s.readRegister (regAddress addr) = none) (he : s.phase ≠ .error) :
    exec (.rdReg addr) s = .next (takeError .operand (zext32 addr) s) := by
  have hrule : primRdReg addr s = raise .operand (zext32 addr) := by rw [primRdReg, h]
  rw [exec_eq_finish rfl rfl he, hrule, finish_raise]

theorem exec_rdReg_unmapped_in_error {addr : BitVec 12} (h : s.readRegister (regAddress addr) = none)
    (he : s.phase = .error) : exec (.rdReg addr) s = .next (refuse s) := if_pos ⟨he, h⟩

/-- STATUS[2:0] is PHASE, STATUS[3] OUT_VALID, and the rest 0 (10_state.md R30). -/
theorem status_fields (s : State) : s.status.extractLsb' 0 3 = s.phase.code ∧ s.status.getLsbD 3 = s.outValid ∧
    s.status.extractLsb' 4 28 = 0 := by
  refine ⟨BitVec.extractLsb'_append_eq_right, ?_, ?_⟩
  · rw [State.status, BitVec.getLsbD_append, if_neg (by decide), BitVec.getLsbD_append, if_pos (by decide)]
    exact BitVec.getLsbD_ofBool s.outValid 0
  · exact (BitVec.extractLsb'_append_eq_of_le (by decide)).trans BitVec.extractLsb'_append_eq_left

/-- Settles O14: RD_REG answers what `readRegister` gives, row by row of R21, and R21's gaps have no register. -/
theorem rdRegReadsTheRegisterMap : Obligations.RdRegReadsTheRegisterMap := by
  refine fun s => ⟨fun e he => exec_rdReg_mapped ?_, fun c => ⟨exec_rdReg_mapped ?_, exec_rdReg_mapped ?_,
    exec_rdReg_mapped ?_⟩, fun a ha => ⟨fun he => ?_, fun he => ?_⟩, status_fields s⟩
  · fin_cases he <;> rfl
  · rw [regAddress_array (by decide)]
    exact readRegister_freq s c
  · rw [regAddress_array (by decide)]
    exact readRegister_cumLow s c
  · rw [regAddress_array (by decide)]
    exact readRegister_cumHigh s c
  · exact ⟨_, exec_rdReg_unmapped (readRegister_unmapped s ha) he, errorTaken_takeError _ _ s⟩
  · rw [exec_rdReg_unmapped_in_error (readRegister_unmapped s ha) he, ← he]
    rfl

end Sys2Proof.Machine
end

section
/-! PROOFS. The data I/O commands (41_data_io.md): IN_CLEAR (R130), IN_WRITE (R131) and OUT_READ (R132). -/

namespace Sys2Proof.Machine

variable {s : State}

/-! ### The word and the outcome of a data command -/

/-- The word of a command whose OPERAND field is x, zero-extended (30_encoding.md R83, R97). -/
theorem encode_eq_or_operand {i : Instr} {m : Mnemonic} {opcWord : Word64} {n : Nat} {x : BitVec n}
    (hm : i.mnemonic = m) (hword : commandWord m.opcode 0 = opcWord) (hn : n ≤ 32)
    (hoperand : operandBits i = x.setWidth 32) :
    encode i = opcWord ||| x.setWidth 64 := by
  rw [encode_eq_or, hm, hword, hoperand, BitVec.setWidth_setWidth (by omega)]

/-- A primitive command that runs in IDLE ends there as its rule does. -/
theorem exec_eq_finish_of_idle {i : Instr} {rule : State → Exec (State × Word32)} (hr : ruleOf i = some rule)
    (hp : phasesOf i.mnemonic .idle = true) (hs : s.phase = .idle) : exec i s = finish s (rule s) :=
  exec_eq_finish hr (by rw [hs, hp]) (by simp [hs])

/-! ### IN_CLEAR (R130) -/

/-- IN_CLEAR's rule in IDLE: IN_LEN is 0 and IBUF stays. -/
theorem exec_inClear (hs : s.phase = .idle) : exec .inClear s = .next ({ s with inLen := 0 }.respond .ok 0) :=
  exec_eq_finish_of_idle (i := .inClear) rfl rfl hs

/-- Settles O15: IN_CLEAR's rule in IDLE, and ERR_PHASE outside it. -/
theorem inClearEmptiesTheInput : Obligations.InClearEmptiesTheInput := by
  refine ⟨by decide, fun s => ⟨fun hs => ?_, fun hs he => ?_⟩⟩
  · rw [exec_inClear hs, ← hs]
    rfl
  · exact ⟨_, exec_wrongPhase (decide_eq_false hs) he, errorTaken_takeError _ _ s⟩

/-! ### IN_WRITE (R131) -/

theorem encode_inWrite (b : Byte) : encode (.inWrite b) = 0x1100000000000000 ||| b.setWidth 64 :=
  encode_eq_or_operand (m := .inWrite) rfl (by decide) (by decide) rfl

/-- The state IN_WRITE leaves before its response: the byte at IBUF[IN_LEN], and IN_LEN one further. -/
def State.inputAppended (s : State) (b : Byte) : State :=
  { s with ibuf := s.ibuf.write s.inLen.toNat b, inLen := s.inLen + 1 }

/-- IN_WRITE in IDLE ends as its rule does. -/
theorem exec_inWrite (hs : s.phase = .idle) (b : Byte) : exec (.inWrite b) s = finish s (primInWrite b s) :=
  exec_eq_finish_of_idle rfl rfl hs

theorem exec_inWrite_of_lt (hs : s.phase = .idle) (h : s.inLen.toNat < s.ibufSize.toNat) (b : Byte) :
    exec (.inWrite b) s = .next ((s.inputAppended b).respond .ok 0) := by
  have hroom : s.inLen ≠ s.ibufSize := fun he => absurd (congrArg BitVec.toNat he) (Nat.ne_of_lt h)
  have hrule : primInWrite b s = .ok (s.inputAppended b, 0) := by
    rw [primInWrite, if_neg hroom, if_neg (Nat.not_le.2 h)]
    rfl
  rw [exec_inWrite hs, finish_ok hrule]

theorem exec_inWrite_full (hs : s.phase = .idle) (h : s.inLen = s.ibufSize) (b : Byte) :
    exec (.inWrite b) s = .next (takeError .capacity 1 s) := by
  have hrule : primInWrite b s = raise .capacity 1 := if_pos h
  rw [exec_inWrite hs, hrule, finish_raise]

/-- Settles O16: in IDLE the rule writes one cell of a buffer with room and raises at IBUF_SIZE; elsewhere ERR_PHASE. -/
theorem inWriteAppendsAByte : Obligations.InWriteAppendsAByte := by
  intro b s
  refine ⟨encode_inWrite b, fun hs hlt => ?_, fun hs hfull => ?_, fun hs he => ?_⟩
  · refine ⟨_, exec_inWrite_of_lt hs hlt b, ?_, read_write_same .ibuf s.ibuf _ b,
      fun a ha => read_write_other .ibuf s.ibuf b ha, fun hwf => wf_write hwf _ b⟩
    rw [← hs]
    rfl
  · exact ⟨_, exec_inWrite_full hs hfull b, errorTaken_takeError _ _ s⟩
  · exact ⟨_, exec_wrongPhase (decide_eq_false hs) he, errorTaken_takeError _ _ s⟩

/-! ### OUT_READ (R132) -/

theorem encode_outRead (x : Word32) : encode (.outRead x) = 0x1200000000000000 ||| x.setWidth 64 :=
  encode_eq_or_operand (m := .outRead) rfl (by decide) le_rfl (BitVec.setWidth_eq x).symm

/-- OUT_READ runs in ENC_DONE and DEC_DONE. -/
theorem phasesOf_outRead {p : Phase} : phasesOf .outRead p = true ↔ p = .encDone ∨ p = .decDone := by
  simp [phasesOf]

/-- OUT_READ with a finished result ends as its rule does. -/
theorem exec_outRead (hs : s.phase = .encDone ∨ s.phase = .decDone) (x : Word32) :
    exec (.outRead x) s = finish s (primOutRead x s) :=
  exec_eq_finish rfl (phasesOf_outRead.2 hs) (by rcases hs with hs | hs <;> rw [hs] <;> decide)

theorem exec_outRead_of_lt (hs : s.phase = .encDone ∨ s.phase = .decDone) {x : Word32}
    (hx : x.toNat < s.outLen.toNat) (hsize : s.outLen.toNat ≤ s.obufSize.toNat) :
    exec (.outRead x) s = .next (s.respond .ok (zext32 (s.readByte .obuf x.toNat))) := by
  have hrule : primOutRead x s = .ok (s, zext32 (s.readByte .obuf x.toNat)) := by
    rw [primOutRead, outIndex, if_neg (Nat.not_le.2 hx), if_neg (Nat.not_le.2 (hx.trans_le hsize))]
  rw [exec_outRead hs, finish_ok hrule]

theorem exec_outRead_of_le (hs : s.phase = .encDone ∨ s.phase = .decDone) {x : Word32}
    (hx : s.outLen.toNat ≤ x.toNat) : exec (.outRead x) s = .next (takeError .operand x s) := by
  have hrule : primOutRead x s = raise .operand x := if_pos hx
  rw [exec_outRead hs, hrule, finish_raise]

/-- Settles O17: the two sides of OUT_READ's check of idx, ERR_PHASE outside ENC_DONE and DEC_DONE, and OUT_VALID by the
invariant. -/
theorem outReadReadsTheResult : Obligations.OutReadReadsTheResult := by
  intro x s
  refine ⟨encode_outRead x, fun hinv hs => ?_, fun hs => exec_outRead_of_lt hs, fun hs hx => ?_,
    fun henc hdec he => ?_⟩
  · obtain ⟨hvalid, -, -, -⟩ := hinv.output
    exact hvalid.2 hs
  · exact ⟨_, exec_outRead_of_le hs hx, errorTaken_takeError _ _ s⟩
  · have hfail : phasesOf .outRead s.phase = false :=
      Bool.eq_false_iff.2 fun h => (phasesOf_outRead.1 h).elim henc hdec
    exact ⟨_, exec_wrongPhase hfail he, errorTaken_takeError _ _ s⟩

end Sys2Proof.Machine
end

section
/-! PROOFS. The frequency model (42_frequency_model.md): FM_COUNT (R140) and the sum of its counts (R141), FM_BUILD in
closed form with its precision check (R142 to R146), and the partition of [0, TOTAL) by the symbols' ranges (R147). -/

namespace Sys2Proof.Machine

variable {s t : State} {f : RegArray}

/-! ### Sums of counts over the symbols below a bound -/

theorem sumBelow_succ (f : RegArray) (n : Nat) : sumBelow f (n + 1) = sumBelow f n + (entry f n).toNat := by
  simp [sumBelow, List.range_succ]

theorem sumBelow_mono (f : RegArray) {m n : Nat} (h : m ≤ n) : sumBelow f m ≤ sumBelow f n := by
  induction n, h using Nat.le_induction with
  | base => exact le_rfl
  | succ n _ ih => rw [sumBelow_succ]; omega

/-- BuildModel's running sum `c` before symbol n (R142). -/
theorem sumCounts_take_eq_sumBelow (f : RegArray) {n : Nat} (hn : n ≤ 256) :
    sumCounts (f.toList.take n) = sumBelow f n := by
  induction n with
  | zero => rfl
  | succ n ih =>
    rw [sumCounts_take_succ _ (by rw [toList_length]; omega), ih (by omega), sumBelow_succ,
      entry_eq_getElem f (by omega)]

theorem buildModel_total (f : RegArray) : (buildModel f).total = sumBelow f 256 := by
  rw [← sumCounts_take_eq_sumBelow f le_rfl, List.take_of_length_le (by simp)]
  rfl

/-- A value below the sum of the first n counts falls into the range of one of them. -/
theorem exists_range_of_lt_sumBelow {v n : Nat} (h : v < sumBelow f n) :
    ∃ i, i < n ∧ sumBelow f i ≤ v ∧ v < sumBelow f (i + 1) := by
  induction n with
  | zero => cases h
  | succ n ih =>
    by_cases hv : v < sumBelow f n
    · obtain ⟨i, hi, hrange⟩ := ih hv
      exact ⟨i, by omega, hrange⟩
    · exact ⟨n, by omega, by omega, h⟩

/-- A value below the sum of all counts falls into the range of a symbol present. -/
theorem exists_symbol_of_lt_sumBelow {v : Nat} (h : v < sumBelow f 256) :
    ∃ c : Byte, symEntry f c ≠ 0 ∧ sumBelow f c.toNat ≤ v ∧ v < sumBelow f (c.toNat + 1) := by
  obtain ⟨i, hi, hlow, hhigh⟩ := exists_range_of_lt_sumBelow h
  have hc : (BitVec.ofNat 8 i).toNat = i := toNat_ofNat_of_lt hi
  refine ⟨BitVec.ofNat 8 i, fun hzero => ?_, by rwa [hc], by rwa [hc]⟩
  rw [symEntry, hc] at hzero
  rw [sumBelow_succ, hzero] at hhigh
  exact absurd hhigh (Nat.not_lt.2 hlow)

/-! ### FM_COUNT (R140, R141) -/

/-- The state FM_COUNT leaves before its response: FREQ counts the input. -/
def State.inputCounted (s : State) : State :=
  { s with freq := countBytes (s.inputBytes s.inLen.toNat), phase := .counted }

theorem occurrences_eq_count (s : State) (c : Byte) : s.occurrences c = (s.inputBytes s.inLen.toNat).count c := by
  rw [State.occurrences, State.inputBytes, List.count_eq_countP, List.countP_map, List.countP_eq_length_filter]
  rfl

theorem symEntry_inputCounted (s : State) (c : Byte) : (symEntry s.inputCounted.freq c).toNat = s.occurrences c := by
  have hlen : (s.inputBytes s.inLen.toNat).length < 2 ^ 32 := by
    rw [inputBytes_length]
    exact s.inLen.isLt
  rw [occurrences_eq_count]
  exact symEntry_countBytes_toNat hlen c

/-- FM_COUNT in IDLE ends as its rule does. -/
theorem exec_fmCount (hs : s.phase = .idle) : exec .fmCount s = finish s (primFmCount s) :=
  exec_eq_finish_of_idle rfl rfl hs

theorem exec_fmCount_of_ne (hs : s.phase = .idle) (hne : s.inLen ≠ 0) (hsize : s.inLen.toNat ≤ s.ibufSize.toNat) :
    exec .fmCount s = .next (s.inputCounted.respond .ok s.inLen) := by
  have hrule : primFmCount s = .ok (s.inputCounted, s.inLen) := by
    rw [primFmCount, if_neg hne, if_neg (Nat.not_lt.2 hsize)]
    rfl
  rw [exec_fmCount hs, finish_ok hrule]

theorem exec_fmCount_empty (hs : s.phase = .idle) (h : s.inLen = 0) :
    exec .fmCount s = .next (takeError .emptyInput 0 s) := by
  have hrule : primFmCount s = raise .emptyInput 0 := if_pos h
  rw [exec_fmCount hs, hrule, finish_raise]

/-- Settles O18: FM_COUNT's rule in IDLE, on an input and without one, and ERR_PHASE outside it. -/
theorem fmCountCountsTheInput : Obligations.FmCountCountsTheInput := by
  refine ⟨by decide, fun s => ⟨fun hs hne hsize => ?_, fun hs hempty => ?_, fun hs he => ?_⟩⟩
  · exact ⟨_, exec_fmCount_of_ne hs hne hsize, rfl, symEntry_inputCounted s⟩
  · exact ⟨_, exec_fmCount_empty hs hempty, errorTaken_takeError _ _ s⟩
  · exact ⟨_, exec_wrongPhase (decide_eq_false hs) he, errorTaken_takeError _ _ s⟩

/-- Settles O19: the sum is `InputCounted.total_eq`, and 0 is below it, so some symbol's range is not empty. -/
theorem countsAddUpToTheInputLength : Obligations.CountsAddUpToTheInputLength := by
  intro s t h ht
  obtain ⟨u, d, ⟨-, rule, d', hr, hok⟩, rfl⟩ := exec_primitive_completes (i := .fmCount) rfl h (by simp [ht])
  cases hr
  obtain ⟨hne, rfl⟩ := primFmCount_ok hok
  have hcounted : InputCounted s.inputCounted := ⟨hne, rfl⟩
  have hsum : sumBelow s.inputCounted.freq 256 = s.inLen.toNat :=
    (buildModel_total _).symm.trans hcounted.total_eq
  obtain ⟨c, hc, -⟩ := exists_symbol_of_lt_sumBelow (hsum ▸ toNat_pos hne)
  exact ⟨hsum, c, hc⟩

/-! ### BuildModel's results in closed form (R142, R143) -/

theorem buildModel_cumLow_toNat (hT : (buildModel f).total < 2 ^ 32) (c : Byte) :
    (symEntry (buildModel f).cumLow c).toNat = sumBelow f c.toNat := by
  rw [symEntry, buildModel_cumLow hT c.isLt, sumCounts_take_eq_sumBelow f c.isLt.le]

theorem buildModel_cumHigh_toNat (hT : (buildModel f).total < 2 ^ 32) (c : Byte) :
    (symEntry (buildModel f).cumHigh c).toNat = sumBelow f (c.toNat + 1) := by
  rw [symEntry, buildModel_cumHigh hT c.isLt, sumCounts_take_eq_sumBelow f c.isLt]

theorem symEntry_mem (f : RegArray) (c : Byte) : symEntry f c ∈ f.toList := by
  rw [symEntry, entry_eq_getElem f c.isLt]
  exact List.getElem_mem _

theorem exists_symEntry_of_mem {g : Word32} (h : g ∈ f.toList) : ∃ c : Byte, symEntry f c = g := by
  obtain ⟨i, hi, rfl⟩ := List.mem_iff_getElem.1 h
  rw [toList_length] at hi
  refine ⟨BitVec.ofNat 8 i, ?_⟩
  rw [symEntry, toNat_ofNat_of_lt hi, entry_eq_getElem f hi]

/-- FMIN is the least positive count, or 0 if every count is 0. -/
theorem LeastPositive.fmin_eq {m : Nat} (h : LeastPositive f m) : (buildModel f).fmin = m := by
  obtain ⟨rfl, hzero⟩ | ⟨⟨c, hc, rfl⟩, hleast⟩ := h
  · by_contra hne
    have hpos : 0 < sumBelow f 256 :=
      buildModel_total f ▸ (Nat.pos_of_ne_zero hne).trans_le (fmin_le_total f)
    obtain ⟨c, hc, -⟩ := exists_symbol_of_lt_sumBelow hpos
    exact hc (hzero c)
  · obtain ⟨g, hg, hg0, hmin⟩ := minPositive_mem ⟨_, symEntry_mem f c, hc⟩
    obtain ⟨d, rfl⟩ := exists_symEntry_of_mem hg
    refine le_antisymm (fmin_le c.isLt hc) ?_
    show _ ≤ minPositive f.toList
    rw [hmin]
    exact hleast d hg0

/-- SYMCOUNT counts the symbols present. -/
theorem buildModel_symCount (f : RegArray) :
    (buildModel f).symCount = ((List.range 256).filter fun c => symEntry f (BitVec.ofNat 8 c) ≠ 0).length := by
  rw [← symbolsOf_length, symbolsOf, List.length_map]
  refine congrArg List.length (List.filter_congr fun i hi => ?_)
  rw [symEntry, toNat_ofNat_of_lt (List.mem_range.1 hi)]

/-! ### FM_BUILD (R144, R146) -/

/-- The state FM_BUILD leaves before its response: BuildModel's results for FREQ. -/
def State.modelBuilt (s : State) : State := { s.withModel (buildModel s.freq) with phase := .modelReady }

theorem modelBuilt_symCount (s : State) : s.modelBuilt.symCount.toNat = (buildModel s.freq).symCount :=
  toNat_ofNat_of_lt (Nat.lt_of_le_of_lt (symCount_le s.freq) (by decide))

/-- FM_BUILD in COUNTED ends as its rule does. -/
theorem exec_fmBuild (hs : s.phase = .counted) : exec .fmBuild s = finish s (primFmBuild s) :=
  exec_eq_finish rfl (by rw [hs]; rfl) (by simp [hs])

theorem precisionFails_iff {m : ModelRegs} {q : Nat} : precisionFails m q = true ↔ m.fmin * q < m.total := by
  simp [precisionFails]

/-- The precision check passes. -/
theorem exec_fmBuild_of_le (hs : s.phase = .counted) (hT : (buildModel s.freq).total < 2 ^ 32)
    (hle : (buildModel s.freq).total ≤ (buildModel s.freq).fmin * s.quarter) :
    exec .fmBuild s = .next (s.modelBuilt.respond .ok s.modelBuilt.total) := by
  have hrule : primFmBuild s = .ok (s.modelBuilt, s.modelBuilt.total) :=
    (if_neg (Nat.not_le.2 hT)).trans (if_neg fun hfail => Nat.not_lt.2 hle (precisionFails_iff.1 hfail))
  rw [exec_fmBuild hs, finish_ok hrule]

/-- The precision check fails. -/
theorem exec_fmBuild_of_lt (hs : s.phase = .counted) (hT : (buildModel s.freq).total < 2 ^ 32)
    (hlt : (buildModel s.freq).fmin * s.quarter < (buildModel s.freq).total) :
    exec .fmBuild s = .next (takeError .precisionOverflow (BitVec.ofNat 32 (buildModel s.freq).total) s) := by
  have hrule : primFmBuild s = raise .precisionOverflow (BitVec.ofNat 32 (buildModel s.freq).total) :=
    (if_neg (Nat.not_le.2 hT)).trans (if_pos (precisionFails_iff.2 hlt))
  rw [exec_fmBuild hs, hrule, finish_raise]

/-- Settles O20: TOTAL and FMIN are the statement's sum and least count, and the two sides of the check are FM_BUILD's
two outcomes. -/
theorem fmBuildBuildsTheModel : Obligations.FmBuildBuildsTheModel := by
  intro s m hs hT hm
  obtain rfl := hm.fmin_eq
  rw [← buildModel_total] at hT ⊢
  refine ⟨fun hle => ⟨_, exec_fmBuild_of_le hs hT hle, rfl, fun c => ⟨?_, ?_⟩, ?_⟩, fun hlt => ?_⟩
  · exact buildModel_cumLow_toNat hT c
  · exact buildModel_cumHigh_eq hT c.isLt
  · exact (modelBuilt_symCount s).trans (buildModel_symCount s.freq)
  · exact ⟨_, exec_fmBuild_of_lt hs hT hlt, errorTaken_takeError _ _ s⟩

/-! ### The partition of [0, TOTAL) (R147) -/

/-- CUM_LOW, CUM_HIGH and TOTAL hold BuildModel's results for FREQ. -/
structure HoldsModel (t : State) : Prop where
  cumLow  : t.cumLow = (buildModel t.freq).cumLow
  cumHigh : t.cumHigh = (buildModel t.freq).cumHigh
  total   : t.total.toNat = (buildModel t.freq).total

/-- BuildModel's sum fits TOTAL where it is there. -/
theorem HoldsModel.total_lt (h : HoldsModel t) : (buildModel t.freq).total < 2 ^ 32 := h.total ▸ t.total.isLt

theorem HoldsModel.low_eq (h : HoldsModel t) (c : Byte) :
    (symEntry t.cumLow c).toNat = sumBelow t.freq c.toNat := by
  rw [h.cumLow, buildModel_cumLow_toNat h.total_lt]

theorem HoldsModel.high_eq (h : HoldsModel t) (c : Byte) :
    (symEntry t.cumHigh c).toNat = sumBelow t.freq (c.toNat + 1) := by
  rw [h.cumHigh, buildModel_cumHigh_toNat h.total_lt]

theorem HoldsModel.high_le_total (h : HoldsModel t) (c : Byte) : (symEntry t.cumHigh c).toNat ≤ t.total.toNat := by
  rw [h.high_eq, h.total, buildModel_total]
  exact sumBelow_mono _ c.isLt

/-- The ranges ascend with their symbols. -/
theorem HoldsModel.high_le_low (h : HoldsModel t) {c d : Byte} (hcd : c.toNat < d.toNat) :
    (symEntry t.cumHigh c).toNat ≤ (symEntry t.cumLow d).toNat := by
  rw [h.high_eq, h.low_eq]
  exact sumBelow_mono _ hcd

/-- The ranges cover [0, TOTAL). -/
theorem HoldsModel.exists_symbol (h : HoldsModel t) {v : Nat} (hv : v < t.total.toNat) : ∃ c : Byte,
    symEntry t.freq c ≠ 0 ∧ (symEntry t.cumLow c).toNat ≤ v ∧ v < (symEntry t.cumHigh c).toNat := by
  rw [h.total, buildModel_total] at hv
  simp only [h.low_eq, h.high_eq]
  exact exists_symbol_of_lt_sumBelow hv

/-- The ranges are disjoint. -/
theorem HoldsModel.symbol_unique (h : HoldsModel t) {c d : Byte} {v : Nat}
    (hc : (symEntry t.cumLow c).toNat ≤ v ∧ v < (symEntry t.cumHigh c).toNat)
    (hd : (symEntry t.cumLow d).toNat ≤ v ∧ v < (symEntry t.cumHigh d).toNat) : d = c := by
  obtain hlt | heq | hlt := Nat.lt_trichotomy d.toNat c.toNat
  · have := h.high_le_low hlt
    omega
  · exact BitVec.eq_of_toNat_eq heq
  · have := h.high_le_low hlt
    omega

theorem HoldsModel.respond (h : HoldsModel t) (st : RspStatus) (d : Word32) : HoldsModel (t.respond st d) :=
  ⟨h.cumLow, h.cumHigh, h.total⟩

/-- FM_BUILD's rule completes only with a sum that fits TOTAL (log 10). -/
theorem primFmBuild_holdsModel {d : Word32} (h : primFmBuild s = .ok (t, d)) : HoldsModel t := by
  obtain ⟨hT, -⟩ := ite_stop_eq_ok.1 h
  obtain ⟨-, rfl⟩ := primFmBuild_ok h
  exact ⟨rfl, rfl, toNat_ofNat_of_lt (Nat.lt_of_not_le hT)⟩

/-- The sum of an accepted header's counts is its field N of four bytes (43_bitstream_packer.md R168). -/
theorem headerParse_total_lt {hd : Header} (h : s.headerParse = .ok hd) : (buildModel hd.freq).total < 2 ^ 32 := by
  obtain ⟨-, -, hsum, -⟩ := headerParse_ok h
  have hn : s.fileN < 2 ^ 32 := readBigEndian_lt .ibuf s.ibuf _ 4
  rwa [← hsum] at hn

theorem primDecStart_holdsModel {d : Word32} (h : primDecStart s = .ok (t, d)) : HoldsModel t := by
  obtain ⟨hd, hparse, -, rfl⟩ := primDecStart_ok h
  exact ⟨rfl, rfl, toNat_ofNat_of_lt (headerParse_total_lt hparse)⟩

/-- A command whose rule leaves BuildModel's results leaves them where it takes no error. -/
theorem exec_holdsModel {i : Instr} {rule : State → Exec (State × Word32)} (hr : ruleOf i = some rule)
    (hrule : ∀ {u d}, rule s = .ok (u, d) → HoldsModel u) (h : exec i s = .next t) (ht : t.phase ≠ .error) :
    HoldsModel t := by
  obtain ⟨u, d, ⟨-, rule', d', hr', hok⟩, rfl⟩ := exec_primitive_completes hr h ht
  cases hr.symm.trans hr'
  exact (hrule hok).respond _ _

/-- Settles O21: both commands leave BuildModel's results for the FREQ they leave, whose ranges are the gaps between its
running sums. -/
theorem theModelPartitionsTheTotal : Obligations.TheModelPartitionsTheTotal := by
  intro s t h
  have hmodel : HoldsModel t := by
    obtain ⟨hexec, hphase⟩ | ⟨hexec, hphase⟩ := h
    · exact exec_holdsModel (i := .fmBuild) rfl primFmBuild_holdsModel hexec (by simp [hphase])
    · exact exec_holdsModel (i := .decStart) rfl primDecStart_holdsModel hexec (by simp [hphase])
  refine ⟨fun v hv => ?_, hmodel.high_le_total, fun c d => hmodel.high_le_low⟩
  obtain ⟨c, hc, hrange⟩ := hmodel.exists_symbol hv
  exact ⟨c, ⟨hc, hrange⟩, fun d _ hlow hhigh => hmodel.symbol_unique hrange ⟨hlow, hhigh⟩⟩

end Sys2Proof.Machine
end

section
/-! PROOFS. The bit sink (43_bitstream_packer.md R160 to R162): what one bit does to the payload, and what a run of bits
from the start of the payload leaves. -/

namespace Sys2Proof.Machine

variable {s : State} {bits : List Bool}

/-! ### One bit (R161) -/

/-- In the byte the bit goes into, the bit takes its own position, and the first bit of a byte clears the others. -/
theorem payloadBit_emit_sameByte (s : State) (b : Bool) {j : Nat} (hj : j / 8 = s.bitCount.toNat / 8) :
    (s.emit b).payloadBit j =
      ((if s.bitCount.toNat % 8 = 0 then false else s.payloadBit j) || (b && decide (j = s.bitCount.toNat))) := by
  have haddr : s.sinkAddress s.bitCount.toNat = s.sinkAddress j := by rw [State.sinkAddress, State.sinkAddress, hj]
  have hpos : (7 - j % 8 = 7 - s.bitCount.toNat % 8) ↔ j = s.bitCount.toNat := by omega
  show ((s.obuf.putBit (s.sinkAddress s.bitCount.toNat) s.bitCount.toNat b).read .obuf (s.sinkAddress j)).getLsbD
    (7 - j % 8) = _
  rw [haddr, read_putBit_same, BitVec.getLsbD_or, bitByte_shift_getLsbD b (by omega) (by omega),
    decide_eq_decide.2 hpos]
  split
  · rw [BitVec.ofNat_eq_ofNat, BitVec.getLsbD_zero]
  · rfl

/-- A bit of another byte stays. -/
theorem payloadBit_emit_otherByte (s : State) (b : Bool) {j : Nat} (hj : j / 8 ≠ s.bitCount.toNat / 8) :
    (s.emit b).payloadBit j = s.payloadBit j := by
  have haddr : s.sinkAddress j ≠ s.sinkAddress s.bitCount.toNat := by
    rw [State.sinkAddress, State.sinkAddress]
    omega
  exact congrArg (fun v : Byte => v.getLsbD (7 - j % 8)) (read_putBit_other haddr .obuf)

/-- The bits before the one emitted stay. -/
theorem payloadBit_emit_lt (s : State) (b : Bool) {j : Nat} (hj : j < s.bitCount.toNat) :
    (s.emit b).payloadBit j = s.payloadBit j := by
  by_cases hbyte : j / 8 = s.bitCount.toNat / 8
  · rw [payloadBit_emit_sameByte s b hbyte, if_neg (by omega), decide_eq_false (by omega), Bool.and_false,
      Bool.or_false]
  · exact payloadBit_emit_otherByte s b hbyte

/-- The emitted bit is payload bit BIT_COUNT. -/
theorem TrailingZero.payloadBit_emit (h : TrailingZero s) (b : Bool) :
    (s.emit b).payloadBit s.bitCount.toNat = b := by
  rw [payloadBit_emit_sameByte s b rfl, decide_eq_true rfl, Bool.and_true]
  split
  · exact Bool.false_or b
  · rw [h _ le_rfl (by omega), Bool.false_or]

/-! ### A run of bits -/

/-- The bits before a run stay. -/
theorem payloadBit_emitAll_lt (h : s.bitCount.toNat + bits.length < 2 ^ 32) {j : Nat} (hj : j < s.bitCount.toNat) :
    (s.emitAll bits).payloadBit j = s.payloadBit j := by
  induction bits generalizing s with
  | nil => rfl
  | cons b bs ih =>
    rw [List.length_cons] at h
    have hcount := emit_bitCount_toNat (s := s) (by omega) b
    rw [emitAll_cons, ih (by omega) (by omega), payloadBit_emit_lt s b hj]

/-- The bits of a run are the payload bits from BIT_COUNT on. -/
theorem TrailingZero.payloadBit_emitAll (htrail : TrailingZero s) (h : s.bitCount.toNat + bits.length < 2 ^ 32)
    {j : Nat} (hj : j < bits.length) : (s.emitAll bits).payloadBit (s.bitCount.toNat + j) = bits[j] := by
  induction bits generalizing s j with
  | nil => cases hj
  | cons b bs ih =>
    rw [List.length_cons] at h hj
    have hcount := emit_bitCount_toNat (s := s) (by omega) b
    rw [emitAll_cons]
    cases j with
    | zero =>
      rw [Nat.add_zero, payloadBit_emitAll_lt (by omega) (by omega), htrail.payloadBit_emit b, List.getElem_cons_zero]
    | succ j =>
      rw [List.getElem_cons_succ, ← ih (htrail.emit (by omega) b) (by omega) (Nat.lt_of_succ_lt_succ hj), hcount]
      congr 1
      omega

/-- Only the bytes the bits of a run from the start of the payload go into change. -/
theorem readByte_emitAll_other (hzero : s.bitCount.toNat = 0) (h : bits.length < 2 ^ 32) {a : Nat}
    (ha : ∀ j, j < bits.length → a ≠ s.sinkAddress j) : (s.emitAll bits).readByte .obuf a = s.readByte .obuf a := by
  have hother : a < s.hdrLen.toNat + s.bitCount.toNat / 8 ∨
      s.hdrLen.toNat + (s.bitCount.toNat + bits.length + 7) / 8 ≤ a := by
    by_contra hin
    refine ha (8 * (a - s.hdrLen.toNat)) (by omega) ?_
    rw [State.sinkAddress]
    omega
  show (s.emitAll bits).obuf.read .obuf a = s.obuf.read .obuf a
  rw [Memory.read, Memory.read, emitAll_written_other (by omega) hother, emitAll_epoch]

/-- Settles O22: at the start of the payload no byte is partial, so the run's bits are the payload bits from 0 on and
the rest of the last byte is 0. -/
theorem theSinkPacksBitsMsbFirst : Obligations.TheSinkPacksBitsMsbFirst := by
  intro s bits hstart hlen
  have hzero : s.bitCount.toNat = 0 := congrArg BitVec.toNat hstart
  have hcap : s.bitCount.toNat + bits.length < 2 ^ 32 := by omega
  have htrail : TrailingZero s := fun j _ hj => absurd hj (by omega)
  have hcount : (s.emitAll bits).bitCount.toNat = bits.length := by rw [emitAll_bitCount hcap, hzero, Nat.zero_add]
  refine ⟨fun j hj => ?_, fun j hj hj' => ?_, hcount, ?_, fun a => readByte_emitAll_other hzero (by omega)⟩
  · rw [← htrail.payloadBit_emitAll hcap hj, hzero, Nat.zero_add]
    rfl
  · exact htrail.emitAll hcap j (hcount.symm ▸ hj) (hcount.symm ▸ hj')
  · rw [sinkFinalize_outLen, hcount, emitAll_hdrLen]

end Sys2Proof.Machine
end

section
/-! PROOFS. The header parser (43_bitstream_packer.md R168) and DEC_START (46_decoder.md R222): which error a file
raises, and that a file an encoder began with its header is accepted and gives the encoder's model back. -/

namespace Sys2Proof.Machine

variable {s : State}

/-! ### The counts the pairs declare -/

/-- FREQ after the first n pairs of the file, each count put in at its symbol. -/
def State.declaredFreq (s : State) : Nat → RegArray
  | 0 => Vector.replicate 256 0
  | n + 1 => setEntry (s.declaredFreq n) (s.fileSymbol n) (BitVec.ofNat 32 (s.fileFreq n))

theorem ofNat_fileFreq_toNat (s : State) (j : Nat) : (BitVec.ofNat 32 (s.fileFreq j)).toNat = s.fileFreq j :=
  toNat_ofNat_of_lt (fileFreq_lt s j)

theorem ofNat_fileFreq_ne_zero {j : Nat} (h : s.fileFreq j ≠ 0) : BitVec.ofNat 32 (s.fileFreq j) ≠ 0 := fun e =>
  h ((ofNat_fileFreq_toNat s j).symm.trans (congrArg BitVec.toNat e))

theorem GoodPairs.mono {m n : Nat} (h : GoodPairs s n) (hm : m ≤ n) : GoodPairs s m := fun j hj => h j (by omega)

/-- The symbols with a count are those of the pairs gone through. -/
theorem GoodPairs.declaredFreq_ne_zero_iff {n : Nat} (h : GoodPairs s n) (c : Byte) :
    symEntry (s.declaredFreq n) c ≠ 0 ↔ ∃ i, i < n ∧ s.fileSymbol i = c := by
  induction n with
  | zero =>
    rw [State.declaredFreq, symEntry_zero]
    simp
  | succ n ih =>
    obtain ⟨-, hfreq⟩ := h n n.lt_succ_self
    rw [State.declaredFreq, symEntry_setEntry, Nat.exists_lt_succ_right, ← ih (h.mono n.le_succ)]
    by_cases hc : c = s.fileSymbol n
    · rw [if_pos hc]
      exact iff_of_true (ofNat_fileFreq_ne_zero hfreq) (.inr hc.symm)
    · rw [if_neg hc, or_iff_left (Ne.symm hc)]

/-- The parser's test for a symbol listed twice. -/
theorem GoodPairs.duplicatePair_iff {j : Nat} (h : GoodPairs s j) :
    DuplicatePair s j ↔ symEntry (s.declaredFreq j) (s.fileSymbol j) ≠ 0 := (h.declaredFreq_ne_zero_iff _).symm

/-! ### The loop over the pairs -/

theorem parsePairs_duplicate {n j : Nat} (h : GoodPairs s j) (hd : DuplicatePair s j) :
    s.parsePairs (n + 1) j (s.declaredFreq j) = raise .decodeCorruption (BitVec.ofNat 32 (2 + 5 * j)) :=
  if_pos (h.duplicatePair_iff.1 hd)

theorem parsePairs_zeroFreq {n j : Nat} (h : GoodPairs s j) (hd : ¬ DuplicatePair s j) (hz : s.fileFreq j = 0) :
    s.parsePairs (n + 1) j (s.declaredFreq j) = raise .decodeCorruption (BitVec.ofNat 32 (3 + 5 * j)) :=
  (if_neg fun hne => hd (h.duplicatePair_iff.2 hne)).trans (if_pos hz)

theorem parsePairs_goodPair {n j : Nat} (h : GoodPairs s (j + 1)) :
    s.parsePairs (n + 1) j (s.declaredFreq j) = s.parsePairs n (j + 1) (s.declaredFreq (j + 1)) := by
  obtain ⟨hd, hz⟩ := h j j.lt_succ_self
  exact (if_neg fun hne => hd ((h.mono j.le_succ).duplicatePair_iff.2 hne)).trans (if_neg hz)

/-- The loop goes through the good pairs a file begins with. -/
theorem GoodPairs.parsePairs_eq {j : Nat} (h : GoodPairs s j) (n : Nat) :
    s.parsePairs (j + n) 0 (Vector.replicate 256 0) = s.parsePairs n j (s.declaredFreq j) := by
  induction j generalizing n with
  | zero =>
    rw [Nat.zero_add]
    rfl
  | succ j ih =>
    rw [Nat.add_right_comm, Nat.add_assoc, ih (h.mono j.le_succ), parsePairs_goodPair h]

/-- The loop at a pair j of the file, the pairs before it being good. -/
theorem GoodPairs.parsePairs_at {j k : Nat} (h : GoodPairs s j) (hj : j < k) :
    s.parsePairs k 0 (Vector.replicate 256 0) = s.parsePairs (k - j - 1 + 1) j (s.declaredFreq j) := by
  rw [← h.parsePairs_eq]
  congr 1
  omega

theorem GoodPairs.parsePairs_eq_ok {k : Nat} (h : GoodPairs s k) :
    s.parsePairs k 0 (Vector.replicate 256 0) = .ok (s.declaredFreq k) := h.parsePairs_eq 0

/-- The count a good pair declares is its symbol's. -/
theorem GoodPairs.declaredFreq_symbol {k : Nat} (h : GoodPairs s k) {j : Nat} (hj : j < k) :
    (symEntry (s.declaredFreq k) (s.fileSymbol j)).toNat = s.fileFreq j := by
  obtain ⟨hpair, -, -⟩ := parsePairs_ok h.parsePairs_eq_ok
  obtain ⟨-, -, hentry⟩ := hpair j hj
  rwa [Nat.zero_add] at hentry

/-! ### The sum of the counts -/

/-- Replacing an entry exchanges its share of the sum. -/
theorem sumCounts_setEntry (f : RegArray) (c : Byte) (x : Word32) :
    sumCounts (setEntry f c x).toList + (symEntry f c).toNat = sumCounts f.toList + x.toNat := by
  have hc : c.toNat < f.toList.length := by
    rw [toList_length]
    exact c.isLt
  have hset : (setEntry f c x).toList = f.toList.take c.toNat ++ x :: f.toList.drop (c.toNat + 1) :=
    List.set_eq_take_append_cons_drop.trans (if_pos hc)
  have hsplit : f.toList = f.toList.take c.toNat ++ symEntry f c :: f.toList.drop (c.toNat + 1) := by
    rw [symEntry, entry_eq_getElem f c.isLt, List.getElem_cons_drop, List.take_append_drop]
  rw [hset, congrArg sumCounts hsplit, sumCounts_append, sumCounts_append, sumCounts_cons, sumCounts_cons]
  omega

theorem GoodPairs.sumCounts_declaredFreq {k : Nat} (h : GoodPairs s k) :
    sumCounts (s.declaredFreq k).toList = ((List.range k).map s.fileFreq).sum := by
  induction k with
  | zero =>
    rw [State.declaredFreq, sumCounts, Vector.toList_replicate, List.map_replicate, List.sum_replicate]
    rfl
  | succ k ih =>
    obtain ⟨hd, -⟩ := h k k.lt_succ_self
    have hgood := h.mono k.le_succ
    have hzero : symEntry (s.declaredFreq k) (s.fileSymbol k) = 0 :=
      not_not.1 fun hne => hd (hgood.duplicatePair_iff.2 hne)
    have hsum := sumCounts_setEntry (s.declaredFreq k) (s.fileSymbol k) (BitVec.ofNat 32 (s.fileFreq k))
    rw [hzero, ofNat_fileFreq_toNat, ih hgood] at hsum
    rw [List.range_succ, List.map_append, List.sum_append, List.map_singleton, List.sum_singleton]
    exact hsum

theorem GoodPairs.declaredFreq_total (h : GoodPairs s s.fileK) :
    (buildModel (s.declaredFreq s.fileK)).total = s.fileSum := h.sumCounts_declaredFreq

/-- FMIN of the declared counts is at most each of them. -/
theorem GoodPairs.fmin_le_fileFreq {k : Nat} (h : GoodPairs s k) {j : Nat} (hj : j < k) :
    (buildModel (s.declaredFreq k)).fmin ≤ s.fileFreq j := by
  rw [← h.declaredFreq_symbol hj]
  exact fmin_le (s.fileSymbol j).isLt ((h.declaredFreq_ne_zero_iff _).2 ⟨j, hj, rfl⟩)

/-! ### The parser's checks in their order (R168) -/

/-- What the parser returns of a file that passes, whose pairs gave the counts f. -/
def State.headerWith (s : State) (f : RegArray) : Header :=
  { freq := f
    n := s.fileN
    hdrLen := headerLength s.fileK
    bitLen := 8 * (s.inLen.toNat - headerLength s.fileK) }

theorem headerParse_short (h : s.inLen.toNat < 2) : s.headerParse = raise .truncatedFile s.inLen := if_pos h

theorem headerParse_badK (hlen : 2 ≤ s.inLen.toNat) (h : s.fileK = 0 ∨ 256 < s.fileK) :
    s.headerParse = raise .decodeCorruption 0 := (if_neg (by omega)).trans (if_pos h)

theorem headerParse_truncated (hlen : 2 ≤ s.inLen.toNat) (h1 : 1 ≤ s.fileK) (h2 : s.fileK ≤ 256)
    (h : s.inLen.toNat < headerLength s.fileK) : s.headerParse = raise .truncatedFile s.inLen :=
  have hk : ¬ (s.fileK = 0 ∨ 256 < s.fileK) := by omega
  (if_neg (by omega)).trans ((if_neg hk).trans (if_pos h))

/-- The parser after the pairs, which gave the counts f: the sum, the payload, the room in OBUF. -/
def State.parseAfterPairs (s : State) (f : RegArray) : Exec Header :=
  if sumCounts f.toList ≠ s.fileN then raise .decodeCorruption (BitVec.ofNat 32 (2 + 5 * s.fileK))
  else if s.inLen.toNat = headerLength s.fileK then raise .truncatedFile s.inLen
  else if s.obufSize.toNat < s.fileN then raise .capacity (bufferInfo .obuf)
  else .ok (s.headerWith f)

/-- Past the checks of the length fields the parser goes through the pairs and then the rest of its checks. -/
theorem HeaderFits.headerParse_eq (h : HeaderFits s) :
    s.headerParse = (s.parsePairs s.fileK 0 (Vector.replicate 256 0)).bind s.parseAfterPairs := by
  obtain ⟨hlen, hk1, hk2, hfits⟩ := h
  have hk : ¬ (s.fileK = 0 ∨ 256 < s.fileK) := by omega
  refine (if_neg (Nat.not_lt.2 hlen)).trans ((if_neg hk).trans ((if_neg (Nat.not_lt.2 hfits)).trans ?_))
  change (match s.parsePairs s.fileK 0 (Vector.replicate 256 0) with | .error a => _ | .ok f => _) = _
  cases s.parsePairs s.fileK 0 (Vector.replicate 256 0) <;> rfl

theorem HeaderFits.headerParse_of_goodPairs (h : HeaderFits s) (hg : GoodPairs s s.fileK) :
    s.headerParse = s.parseAfterPairs (s.declaredFreq s.fileK) := by
  rw [h.headerParse_eq, hg.parsePairs_eq_ok]
  rfl

/-- An error of the pairs is the parser's. -/
theorem HeaderFits.headerParse_of_pairs_error (h : HeaderFits s) {e : ErrorKind} {info : Word32}
    (hp : s.parsePairs s.fileK 0 (Vector.replicate 256 0) = raise e info) : s.headerParse = raise e info := by
  rw [h.headerParse_eq, hp]
  rfl

theorem headerParse_duplicate (h : HeaderFits s) {j : Nat} (hj : j < s.fileK) (hg : GoodPairs s j)
    (hd : DuplicatePair s j) : s.headerParse = raise .decodeCorruption (BitVec.ofNat 32 (2 + 5 * j)) :=
  h.headerParse_of_pairs_error ((hg.parsePairs_at hj).trans (parsePairs_duplicate hg hd))

theorem headerParse_zeroFreq (h : HeaderFits s) {j : Nat} (hj : j < s.fileK) (hg : GoodPairs s j)
    (hd : ¬ DuplicatePair s j) (hz : s.fileFreq j = 0) :
    s.headerParse = raise .decodeCorruption (BitVec.ofNat 32 (3 + 5 * j)) :=
  h.headerParse_of_pairs_error ((hg.parsePairs_at hj).trans (parsePairs_zeroFreq hg hd hz))

theorem headerParse_badSum (h : HeaderFits s) (hg : GoodPairs s s.fileK) (hsum : s.fileSum ≠ s.fileN) :
    s.headerParse = raise .decodeCorruption (BitVec.ofNat 32 (2 + 5 * s.fileK)) :=
  (h.headerParse_of_goodPairs hg).trans (if_pos fun heq => hsum (hg.declaredFreq_total.symm.trans heq))

theorem headerParse_noPayload (h : HeaderFits s) (hg : GoodPairs s s.fileK) (hsum : s.fileSum = s.fileN)
    (hpayload : s.inLen.toNat = headerLength s.fileK) : s.headerParse = raise .truncatedFile s.inLen :=
  (h.headerParse_of_goodPairs hg).trans
    ((if_neg (not_not.2 (hg.declaredFreq_total.trans hsum))).trans (if_pos hpayload))

theorem headerParse_noRoom (h : HeaderFits s) (hg : GoodPairs s s.fileK) (hsum : s.fileSum = s.fileN)
    (hpayload : headerLength s.fileK < s.inLen.toNat) (hroom : s.obufSize.toNat < s.fileN) :
    s.headerParse = raise .capacity 2 :=
  (h.headerParse_of_goodPairs hg).trans
    ((if_neg (not_not.2 (hg.declaredFreq_total.trans hsum))).trans ((if_neg hpayload.ne').trans (if_pos hroom)))

theorem headerParse_pass (h : HeaderFits s) (hg : GoodPairs s s.fileK) (hsum : s.fileSum = s.fileN)
    (hpayload : headerLength s.fileK < s.inLen.toNat) (hroom : s.fileN ≤ s.obufSize.toNat) :
    s.headerParse = .ok (s.headerWith (s.declaredFreq s.fileK)) :=
  (h.headerParse_of_goodPairs hg).trans
    ((if_neg (not_not.2 (hg.declaredFreq_total.trans hsum))).trans
      ((if_neg hpayload.ne').trans (if_neg (Nat.not_lt.2 hroom))))

/-! ### DEC_START (46_decoder.md R222) -/

/-- DEC_START in IDLE ends as its rule does. -/
theorem exec_decStart (hs : s.phase = .idle) : exec .decStart s = finish s (primDecStart s) :=
  exec_eq_finish_of_idle rfl rfl hs

/-- An error of the parser is DEC_START's. -/
theorem exec_decStart_raise (h : Inv s) (hs : s.phase = .idle) {e : ErrorKind} {info : Word32}
    (hparse : s.headerParse = raise e info) : ∃ t, exec .decStart s = .next t ∧ ErrorTaken e info s t := by
  obtain ⟨hlen, -⟩ := h.input
  have hrule : primDecStart s = raise e info := by
    rw [primDecStart, if_neg (Nat.not_lt.2 hlen), hparse]
    rfl
  exact ⟨_, by rw [exec_decStart hs, hrule, finish_raise], errorTaken_takeError e info s⟩

/-- A parsed file whose counts fail the precision check. -/
theorem exec_decStart_precision (h : Inv s) (hs : s.phase = .idle) {hd : Header} (hparse : s.headerParse = .ok hd)
    (hlt : (buildModel hd.freq).fmin * s.quarter < (buildModel hd.freq).total) :
    exec .decStart s =
      .next (takeError .precisionOverflow (BitVec.ofNat 32 (buildModel hd.freq).total) s) := by
  obtain ⟨hlen, -⟩ := h.input
  have hrule : primDecStart s = raise .precisionOverflow (BitVec.ofNat 32 (buildModel hd.freq).total) := by
    rw [primDecStart, if_neg (Nat.not_lt.2 hlen), hparse]
    exact if_pos (precisionFails_iff.2 hlt)
  rw [exec_decStart hs, hrule, finish_raise]

/-- A parsed file whose counts pass it. -/
theorem exec_decStart_pass (h : Inv s) (hs : s.phase = .idle) {hd : Header} (hparse : s.headerParse = .ok hd)
    (hle : (buildModel hd.freq).total ≤ (buildModel hd.freq).fmin * s.quarter) :
    exec .decStart s = .next ((s.decStarted hd).respond .ok (BitVec.ofNat 32 hd.n)) := by
  obtain ⟨hlen, -⟩ := h.input
  obtain ⟨-, -, -, hwidth⟩ := decLoad_registers h hparse
  have hrule : primDecStart s = .ok (s.decStarted hd, BitVec.ofNat 32 hd.n) := by
    rw [primDecStart, if_neg (Nat.not_lt.2 hlen), hparse]
    exact (if_neg fun hfail => Nat.not_lt.2 hle (precisionFails_iff.1 hfail)).trans (if_neg (Nat.not_le.2 hwidth))
  rw [exec_decStart hs, finish_ok hrule]

/-- Settles O25: each clause is one check of the parser, in its order, and the last is the precision check, whose
FMIN is at most the count of pair j. -/
theorem decStartReportsTheFirstHeaderError : Obligations.DecStartReportsTheFirstHeaderError := by
  intro s h hs
  refine ⟨fun hshort => ?_, fun hlen hk => ?_, fun hlen hk1 hk2 hshort => ?_, fun hfits j hj hg hd => ?_,
    fun hfits j hj hg hd hz => ?_, fun hfits hg hsum => ?_, fun hfits hg hsum hpayload => ?_,
    fun hfits hg hsum hpayload hroom => ?_, fun hfits hg hsum hpayload hroom => ?_⟩
  · exact exec_decStart_raise h hs (headerParse_short hshort)
  · exact exec_decStart_raise h hs (headerParse_badK hlen hk)
  · exact exec_decStart_raise h hs (headerParse_truncated hlen hk1 hk2 hshort)
  · exact exec_decStart_raise h hs (headerParse_duplicate hfits hj hg hd)
  · exact exec_decStart_raise h hs (headerParse_zeroFreq hfits hj hg hd hz)
  · exact exec_decStart_raise h hs (headerParse_badSum hfits hg hsum)
  · exact exec_decStart_raise h hs (headerParse_noPayload hfits hg hsum hpayload)
  · exact exec_decStart_raise h hs (headerParse_noRoom hfits hg hsum hpayload hroom)
  · rintro ⟨j, hj, hlow⟩
    have hparse := headerParse_pass hfits hg hsum hpayload hroom
    have htotal : (buildModel (s.declaredFreq s.fileK)).total = s.fileN := hg.declaredFreq_total.trans hsum
    have hlt : (buildModel (s.declaredFreq s.fileK)).fmin * s.quarter < (buildModel (s.declaredFreq s.fileK)).total :=
      calc (buildModel (s.declaredFreq s.fileK)).fmin * s.quarter
        _ ≤ s.fileFreq j * s.quarter := Nat.mul_le_mul_right _ (hg.fmin_le_fileFreq hj)
        _ < s.fileN := hlow
        _ = _ := htotal.symm
    refine ⟨_, exec_decStart_precision h hs hparse hlt, ?_⟩
    rw [← htotal]
    exact errorTaken_takeError _ _ s

/-! ### A file that begins with an encoder's header (R167, R168) -/

/-- A big-endian value is read back where its cells are read. -/
theorem readBigEndian_of_cells {b : Buffer} {m : Memory} {addr n v : Nat} (hv : v < 256 ^ n)
    (h : ∀ c ∈ bigEndianCells addr n v, m.read b c.1 = c.2) : m.readBigEndian b addr n = v :=
  readBigEndian_of_bytes hv fun i hi => h _ (mem_bigEndianCells.2 ⟨i, hi, rfl⟩)

/-- The cells of pair i stand among the pairs' cells. -/
theorem pair_subset_pairCells (f : RegArray) {l : List Byte} {i : Nat} (hi : i < l.length) (j : Nat) :
    bigEndianCells (2 + 5 * (j + i)) 1 l[i].toNat ++ bigEndianCells (3 + 5 * (j + i)) 4 (symEntry f l[i]).toNat ⊆
      pairCells f j l := by
  induction l generalizing i j with
  | nil => cases hi
  | cons c rest ih =>
    cases i with
    | zero => exact List.subset_append_left _ _
    | succ i =>
      have hrest := ih (Nat.lt_of_succ_lt_succ hi) (j + 1)
      rw [Nat.add_assoc, Nat.add_comm 1 i] at hrest
      exact List.subset_append_of_subset_right _ hrest

/-- The file in d's IBUF begins with e's header. -/
def BeginsWithHeader (e d : State) : Prop := ∀ c ∈ e.headerCells, d.ibuf.read .ibuf c.1 = c.2

variable {e d : State}

theorem BeginsWithHeader.fileK_eq (h : BeginsWithHeader e d) : d.fileK = e.symCount.toNat := by
  have hk := e.symCount.isLt
  refine readBigEndian_of_cells (by omega) fun c hc => h c ?_
  exact List.mem_append_left _ (List.mem_append_left _ hc)

theorem BeginsWithHeader.fileN_eq (h : BeginsWithHeader e d) : d.fileN = e.total.toNat := by
  rw [State.fileN, h.fileK_eq]
  exact readBigEndian_of_cells e.total.isLt fun c hc => h c (List.mem_append_right _ hc)

/-- Pair j is the j-th symbol present, with its count. -/
theorem BeginsWithHeader.pair_eq (h : BeginsWithHeader e d) {j : Nat} (hj : j < (symbolsOf e.freq).length) :
    d.fileSymbol j = (symbolsOf e.freq)[j] ∧ d.fileFreq j = (symEntry e.freq (symbolsOf e.freq)[j]).toNat := by
  have hsub := pair_subset_pairCells e.freq hj 0
  rw [Nat.zero_add] at hsub
  have hpairs : ∀ c ∈ pairCells e.freq 0 (symbolsOf e.freq), d.ibuf.read .ibuf c.1 = c.2 := fun c hc =>
    h c (List.mem_append_left _ (List.mem_append_right _ hc))
  constructor
  · refine (hpairs _ (hsub (List.mem_append_left _ (mem_bigEndianCells.2 ⟨0, Nat.one_pos, rfl⟩)))).trans ?_
    simp
  · exact readBigEndian_of_cells (BitVec.isLt _) fun c hc => hpairs c (hsub (List.mem_append_right _ hc))

section
variable (h : BeginsWithHeader e d) (hm : ModelBuilt e)
include h hm

/-- The symbols ascend and are present, so no pair repeats one and no count is 0. -/
theorem BeginsWithHeader.goodPairs : GoodPairs d d.fileK := by
  have hk : (symbolsOf e.freq).length = d.fileK := hm.symbols_length.trans h.fileK_eq.symm
  intro j hj
  obtain ⟨hsym, hfreq⟩ := h.pair_eq (hk ▸ hj)
  constructor
  · rintro ⟨i, hij, heq⟩
    obtain ⟨hsym', -⟩ := h.pair_eq (hk ▸ hij.trans hj)
    rw [hsym, hsym', (symbolsOf_nodup e.freq).getElem_inj_iff] at heq
    exact absurd heq hij.ne
  · rw [hfreq]
    exact (toNat_pos (mem_symbolsOf.1 (List.getElem_mem _))).ne'

/-- The pairs declare the encoder's counts. -/
theorem BeginsWithHeader.declaredFreq_eq : d.declaredFreq d.fileK = e.freq := by
  have hk : (symbolsOf e.freq).length = d.fileK := hm.symbols_length.trans h.fileK_eq.symm
  have hg := h.goodPairs hm
  refine regArray_ext fun c => ?_
  by_cases hc : c ∈ symbolsOf e.freq
  · obtain ⟨j, hj, rfl⟩ := List.mem_iff_getElem.1 hc
    obtain ⟨hsym, hfreq⟩ := h.pair_eq hj
    refine BitVec.eq_of_toNat_eq ?_
    rw [← hfreq, ← hsym, hg.declaredFreq_symbol (hk ▸ hj)]
  · have habsent : symEntry (d.declaredFreq d.fileK) c = 0 := by
      by_contra hne
      obtain ⟨j, hj, hsym⟩ := (hg.declaredFreq_ne_zero_iff c).1 hne
      rw [← hk] at hj
      exact hc (hsym ▸ (h.pair_eq hj).1 ▸ List.getElem_mem hj)
    have hzero : symEntry e.freq c = 0 := not_not.1 fun hne => hc (mem_symbolsOf.2 hne)
    rw [habsent, hzero]

theorem BeginsWithHeader.fileSum_eq : d.fileSum = d.fileN := by
  rw [← (h.goodPairs hm).declaredFreq_total, h.declaredFreq_eq hm, h.fileN_eq]
  obtain ⟨-, -, htotal, -⟩ := hm
  exact htotal.symm

/-- A payload behind the header, and room for the output: the parser passes. -/
theorem BeginsWithHeader.headerParse_eq (hpayload : headerLength e.symCount.toNat < d.inLen.toNat)
    (hroom : e.total.toNat ≤ d.obufSize.toNat) : d.headerParse = .ok (d.headerWith e.freq) := by
  have hk := h.fileK_eq
  rw [← hk] at hpayload
  have hfits : HeaderFits d := by
    obtain ⟨-, -, htotal, hsym, -, hpos, -⟩ := hm
    have hk1 := symCount_pos (f := e.freq) (by omega)
    have hk2 := symCount_le e.freq
    rw [headerLength] at hpayload
    exact ⟨by omega, by omega, by omega, hpayload.le⟩
  rw [headerParse_pass hfits (h.goodPairs hm) (h.fileSum_eq hm) hpayload (h.fileN_eq.trans_le hroom),
    h.declaredFreq_eq hm]

end

/-- The file an encoder left begins with its header. -/
theorem EncDoneInv.beginsWithHeader (he : EncDoneInv e)
    (hbytes : ∀ a, a < e.outLen.toNat → d.readByte .ibuf a = e.readByte .obuf a) : BeginsWithHeader e d := by
  obtain ⟨-, hm, hlen, -, -, -, -, -, hout, hheader, -, -⟩ := he
  intro c hc
  have hlt := headerCells_lt hm.symbols_length hc
  rw [HeaderLength] at hlen
  exact (hbytes c.1 (by omega)).trans (read_of_written .obuf (hheader c hc))

theorem ofNat_eq_of_toNat_eq {w n : Nat} {x : BitVec w} (h : x.toNat = n) : BitVec.ofNat w n = x := by
  rw [← h, BitVec.ofNat_toNat, BitVec.setWidth_eq]

/-- Settles O24: the pairs declare the encoder's counts, so the parser passes with them, and BuildModel and the
precision check answer as they did for the encoder. -/
theorem decStartAcceptsTheEncodersHeader : Obligations.DecStartAcceptsTheEncodersHeader := by
  intro e d he hep hd hdp hprec hlen hbytes hroom
  have hbegins := (he.encDone hep).beginsWithHeader hbytes
  obtain ⟨hcounted, hm, hhdr, -, -, -, -, hbits, hout, -⟩ := he.encDone hep
  have ⟨hlow, hhigh, htotal, hsym, hmin, _, _, hpass⟩ := hm
  have hinput : e.total.toNat = e.inLen.toNat := htotal.trans hcounted.total_eq
  have hdlen : d.inLen.toNat = e.outLen.toNat := congrArg BitVec.toNat hlen
  have hpayload : headerLength e.symCount.toNat < d.inLen.toNat := by
    rw [HeaderLength] at hhdr
    omega
  have hparse := hbegins.headerParse_eq hm hpayload (hinput.trans_le hroom)
  have hquarter : d.quarter = e.quarter := by rw [State.quarter, State.quarter, State.whole, State.whole, hprec]
  rw [htotal, hmin, ← hquarter] at hpass
  obtain ⟨-, hbitsNat, -⟩ := decLoad_registers hd hparse
  refine ⟨_, exec_decStart_pass hd hdp hparse hpass, rfl, rfl, hlow.symm, hhigh.symm, ofNat_eq_of_toNat_eq htotal,
    ofNat_eq_of_toNat_eq hsym, ofNat_eq_of_toNat_eq hmin, ?_, ?_, ?_⟩
  · exact ofNat_eq_of_toNat_eq (hhdr.trans (congrArg headerLength hbegins.fileK_eq.symm))
  · exact ofNat_eq_of_toNat_eq (hinput.symm.trans hbegins.fileN_eq.symm)
  · refine hbitsNat.trans ?_
    show 8 * (d.inLen.toNat - headerLength d.fileK) = _
    rw [hbegins.fileK_eq, hdlen, hhdr]

end Sys2Proof.Machine
end

section
/-! PROOFS. The interval renormalizer (44_interval_renormalizer.md): Narrow (R181), the loops of RenormEnc and RenormDec
run to their ends (R182 to R185), the interval they leave (R186), the bound on the rescalings (R188), the interval Narrow
never empties (R187), and the tag (R191). -/

namespace Sys2Proof.Machine

variable {s t : State} {p : Nat}

/-! ### Narrow (R181) -/

/-- Settles O26: `narrow_mono` and `narrow_bound_le`; the formula is Narrow's definition. -/
theorem narrowStaysInsideTheInterval : Obligations.NarrowStaysInsideTheInterval := by
  intro total lo up cl ch _ hlo hcum hch
  exact ⟨rfl, Nat.le_add_right _ _, narrow_mono hcum, narrow_bound_le hlo hch⟩

/-! ### The loops run to their ends (R182 to R185; log 11) -/

/-- P doublings take an interval that is not empty past WHOLE: the fuel of one phase (R188). -/
theorem whole_le_fuel {lo up : Nat} (h : lo < up) : 2 ^ p ≤ 2 ^ p * (up - lo) :=
  Nat.le_mul_of_pos_right _ (Nat.sub_pos_of_lt h)

/-- Phase 1 with a fuel, where it ends with neither E1 nor E2 to do, is the rule's loop. -/
theorem encPhase1_of_exit (fuel : Nat) {v : EncInterval} (hl : (renormEncPhase1 p fuel v).1.lower ≤ 2 ^ p / 2)
    (hu : 2 ^ p / 2 ≤ (renormEncPhase1 p fuel v).1.upper) :
    EncPhase1 p v (renormEncPhase1 p fuel v).2 (renormEncPhase1 p fuel v).1 := by
  induction fuel generalizing v with
  | zero => exact .done (not_or.2 ⟨hu.not_gt, hl.not_gt⟩)
  | succ fuel ih =>
    by_cases h1 : v.upper < 2 ^ p / 2
    · rw [renormEncPhase1, if_pos h1] at hl hu ⊢
      exact .e1 h1 (ih hl hu)
    · by_cases h2 : 2 ^ p / 2 < v.lower
      · rw [renormEncPhase1, if_neg h1, if_pos h2] at hl hu ⊢
        exact .e2 h1 h2 (ih hl hu)
      · rw [renormEncPhase1, if_neg h1, if_neg h2]
        exact .done (not_or.2 ⟨h1, h2⟩)

/-- Phase 2 with a fuel, where it ends with no E3 to do, is the rule's loop. -/
theorem encPhase2_of_exit (fuel : Nat) {v : EncInterval} (hexit : (renormEncPhase2 p fuel v).lower ≤ 2 ^ p / 4 ∨
    3 * (2 ^ p / 4) ≤ (renormEncPhase2 p fuel v).upper) : EncPhase2 p v (renormEncPhase2 p fuel v) := by
  induction fuel generalizing v with
  | zero => exact .done fun ⟨hl, hu⟩ => hexit.elim hl.not_ge hu.not_ge
  | succ fuel ih =>
    by_cases h : 2 ^ p / 4 < v.lower ∧ v.upper < 3 * (2 ^ p / 4)
    · rw [renormEncPhase2, if_pos h] at hexit ⊢
      exact .e3 h.1 h.2 (ih hexit)
    · rw [renormEncPhase2, if_neg h]
      exact .done h

/-- RenormEnc is phase 1 as its rule writes it, then phase 2. -/
theorem renormEnc_loops (hp : 2 ≤ p) {v : EncInterval} (hv : v.lower < v.upper) (hw : v.upper ≤ 2 ^ p) :
    EncPhase1 p v (renormEnc p v).2 (renormEncPhase1 p p v).1 ∧
      EncPhase2 p (renormEncPhase1 p p v).1 (renormEnc p v).1 := by
  obtain ⟨hl, hu⟩ := renormEncPhase1_exit hp p v hv hw (whole_le_fuel hv)
  obtain ⟨-, -, -, -, hexit⟩ := renormEnc_wide hp hv hw
  exact ⟨encPhase1_of_exit p hl hu, encPhase2_of_exit p hexit⟩

/-- Settles O27: a fuel of P takes each loop to its end. -/
theorem renormEncIsItsTwoLoops : Obligations.RenormEncIsItsTwoLoops := by
  intro p v hp hv hw
  exact ⟨_, renormEnc_loops hp hv hw⟩

/-- The model's read index is the rule's while it is within the payload (43_bitstream_packer.md R166). -/
theorem nextIndex_eq_bumpIndex {rd : Nat} (h : rd ≤ s.bitLen.toNat + 1) :
    nextIndex s.bitLen.toNat rd = bumpIndex s rd := by
  unfold nextIndex bumpIndex
  split <;> omega

/-- The decoder's phase 1: E2 finds HALF below LOWER, hence below TAG. -/
theorem decPhase1_of_exit (fuel : Nat) {v : DecInterval} (ht : v.TagInside) (hr : v.rdIdx ≤ s.bitLen.toNat + 1)
    (hl : (s.renormDecPhase1 p fuel v).lower ≤ 2 ^ p / 2) (hu : 2 ^ p / 2 ≤ (s.renormDecPhase1 p fuel v).upper) :
    DecPhase1 s p v (s.renormDecPhase1 p fuel v) := by
  induction fuel generalizing v with
  | zero => exact .done (not_or.2 ⟨hu.not_gt, hl.not_gt⟩)
  | succ fuel ih =>
    obtain ⟨-, hr'⟩ := nextIndex_le hr
    by_cases h1 : v.upper < 2 ^ p / 2
    · rw [State.renormDecPhase1, if_pos h1] at hl hu ⊢
      refine .e1 h1 ?_
      rw [← nextIndex_eq_bumpIndex hr]
      exact ih (rescaleDec_tag s (Nat.zero_le _) ht) hr' hl hu
    · by_cases h2 : 2 ^ p / 2 < v.lower
      · rw [State.renormDecPhase1, if_neg h1, if_pos h2] at hl hu ⊢
        refine .e2 h1 h2 (h2.le.trans ht.1) ?_
        rw [← nextIndex_eq_bumpIndex hr]
        exact ih (rescaleDec_tag s h2.le ht) hr' hl hu
      · rw [State.renormDecPhase1, if_neg h1, if_neg h2]
        exact .done (not_or.2 ⟨h1, h2⟩)

/-- The decoder's phase 2: E3 finds QUARTER below LOWER, hence below TAG. -/
theorem decPhase2_of_exit (fuel : Nat) {v : DecInterval} (ht : v.TagInside) (hr : v.rdIdx ≤ s.bitLen.toNat + 1)
    (hexit : (s.renormDecPhase2 p fuel v).lower ≤ 2 ^ p / 4 ∨
      3 * (2 ^ p / 4) ≤ (s.renormDecPhase2 p fuel v).upper) : DecPhase2 s p v (s.renormDecPhase2 p fuel v) := by
  induction fuel generalizing v with
  | zero => exact .done fun ⟨hl, hu⟩ => hexit.elim hl.not_ge hu.not_ge
  | succ fuel ih =>
    by_cases h : 2 ^ p / 4 < v.lower ∧ v.upper < 3 * (2 ^ p / 4)
    · rw [State.renormDecPhase2, if_pos h] at hexit ⊢
      obtain ⟨hl, hu⟩ := h
      obtain ⟨-, hr'⟩ := nextIndex_le hr
      refine .e3 hl hu (hl.le.trans ht.1) ?_
      rw [← nextIndex_eq_bumpIndex hr]
      exact ih (rescaleDec_tag s hl.le ht) hr' hexit
    · rw [State.renormDecPhase2, if_neg h]
      exact .done h

/-- RenormDec is phase 1 as its rule writes it, then phase 2. -/
theorem renormDec_loops (hp : 2 ≤ p) {v : DecInterval} (ht : v.TagInside) (hw : v.upper ≤ 2 ^ p)
    (hr : v.rdIdx ≤ s.bitLen.toNat + 1) :
    DecPhase1 s p v (s.renormDecPhase1 p p v) ∧ DecPhase2 s p (s.renormDecPhase1 p p v) (s.renormDec p v) := by
  have hv : v.lower < v.upper := ht.1.trans_lt ht.2
  obtain ⟨hlow, hupp⟩ := renormDecPhase1_bounds s p p v 0
  obtain ⟨hl, hu⟩ := renormEncPhase1_exit hp p ⟨v.lower, v.upper, 0⟩ hv hw (whole_le_fuel hv)
  rw [← hlow] at hl
  rw [← hupp] at hu
  obtain ⟨-, -, -, -, hexit⟩ := renormDec_wide s hp hv hw
  obtain ⟨-, hr'⟩ := renormDecPhase1_rdIdx s p p hr
  exact ⟨decPhase1_of_exit p ht hr hl hu, decPhase2_of_exit p (renormDecPhase1_tag s p p ht) hr' hexit⟩

/-- Settles O28: as for the encoder, and the tag stays in the interval. -/
theorem renormDecIsItsTwoLoops : Obligations.RenormDecIsItsTwoLoops := by
  intro s p v hp htl htu hw hr
  exact ⟨_, renormDec_loops hp ⟨htl, htu⟩ hw hr⟩

/-! ### The interval after renormalization (R186) -/

/-- Settles O29: `renormEnc_wide` and `renormDec_wide`. -/
theorem renormalizationLeavesAWideInterval : Obligations.RenormalizationLeavesAWideInterval := by
  intro p lo up hp hlt hw
  refine ⟨fun n => ?_, fun s tag rd => ?_⟩
  · obtain ⟨hl, hu, hwhole, hrange, hexit⟩ := renormEnc_wide hp (v := ⟨lo, up, n⟩) hlt hw
    exact ⟨hl, hu, hexit, hrange, hwhole⟩
  · obtain ⟨hl, hu, hwhole, hrange, hexit⟩ := renormDec_wide s hp (v := ⟨lo, up, tag, rd⟩) hlt hw
    exact ⟨hl, hu, hexit, hrange, hwhole⟩

/-! ### At most P rescalings (R188) -/

/-- An interval that is not empty and stays within WHOLE was doubled at most P times. -/
theorem rescalings_le {k lo up lo' up' : Nat} (h : lo < up) (hw : up' ≤ 2 ^ p)
    (hk : up' - lo' = 2 ^ k * (up - lo)) : k ≤ p := by
  refine (Nat.pow_le_pow_iff_right (by decide : 1 < 2)).1 ?_
  calc 2 ^ k
    _ ≤ 2 ^ k * (up - lo) := whole_le_fuel h
    _ = up' - lo' := hk.symm
    _ ≤ 2 ^ p := (Nat.sub_le _ _).trans hw

/-- The k rescalings of a RenormEnc: each doubles the width and adds one to the bits emitted plus the bits pending. -/
theorem renormEnc_rescalings (hp : 2 ≤ p) {v : EncInterval} (hv : v.lower < v.upper) (hw : v.upper ≤ 2 ^ p) :
    ∃ k, (renormEnc p v).1.upper - (renormEnc p v).1.lower = 2 ^ k * (v.upper - v.lower) ∧
      (renormEnc p v).2.length + (renormEnc p v).1.pending = v.pending + k := by
  obtain ⟨k, -, hwidth1, hv1, hw1, hbits1⟩ := renormEncPhase1_spec hp p v hv hw
  obtain ⟨hl1, hu1⟩ := renormEncPhase1_exit hp p v hv hw (whole_le_fuel hv)
  obtain ⟨j, -, hwidth2, -, -, -, -, hpend2⟩ := renormEncPhase2_spec hp p _ hl1 hu1 hv1 hw1
  refine ⟨j + k, ?_, ?_⟩
  · rw [Nat.pow_add, Nat.mul_assoc, ← hwidth1]
    exact hwidth2
  · rw [Nat.add_comm j k, ← Nat.add_assoc, ← hbits1, Nat.add_assoc, ← hpend2]
    rfl

/-- `w` is what k rescalings, with a `nextbit()` each, make of the width and the read index of `v` (R184, R185). -/
def DecInterval.Rescaled (s : State) (k : Nat) (v w : DecInterval) : Prop :=
  w.upper - w.lower = 2 ^ k * (v.upper - v.lower) ∧
    (v.rdIdx ≤ s.bitLen.toNat + 1 → w.rdIdx = min (v.rdIdx + k) (s.bitLen.toNat + 1))

theorem DecInterval.Rescaled.refl (s : State) (v : DecInterval) : v.Rescaled s 0 v :=
  ⟨(Nat.one_mul _).symm, fun hr => (Nat.min_eq_left hr).symm⟩

theorem DecInterval.Rescaled.trans {j k : Nat} {u v w : DecInterval} (h1 : u.Rescaled s j v) (h2 : v.Rescaled s k w) :
    u.Rescaled s (j + k) w := by
  obtain ⟨hwidth1, hrd1⟩ := h1
  obtain ⟨hwidth2, hrd2⟩ := h2
  refine ⟨?_, fun hr => ?_⟩
  · rw [hwidth2, hwidth1, Nat.add_comm j k, Nat.pow_add, Nat.mul_assoc]
  · have hv := hrd1 hr
    have hw := hrd2 (hv.trans_le (Nat.min_le_right _ _))
    omega

/-- One rescaling about a base at or below LOWER. -/
theorem rescaled_rescaleDec {v : DecInterval} {base : Nat} (hb : base ≤ v.lower) :
    v.Rescaled s 1 (s.rescaleDec base v) := by
  refine ⟨?_, fun hr => ?_⟩
  · show 2 * (v.upper - base) - 2 * (v.lower - base) = 2 ^ 1 * (v.upper - v.lower)
    omega
  · show nextIndex s.bitLen.toNat v.rdIdx = _
    unfold nextIndex
    split <;> omega

theorem renormDecPhase1_rescaled (s : State) (p fuel : Nat) (v : DecInterval) :
    ∃ k, v.Rescaled s k (s.renormDecPhase1 p fuel v) := by
  induction fuel generalizing v with
  | zero => exact ⟨0, .refl s v⟩
  | succ fuel ih =>
    rw [State.renormDecPhase1]
    split
    · obtain ⟨k, hk⟩ := ih (s.rescaleDec 0 v)
      exact ⟨1 + k, (rescaled_rescaleDec (Nat.zero_le _)).trans hk⟩
    · split
      · obtain ⟨k, hk⟩ := ih (s.rescaleDec (2 ^ p / 2) v)
        exact ⟨1 + k, (rescaled_rescaleDec (Nat.le_of_lt ‹_›)).trans hk⟩
      · exact ⟨0, .refl s v⟩

theorem renormDecPhase2_rescaled (s : State) (p fuel : Nat) (v : DecInterval) :
    ∃ k, v.Rescaled s k (s.renormDecPhase2 p fuel v) := by
  induction fuel generalizing v with
  | zero => exact ⟨0, .refl s v⟩
  | succ fuel ih =>
    rw [State.renormDecPhase2]
    split
    · rename_i h
      obtain ⟨k, hk⟩ := ih (s.rescaleDec (2 ^ p / 4) v)
      exact ⟨1 + k, (rescaled_rescaleDec h.1.le).trans hk⟩
    · exact ⟨0, .refl s v⟩

theorem renormDec_rescaled (s : State) (p : Nat) (v : DecInterval) : ∃ k, v.Rescaled s k (s.renormDec p v) := by
  obtain ⟨j, hj⟩ := renormDecPhase1_rescaled s p p v
  obtain ⟨k, hk⟩ := renormDecPhase2_rescaled s p p (s.renormDecPhase1 p p v)
  exact ⟨j + k, hj.trans hk⟩

/-- Settles O30: the width after the rescalings is at most WHOLE, and it was at least 1. -/
theorem renormalizationRescalesAtMostPTimes : Obligations.RenormalizationRescalesAtMostPTimes := by
  intro p lo up hp hlt hw
  refine ⟨fun n => ?_, fun s tag rd => ?_⟩
  · obtain ⟨-, -, hwhole, -⟩ := renormEnc_wide hp (v := ⟨lo, up, n⟩) hlt hw
    obtain ⟨k, hwidth, hbits⟩ := renormEnc_rescalings hp (v := ⟨lo, up, n⟩) hlt hw
    have hk : k ≤ p := rescalings_le hlt hwhole hwidth
    dsimp only at hbits
    exact ⟨k, hk, hwidth, hbits, by omega, by omega⟩
  · obtain ⟨-, -, hwhole, -⟩ := renormDec_wide s hp (v := ⟨lo, up, tag, rd⟩) hlt hw
    obtain ⟨k, hwidth, hrd⟩ := renormDec_rescaled s p ⟨lo, up, tag, rd⟩
    exact ⟨k, rescalings_le hlt hwhole hwidth, hwidth, hrd⟩

/-! ### Narrow never empties the interval (R187) -/

/-- A symbol whose share of the range is at least one unit gets an interval that is not empty. -/
theorem narrow_lt {total lo up cl f : Nat} (hT : 0 < total) (h : total ≤ (up - lo) * f) :
    (narrow total lo up cl (cl + f)).1 < (narrow total lo up cl (cl + f)).2 := by
  refine Nat.add_lt_add_left ?_ lo
  calc (up - lo) * cl / total
    _ < (up - lo) * cl / total + 1 := Nat.lt_succ_self _
    _ = ((up - lo) * cl + total) / total := (Nat.add_div_right _ hT).symm
    _ ≤ (up - lo) * (cl + f) / total := Nat.div_le_div_right (by rw [Nat.mul_add]; omega)

/-- CUM_HIGH[c] = CUM_LOW[c] + FREQ[c] (42_frequency_model.md R143). -/
theorem HoldsModel.high_eq_low_add (h : HoldsModel s) (c : Byte) :
    (symEntry s.cumHigh c).toNat = (symEntry s.cumLow c).toNat + (symEntry s.freq c).toNat := by
  rw [h.high_eq, h.low_eq, sumBelow_succ]
  rfl

theorem ModelBuilt.holdsModel (h : ModelBuilt s) : HoldsModel s := by
  obtain ⟨hlow, hhigh, htotal, -⟩ := h
  exact ⟨hlow, hhigh, htotal⟩

/-- FMIN is at most the count of a symbol present. -/
theorem ModelBuilt.fmin_le (h : ModelBuilt s) {c : Byte} (hc : symEntry s.freq c ≠ 0) :
    s.fmin.toNat ≤ (symEntry s.freq c).toNat := by
  obtain ⟨-, -, -, -, hmin, -⟩ := h
  rw [hmin]
  exact Machine.fmin_le c.isLt hc

/-- The range is at least QUARTER and the precision check passed, so no symbol present loses its interval (R187). -/
theorem candidate_lt (hm : ModelBuilt s) (hw : IntervalWide s) {c : Byte} (hc : symEntry s.freq c ≠ 0) :
    (s.candidate c).1 < (s.candidate c).2 := by
  obtain ⟨-, -, -, hrange, -⟩ := hw
  have hfmin := hm.fmin_le hc
  have hhigh := hm.holdsModel.high_eq_low_add c
  obtain ⟨-, -, -, -, -, hpos, -, hprec⟩ := hm
  rw [State.candidate, hhigh]
  refine narrow_lt hpos ?_
  calc s.total.toNat
    _ ≤ s.fmin.toNat * s.quarter := hprec
    _ ≤ (symEntry s.freq c).toNat * (s.upper.toNat - s.lower.toNat) := Nat.mul_le_mul hfmin hrange
    _ = (s.upper.toNat - s.lower.toNat) * (symEntry s.freq c).toNat := Nat.mul_comm _ _

/-- While coding, the model is built and the interval is wide. -/
theorem Inv.coding (h : Inv s) (hs : s.phase = .encoding ∨ s.phase = .decoding) : ModelBuilt s ∧ IntervalWide s := by
  obtain hs | hs := hs
  · obtain ⟨-, hm, -, -, hw, -⟩ := h.encoding hs
    exact ⟨hm, hw⟩
  · obtain ⟨hm, -, hw, -⟩ := h.decoding hs
    exact ⟨hm, hw⟩

/-- A byte of the input is counted (42_frequency_model.md R140). -/
theorem InputCounted.freq_readByte_ne_zero (h : InputCounted s) {i : Nat} (hi : i < s.inLen.toNat) :
    symEntry s.freq (s.readByte .ibuf i) ≠ 0 := by
  obtain ⟨-, hfreq⟩ := h
  have hlen : (s.inputBytes s.inLen.toNat).length < 2 ^ 32 := by
    rw [inputBytes_length]
    exact s.inLen.isLt
  have hmem : s.readByte .ibuf i ∈ s.inputBytes s.inLen.toNat := List.mem_map.2 ⟨i, List.mem_range.2 hi, rfl⟩
  intro hzero
  have hcount := symEntry_countBytes_toNat hlen (s.readByte .ibuf i)
  rw [← hfreq, hzero] at hcount
  exact (List.count_pos_iff.2 hmem).ne hcount

/-- While there is input left, ENC_STEP narrows to an interval that is not empty. -/
theorem Inv.encNarrow_lt (h : Inv s) (hs : s.phase = .encoding) (hpos : s.encPos ≠ s.inLen) :
    s.encNarrow.1 < s.encNarrow.2 := by
  obtain ⟨hm, hw⟩ := h.coding (.inl hs)
  obtain ⟨hcounted, -, -, -, -, hle, -⟩ := h.encoding hs
  exact candidate_lt hm hw (hcounted.freq_readByte_ne_zero (by bv_omega))

/-! ### The collapse guard (45_encoder.md R204) -/

/-- A rule that raised did so at its check, or after passing it. -/
theorem ite_raise_eq_raise {α : Type} {c : Prop} [Decidable c] {e e' : ErrorKind} {info info' : Word32}
    {rest : Exec α} :
    (if c then raise e info else rest) = raise e' info' ↔ c ∧ e = e' ∧ info = info' ∨ ¬ c ∧ rest = raise e' info' := by
  by_cases h : c <;> simp [h, raise]

theorem ite_stop_eq_raise {α : Type} {c : Prop} [Decidable c] {f : Fault} {e : ErrorKind} {info : Word32}
    {rest : Exec α} : (if c then stop f else rest) = raise e info ↔ ¬ c ∧ rest = raise e info := by
  by_cases h : c <;> simp [h, stop, raise]

/-- The three errors of ENC_STEP, each with the check that raised it (45_encoder.md R202, R204, R205). -/
theorem primEncStep_raise {e : ErrorKind} {info : Word32} (h : primEncStep s = raise e info) :
    e = .phase ∧ s.encPos = s.inLen ∨
    e = .precisionOverflow ∧ s.encPos ≠ s.inLen ∧ s.encNarrow.2 ≤ s.encNarrow.1 ∨
    e = .capacity ∧ s.capBits < s.bitCount.toNat + s.encRenorm.2.length + s.encRenorm.1.pending + 2 := by
  simp only [primEncStep, ite_raise_eq_raise, ite_stop_eq_raise] at h
  obtain ⟨hpos, rfl, -⟩ | ⟨hpos, -, -, -, ⟨hempty, rfl, -⟩ | ⟨-, -, ⟨hroom, rfl, -⟩ | ⟨-, -, hok⟩⟩⟩ := h
  · exact .inl ⟨rfl, hpos⟩
  · exact .inr (.inl ⟨rfl, hpos, hempty⟩)
  · exact .inr (.inr ⟨rfl, hroom⟩)
  · cases hok

/-- ENC_STEP in ENCODING ends as its rule does. -/
theorem exec_encStep (hs : s.phase = .encoding) : exec .encStep s = finish s (primEncStep s) :=
  exec_eq_finish rfl (by rw [hs]; rfl) (by simp [hs])

/-- ENC_STEP leaves no PrecisionOverflowError: the guard would need an interval that Narrow emptied. -/
theorem exec_encStep_errCode_ne (h : Inv s) (hs : s.phase = .encoding) (hexec : exec .encStep s = .next t) :
    t.errCode ≠ ErrorKind.precisionOverflow.code := by
  rw [exec_encStep hs] at hexec
  obtain ⟨u, d, hrule, rfl⟩ | ⟨e, info, hrule, rfl⟩ := finish_next hexec
  · obtain ⟨-, -, -, -, -, rfl⟩ := primEncStep_ok hrule
    obtain ⟨hcode, -⟩ := h.err.2 (by simp [hs])
    rw [encCommit_eq, respond_errCode, hcode]
    exact (ErrorKind.code_ne_zero _).symm
  · rw [takeError_errCode]
    obtain ⟨rfl, -⟩ | ⟨-, hpos, hempty⟩ | ⟨rfl, -⟩ := primEncStep_raise hrule
    · decide
    · exact absurd (h.encNarrow_lt hs hpos) (Nat.not_lt.2 hempty)
    · decide

/-- Settles O31: the proof of R187, and the guard's check fails for the symbol at ENC_POS, which is present. -/
theorem narrowNeverCollapses : Obligations.NarrowNeverCollapses := by
  intro s h hs
  obtain ⟨hm, hw⟩ := h.coding hs
  exact ⟨fun c hc => candidate_lt hm hw hc, fun henc t hexec => exec_encStep_errCode_ne h henc hexec⟩

/-! ### The tag (R191) -/

/-- Tag initialization shifts P bits in (46_decoder.md R221). -/
theorem initTag_tag_lt (s : State) : s.initTag.tag.toNat < s.whole := by
  have htag := shiftBits_lt s s.prec.toNat 0 0 1 (by decide)
  rw [Nat.zero_add] at htag
  show (BitVec.ofNat 32 (s.shiftBits s.prec.toNat 0 1).1).toNat < s.whole
  rwa [toNat_ofNat_of_lt (htag.trans_le ((whole_le s).trans (by decide)))]

/-- DEC_START leaves the tag in the initial interval (46_decoder.md R222). -/
theorem tagIn_decStarted (s : State) (hd : Header) : TagIn (s.decStarted hd) := by
  refine ⟨Nat.zero_le _, ?_⟩
  show (s.decLoad hd).initTag.tag.toNat < (BitVec.ofNat 32 s.whole).toNat
  rw [whole_toNat]
  exact initTag_tag_lt _

/-- RenormDec on the registers keeps the tag in the interval and the interval within WHOLE, wherever it reads. -/
theorem tagIn_decRenorm (hprec : PrecLegal s) (hi : IntervalIn s) (ht : TagIn s) :
    TagIn s.decRenorm ∧ s.decRenorm.upper.toNat ≤ s.whole := by
  obtain ⟨hlt, hwhole⟩ := hi
  have hwide := renormDec_wide s (v := s.decInterval) hprec hlt hwhole
  obtain ⟨htl, htu⟩ := renormDec_tag s s.prec.toNat (v := s.decInterval) ht
  have hup := hwide.upper_lt s.prec.isLt
  have hlower : s.decRenorm.lower.toNat = (s.renormDec s.prec.toNat s.decInterval).lower :=
    toNat_ofNat_of_lt (hwide.lower_lt s.prec.isLt)
  have hupper : s.decRenorm.upper.toNat = (s.renormDec s.prec.toNat s.decInterval).upper := toNat_ofNat_of_lt hup
  have htag : s.decRenorm.tag.toNat = (s.renormDec s.prec.toNat s.decInterval).tag :=
    toNat_ofNat_of_lt (htu.trans hup)
  obtain ⟨-, -, hle, -⟩ := hwide
  rw [TagIn, hlower, hupper, htag]
  exact ⟨⟨htl, htu⟩, hle⟩

/-- DEC_STEP's rule keeps the tag in the interval and the interval within WHOLE: the matched candidate has the tag
inside (46_decoder.md R224), and so has what RenormDec makes of it. -/
theorem primDecStep_tag {d : Word32} (hprec : PrecLegal s) (h : primDecStep s = .ok (t, d)) :
    TagIn t ∧ t.upper.toNat ≤ s.whole := by
  obtain ⟨sym, hsym, -, hwhole, ⟨-, rfl⟩ | ⟨-, rfl⟩⟩ := primDecStep_ok h
  · obtain ⟨⟨-, hupper⟩, htag⟩ := decEmit_interval hsym hwhole
    exact ⟨htag, hupper⟩
  · obtain ⟨hinterval, htag⟩ := decEmit_interval hsym hwhole
    exact tagIn_decRenorm (s := s.decEmit sym) hprec hinterval htag

/-- Settles O32: a command that ends in DECODING or DEC_DONE completed its rule, whose tag is in its interval. -/
theorem theTagStaysInTheInterval : Obligations.TheTagStaysInTheInterval := by
  refine fun s t => ⟨fun hexec hphase => ?_, fun hprec hexec hphase => ?_⟩
  · obtain ⟨u, d, ⟨-, rule, d', hr, hok⟩, rfl⟩ :=
      exec_primitive_completes (i := .decStart) rfl hexec (by simp [hphase])
    cases hr
    obtain ⟨hd, -, -, rfl⟩ := primDecStart_ok hok
    exact tagIn_decStarted s hd
  · have hne : t.phase ≠ .error := by rcases hphase with h | h <;> simp [h]
    obtain ⟨u, d, ⟨-, rule, d', hr, hok⟩, rfl⟩ := exec_primitive_completes (i := .decStep) rfl hexec hne
    cases hr
    obtain ⟨htag, hupper⟩ := primDecStep_tag hprec hok
    exact ⟨htag, htag.2.trans_le hupper⟩

end Sys2Proof.Machine
end

section
/-! PROOFS. The encoder's primitives (45_encoder.md): ENC_START and the header (R201), ENC_STEP (R202), ENC_FINISH
(R203), and the capacity check, which is exact (R205). -/

namespace Sys2Proof.Machine

variable {s t u : State} {d : Word32} {bits : List Bool}

/-! ### ENC_START (R201) -/

/-- ENC_START in MODEL_READY ends as its rule does. -/
theorem exec_encStart (hs : s.phase = .modelReady) : exec .encStart s = finish s (primEncStart s) :=
  exec_eq_finish rfl (by rw [hs]; rfl) (by simp [hs])

/-- With room for the header and one payload byte ENC_START completes. -/
theorem primEncStart_of_lt (hk : (symbolsOf s.freq).length = s.symCount.toNat)
    (hroom : headerLength s.symCount.toNat < s.obufSize.toNat) : primEncStart s = .ok (s.encStarted, 0) := by
  rw [primEncStart, if_neg (Nat.not_le.2 hroom), headerWrite_ok hk hroom.le]
  rfl

/-- Without it, ERR_CAPACITY. -/
theorem primEncStart_of_le (hroom : s.obufSize.toNat ≤ headerLength s.symCount.toNat) :
    primEncStart s = raise .capacity 2 := if_pos hroom

section Header

variable (hk : (symbolsOf s.freq).length = s.symCount.toNat)
include hk

/-- The header's cells are read back from the OBUF ENC_START leaves. -/
theorem read_encStarted_of_mem {c : Host.Cell} (hc : c ∈ s.headerCells) :
    s.encStarted.obuf.read .obuf c.1 = c.2 := read_of_written .obuf (written_headerCells s.obuf hk hc)

theorem encStarted_symCount : s.encStarted.obuf.readBigEndian .obuf 0 2 = s.symCount.toNat := by
  have hlt := s.symCount.isLt
  exact readBigEndian_of_cells (by omega) fun c hc =>
    read_encStarted_of_mem hk (List.mem_append_left _ (List.mem_append_left _ hc))

theorem encStarted_total : s.encStarted.obuf.readBigEndian .obuf (2 + 5 * s.symCount.toNat) 4 = s.total.toNat :=
  readBigEndian_of_cells s.total.isLt fun _ hc => read_encStarted_of_mem hk (List.mem_append_right _ hc)

/-- Pair j of the header is the j-th symbol present, with its count. -/
theorem encStarted_pair {j : Nat} (hj : j < (symbolsOf s.freq).length) :
    s.encStarted.readByte .obuf (2 + 5 * j) = (symbolsOf s.freq)[j] ∧
      s.encStarted.obuf.readBigEndian .obuf (3 + 5 * j) 4 = (symEntry s.freq (symbolsOf s.freq)[j]).toNat := by
  have hsub := pair_subset_pairCells s.freq hj 0
  rw [Nat.zero_add] at hsub
  have hpairs : ∀ c ∈ pairCells s.freq 0 (symbolsOf s.freq), s.encStarted.obuf.read .obuf c.1 = c.2 := fun c hc =>
    read_encStarted_of_mem hk (List.mem_append_left _ (List.mem_append_right _ hc))
  constructor
  · refine (hpairs _ (hsub (List.mem_append_left _ (mem_bigEndianCells.2 ⟨0, Nat.one_pos, rfl⟩)))).trans ?_
    simp
  · exact readBigEndian_of_cells (BitVec.isLt _) fun c hc => hpairs c (hsub (List.mem_append_right _ hc))

/-- From HDR_LEN on ENC_START leaves OBUF as it was. -/
theorem readByte_encStarted_of_le {a : Nat} (ha : headerLength s.symCount.toNat ≤ a) :
    s.encStarted.readByte .obuf a = s.readByte .obuf a :=
  read_writeCells_other .obuf s.obuf _ fun _ hc => ((headerCells_lt hk hc).trans_le ha).ne

end Header

/-- Settles O23: the header's cells are read back as its fields, the symbols in it are `symbolsOf`, and the other side
of the room check raises. -/
theorem encStartWritesTheHeader : Obligations.EncStartWritesTheHeader := by
  intro s h hs
  obtain ⟨hcounted, hm, -⟩ := h.modelReady hs
  have hk := hm.symbols_length
  have hinput : s.total.toNat = s.inLen.toNat := hm.holdsModel.total.trans hcounted.total_eq
  refine ⟨fun hroom => ⟨s.encStarted.respond .ok 0, symbolsOf s.freq, ?_, rfl, fun c => mem_symbolsOf,
    symbolsOf_sorted _, hk, encStarted_symCount hk, fun j hj => encStarted_pair hk hj,
    (encStarted_total hk).trans hinput, fun a ha => readByte_encStarted_of_le hk ha⟩, fun hroom => ?_⟩
  · rw [exec_encStart hs, finish_ok (primEncStart_of_lt hk hroom)]
  · exact ⟨_, by rw [exec_encStart hs, primEncStart_of_le hroom, finish_raise], errorTaken_takeError _ _ s⟩

/-! ### The bytes a run of bits goes into (43_bitstream_packer.md R161) -/

/-- The bytes before the first bit's byte and after the last bit's byte are read as before. -/
theorem readByte_emitAll_outside (h : s.bitCount.toNat + bits.length < 2 ^ 32) {a : Nat}
    (ha : a < s.hdrLen.toNat + s.bitCount.toNat / 8 ∨
      s.hdrLen.toNat + (s.bitCount.toNat + bits.length + 7) / 8 ≤ a) :
    (s.emitAll bits).readByte .obuf a = s.readByte .obuf a := by
  show (s.emitAll bits).obuf.read .obuf a = s.obuf.read .obuf a
  rw [Memory.read, Memory.read, emitAll_written_other h ha, emitAll_epoch]

/-- Only the bytes the bits of a run go into change. -/
theorem readByte_emitAll_of_ne (h : s.bitCount.toNat + bits.length < 2 ^ 32) {a : Nat}
    (ha : ∀ j, j < bits.length → a ≠ s.sinkAddress (s.bitCount.toNat + j)) :
    (s.emitAll bits).readByte .obuf a = s.readByte .obuf a := by
  cases bits with
  | nil => rfl
  | cons b bs =>
    refine readByte_emitAll_outside h ?_
    by_contra hin
    rw [List.length_cons] at h hin ha
    refine ha (max (8 * (a - s.hdrLen.toNat)) s.bitCount.toNat - s.bitCount.toNat) (by omega) ?_
    rw [State.sinkAddress]
    omega

/-! ### ENC_STEP (R202, R205) -/

/-- A symbol's candidate interval lies within WHOLE (44_interval_renormalizer.md R181). -/
theorem candidate_le_whole (hm : ModelBuilt s) (hw : IntervalWide s) (c : Byte) : (s.candidate c).2 ≤ s.whole := by
  obtain ⟨hl, hu, hwhole, -⟩ := hw
  exact (narrow_bound_le (hl.trans hu) (hm.holdsModel.high_le_total c)).trans hwhole

theorem encNarrow_le_whole (hm : ModelBuilt s) (hw : IntervalWide s) : s.encNarrow.2 ≤ s.whole :=
  candidate_le_whole hm hw s.encSymbol

/-- The interval between two steps is legal (44_interval_renormalizer.md R180). -/
theorem intervalLegal_of_wide (hprec : PrecLegal s) (hw : IntervalWide s) :
    intervalLegal s.prec.toNat s.lower.toNat s.upper.toNat = true := by
  have hq := quarter_pos hprec
  obtain ⟨-, -, hwhole, hrange, -⟩ := hw
  rw [State.whole] at hwhole
  simp only [intervalLegal, Bool.and_eq_true, decide_eq_true_eq]
  omega

/-- With input left, only the capacity check of ENC_STEP can fail in a state of a run. -/
theorem Inv.primEncStep_eq (h : Inv s) (hs : s.phase = .encoding) (hpos : s.encPos ≠ s.inLen) :
    primEncStep s =
      if s.capBits < s.bitCount.toNat + s.encRenorm.2.length + s.encRenorm.1.pending + 2 then
        raise .capacity (bufferInfo .obuf)
      else
        .ok (s.encCommit s.encRenorm.1 s.encRenorm.2, BitVec.ofNat 32 (s.bitCount.toNat + s.encRenorm.2.length)) := by
  obtain ⟨-, hm, -, -, hw, hle, -⟩ := h.encoding hs
  obtain ⟨hin, -⟩ := h.input
  obtain ⟨-, -, -, hsize⟩ := h.sizes
  have hread : s.encPos.toNat < s.ibufSize.toNat := by bv_omega
  have htotal : s.total ≠ 0 := fun hzero => by
    obtain ⟨-, -, -, -, -, hone, -⟩ := hm
    simp [hzero] at hone
  rw [primEncStep, if_neg hpos, if_neg (Nat.not_le.2 hread), if_neg htotal,
    if_neg (by rw [intervalLegal_of_wide h.prec hw]; decide), if_neg (Nat.not_le.2 (h.encNarrow_lt hs hpos)),
    if_neg (Nat.not_lt.2 (encNarrow_le_whole hm hw))]
  by_cases hroom : s.capBits < s.bitCount.toNat + s.encRenorm.2.length + s.encRenorm.1.pending + 2
  · rw [if_pos hroom, if_pos hroom]
  · have hwidth : ¬ 2 ^ 32 ≤ s.bitCount.toNat + s.encRenorm.2.length + s.encRenorm.1.pending := by
      rw [State.capBits] at hroom
      omega
    rw [if_neg hroom, if_neg hroom, if_neg hwidth]

/-- With room for the bits and the final ones ENC_STEP completes. -/
theorem Inv.primEncStep_room (h : Inv s) (hs : s.phase = .encoding) (hpos : s.encPos ≠ s.inLen)
    (hroom : s.bitCount.toNat + s.encRenorm.2.length + s.encRenorm.1.pending + 2 ≤ s.capBits) :
    primEncStep s =
      .ok (s.encCommit s.encRenorm.1 s.encRenorm.2, BitVec.ofNat 32 (s.bitCount.toNat + s.encRenorm.2.length)) :=
  (h.primEncStep_eq hs hpos).trans (if_neg (Nat.not_lt.2 hroom))

/-- Without it, ERR_CAPACITY. -/
theorem exec_encStep_noRoom (h : Inv s) (hs : s.phase = .encoding) (hpos : s.encPos ≠ s.inLen)
    (hroom : s.capBits < s.bitCount.toNat + s.encRenorm.2.length + s.encRenorm.1.pending + 2) :
    exec .encStep s = .next (takeError .capacity 2 s) := by
  rw [exec_encStep hs, (h.primEncStep_eq hs hpos).trans (if_pos hroom), finish_raise]
  rfl

/-- With every symbol encoded, ERR_PHASE. -/
theorem exec_encStep_atEnd (hs : s.phase = .encoding) (hpos : s.encPos = s.inLen) :
    exec .encStep s = .next (takeError .phase 0x31 s) := by
  have hrule : primEncStep s = raise .phase 0x31 := if_pos hpos
  rw [exec_encStep hs, hrule, finish_raise]

/-- The registers ENC_STEP commits hold what RenormEnc gave. -/
theorem primEncStep_registers (hprec : PrecLegal s) (h : primEncStep s = .ok (t, d)) :
    t.lower.toNat = s.encRenorm.1.lower ∧ t.upper.toNat = s.encRenorm.1.upper ∧
      t.pending.toNat = s.encRenorm.1.pending ∧ t.bitCount.toNat = s.bitCount.toNat + s.encRenorm.2.length := by
  obtain ⟨-, hlt, hwhole, -, hwidth, rfl⟩ := primEncStep_ok h
  have hwide : WideBounds s.prec.toNat s.encRenorm.1.lower s.encRenorm.1.upper := renormEnc_wide hprec hlt hwhole
  exact ⟨toNat_ofNat_of_lt (hwide.lower_lt s.prec.isLt), toNat_ofNat_of_lt (hwide.upper_lt s.prec.isLt),
    toNat_ofNat_of_lt (by omega), emitAll_bitCount (by omega)⟩

/-- Settles O35: the bits and the interval are RenormEnc's, whose loops run to their ends, and the capacity check is the
only one that can fail. -/
theorem encStepEncodesOneSymbol : Obligations.EncStepEncodesOneSymbol := by
  intro s h hs
  refine ⟨fun hlt => ?_, fun hpos => ⟨_, exec_encStep_atEnd hs hpos, errorTaken_takeError _ _ s⟩⟩
  have hpos : s.encPos ≠ s.inLen := fun he => absurd (congrArg BitVec.toNat he) hlt.ne
  obtain ⟨hm, hw⟩ := h.coding (.inl hs)
  obtain ⟨-, -, -, -, -, -, -, -, -, htrail, -⟩ := h.encoding hs
  obtain ⟨hphase1, hphase2⟩ := renormEnc_loops h.prec (v := ⟨s.encNarrow.1, s.encNarrow.2, s.pending.toNat⟩)
    (h.encNarrow_lt hs hpos) (encNarrow_le_whole hm hw)
  refine ⟨s.encRenorm.2, _, s.encRenorm.1, hphase1, hphase2, fun hroom => ?_, fun hroom => ?_⟩
  · have hok := h.primEncStep_room hs hpos hroom
    obtain ⟨-, -, -, -, hwidth, -⟩ := primEncStep_ok hok
    obtain ⟨hlower, hupper, hpending, hcount⟩ := primEncStep_registers h.prec hok
    have hbits : s.bitCount.toNat + s.encRenorm.2.length < 2 ^ 32 := by omega
    refine ⟨_, (exec_encStep hs).trans (finish_ok hok), ?_, hlower, hupper, hpending, hcount,
      fun j hj => htrail.payloadBit_emitAll hbits hj, fun j hj => payloadBit_emitAll_lt hbits hj,
      fun a ha => readByte_emitAll_of_ne hbits ha⟩
    rw [ofNat_eq_of_toNat_eq hcount, ← hs, encCommit_eq]
    rfl
  · exact ⟨_, exec_encStep_noRoom h hs hpos hroom, errorTaken_takeError _ _ s⟩

/-! ### ENC_FINISH (R203) -/

/-- ENC_FINISH in ENCODING ends as its rule does. -/
theorem exec_encFinish (hs : s.phase = .encoding) : exec .encFinish s = finish s (primEncFinish s) :=
  exec_eq_finish rfl (by rw [hs]; rfl) (by simp [hs])

@[simp] theorem encFinalBits_length (s : State) : s.encFinalBits.length = s.pending.toNat + 2 :=
  finalBits_length _ _ _

/-- ENC_FINISH emits the pending bits and two more. -/
theorem primEncFinish_bitCount (h : primEncFinish s = .ok (t, d)) :
    t.bitCount.toNat = s.bitCount.toNat + s.pending.toNat + 2 := by
  obtain ⟨-, -, hwidth, rfl⟩ := primEncFinish_ok h
  rw [encFinishCommit_bitCount, emitAll_bitCount hwidth, encFinalBits_length, Nat.add_assoc]

/-- OUT_LEN counts the header and the payload's bytes (43_bitstream_packer.md R162). -/
theorem primEncFinish_outLen (hsize : s.obufSize.toNat ≤ 2 ^ 28) (h : primEncFinish s = .ok (t, d)) :
    t.outLen.toNat = s.hdrLen.toNat + (t.bitCount.toNat + 7) / 8 ∧ t.outLen.toNat ≤ s.obufSize.toNat := by
  obtain ⟨-, hroom, hwidth, rfl⟩ := primEncFinish_ok h
  rw [encFinishCommit_outLen, encFinishCommit_bitCount, emitAll_bitCount hwidth, toNat_ofNat_of_lt (by omega)]
  exact ⟨rfl, hroom⟩

/-- With every symbol encoded, ENC_FINISH completes: the capacity check left room for the final bits (R205). -/
theorem Inv.primEncFinish_eq (h : Inv s) (hs : s.phase = .encoding) (hpos : s.encPos = s.inLen) :
    primEncFinish s = .ok (s.encFinishCommit, s.encFinishCommit.outLen) := by
  obtain ⟨-, -, -, hhdr, -, -, hcap, -⟩ := h.encoding hs
  obtain ⟨-, -, -, hsize⟩ := h.sizes
  rw [State.capBits] at hcap
  have hfits : s.sinkFits s.encFinalBits.length = true := by
    rw [State.sinkFits, encFinalBits_length]
    exact decide_eq_true (by omega)
  rw [primEncFinish, if_neg (by rw [hpos]; exact lt_irrefl _), if_neg (by rw [hfits]; decide),
    if_neg (by rw [encFinalBits_length]; omega)]

/-- With symbols left, ERR_PHASE. -/
theorem exec_encFinish_early (hs : s.phase = .encoding) (hpos : s.encPos.toNat < s.inLen.toNat) :
    exec .encFinish s = .next (takeError .phase 0x32 s) := by
  have hrule : primEncFinish s = raise .phase 0x32 := if_pos hpos
  rw [exec_encFinish hs, hrule, finish_raise]

/-- Settles O36: the statement's bits are FinalBits', a run like any other, and the rest of the last byte is 0. -/
theorem encFinishClosesTheFile : Obligations.EncFinishClosesTheFile := by
  intro s h hs
  refine ⟨fun hpos => ?_, fun hpos => ⟨_, exec_encFinish_early hs hpos, errorTaken_takeError _ _ s⟩⟩
  intro bits
  obtain ⟨-, -, -, -, -, -, -, -, -, htrail, -⟩ := h.encoding hs
  obtain ⟨-, -, -, hsize⟩ := h.sizes
  have hok := h.primEncFinish_eq hs hpos
  obtain ⟨-, -, hwidth, -⟩ := primEncFinish_ok hok
  have hcount := primEncFinish_bitCount hok
  obtain ⟨hlen, -⟩ := primEncFinish_outLen hsize hok
  refine ⟨_, (exec_encFinish hs).trans (finish_ok hok), ?_, hcount, hlen,
    fun j hj => htrail.payloadBit_emitAll hwidth hj, fun j hj => payloadBit_emitAll_lt hwidth hj,
    htrail.emitAll hwidth, fun a ha => readByte_emitAll_of_ne hwidth ha⟩
  rw [encFinishCommit_eq]
  rfl

/-! ### The capacity check is exact (R205) -/

/-- The rescalings of an ENC_STEP, at most P, are what it adds to the bits emitted and those pending
(44_interval_renormalizer.md R188). -/
theorem encRenorm_demand (hprec : PrecLegal s) (hlt : s.encNarrow.1 < s.encNarrow.2)
    (hwhole : s.encNarrow.2 ≤ s.whole) :
    ∃ k, k ≤ s.prec.toNat ∧ s.encRenorm.2.length + s.encRenorm.1.pending = s.pending.toNat + k := by
  obtain ⟨-, -, hle, -⟩ := renormEnc_wide hprec (v := ⟨s.encNarrow.1, s.encNarrow.2, s.pending.toNat⟩) hlt hwhole
  obtain ⟨k, hrange, hbits⟩ :=
    renormEnc_rescalings hprec (v := ⟨s.encNarrow.1, s.encNarrow.2, s.pending.toNat⟩) hlt hwhole
  exact ⟨k, rescalings_le hlt hle hrange, hbits⟩

/-- A completed ENC_STEP raises BIT_COUNT + PENDING by its rescalings and leaves room for the final bits. -/
theorem primEncStep_demand (hprec : PrecLegal s) (h : primEncStep s = .ok (t, d)) :
    s.bitCount.toNat + s.pending.toNat ≤ t.bitCount.toNat + t.pending.toNat ∧
      t.bitCount.toNat + t.pending.toNat ≤ s.bitCount.toNat + s.pending.toNat + s.prec.toNat ∧
      t.bitCount.toNat + t.pending.toNat + 2 ≤ s.capBits := by
  obtain ⟨-, hlt, hwhole, hroom, -, -⟩ := primEncStep_ok h
  obtain ⟨-, -, hpending, hcount⟩ := primEncStep_registers hprec h
  obtain ⟨k, hk, hbits⟩ := encRenorm_demand hprec hlt hwhole
  omega

/-- A command of a list that does not end in ERROR completed, and the rest of the list follows it. -/
theorem execAll_cons_next {i : Instr} {is : List Instr} (h : execAll (i :: is) s = .next u) (hu : u.phase ≠ .error) :
    ∃ t, exec i s = .next t ∧ t.phase ≠ .error ∧ execAll is t = .next u := by
  rw [execAll] at h
  split at h
  · rename_i t ht
    by_cases herr : t.phase = .error
    · rw [if_pos herr] at h
      cases h
      exact absurd herr hu
    · rw [if_neg herr] at h
      exact ⟨t, ht, herr, h⟩
  · cases h
  · cases h

theorem Inv.execAll {is : List Instr} (h : Inv s) (hrun : execAll is s = .next u) : Inv u := by
  induction is generalizing s with
  | nil => cases hrun; exact h
  | cons i is ih =>
    rw [Machine.execAll] at hrun
    split at hrun
    · rename_i t ht
      split at hrun
      · cases hrun
        exact h.exec ht
      · exact ih (h.exec ht) hrun
    · cases hrun
    · cases hrun

/-- A primitive command that does not end in ERROR completed its rule. -/
theorem exec_rule_completes {i : Instr} {rule : State → Exec (State × Word32)} (hr : ruleOf i = some rule)
    (h : exec i s = .next t) (ht : t.phase ≠ .error) :
    ∃ u d d', rule s = .ok (u, d) ∧ t = u.respond .ok d' := by
  obtain ⟨u, d', ⟨-, rule', d, hr', hok⟩, rfl⟩ := exec_primitive_completes hr h ht
  cases hr.symm.trans hr'
  exact ⟨u, d, d', hok, rfl⟩

/-- ENC_STEPs and an ENC_FINISH that completes: the payload has at least the bits emitted, those pending and two more,
and the header stays. -/
theorem execAll_encode_bitCount (n : Nat) (h : Inv s) (hs : s.phase = .encoding)
    (hrun : execAll (List.replicate n .encStep ++ [.encFinish]) s = .next u) (hu : u.phase = .encDone) :
    s.bitCount.toNat + s.pending.toNat + 2 ≤ u.bitCount.toNat ∧ u.hdrLen = s.hdrLen := by
  induction n generalizing s with
  | zero =>
    obtain ⟨t, hexec, ht, hnil⟩ := execAll_cons_next hrun (by simp [hu])
    cases hnil
    obtain ⟨v, d, d', hok, rfl⟩ := exec_rule_completes (i := .encFinish) rfl hexec ht
    have hcount := primEncFinish_bitCount hok
    obtain ⟨-, -, -, rfl⟩ := primEncFinish_ok hok
    exact ⟨hcount.ge, encFinishCommit_hdrLen s⟩
  | succ n ih =>
    obtain ⟨t, hexec, ht, hrest⟩ := execAll_cons_next hrun (by simp [hu])
    obtain ⟨v, d, d', hok, rfl⟩ := exec_rule_completes (i := .encStep) rfl hexec ht
    obtain ⟨hgrow, -⟩ := primEncStep_demand h.prec hok
    have hv : v.phase = .encoding ∧ v.hdrLen = s.hdrLen := by
      obtain ⟨-, -, -, -, -, rfl⟩ := primEncStep_ok hok
      exact ⟨(encCommit_phase ..).trans hs, encCommit_hdrLen ..⟩
    obtain ⟨hle, hhdr⟩ := ih (h.exec hexec) hv.1 hrest
    change v.bitCount.toNat + v.pending.toNat + 2 ≤ _ at hle
    exact ⟨by omega, hhdr.trans hv.2⟩

/-- Where ENC_STEP raises ERR_CAPACITY, symbols are left and the bits do not fit. -/
theorem exec_encStep_capacity (h : Inv s) (hs : s.phase = .encoding) (hexec : exec .encStep s = .next t)
    (hcode : t.errCode = ErrorKind.capacity.code) : s.encPos ≠ s.inLen ∧
      s.capBits < s.bitCount.toNat + s.encRenorm.2.length + s.encRenorm.1.pending + 2 := by
  by_cases hpos : s.encPos = s.inLen
  · cases (exec_encStep_atEnd hs hpos).symm.trans hexec
    rw [takeError_errCode] at hcode
    exact absurd hcode (by decide)
  refine ⟨hpos, Nat.lt_of_not_le fun hroom => ?_⟩
  cases ((exec_encStep hs).trans (finish_ok (h.primEncStep_room hs hpos hroom))).symm.trans hexec
  obtain ⟨hzero, -⟩ := h.err.2 (by simp [hs])
  rw [respond_errCode, encCommit_errCode, hzero] at hcode
  exact absurd hcode (by decide)

/-- An encode that ends although an ENC_STEP with the OBUF of `s` has no room makes a longer payload than that OBUF
holds. -/
theorem execAll_encode_exceeds {size : Word32} {n : Nat} (hpos : s.encPos ≠ s.inLen) (hs : s.phase = .encoding)
    (hroom : s.capBits < s.bitCount.toNat + s.encRenorm.2.length + s.encRenorm.1.pending + 2)
    (h : Inv { s with obufSize := size })
    (hrun : execAll (List.replicate n .encStep ++ [.encFinish]) { s with obufSize := size } = .next u)
    (hu : u.phase = .encDone) : s.capBits < u.bitCount.toNat := by
  cases n with
  | zero =>
    obtain ⟨t, hexec, ht, hnil⟩ := execAll_cons_next hrun (by simp [hu])
    cases hnil
    obtain ⟨-, -, -, -, -, hle, -⟩ := h.encoding hs
    have hearly := exec_encFinish_early (s := { s with obufSize := size }) hs (by bv_omega)
    cases hearly.symm.trans hexec
    exact absurd rfl ht
  | succ n =>
    obtain ⟨t, hexec, ht, hrest⟩ := execAll_cons_next hrun (by simp [hu])
    obtain ⟨v, d, d', hok, rfl⟩ := exec_rule_completes (i := .encStep) rfl hexec ht
    obtain ⟨-, -, hpending, hcount⟩ := primEncStep_registers h.prec hok
    have hv : v.phase = .encoding := by
      obtain ⟨-, -, -, -, -, rfl⟩ := primEncStep_ok hok
      exact (encCommit_phase ..).trans hs
    obtain ⟨hle, -⟩ := execAll_encode_bitCount n (h.exec hexec) hv hrest hu
    change v.bitCount.toNat + v.pending.toNat + 2 ≤ _ at hle
    change v.pending.toNat = s.encRenorm.1.pending at hpending
    change v.bitCount.toNat = s.bitCount.toNat + s.encRenorm.2.length at hcount
    omega

/-- Settles O37: each rescaling adds one to BIT_COUNT + PENDING, the check leaves room for the two final bits, and an
encode of the same state in another OBUF emits what the failing ENC_STEP would have. -/
theorem theCapacityCheckIsExact : Obligations.TheCapacityCheckIsExact := by
  intro s t h hs
  obtain ⟨-, -, -, hsize⟩ := h.sizes
  refine ⟨fun hexec ht => ?_, fun hexec ht => ?_, fun n hrun ht => ?_, fun hexec hcode size n u h' hrun hu => ?_⟩
  · obtain ⟨v, d, d', hok, rfl⟩ := exec_rule_completes (i := .encStep) rfl hexec (by simp [ht])
    obtain ⟨hgrow, -, hroom⟩ := primEncStep_demand h.prec hok
    exact ⟨hgrow, hroom, (h.exec hexec).regs.pending⟩
  · obtain ⟨v, d, d', hok, rfl⟩ := exec_rule_completes (i := .encFinish) rfl hexec (by simp [ht])
    have hcount := primEncFinish_bitCount hok
    obtain ⟨-, hfits⟩ := primEncFinish_outLen hsize hok
    exact ⟨hcount, hfits⟩
  · exact (execAll_encode_bitCount n h hs hrun ht).1
  · obtain ⟨hpos, hroom⟩ := exec_encStep_capacity h hs hexec hcode
    have hlong := execAll_encode_exceeds hpos hs hroom h' hrun hu
    obtain ⟨-, hhdr⟩ := execAll_encode_bitCount n h' hs hrun hu
    obtain ⟨-, -, -, -, -, -, -, -, hout, -⟩ := (h'.execAll hrun).encDone hu
    change u.hdrLen = s.hdrLen at hhdr
    rw [State.capBits] at hlong
    rw [hout, hhdr]
    omega

end Sys2Proof.Machine
end

section
/-! PROOFS. COMPRESS is its primitive sequence (45_encoder.md R207): a list of commands does what the run of its
primitives does, because no rule reads the response channel. -/

namespace Sys2Proof.Machine

variable {s t u : State} {d : Word32}

/-! ### COMPRESS is its sequence (R207)

The commands of the sequence answer one by one, and COMPRESS answers once: the states on the way differ in the
response only, and no rule reads it. -/

/-- The state with another response word. -/
def State.withRsp (s : State) (r : Option Word64) : State := { s with rsp := r }

/-- The result of a rule with another response word. -/
def withRspResult (r : Option Word64) (x : State × Word32) : State × Word32 := (x.1.withRsp r, x.2)

/-- A rule neither reads nor writes the response channel. -/
def IgnoresRsp (rule : State → Exec (State × Word32)) : Prop :=
  ∀ (s : State) (r : Option Word64), rule (s.withRsp r) = (rule s).map (withRspResult r)

theorem map_ite {c : Prop} [Decidable c] {α β : Type} (f : α → β) (a b : Exec α) :
    (if c then a else b).map f = if c then a.map f else b.map f := apply_ite _ _ _ _

theorem ignoresRsp_fmCount : IgnoresRsp primFmCount := by
  intro s r
  unfold primFmCount
  simp only [map_ite]
  rfl

theorem ignoresRsp_fmBuild : IgnoresRsp primFmBuild := by
  intro s r
  unfold primFmBuild
  simp only [map_ite]
  rfl

theorem headerWrite_withRsp (s : State) (r : Option Word64) :
    (s.withRsp r).headerWrite = s.headerWrite.map (·.withRsp r) := by
  unfold State.headerWrite
  simp only [map_ite]
  rfl

theorem ignoresRsp_encStart : IgnoresRsp primEncStart := by
  intro s r
  unfold primEncStart
  rw [headerWrite_withRsp, map_ite]
  cases s.headerWrite <;> rfl

theorem emitAll_withRsp (s : State) (r : Option Word64) (bits : List Bool) :
    (s.withRsp r).emitAll bits = (s.emitAll bits).withRsp r := by
  induction bits generalizing s with
  | nil => rfl
  | cons b bs ih => exact ih (s.emit b)

theorem ignoresRsp_encStep : IgnoresRsp primEncStep := by
  intro s r
  have hcommit : (s.withRsp r).encCommit (s.withRsp r).encRenorm.1 (s.withRsp r).encRenorm.2 =
      (s.encCommit s.encRenorm.1 s.encRenorm.2).withRsp r := by
    rw [State.encCommit, emitAll_withRsp]
    rfl
  unfold primEncStep
  simp only [map_ite, hcommit]
  rfl

theorem ignoresRsp_encFinish : IgnoresRsp primEncFinish := by
  intro s r
  have hcommit : (s.withRsp r).encFinishCommit = s.encFinishCommit.withRsp r := by
    rw [State.encFinishCommit]
    change { ((s.withRsp r).emitAll s.encFinalBits).sinkFinalize with
      pending := 0, outValid := true, phase := .encDone } = _
    rw [emitAll_withRsp]
    rfl
  unfold primEncFinish
  rw [hcommit]
  simp only [map_ite]
  rfl

/-- ENC_FINISH answers OUT_LEN (R203). -/
theorem primEncFinish_data (h : primEncFinish s = .ok (t, d)) : d = t.outLen := by
  simp only [primEncFinish, ite_raise_eq_ok, ite_stop_eq_ok] at h
  obtain ⟨-, -, -, h⟩ := h
  cases h
  rfl

/-- Outside ERROR a primitive command ends as its rule does, behind the phase check (30_encoding.md R91). -/
theorem exec_eq_finish_inPhases {i : Instr} {rule : State → Exec (State × Word32)} (hr : ruleOf i = some rule)
    (he : s.phase ≠ .error) : exec i s = finish s (inPhases i.mnemonic rule s) := by
  obtain hexec | ⟨hs, -⟩ := exec_of_ruleOf hr s
  · rw [hexec, execPrimitive, if_neg fun hc => he hc.1]
  · exact absurd hs he

theorem ignoresRsp_inPhases (m : Mnemonic) {rule : State → Exec (State × Word32)} (h : IgnoresRsp rule) :
    IgnoresRsp (inPhases m rule) := by
  intro s r
  rw [inPhases, inPhases, map_ite, ← h]
  rfl

section Cons

variable {i : Instr} {rule : State → Exec (State × Word32)} (hr : ruleOf i = some rule) (hrule : IgnoresRsp rule)
  (is : List Instr) (r : Option Word64)
include hr hrule

/-- A primitive that completes passes its state on to the rest of the list. -/
theorem execAll_cons_ok (hs : s.phase ≠ .error) (h : inPhases i.mnemonic rule s = .ok (t, d)) :
    execAll (i :: is) (s.withRsp r) = execAll is (t.respond .ok d) := by
  have ht : t.phase ≠ .error := (Completes.ofInPhases hr h).phase_ne_error hs
  rw [execAll, exec_eq_finish_inPhases (s := s.withRsp r) hr hs, ignoresRsp_inPhases _ hrule, h]
  exact if_neg ht

/-- A primitive that fails ends the list, and the sequence. -/
theorem execAll_cons_error (hs : s.phase ≠ .error) {a : Abort} (h : inPhases i.mnemonic rule s = .error a) :
    execAll (i :: is) (s.withRsp r) = finishRun (.error (s, a)) := by
  rw [execAll, exec_eq_finish_inPhases (s := s.withRsp r) hr hs, ignoresRsp_inPhases _ hrule, h]
  cases a <;> rfl

end Cons

/-- The commands of a list do what the run does from every state outside ERROR, whatever the response channel holds. -/
def Performs (is : List Instr) (run : State → Run) : Prop :=
  ∀ (s : State) (r : Option Word64), s.phase ≠ .error → execAll is (s.withRsp r) = finishRun (run s)

section Performs

variable {i : Instr} {rule : State → Exec (State × Word32)} (hr : ruleOf i = some rule) (hrule : IgnoresRsp rule)
include hr hrule

/-- A last command that answers OUT_LEN, as COMPRESS does. -/
theorem Performs.single (hlen : ∀ {s t d}, rule s = .ok (t, d) → d = t.outLen) :
    Performs [i] (runPrimitive (inPhases i.mnemonic rule)) := by
  intro s r hs
  rw [runPrimitive]
  cases h : inPhases i.mnemonic rule s with
  | ok x =>
    obtain ⟨-, hok⟩ := inPhases_ok h
    rw [execAll_cons_ok hr hrule [] r hs h, hlen hok]
    rfl
  | error a => exact execAll_cons_error hr hrule [] r hs h

/-- A command ahead of a list is a primitive ahead of a run. -/
theorem Performs.cons {is : List Instr} {run : State → Run} (hrest : Performs is run) :
    Performs (i :: is) fun s => andThen (runPrimitive (inPhases i.mnemonic rule) s) run := by
  intro s r hs
  dsimp only
  rw [runPrimitive]
  cases h : inPhases i.mnemonic rule s with
  | ok x =>
    have ht : x.1.phase ≠ .error := (Completes.ofInPhases hr h).phase_ne_error hs
    rw [execAll_cons_ok hr hrule is r hs h]
    exact hrest x.1 _ ht
  | error a => exact execAll_cons_error hr hrule is r hs h

/-- The same command n times ahead of a list. -/
theorem Performs.replicate {is : List Instr} {run : State → Run} (hrest : Performs is run) (n : Nat) :
    Performs (List.replicate n i ++ is) fun s => andThen (repeatPrimitive (inPhases i.mnemonic rule) n s) run := by
  induction n with
  | zero => exact hrest
  | succ n ih =>
    intro s r hs
    refine (ih.cons hr hrule s r hs).trans (congrArg finishRun ?_)
    dsimp only
    rw [repeatPrimitive_succ]
    cases runPrimitive (inPhases i.mnemonic rule) s <;> rfl

end Performs

theorem performs_compressSequence (n : Nat) : Performs (compressSequence n) fun s =>
    andThen (runPrimitive (inPhases .fmCount primFmCount) s) fun a =>
    andThen (runPrimitive (inPhases .fmBuild primFmBuild) a) fun b =>
    andThen (runPrimitive (inPhases .encStart primEncStart) b) fun c =>
    andThen (repeatPrimitive (inPhases .encStep primEncStep) n c) fun d =>
    runPrimitive (inPhases .encFinish primEncFinish) d := by
  have hfinish : Performs [.encFinish] (runPrimitive (inPhases .encFinish primEncFinish)) :=
    .single (i := .encFinish) rfl ignoresRsp_encFinish primEncFinish_data
  have hsteps := hfinish.replicate (i := .encStep) rfl ignoresRsp_encStep n
  exact ((hsteps.cons (i := .encStart) rfl ignoresRsp_encStart).cons (i := .fmBuild) rfl ignoresRsp_fmBuild).cons
    (i := .fmCount) rfl ignoresRsp_fmCount

/-- COMPRESS in IDLE ends as its sequence does. -/
theorem exec_compress (hs : s.phase = .idle) : exec .compress s = finishRun (runCompress s) :=
  execSequence_pass (by rw [hs]; rfl)

/-- Settles O38: the list's commands answer one by one, but nothing reads the response before the last one replaces
it. -/
theorem compressIsItsSequence : Obligations.CompressIsItsSequence := by
  intro s hs
  rw [exec_compress hs]
  exact (performs_compressSequence s.inLen.toNat s s.rsp (by simp [hs])).symm

end Sys2Proof.Machine
end

section
/-! PROOFS. A whole COMPRESS (45_encoder.md R207): what its ENC_STEPs keep, the state it encodes from and how it ends,
and that it completes where the file surely fits (R188, R205). -/

namespace Sys2Proof.Machine

variable {s t u v c e : State} {d : Word32}

/-! ### What the ENC_STEPs keep -/

/-- `u` is reached from `c` by ENC_STEPs: a state of a run that encodes the same input behind the same header, and OBUF
past the bits so far is as it was. -/
structure EncodesFrom (c u : State) : Prop where
  inv    : Inv u
  phase  : u.phase = .encoding
  input  : SameInput c u
  port   : u.port = c.port
  freq   : u.freq = c.freq
  hdrLen : u.hdrLen = c.hdrLen
  past   : ∀ a, u.hdrLen.toNat + (u.bitCount.toNat + 7) / 8 ≤ a → u.readByte .obuf a = c.readByte .obuf a

theorem EncodesFrom.refl (h : Inv c) (hs : c.phase = .encoding) : EncodesFrom c c :=
  ⟨h, hs, ⟨rfl, rfl, rfl, rfl, rfl, rfl, rfl⟩, rfl, rfl, rfl, fun _ _ => rfl⟩

theorem EncodesFrom.encStep (h : EncodesFrom c u) (hok : primEncStep u = .ok (v, d)) : EncodesFrom c v := by
  have hinv := h.inv.encStep h.phase hok
  obtain ⟨-, -, hcount⟩ := (primEncStep_registers h.inv.prec hok).2
  obtain ⟨-, -, -, -, hwidth, rfl⟩ := primEncStep_ok hok
  refine ⟨hinv, (encCommit_phase ..).trans h.phase, ?_, (encCommit_port ..).trans h.port,
    (encCommit_freq ..).trans h.freq, (encCommit_hdrLen ..).trans h.hdrLen, fun a ha => ?_⟩
  · rw [encCommit_eq]
    exact ⟨h.input.ibufSize, h.input.obufSize, h.input.prec, h.input.ibuf, h.input.inLen, h.input.errCode,
      h.input.errInfo⟩
  · rw [hcount, encCommit_hdrLen] at ha
    have hkept : (u.encCommit u.encRenorm.1 u.encRenorm.2).readByte .obuf a = u.readByte .obuf a :=
      readByte_emitAll_outside (by omega) (.inr ha)
    rw [hkept]
    exact h.past a (by omega)

/-- The ENC_STEP of a sequence that completes. -/
theorem inPhases_encStep (hs : s.phase = .encoding) : inPhases .encStep primEncStep s = primEncStep s :=
  inPhases_pass (by rw [hs]; rfl)

theorem EncodesFrom.repeatEncStep {n : Nat} (h : Inv c) (hs : c.phase = .encoding)
    (hrun : repeatPrimitive (inPhases .encStep primEncStep) n c = .ok u) : EncodesFrom c u :=
  repeatPrimitive_ok (fun hu hok => hu.encStep (inPhases_ok hok).2) (.refl h hs) hrun

/-- ENC_STEPs up to the end of the input complete where P bits a symbol and the final bits fit (R188, R205). -/
theorem Inv.repeatEncStep_completes {n : Nat} (h : Inv s) (hs : s.phase = .encoding)
    (hn : s.encPos.toNat + n = s.inLen.toNat)
    (hroom : s.bitCount.toNat + s.pending.toNat + s.prec.toNat * n + 2 ≤ s.capBits) :
    ∃ e, repeatPrimitive (inPhases .encStep primEncStep) n s = .ok e ∧ e.encPos = e.inLen := by
  induction n generalizing s with
  | zero => exact ⟨s, rfl, BitVec.eq_of_toNat_eq hn⟩
  | succ n ih =>
    have hpos : s.encPos ≠ s.inLen := fun he => by
      rw [he] at hn
      omega
    obtain ⟨hm, hw⟩ := h.coding (.inl hs)
    obtain ⟨k, hk, hbits⟩ := encRenorm_demand h.prec (h.encNarrow_lt hs hpos) (encNarrow_le_whole hm hw)
    rw [Nat.mul_succ] at hroom
    have hok := h.primEncStep_room hs hpos (by omega)
    obtain ⟨-, hdemand, -⟩ := primEncStep_demand h.prec hok
    have hv := (EncodesFrom.refl h hs).encStep hok
    generalize s.encCommit s.encRenorm.1 s.encRenorm.2 = v at hok hdemand hv
    have hencPos : v.encPos = s.encPos + 1 := by
      obtain ⟨-, -, -, -, -, rfl⟩ := primEncStep_ok hok
      exact encCommit_encPos ..
    have hcap : v.capBits = s.capBits := by rw [State.capBits, State.capBits, hv.hdrLen, hv.input.obufSize]
    obtain ⟨e, hrun, hend⟩ := ih hv.inv hv.phase
      (by rw [hencPos, hv.input.inLen]; bv_omega) (by rw [hcap, hv.input.prec]; omega)
    refine ⟨e, ?_, hend⟩
    rw [repeatPrimitive_succ, runPrimitive_of_ok ((inPhases_encStep hs).trans hok)]
    exact hrun

/-! ### The state COMPRESS encodes from -/

/-- The state after FM_COUNT, FM_BUILD and ENC_START. -/
def State.encodeStart (s : State) : State := s.inputCounted.modelBuilt.encStarted

/-- The rest of COMPRESS: the ENC_STEPs and ENC_FINISH. -/
def runEncode (n : Nat) (c : State) : Run :=
  andThen (repeatPrimitive (inPhases .encStep primEncStep) n c) fun e =>
  runPrimitive (inPhases .encFinish primEncFinish) e

/-- What COMPRESS checks before it encodes. -/
structure Encodable (s : State) : Prop where
  phase     : s.phase = .idle
  input     : s.inLen ≠ 0
  precision : (buildModel s.inputCounted.freq).total ≤ (buildModel s.inputCounted.freq).fmin * s.quarter
  room      : headerLength s.inputCounted.modelBuilt.symCount.toNat < s.obufSize.toNat

theorem Encodable.inv_modelBuilt (h : Encodable s) (hs : Inv s) : Inv s.inputCounted.modelBuilt :=
  (hs.fmCount h.phase h.input).fmBuild rfl h.precision

theorem Encodable.inv_encodeStart (h : Encodable s) (hs : Inv s) : Inv s.encodeStart := by
  have hinv := h.inv_modelBuilt hs
  obtain ⟨-, hm, -⟩ := hinv.modelReady rfl
  exact hinv.encStart rfl h.room fun c hc => (headerCells_lt hm.symbols_length hc).trans h.room

/-- FM_BUILD completes where the precision check passes. -/
theorem primFmBuild_of_le (hT : (buildModel s.freq).total < 2 ^ 32)
    (hle : (buildModel s.freq).total ≤ (buildModel s.freq).fmin * s.quarter) :
    primFmBuild s = .ok (s.modelBuilt, s.modelBuilt.total) :=
  (if_neg (Nat.not_le.2 hT)).trans (if_neg fun hfail => Nat.not_lt.2 hle (precisionFails_iff.1 hfail))

theorem Encodable.runCompress_eq (h : Encodable s) (hs : Inv s) :
    runCompress s = runEncode s.inLen.toNat s.encodeStart := by
  obtain ⟨hin, -⟩ := hs.input
  have hinv := h.inv_modelBuilt hs
  obtain ⟨-, hm, -⟩ := hinv.modelReady rfl
  have htotal : (buildModel s.inputCounted.freq).total < 2 ^ 32 := hm.holdsModel.total_lt
  have hcount : inPhases .fmCount primFmCount s = .ok (s.inputCounted, s.inLen) := by
    rw [inPhases_pass (by rw [h.phase]; rfl), primFmCount, if_neg h.input, if_neg (Nat.not_lt.2 hin)]
    rfl
  have hbuild : inPhases .fmBuild primFmBuild s.inputCounted =
      .ok (s.inputCounted.modelBuilt, s.inputCounted.modelBuilt.total) :=
    (inPhases_pass rfl).trans (primFmBuild_of_le htotal h.precision)
  have hstart : inPhases .encStart primEncStart s.inputCounted.modelBuilt = .ok (s.encodeStart, 0) :=
    (inPhases_pass rfl).trans (primEncStart_of_lt hm.symbols_length h.room)
  rw [runCompress, runPrimitive_of_ok hcount]
  rw [andThen, runPrimitive_of_ok hbuild]
  rw [andThen, runPrimitive_of_ok hstart]
  rfl

/-- A COMPRESS whose sequence completes passed the checks. -/
theorem runCompress_ok (h : runCompress s = .ok u) : Encodable s ∧ runEncode s.inLen.toNat s.encodeStart = .ok u := by
  obtain ⟨a, ha, h⟩ := andThen_ok h
  obtain ⟨d, ha⟩ := runPrimitive_ok ha
  obtain ⟨hs, ha⟩ := inPhases_ok ha
  obtain ⟨hne, rfl⟩ := primFmCount_ok ha
  obtain ⟨b, hb, h⟩ := andThen_ok h
  obtain ⟨d', hb⟩ := runPrimitive_ok hb
  obtain ⟨-, hb⟩ := inPhases_ok hb
  obtain ⟨hprec, rfl⟩ := primFmBuild_ok hb
  obtain ⟨c, hc, h⟩ := andThen_ok h
  obtain ⟨d'', hc⟩ := runPrimitive_ok hc
  obtain ⟨-, hc⟩ := inPhases_ok hc
  obtain ⟨hroom, -, rfl⟩ := primEncStart_ok hc
  exact ⟨⟨of_decide_eq_true hs, hne, hprec, hroom⟩, h⟩

/-- A COMPRESS that ends in ENC_DONE: the ENC_STEPs led from the start of the encode to a state whose ENC_FINISH
completed. -/
theorem exec_compress_completes (hs : Inv s) (h : exec .compress s = .next t) (ht : t.phase = .encDone) :
    Encodable s ∧ ∃ e d, repeatPrimitive (inPhases .encStep primEncStep) s.inLen.toNat s.encodeStart = .ok e ∧
      EncodesFrom s.encodeStart e ∧ primEncFinish e = .ok (e.encFinishCommit, d) ∧
      t = e.encFinishCommit.respond .ok e.encFinishCommit.outLen := by
  obtain ⟨-, u, hrun, rfl⟩ := execSequence_completes h (by simp [ht])
  obtain ⟨henc, hrun⟩ := runCompress_ok hrun
  obtain ⟨e, hsteps, hfinish⟩ := andThen_ok hrun
  obtain ⟨d, hfinish⟩ := runPrimitive_ok hfinish
  obtain ⟨-, hok⟩ := inPhases_ok hfinish
  obtain ⟨-, -, -, rfl⟩ := primEncFinish_ok hok
  exact ⟨henc, e, d, hsteps, .repeatEncStep (henc.inv_encodeStart hs) rfl hsteps, hok, rfl⟩

/-! ### COMPRESS completes where the file surely fits -/

/-- K is the number of byte values in the input. -/
theorem modelBuilt_symCount_eq_distinctBytes (s : State) :
    s.inputCounted.modelBuilt.symCount.toNat = s.distinctBytes := by
  rw [modelBuilt_symCount, buildModel_symCount, State.distinctBytes]
  refine congrArg List.length (List.filter_congr fun i _ => ?_)
  rw [← symEntry_inputCounted, decide_eq_decide]
  exact (BitVec.toNat_ne_iff_ne (x := symEntry s.inputCounted.freq (BitVec.ofNat 8 i)) (y := 0)).symm

/-- The precision check passes where it does for every byte value of the input. -/
theorem inputCounted_precision (hne : s.inLen ≠ 0)
    (h : ∀ c : Byte, s.occurrences c ≠ 0 → s.inLen.toNat ≤ s.occurrences c * s.quarter) :
    (buildModel s.inputCounted.freq).total ≤ (buildModel s.inputCounted.freq).fmin * s.quarter := by
  have hcounted : InputCounted s.inputCounted := ⟨hne, rfl⟩
  have hpresent := hcounted.freq_readByte_ne_zero (toNat_pos hne)
  obtain ⟨g, hg, hg0, hmin⟩ := minPositive_mem ⟨_, symEntry_mem _ _, hpresent⟩
  obtain ⟨c, rfl⟩ := exists_symEntry_of_mem hg
  change (buildModel s.inputCounted.freq).fmin = _ at hmin
  rw [hcounted.total_eq, hmin, symEntry_inputCounted]
  refine h c fun hzero => ?_
  rw [← symEntry_inputCounted] at hzero
  exact hg0 (BitVec.eq_of_toNat_eq hzero)

/-- Settles O39: the checks before the encode pass, each symbol takes at most P bits, and OBUF past OUT_LEN is past the
header and past every bit. -/
theorem compressCompletes : Obligations.CompressCompletes := by
  intro s h hs hne hprec hfits
  have hsym := modelBuilt_symCount_eq_distinctBytes s
  have henc : Encodable s := ⟨hs, hne, inputCounted_precision hne hprec, by rw [hsym, headerLength]; omega⟩
  have hstart := henc.inv_encodeStart h
  obtain ⟨-, hm, -⟩ := (henc.inv_modelBuilt h).modelReady rfl
  have hhdr : s.encodeStart.hdrLen.toNat = headerLength s.distinctBytes := by
    obtain ⟨-, -, hlen, -⟩ := hstart.encoding rfl
    exact hlen.trans (congrArg headerLength hsym)
  have hroom : 0 + 0 + s.prec.toNat * s.inLen.toNat + 2 ≤ s.encodeStart.capBits := by
    change _ ≤ 8 * (s.obufSize.toNat - s.encodeStart.hdrLen.toNat)
    rw [hhdr, headerLength]
    omega
  obtain ⟨e, hsteps, hend⟩ := hstart.repeatEncStep_completes (n := s.inLen.toNat) rfl (Nat.zero_add _) hroom
  have he := EncodesFrom.repeatEncStep hstart rfl hsteps
  have hok := he.inv.primEncFinish_eq he.phase hend
  have hfinish : inPhases .encFinish primEncFinish e = .ok (e.encFinishCommit, e.encFinishCommit.outLen) :=
    (inPhases_pass (by rw [he.phase]; rfl)).trans hok
  have hrun : runCompress s = .ok e.encFinishCommit := by
    rw [henc.runCompress_eq h, runEncode, hsteps]
    exact runPrimitive_of_ok hfinish
  obtain ⟨-, -, -, hsize⟩ := he.inv.sizes
  obtain ⟨-, -, hwidth, -⟩ := primEncFinish_ok hok
  obtain ⟨hout, -⟩ := primEncFinish_outLen hsize hok
  obtain ⟨hcode, -⟩ := h.err.2 (by simp [hs])
  have herr : e.encFinishCommit.errCode = 0 :=
    (encFinishCommit_errCode e).trans (he.input.errCode.trans hcode)
  refine ⟨e.encFinishCommit.respond .ok e.encFinishCommit.outLen, (exec_compress hs).trans (by rw [hrun]; rfl),
    encFinishCommit_phase e, encFinishCommit_outValid e, ?_, (encFinishCommit_ibuf e).trans he.input.ibuf,
    (encFinishCommit_inLen e).trans he.input.inLen, (encFinishCommit_prec e).trans he.input.prec,
    (encFinishCommit_encPos e).trans (hend.trans he.input.inLen), herr, (encFinishCommit_port e).trans he.port,
    fun a ha => ?_⟩
  · rw [respond_rsp, herr, encFinishCommit_phase]
    rfl
  · change e.encFinishCommit.outLen.toNat ≤ a at ha
    rw [hout, encFinishCommit_bitCount, emitAll_bitCount hwidth] at ha
    have hhdrLe : headerLength s.inputCounted.modelBuilt.symCount.toNat ≤ a := by
      rw [hsym, ← hhdr, ← he.hdrLen]
      omega
    calc (e.emitAll e.encFinalBits).readByte .obuf a
      _ = e.readByte .obuf a := readByte_emitAll_outside hwidth (.inr ha)
      _ = s.encodeStart.readByte .obuf a := he.past a (by omega)
      _ = s.inputCounted.modelBuilt.readByte .obuf a := readByte_encStarted_of_le hm.symbols_length hhdrLe

end Sys2Proof.Machine
end

section
/-! PROOFS. The file COMPRESS produces depends on the input bytes and P only (45_encoder.md R208): two encodes of one
input at one precision run side by side, whatever else differs between their machines. -/

namespace Sys2Proof.Machine

variable {e e' u u' s s' : State} {d d' : Word32} {bits : List Bool}

/-! ### Two sinks with the same file so far -/

/-- The files so far have the same header length and the same bytes. -/
structure SameSink (e e' : State) : Prop where
  hdrLen   : e.hdrLen = e'.hdrLen
  bitCount : e.bitCount = e'.bitCount
  bytes    : ∀ a, a < e.hdrLen.toNat + (e.bitCount.toNat + 7) / 8 → e.readByte .obuf a = e'.readByte .obuf a

/-- The same bit goes into the same byte, which is new or one of the file's. -/
theorem SameSink.emit (h : SameSink e e') (hc : e.bitCount.toNat + 1 < 2 ^ 32) (b : Bool) :
    SameSink (e.emit b) (e'.emit b) := by
  have haddr : e'.sinkAddress e'.bitCount.toNat = e.sinkAddress e.bitCount.toNat := by
    rw [State.sinkAddress, State.sinkAddress, h.hdrLen, h.bitCount]
  refine ⟨h.hdrLen, by rw [emit_bitCount, emit_bitCount, h.bitCount], fun a ha => ?_⟩
  rw [emit_bitCount_toNat hc, emit_hdrLen] at ha
  change (e.obuf.putBit _ _ b).read .obuf a = (e'.obuf.putBit _ _ b).read .obuf a
  rw [haddr, ← h.bitCount]
  by_cases hsame : a = e.sinkAddress e.bitCount.toNat
  · subst hsame
    rw [read_putBit_same, read_putBit_same]
    split
    · rfl
    · rw [State.sinkAddress] at ha ⊢
      have hbyte := h.bytes (e.hdrLen.toNat + e.bitCount.toNat / 8) (by omega)
      change e.obuf.read .obuf _ = e'.obuf.read .obuf _ at hbyte
      rw [hbyte]
  · rw [read_putBit_other hsame, read_putBit_other hsame]
    rw [State.sinkAddress] at hsame
    exact h.bytes a (by omega)

theorem SameSink.emitAll (h : SameSink e e') (hc : e.bitCount.toNat + bits.length < 2 ^ 32) :
    SameSink (e.emitAll bits) (e'.emitAll bits) := by
  induction bits generalizing e e' with
  | nil => exact h
  | cons b bs ih =>
    rw [List.length_cons] at hc
    exact ih (h.emit (by omega) b) (by rw [emit_bitCount_toNat (by omega)]; omega)

/-! ### Two encodes side by side -/

/-- The same input bytes at the same precision. -/
structure SameSource (s s' : State) : Prop where
  prec  : s.prec = s'.prec
  inLen : s.inLen = s'.inLen
  bytes : ∀ a, a < s.inLen.toNat → s.readByte .ibuf a = s'.readByte .ibuf a

theorem SameSource.countBytes_eq (h : SameSource s s') :
    countBytes (s.inputBytes s.inLen.toNat) = countBytes (s'.inputBytes s'.inLen.toNat) := by
  rw [State.inputBytes, State.inputBytes, ← h.inLen]
  exact congrArg countBytes (List.map_congr_left fun a ha => h.bytes a (List.mem_range.1 ha))

/-- BuildModel's results depend on FREQ only (42_frequency_model.md R142). -/
theorem ModelBuilt.eq_of_freq (h : ModelBuilt s) (h' : ModelBuilt s') (hf : s.freq = s'.freq) :
    s.cumLow = s'.cumLow ∧ s.cumHigh = s'.cumHigh ∧ s.total = s'.total ∧ s.symCount = s'.symCount := by
  obtain ⟨hlow, hhigh, htotal, hsym, -⟩ := h
  obtain ⟨hlow', hhigh', htotal', hsym', -⟩ := h'
  rw [hf] at hlow hhigh htotal hsym
  exact ⟨hlow.trans hlow'.symm, hhigh.trans hhigh'.symm, BitVec.eq_of_toNat_eq (htotal.trans htotal'.symm),
    BitVec.eq_of_toNat_eq (hsym.trans hsym'.symm)⟩

/-- Two states of a run that encode the same source and have come equally far with the same file. -/
structure SameEncode (e e' : State) : Prop where
  inv     : Inv e
  inv'    : Inv e'
  phase   : e.phase = .encoding
  phase'  : e'.phase = .encoding
  source  : SameSource e e'
  lower   : e.lower = e'.lower
  upper   : e.upper = e'.upper
  pending : e.pending = e'.pending
  encPos  : e.encPos = e'.encPos
  sink    : SameSink e e'

/-- They encode by the same model. -/
theorem SameEncode.model (h : SameEncode e e') :
    e.cumLow = e'.cumLow ∧ e.cumHigh = e'.cumHigh ∧ e.total = e'.total := by
  obtain ⟨⟨-, hfreq⟩, hm, -⟩ := h.inv.encoding h.phase
  obtain ⟨⟨-, hfreq'⟩, hm', -⟩ := h.inv'.encoding h.phase'
  obtain ⟨hlow, hhigh, htotal, -⟩ := hm.eq_of_freq hm' (by rw [hfreq, hfreq', h.source.countBytes_eq])
  exact ⟨hlow, hhigh, htotal⟩

/-- While there is input left, RenormEnc gives both the same interval and the same bits. -/
theorem SameEncode.encRenorm (h : SameEncode e e') (hpos : e.encPos ≠ e.inLen) : e.encRenorm = e'.encRenorm := by
  obtain ⟨hlow, hhigh, htotal⟩ := h.model
  obtain ⟨-, -, -, -, -, hle, -⟩ := h.inv.encoding h.phase
  have hsym : e.encSymbol = e'.encSymbol := by
    rw [State.encSymbol, State.encSymbol, ← h.encPos]
    exact h.source.bytes _ (by bv_omega)
  rw [State.encRenorm, State.encRenorm, State.encNarrow, State.encNarrow, h.source.prec, h.lower, h.upper, h.pending,
    hsym, hlow, hhigh, htotal]

theorem SameEncode.encStep (h : SameEncode e e') (hok : primEncStep e = .ok (u, d))
    (hok' : primEncStep e' = .ok (u', d')) : SameEncode u u' := by
  have hinv := h.inv.encStep h.phase hok
  have hinv' := h.inv'.encStep h.phase' hok'
  obtain ⟨hpos, -, -, -, hwidth, rfl⟩ := primEncStep_ok hok
  obtain ⟨-, -, -, -, -, rfl⟩ := primEncStep_ok hok'
  have hrenorm := h.encRenorm hpos
  have hsink := h.sink.emitAll (bits := e.encRenorm.2) (by omega)
  rw [← hrenorm] at hinv' ⊢
  rw [encCommit_eq] at hinv hinv' ⊢
  rw [encCommit_eq]
  have hbytes := hsink.bytes
  rw [emitAll_hdrLen] at hbytes
  exact {
    inv := hinv, inv' := hinv', phase := h.phase, phase' := h.phase'
    source := ⟨h.source.prec, h.source.inLen, h.source.bytes⟩
    lower := rfl, upper := rfl, pending := rfl
    encPos := by rw [h.encPos]
    sink := ⟨h.sink.hdrLen, hsink.bitCount, hbytes⟩ }

theorem SameEncode.repeatEncStep {n : Nat} (h : SameEncode e e')
    (hrun : repeatPrimitive (inPhases .encStep primEncStep) n e = .ok u)
    (hrun' : repeatPrimitive (inPhases .encStep primEncStep) n e' = .ok u') : SameEncode u u' := by
  induction n generalizing e e' with
  | zero => cases hrun; cases hrun'; exact h
  | succ n ih =>
    rw [repeatPrimitive_succ] at hrun hrun'
    obtain ⟨v, hv, hrun⟩ := andThen_ok hrun
    obtain ⟨v', hv', hrun'⟩ := andThen_ok hrun'
    obtain ⟨d, hok⟩ := runPrimitive_ok hv
    obtain ⟨d', hok'⟩ := runPrimitive_ok hv'
    exact ih (h.encStep (inPhases_ok hok).2 (inPhases_ok hok').2) hrun hrun'

/-! ### The start and the end of an encode -/

/-- The header in OBUF is the model's. -/
theorem Inv.read_header (h : Inv e) (hs : e.phase = .encoding) {c : Host.Cell} (hc : c ∈ e.headerCells) :
    e.readByte .obuf c.1 = c.2 := by
  obtain ⟨-, -, -, -, -, -, -, -, hheader, -⟩ := h.encoding hs
  exact read_of_written .obuf (hheader c hc)

/-- Encodes of one source start alike: the header depends on the counts only. -/
theorem SameSource.encodeStart (h : SameSource s s') (hs : Inv s) (hs' : Inv s') (henc : Encodable s)
    (henc' : Encodable s') : SameEncode s.encodeStart s'.encodeStart := by
  have hinv := henc.inv_encodeStart hs
  have hinv' := henc'.inv_encodeStart hs'
  obtain ⟨-, hm, hlen, -⟩ := hinv.encoding rfl
  obtain ⟨-, hm', hlen', -⟩ := hinv'.encoding rfl
  have hfreq : s.encodeStart.freq = s'.encodeStart.freq := h.countBytes_eq
  obtain ⟨-, -, htotal, hsym⟩ := hm.eq_of_freq hm' hfreq
  have hcells : s.encodeStart.headerCells = s'.encodeStart.headerCells := by
    rw [State.headerCells, State.headerCells, hfreq, htotal, hsym]
  have hhdr : s.encodeStart.hdrLen = s'.encodeStart.hdrLen :=
    BitVec.eq_of_toNat_eq (hlen.trans ((congrArg (headerLength ·.toNat) hsym).trans hlen'.symm))
  have hupper : s.encodeStart.upper = s'.encodeStart.upper := by
    change BitVec.ofNat 32 (2 ^ s.prec.toNat) = BitVec.ofNat 32 (2 ^ s'.prec.toNat)
    rw [h.prec]
  refine {
    inv := hinv, inv' := hinv', phase := rfl, phase' := rfl
    source := ⟨h.prec, h.inLen, h.bytes⟩
    lower := rfl, upper := hupper, pending := rfl, encPos := rfl
    sink := ⟨hhdr, rfl, fun a ha => ?_⟩ }
  have hzero : s.encodeStart.bitCount.toNat = 0 := rfl
  have ha' : a < headerLength s.encodeStart.symCount.toNat := by
    rw [← hlen]
    omega
  obtain ⟨c, hc, rfl⟩ := headerCells_cover hm.symbols_length ha'
  exact (hinv.read_header rfl hc).trans (hinv'.read_header rfl (hcells ▸ hc)).symm

/-- The same encode ends with the same file. -/
theorem SameEncode.encFinish (h : SameEncode e e') (hok : primEncFinish e = .ok (e.encFinishCommit, d)) :
    e.encFinishCommit.outLen = e'.encFinishCommit.outLen ∧
      ∀ a, a < e.encFinishCommit.outLen.toNat →
        e.encFinishCommit.readByte .obuf a = e'.encFinishCommit.readByte .obuf a := by
  have hbits : e.encFinalBits = e'.encFinalBits := by
    rw [State.encFinalBits, State.encFinalBits, h.source.prec, h.lower, h.pending]
  obtain ⟨-, -, -, hsize⟩ := h.inv.sizes
  obtain ⟨-, -, hwidth, -⟩ := primEncFinish_ok hok
  obtain ⟨hout, -⟩ := primEncFinish_outLen hsize hok
  have hsink := h.sink.emitAll hwidth
  refine ⟨?_, fun a ha => ?_⟩
  · rw [encFinishCommit_outLen, encFinishCommit_outLen, ← hbits, h.sink.hdrLen, hsink.bitCount]
  · rw [hout, encFinishCommit_bitCount] at ha
    refine (hsink.bytes a (by rwa [emitAll_hdrLen])).trans ?_
    rw [hbits]
    rfl

/-- Settles O40: the two encodes start alike and take the same steps. -/
theorem compressIsDeterministic : Obligations.CompressIsDeterministic := by
  intro s s' t t' h h' hlen hprec hbytes hs hs' hexec hexec' ht ht'
  obtain ⟨henc, e, d, hrun, -, hok, rfl⟩ := exec_compress_completes h hexec ht
  obtain ⟨henc', e', d', hrun', -, -, rfl⟩ := exec_compress_completes h' hexec' ht'
  have hsource : SameSource s s' := ⟨hprec, hlen, hbytes⟩
  have hstart := hsource.encodeStart h h' henc henc'
  rw [← hlen] at hrun'
  exact (hstart.repeatEncStep hrun hrun').encFinish hok

end Sys2Proof.Machine
end

section
/-! PROOFS. Where the coder's interval lies in the payload (45_encoder.md R206). Read as one binary number, the
payload's bits so far and those pending fix the place of LOWER = 0, and each rescaling doubles the places of both bounds, in the
encoder and in the decoder. -/

namespace Sys2Proof.Machine

variable {s : State} {p : Nat}

/-! ### Bits shifted into a number -/

/-- A run of bits shifted into y, the first bit first. -/
def shiftAll (y : Nat) (bits : List Bool) : Nat := bits.foldl shiftIn y

@[simp] theorem shiftAll_nil (y : Nat) : shiftAll y [] = y := rfl

theorem shiftAll_append (y : Nat) (bs cs : List Bool) : shiftAll y (bs ++ cs) = shiftAll (shiftAll y bs) cs :=
  List.foldl_append

theorem shiftAll_concat (y : Nat) (bs : List Bool) (b : Bool) :
    shiftAll y (bs ++ [b]) = 2 * shiftAll y bs + b.toNat := shiftAll_append y bs [b]

/-! ### The place of the encoder's interval -/

/-- The place of LOWER = 0, in units of the last of P bits behind the bits emitted, of value y, and the n pending bits:
2^P for each unit of y, and a QUARTER for each pending rescaling, doubled by those after it. -/
def encOffset (p y : Nat) : Nat → Nat
  | 0 => 2 ^ p * y
  | n + 1 => 2 * (encOffset p y n + 2 ^ p / 4)

/-- Emitting a decision's bits is the rescaling about 0 or HALF. -/
theorem encOffset_decisionBits (hp : 2 ≤ p) (b : Bool) (y n : Nat) :
    2 ^ p * shiftAll y (decisionBits b n) = 2 * (encOffset p y n + b.toNat * (2 ^ p / 2)) := by
  obtain ⟨q, -, hW, hH, hQ, -⟩ := pow_quarters hp
  induction n with
  | zero =>
    show 2 ^ p * (2 * y + b.toNat) = 2 * (2 ^ p * y + b.toNat * (2 ^ p / 2))
    rw [hH, hW]
    ring
  | succ n ih =>
    have hbits : decisionBits b (n + 1) = decisionBits b n ++ [!b] := by
      rw [decisionBits, decisionBits, List.replicate_succ', List.cons_append]
    rw [hbits, shiftAll_concat, encOffset, hH, hQ]
    rw [hH] at ih
    rw [Nat.mul_add, Nat.mul_left_comm, ih, hW]
    cases b <;> simp <;> ring

/-- FinalBits' number lies in every wide interval (44_interval_renormalizer.md R189): it is QUARTER or HALF above the
place of LOWER = 0. -/
theorem finalBits_within (hp : 2 ≤ p) {lo up : Nat} (hw : WideBounds p lo up) (y n : Nat) :
    encOffset p y n + lo ≤ 2 ^ p / 4 * shiftAll y (finalBits p lo n) ∧
      2 ^ p / 4 * shiftAll y (finalBits p lo n) < encOffset p y n + up := by
  obtain ⟨q, hq, hW, hH, hQ, -⟩ := pow_quarters hp
  have hbits : ∀ b, 2 ^ p / 4 * shiftAll y (decisionBits b (n + 1)) = encOffset p y n + q + b.toNat * q := by
    intro b
    have h := encOffset_decisionBits hp b y (n + 1)
    rw [encOffset, hH, hQ, hW] at h
    rw [hQ]
    have h4 : 4 * (q * shiftAll y (decisionBits b (n + 1))) = 4 * (encOffset p y n + q + b.toNat * q) := by
      rw [← Nat.mul_assoc, h]
      ring
    omega
  obtain ⟨hl, hu, -, -, hexit⟩ := hw
  rw [finalBits]
  split
  · rw [hbits, Bool.toNat_false]
    omega
  · rw [hbits, Bool.toNat_true]
    omega

/-! ### What the encoder's rescalings do to the bounds' places -/

/-- k rescalings, which emit `bits` behind payload bits of value y, take the interval `v` to `w`: the bounds' places
double each time, and each rescaling counts one bit emitted or pending. -/
structure EncInterval.Zoomed (p k y : Nat) (v : EncInterval) (bits : List Bool) (w : EncInterval) : Prop where
  count : bits.length + w.pending = v.pending + k
  lower : encOffset p (shiftAll y bits) w.pending + w.lower = 2 ^ k * (encOffset p y v.pending + v.lower)
  upper : encOffset p (shiftAll y bits) w.pending + w.upper = 2 ^ k * (encOffset p y v.pending + v.upper)

theorem EncInterval.Zoomed.refl (p y : Nat) (v : EncInterval) : v.Zoomed p 0 y [] v :=
  ⟨Nat.zero_add _, (Nat.one_mul _).symm, (Nat.one_mul _).symm⟩

theorem EncInterval.Zoomed.trans {j k y : Nat} {u v w : EncInterval} {bs cs : List Bool} (h1 : u.Zoomed p j y bs v)
    (h2 : v.Zoomed p k (shiftAll y bs) cs w) : u.Zoomed p (j + k) y (bs ++ cs) w where
  count := by
    rw [List.length_append, Nat.add_assoc, h2.count, ← Nat.add_assoc, h1.count, Nat.add_assoc]
  lower := by rw [shiftAll_append, h2.lower, h1.lower, Nat.add_comm j k, Nat.pow_add, Nat.mul_assoc]
  upper := by rw [shiftAll_append, h2.upper, h1.upper, Nat.add_comm j k, Nat.pow_add, Nat.mul_assoc]

/-- E1 and E2 (R182). -/
theorem zoomed_decision (hp : 2 ≤ p) (b : Bool) (y : Nat) {v : EncInterval} (hl : b.toNat * (2 ^ p / 2) ≤ v.lower)
    (hv : v.lower ≤ v.upper) :
    v.Zoomed p 1 y (decisionBits b v.pending)
      ⟨2 * (v.lower - b.toNat * (2 ^ p / 2)), 2 * (v.upper - b.toNat * (2 ^ p / 2)), 0⟩ := by
  have h := encOffset_decisionBits hp b y v.pending
  exact ⟨by simp, by dsimp only [encOffset]; omega, by dsimp only [encOffset]; omega⟩

/-- E3 (R183). -/
theorem zoomed_pending (y : Nat) {v : EncInterval} (hl : 2 ^ p / 4 ≤ v.lower) (hv : v.lower ≤ v.upper) :
    v.Zoomed p 1 y [] ⟨2 * (v.lower - 2 ^ p / 4), 2 * (v.upper - 2 ^ p / 4), v.pending + 1⟩ :=
  ⟨by simp, by simp only [encOffset, shiftAll_nil]; omega, by simp only [encOffset, shiftAll_nil]; omega⟩

theorem renormEncPhase1_zoomed (hp : 2 ≤ p) (fuel y : Nat) {v : EncInterval} (hv : v.lower ≤ v.upper) :
    ∃ k, v.Zoomed p k y (renormEncPhase1 p fuel v).2 (renormEncPhase1 p fuel v).1 := by
  induction fuel generalizing y v with
  | zero => exact ⟨0, .refl p y v⟩
  | succ fuel ih =>
    rw [renormEncPhase1]
    split
    · have hstep := zoomed_decision hp false y (v := v) (by simp) hv
      rw [Bool.toNat_false, Nat.zero_mul, Nat.sub_zero, Nat.sub_zero] at hstep
      obtain ⟨k, hk⟩ := ih (shiftAll y (decisionBits false v.pending)) (v := ⟨2 * v.lower, 2 * v.upper, 0⟩)
        (Nat.mul_le_mul_left 2 hv)
      exact ⟨1 + k, hstep.trans hk⟩
    · split
      · rename_i hl
        have hstep := zoomed_decision hp true y (v := v) (by simpa using hl.le) hv
        rw [Bool.toNat_true, Nat.one_mul] at hstep
        obtain ⟨k, hk⟩ := ih (shiftAll y (decisionBits true v.pending))
          (v := ⟨2 * (v.lower - 2 ^ p / 2), 2 * (v.upper - 2 ^ p / 2), 0⟩) (by dsimp only; omega)
        exact ⟨1 + k, hstep.trans hk⟩
      · exact ⟨0, .refl p y v⟩

theorem renormEncPhase2_zoomed (fuel y : Nat) {v : EncInterval} (hv : v.lower ≤ v.upper) :
    ∃ k, v.Zoomed p k y [] (renormEncPhase2 p fuel v) := by
  induction fuel generalizing v with
  | zero => exact ⟨0, .refl p y v⟩
  | succ fuel ih =>
    rw [renormEncPhase2]
    split
    · rename_i h
      obtain ⟨k, hk⟩ := ih (v := ⟨2 * (v.lower - 2 ^ p / 4), 2 * (v.upper - 2 ^ p / 4), v.pending + 1⟩)
        (by dsimp only; omega)
      exact ⟨1 + k, (zoomed_pending y h.1.le hv).trans hk⟩
    · exact ⟨0, .refl p y v⟩

theorem renormEnc_zoomed (hp : 2 ≤ p) (y : Nat) {v : EncInterval} (hv : v.lower < v.upper) (hw : v.upper ≤ 2 ^ p) :
    ∃ k, v.Zoomed p k y (renormEnc p v).2 (renormEnc p v).1 := by
  obtain ⟨j, hj⟩ := renormEncPhase1_zoomed hp p y hv.le
  obtain ⟨-, -, -, hv1, -⟩ := renormEncPhase1_spec hp p v hv hw
  obtain ⟨k, hk⟩ := renormEncPhase2_zoomed (p := p) p (shiftAll y (renormEncPhase1 p p v).2) hv1.le
  refine ⟨j + k, ?_⟩
  have h := hj.trans hk
  rwa [List.append_nil] at h

/-! ### The payload as the decoder reads it -/

/-- The number the first m payload bits make, with zeros past the end (43_bitstream_packer.md R164, R165). -/
def State.sourceValue (s : State) (m : Nat) : Nat := shiftAll 0 ((List.range m).map fun i => s.sourceBit (i + 1))

theorem sourceValue_succ (s : State) (m : Nat) :
    s.sourceValue (m + 1) = 2 * s.sourceValue m + (s.sourceBit (m + 1)).toNat := by
  rw [State.sourceValue, List.range_succ, List.map_append, List.map_singleton, shiftAll_concat]
  rfl

/-- More bits refine the number. -/
theorem sourceValue_add_bounds (s : State) (m k : Nat) :
    2 ^ k * s.sourceValue m ≤ s.sourceValue (m + k) ∧ s.sourceValue (m + k) < 2 ^ k * (s.sourceValue m + 1) := by
  induction k with
  | zero => simp
  | succ k ih =>
    have hbit : (s.sourceBit (m + k + 1)).toNat ≤ 1 := Bool.toNat_le _
    rw [← Nat.add_assoc, sourceValue_succ, Nat.pow_succ, Nat.mul_comm _ 2, Nat.mul_assoc, Nat.mul_assoc]
    omega

/-- Zeros double it. -/
theorem sourceValue_add_of_false {m : Nat} (h : ∀ i, m ≤ i → s.sourceBit (i + 1) = false) (k : Nat) :
    s.sourceValue (m + k) = 2 ^ k * s.sourceValue m := by
  induction k with
  | zero => simp
  | succ k ih =>
    rw [← Nat.add_assoc, sourceValue_succ, ih, h _ (by omega), Bool.toNat_false, Nat.pow_succ, Nat.mul_comm _ 2,
      Nat.mul_assoc, Nat.add_zero]

/-- The read index after m bits: it saturates (43_bitstream_packer.md R166). -/
def State.readIndex (s : State) (m : Nat) : Nat := min (m + 1) (s.bitLen.toNat + 1)

/-- The saturated index reads 0 as the bits past the end do. -/
theorem sourceBit_readIndex (s : State) (m : Nat) : s.sourceBit (s.readIndex m) = s.sourceBit (m + 1) := by
  rw [State.readIndex]
  by_cases h : m ≤ s.bitLen.toNat
  · rw [Nat.min_eq_left (by omega)]
  · rw [Nat.min_eq_right (by omega), State.sourceBit, State.sourceBit, if_neg (by omega), if_neg (by omega)]

theorem nextIndex_readIndex (s : State) (m : Nat) :
    nextIndex s.bitLen.toNat (s.readIndex m) = s.readIndex (m + 1) := by
  unfold nextIndex State.readIndex
  split <;> omega

/-- Tag initialization reads the first bits (46_decoder.md R221). -/
theorem shiftBits_eq (s : State) (n m : Nat) :
    s.shiftBits n (s.sourceValue m) (s.readIndex m) = (s.sourceValue (m + n), s.readIndex (m + n)) := by
  induction n generalizing m with
  | zero => rfl
  | succ n ih =>
    rw [State.shiftBits, sourceBit_readIndex, nextIndex_readIndex, shiftIn, ← sourceValue_succ, ih, Nat.add_right_comm,
      Nat.add_assoc]

/-! ### What the decoder's rescalings do to the tag -/

/-- k rescalings, the bits read after the first m, take the interval `v` to `w`: the width doubles each time, and so
does the tag's place above LOWER, as the bits come in. -/
structure DecInterval.Zoomed (s : State) (k m : Nat) (v w : DecInterval) : Prop where
  rescaled : v.Rescaled s k w
  rdIdx    : w.rdIdx = s.readIndex (m + k)
  tag      : w.tag + 2 ^ k * (v.lower + s.sourceValue m) = w.lower + 2 ^ k * v.tag + s.sourceValue (m + k)

theorem DecInterval.Zoomed.refl {m : Nat} {v : DecInterval} (h : v.rdIdx = s.readIndex m) : v.Zoomed s 0 m v :=
  ⟨.refl s v, h, by simp; omega⟩

theorem DecInterval.Zoomed.trans {j k m : Nat} {u v w : DecInterval} (h1 : u.Zoomed s j m v)
    (h2 : v.Zoomed s k (m + j) w) : u.Zoomed s (j + k) m w where
  rescaled := h1.rescaled.trans h2.rescaled
  rdIdx := by rw [h2.rdIdx, Nat.add_assoc]
  tag := by
    have h1 := h1.tag
    have h2 := h2.tag
    rw [Nat.add_assoc m j k] at h2
    zify at h1 h2 ⊢
    linear_combination 2 ^ k * h1 + h2

theorem rescaleDec_zoomed {m base : Nat} {v : DecInterval} (hb : base ≤ v.lower) (ht : v.TagInside)
    (h : v.rdIdx = s.readIndex m) : v.Zoomed s 1 m (s.rescaleDec base v) where
  rescaled := rescaled_rescaleDec hb
  rdIdx := by rw [State.rescaleDec, h, nextIndex_readIndex]
  tag := by
    obtain ⟨htl, -⟩ := ht
    rw [sourceValue_succ, ← sourceBit_readIndex, ← h]
    simp only [State.rescaleDec, shiftIn]
    omega

theorem renormDecPhase1_zoomed (p fuel : Nat) {m : Nat} {v : DecInterval} (ht : v.TagInside)
    (h : v.rdIdx = s.readIndex m) : ∃ k, v.Zoomed s k m (s.renormDecPhase1 p fuel v) := by
  induction fuel generalizing m v with
  | zero => exact ⟨0, .refl h⟩
  | succ fuel ih =>
    have hstep : ∀ base, base ≤ v.lower →
        ∃ k, v.Zoomed s k m (s.renormDecPhase1 p fuel (s.rescaleDec base v)) := fun base hb => by
      have hzoom := rescaleDec_zoomed hb ht h
      obtain ⟨k, hk⟩ := ih (rescaleDec_tag s hb ht) hzoom.rdIdx
      exact ⟨1 + k, hzoom.trans hk⟩
    rw [State.renormDecPhase1]
    split
    · exact hstep 0 (Nat.zero_le _)
    · split
      · exact hstep _ (Nat.le_of_lt ‹_›)
      · exact ⟨0, .refl h⟩

theorem renormDecPhase2_zoomed (p fuel : Nat) {m : Nat} {v : DecInterval} (ht : v.TagInside)
    (h : v.rdIdx = s.readIndex m) : ∃ k, v.Zoomed s k m (s.renormDecPhase2 p fuel v) := by
  induction fuel generalizing m v with
  | zero => exact ⟨0, .refl h⟩
  | succ fuel ih =>
    rw [State.renormDecPhase2]
    split
    · rename_i hl
      have hzoom := rescaleDec_zoomed hl.1.le ht h
      obtain ⟨k, hk⟩ := ih (rescaleDec_tag s hl.1.le ht) hzoom.rdIdx
      exact ⟨1 + k, hzoom.trans hk⟩
    · exact ⟨0, .refl h⟩

theorem renormDec_zoomed (p : Nat) {m : Nat} {v : DecInterval} (ht : v.TagInside) (h : v.rdIdx = s.readIndex m) :
    ∃ k, v.Zoomed s k m (s.renormDec p v) := by
  obtain ⟨j, hj⟩ := renormDecPhase1_zoomed p p ht h
  obtain ⟨k, hk⟩ := renormDecPhase2_zoomed p p (renormDecPhase1_tag s p p ht) hj.rdIdx
  exact ⟨j + k, hj.trans hk⟩

/-! ### The encoder's and the decoder's rescalings together -/

/-- Where TAG is the payload read so far less the place of LOWER = 0, both renormalizers rescale equally often and leave
it so. -/
theorem renorm_tag (hp : 2 ≤ p) (y n : Nat) {m lo up tag : Nat} (hl : lo ≤ tag) (hu : tag < up) (hw : up ≤ 2 ^ p)
    (h : tag + encOffset p y n = s.sourceValue m) :
    ∃ k, EncInterval.Zoomed p k y ⟨lo, up, n⟩ (renormEnc p ⟨lo, up, n⟩).2 (renormEnc p ⟨lo, up, n⟩).1 ∧
      (s.renormDec p ⟨lo, up, tag, s.readIndex m⟩).rdIdx = s.readIndex (m + k) ∧
      (s.renormDec p ⟨lo, up, tag, s.readIndex m⟩).tag +
        encOffset p (shiftAll y (renormEnc p ⟨lo, up, n⟩).2) (renormEnc p ⟨lo, up, n⟩).1.pending =
          s.sourceValue (m + k) := by
  have hlt : lo < up := hl.trans_lt hu
  obtain ⟨k, henc⟩ := renormEnc_zoomed (v := ⟨lo, up, n⟩) hp y hlt hw
  obtain ⟨j, hdec⟩ := renormDec_zoomed (s := s) p (v := ⟨lo, up, tag, s.readIndex m⟩) ⟨hl, hu⟩ rfl
  obtain ⟨hlower, hupper⟩ := renormDec_bounds s p ⟨lo, up, tag, s.readIndex m⟩ n
  obtain ⟨hwidth, -⟩ := hdec.rescaled
  have htag := hdec.tag
  have heL := henc.lower
  have heU := henc.upper
  dsimp only at hlower hupper hwidth htag heL heU
  rw [hlower] at htag
  rw [hlower, hupper] at hwidth
  rw [Nat.mul_add] at heL heU
  have hjk : j = k := by
    have hsame : 2 ^ j * (up - lo) = 2 ^ k * (up - lo) := by
      rw [← hwidth, Nat.mul_sub]
      omega
    exact Nat.pow_right_injective le_rfl (Nat.eq_of_mul_eq_mul_right (Nat.sub_pos_of_lt hlt) hsame)
  subst hjk
  refine ⟨j, henc, hdec.rdIdx, ?_⟩
  rw [← h, Nat.mul_add, Nat.mul_add] at htag
  omega

end Sys2Proof.Machine
end

section
/-! PROOFS. The encoder and the decoder in step (45_encoder.md R206): the payload the encoder made lies in its interval
at every step, so the decoder, whose tag is the place of that payload above LOWER, finds the symbol the encoder took. -/

namespace Sys2Proof.Machine

variable {s t u v d e e' : State} {w : Word32} {c : Byte}

/-! ### The place of the encoder's interval in a payload -/

/-- The payload so far as a number. -/
def State.payloadValue (e : State) : Nat := shiftAll 0 ((List.range e.bitCount.toNat).map e.payloadBit)

/-- A run of bits is shifted into the payload's number. -/
theorem payloadValue_emitAll {bits : List Bool} (htrail : TrailingZero e)
    (h : e.bitCount.toNat + bits.length < 2 ^ 32) :
    (e.emitAll bits).payloadValue = shiftAll e.payloadValue bits := by
  rw [State.payloadValue, emitAll_bitCount h, List.range_add, List.map_append, shiftAll_append, State.payloadValue]
  congr 1
  · exact congrArg _ (List.map_congr_left fun j hj => payloadBit_emitAll_lt h (List.mem_range.1 hj))
  · rw [List.map_map]
    refine List.ext_getElem (by simp) fun j _ hj => ?_
    simpa using htrail.payloadBit_emitAll h hj

/-- The place of LOWER = 0 behind the bits emitted and those pending, in units of the last of the P bits behind them. -/
def State.payloadOffset (e : State) : Nat := encOffset e.prec.toNat e.payloadValue e.pending.toNat

/-- How many payload bits those units take: what a decoder in step has read. -/
def State.bitsRead (e : State) : Nat := e.prec.toNat + (e.bitCount.toNat + e.pending.toNat)

/-- The payload in d's IBUF lies in e's interval. -/
structure Encloses (e d : State) : Prop where
  lower : e.payloadOffset + e.lower.toNat ≤ d.sourceValue e.bitsRead
  upper : d.sourceValue e.bitsRead < e.payloadOffset + e.upper.toNat

/-- ENC_STEP doubles the places of the narrowed bounds k times. -/
structure StepZoomed (k : Nat) (e v : State) : Prop where
  bitsRead : v.bitsRead = e.bitsRead + k
  lower    : v.payloadOffset + v.lower.toNat = 2 ^ k * (e.payloadOffset + e.encNarrow.1)
  upper    : v.payloadOffset + v.upper.toNat = 2 ^ k * (e.payloadOffset + e.encNarrow.2)

/-- The place of LOWER = 0 after ENC_STEP. -/
theorem Inv.encStep_payloadOffset (h : Inv e) (hs : e.phase = .encoding) (hok : primEncStep e = .ok (v, w)) :
    v.payloadOffset = encOffset e.prec.toNat (shiftAll e.payloadValue e.encRenorm.2) e.encRenorm.1.pending := by
  obtain ⟨-, -, -, -, -, -, -, -, -, htrail, -⟩ := h.encoding hs
  obtain ⟨-, -, hpending, -⟩ := primEncStep_registers h.prec hok
  obtain ⟨-, -, -, -, hwidth, rfl⟩ := primEncStep_ok hok
  rw [State.payloadOffset, hpending, encCommit_prec, ← payloadValue_emitAll htrail (by omega)]
  rfl

theorem Inv.encStep_zoomed {k : Nat} (h : Inv e) (hs : e.phase = .encoding) (hok : primEncStep e = .ok (v, w))
    (hzoom : EncInterval.Zoomed e.prec.toNat k e.payloadValue ⟨e.encNarrow.1, e.encNarrow.2, e.pending.toNat⟩
      e.encRenorm.2 e.encRenorm.1) : StepZoomed k e v := by
  obtain ⟨hlower, hupper, hpending, hcount⟩ := primEncStep_registers h.prec hok
  have hoffset := h.encStep_payloadOffset hs hok
  have hprec : v.prec = e.prec := by
    obtain ⟨-, -, -, -, -, rfl⟩ := primEncStep_ok hok
    exact encCommit_prec ..
  have hbits := hzoom.count
  refine ⟨?_, ?_, ?_⟩
  · rw [State.bitsRead, State.bitsRead, hprec, hcount, hpending]
    dsimp only at hbits
    omega
  · rw [hoffset, hlower]
    exact hzoom.lower
  · rw [hoffset, hupper]
    exact hzoom.upper

/-- A payload in the interval ENC_STEP leaves lies in the interval it narrowed to. -/
theorem StepZoomed.encloses {k : Nat} (h : StepZoomed k e v) (henc : Encloses v d) :
    e.payloadOffset + e.encNarrow.1 ≤ d.sourceValue e.bitsRead ∧
      d.sourceValue e.bitsRead < e.payloadOffset + e.encNarrow.2 := by
  obtain ⟨hlow, hupp⟩ := henc
  obtain ⟨hmore, hless⟩ := sourceValue_add_bounds d e.bitsRead k
  rw [h.bitsRead, h.lower] at hlow
  rw [h.bitsRead, h.upper] at hupp
  exact ⟨Nat.le_of_lt_succ (Nat.lt_of_mul_lt_mul_left (hlow.trans_lt hless)),
    Nat.lt_of_mul_lt_mul_left (hmore.trans_lt hupp)⟩

theorem Inv.encStep_encloses (h : Inv e) (hs : e.phase = .encoding) (hok : primEncStep e = .ok (v, w))
    (henc : Encloses v d) : e.payloadOffset + e.encNarrow.1 ≤ d.sourceValue e.bitsRead ∧
      d.sourceValue e.bitsRead < e.payloadOffset + e.encNarrow.2 := by
  obtain ⟨-, hlt, hwhole, -⟩ := primEncStep_ok hok
  obtain ⟨k, hzoom⟩ := renormEnc_zoomed h.prec e.payloadValue
    (v := ⟨e.encNarrow.1, e.encNarrow.2, e.pending.toNat⟩) hlt hwhole
  exact (h.encStep_zoomed hs hok hzoom).encloses henc

/-- Hence it lies in the interval at every step before. -/
theorem Inv.encloses_of_repeatEncStep {n : Nat} (h : Inv e) (hs : e.phase = .encoding)
    (hrun : repeatPrimitive (inPhases .encStep primEncStep) n e = .ok e') (henc : Encloses e' d) : Encloses e d := by
  induction n generalizing e with
  | zero => cases hrun; exact henc
  | succ n ih =>
    rw [repeatPrimitive_succ] at hrun
    obtain ⟨v, hv, hrun⟩ := andThen_ok hrun
    obtain ⟨w, hok⟩ := runPrimitive_ok hv
    obtain ⟨-, hok⟩ := inPhases_ok hok
    have hnext := (EncodesFrom.refl h hs).encStep hok
    obtain ⟨hlow, hupp⟩ := h.encStep_encloses hs hok (ih hnext.inv hnext.phase hrun)
    obtain ⟨hm, ⟨hl, hu, -⟩⟩ := h.coding (.inl hs)
    have hlower : e.lower.toNat ≤ e.encNarrow.1 := Nat.le_add_right _ _
    have hupper : e.encNarrow.2 ≤ e.upper.toNat :=
      narrow_bound_le (hl.trans hu) (hm.holdsModel.high_le_total e.encSymbol)
    exact ⟨by omega, by omega⟩

/-! ### DEC_STEP -/

/-- The candidate intervals ascend with their symbols. -/
theorem HoldsModel.candidate_ascends (h : HoldsModel d) {a b : Byte} (hab : a.toNat < b.toNat) :
    (d.candidate a).2 ≤ (d.candidate b).1 := narrow_mono (h.high_le_low hab)

/-- The search finds the symbol whose candidate interval contains TAG (46_decoder.md R224, R228). -/
theorem HoldsModel.search_eq (h : HoldsModel d) (hc : symEntry d.freq c ≠ 0) (hl : (d.candidate c).1 ≤ d.tag.toNat)
    (hu : d.tag.toNat < (d.candidate c).2) : d.search = some c := by
  have hmatch : d.tagMatches c = true := by simp [State.tagMatches, hl, hu]
  have hfound : d.search.isSome := List.find?_isSome.2 ⟨c, mem_symbolsOf.2 hc, hmatch⟩
  obtain ⟨b, hb⟩ := Option.isSome_iff_exists.1 hfound
  obtain ⟨-, hbl, hbu⟩ := search_some hb
  obtain hlt | heq | hlt := Nat.lt_trichotomy b.toNat c.toNat
  · have := h.candidate_ascends hlt
    omega
  · rw [hb, BitVec.eq_of_toNat_eq heq]
  · have := h.candidate_ascends hlt
    omega

/-- Where the search finds a symbol, DEC_STEP in a state of a run completes. -/
theorem Inv.primDecStep_eq (h : Inv d) (hs : d.phase = .decoding) (hc : d.search = some c) :
    primDecStep d =
      if d.decCount + 1 = d.nDecl then .ok ((d.decEmit c).decEnd, zext32 c)
      else .ok ((d.decEmit c).decRenorm, zext32 c) := by
  obtain ⟨hm, ⟨-, hpayload, hbits, -, -, -, hroom⟩, hw, -, hcount, -⟩ := h.decoding hs
  obtain ⟨hin, -⟩ := h.input
  obtain ⟨-, hisize, -, -⟩ := h.sizes
  have htotal : d.total ≠ 0 := fun hzero => by
    obtain ⟨-, -, -, -, -, hone, -⟩ := hm
    simp [hzero] at hone
  have hfits : d.sourceFits = true := by
    rw [State.sourceFits, decide_eq_true_eq]
    omega
  rw [primDecStep, if_neg htotal, if_neg (by rw [intervalLegal_of_wide h.prec hw]; decide), hc]
  dsimp only
  rw [if_neg (by omega), if_neg (Nat.not_lt.2 (candidate_le_whole hm hw c))]
  by_cases hlast : d.decCount + 1 = d.nDecl
  · rw [if_pos hlast, if_pos hlast]
  · rw [if_neg hlast, if_neg hlast, if_neg (by rw [hfits]; decide), if_neg (by omega)]

/-- The registers RenormDec's results are committed to hold them (46_decoder.md R223). -/
theorem decRenorm_toNat (hprec : PrecLegal d) (hi : IntervalIn d) (ht : TagIn d)
    (hr : d.rdIdx.toNat ≤ d.bitLen.toNat + 1) (hb : d.bitLen.toNat + 1 < 2 ^ 32) :
    d.decRenorm.lower.toNat = (d.renormDec d.prec.toNat d.decInterval).lower ∧
      d.decRenorm.upper.toNat = (d.renormDec d.prec.toNat d.decInterval).upper ∧
      d.decRenorm.tag.toNat = (d.renormDec d.prec.toNat d.decInterval).tag ∧
      d.decRenorm.rdIdx.toNat = (d.renormDec d.prec.toNat d.decInterval).rdIdx := by
  obtain ⟨hlt, hwhole⟩ := hi
  have hwide := renormDec_wide d (v := d.decInterval) hprec hlt hwhole
  obtain ⟨-, htag⟩ := renormDec_tag d d.prec.toNat (v := d.decInterval) ht
  obtain ⟨-, hrd⟩ := renormDec_rdIdx d d.prec.toNat (v := d.decInterval) hr
  have hupper := hwide.upper_lt d.prec.isLt
  exact ⟨toNat_ofNat_of_lt (hwide.lower_lt d.prec.isLt), toNat_ofNat_of_lt hupper,
    toNat_ofNat_of_lt (htag.trans hupper), toNat_ofNat_of_lt (hrd.trans_lt hb)⟩

/-! ### The encoder and the decoder in step -/

theorem SameInput.readByte_ibuf (h : SameInput s t) (a : Nat) : t.readByte .ibuf a = s.readByte .ibuf a :=
  congrArg (Memory.read .ibuf · a) h.ibuf

/-- An encoder and a decoder that have come equally far: the same model and interval, and a tag that is the payload read
so far less the place of LOWER = 0. -/
structure InStep (e d : State) : Prop where
  inv      : Inv e
  inv'     : Inv d
  phase    : e.phase = .encoding
  phase'   : d.phase = .decoding
  freq     : d.freq = e.freq
  prec     : d.prec = e.prec
  lower    : d.lower = e.lower
  upper    : d.upper = e.upper
  tag      : d.tag.toNat + e.payloadOffset = d.sourceValue e.bitsRead
  rdIdx    : d.rdIdx.toNat = d.readIndex e.bitsRead
  decCount : d.decCount = e.encPos
  nDecl    : d.nDecl = e.inLen
  output   : ∀ a, a < d.decCount.toNat → d.readByte .obuf a = e.readByte .ibuf a

/-- The decoder's candidate interval for the encoder's symbol is the interval the encoder narrows to. -/
theorem InStep.candidate_eq (h : InStep e d) : d.candidate e.encSymbol = e.encNarrow := by
  obtain ⟨hm, -⟩ := h.inv.coding (.inl h.phase)
  obtain ⟨hm', -⟩ := h.inv'.coding (.inr h.phase')
  obtain ⟨hlow, hhigh, htotal, -⟩ := hm'.eq_of_freq hm h.freq
  rw [State.candidate, State.encNarrow, hlow, hhigh, htotal, h.lower, h.upper]

/-- With the payload in the interval ENC_STEP leaves, the search finds the encoder's symbol. -/
theorem InStep.search_eq (h : InStep e d) (hok : primEncStep e = .ok (v, w)) (henc : Encloses v d) :
    d.search = some e.encSymbol := by
  obtain ⟨hcounted, -, -, -, -, hle, -⟩ := h.inv.encoding h.phase
  obtain ⟨hm, -⟩ := h.inv'.coding (.inr h.phase')
  obtain ⟨hpos, -⟩ := primEncStep_ok hok
  obtain ⟨hlow, hupp⟩ := h.inv.encStep_encloses h.phase hok henc
  have hpresent := hcounted.freq_readByte_ne_zero (i := e.encPos.toNat) (by bv_omega)
  have htag := h.tag
  refine hm.holdsModel.search_eq (h.freq ▸ hpresent) ?_ ?_ <;> rw [h.candidate_eq] <;> omega

/-- With the symbol decoded the output is the input up to it. -/
theorem InStep.output_decEmit (h : InStep e d) :
    ∀ a, a < (d.decCount + 1).toNat → (d.decEmit e.encSymbol).readByte .obuf a = e.readByte .ibuf a := by
  obtain ⟨-, -, -, -, hcount, -⟩ := h.inv'.decoding h.phase'
  intro a ha
  rw [decCount_succ hcount] at ha
  change (d.obuf.write d.decCount.toNat e.encSymbol).read .obuf a = _
  by_cases hlast : a = d.decCount.toNat
  · rw [hlast, read_write_same, State.encSymbol, h.decCount]
  · rw [read_write_other _ _ _ hlast]
    exact h.output a (by omega)

/-- DEC_STEP renormalizes the interval ENC_STEP does, from the tag and the read index as they were. -/
theorem InStep.decInterval_decEmit (h : InStep e d) (hsearch : d.search = some e.encSymbol)
    (hwhole : (d.candidate e.encSymbol).2 ≤ d.whole) :
    (d.decEmit e.encSymbol).decInterval =
      ⟨e.encNarrow.1, e.encNarrow.2, d.tag.toNat, (d.decEmit e.encSymbol).readIndex e.bitsRead⟩ := by
  obtain ⟨-, hl, hu⟩ := search_some hsearch
  have hle := whole_le d
  rw [State.decInterval, decEmit_lower, decEmit_upper, toNat_ofNat_of_lt (by omega), toNat_ofNat_of_lt (by omega),
    h.candidate_eq, decEmit_tag, decEmit_rdIdx, h.rdIdx]
  rfl

/-- RenormEnc and RenormDec leave the same interval, and the tag in its place. -/
theorem InStep.decRenorm_registers (h : InStep e d) (hok : primEncStep e = .ok (v, w)) (henc : Encloses v d) :
    (d.decEmit e.encSymbol).decRenorm.lower = v.lower ∧ (d.decEmit e.encSymbol).decRenorm.upper = v.upper ∧
      (d.decEmit e.encSymbol).decRenorm.tag.toNat + v.payloadOffset = d.sourceValue v.bitsRead ∧
      (d.decEmit e.encSymbol).decRenorm.rdIdx.toNat = d.readIndex v.bitsRead := by
  obtain ⟨hm, ⟨-, hpayload, hbits, -, hrd, -, hroom⟩, hw, -⟩ := h.inv'.decoding h.phase'
  obtain ⟨hin, -⟩ := h.inv'.input
  obtain ⟨-, hisize, -, -⟩ := h.inv'.sizes
  have hsearch := h.search_eq hok henc
  have hwhole := candidate_le_whole hm hw e.encSymbol
  have hprec : (d.decEmit e.encSymbol).prec = e.prec := h.prec
  obtain ⟨hinterval, htagIn⟩ := decEmit_interval hsearch hwhole
  have hdec :=
    decRenorm_toNat (d := d.decEmit e.encSymbol) h.inv'.prec hinterval htagIn hrd (by rw [decEmit_bitLen]; omega)
  rw [h.decInterval_decEmit hsearch hwhole, hprec] at hdec
  obtain ⟨hlower', hupper', htag', hrd'⟩ := hdec
  obtain ⟨hlower, hupper, -⟩ := primEncStep_registers h.inv.prec hok
  obtain ⟨hlow, hupp⟩ := h.inv.encStep_encloses h.phase hok henc
  obtain ⟨-, -, hnarrow, -⟩ := primEncStep_ok hok
  have htag := h.tag
  obtain ⟨k, hzoom, hrdIdx, hplace⟩ := renorm_tag (s := d.decEmit e.encSymbol) h.inv.prec e.payloadValue
    e.pending.toNat (m := e.bitsRead) (lo := e.encNarrow.1) (up := e.encNarrow.2) (tag := d.tag.toNat)
    (by omega) (by omega) hnarrow htag
  have hstep := h.inv.encStep_zoomed h.phase hok hzoom
  obtain ⟨hsameLower, hsameUpper⟩ := renormDec_bounds (d.decEmit e.encSymbol) e.prec.toNat
    ⟨e.encNarrow.1, e.encNarrow.2, d.tag.toNat, (d.decEmit e.encSymbol).readIndex e.bitsRead⟩ e.pending.toNat
  rw [htag', hrd', h.inv.encStep_payloadOffset h.phase hok, hstep.bitsRead]
  exact ⟨BitVec.eq_of_toNat_eq (hlower'.trans (hsameLower.trans hlower.symm)),
    BitVec.eq_of_toNat_eq (hupper'.trans (hsameUpper.trans hupper.symm)), hplace, hrdIdx⟩

/-- After a symbol that is not the last, the decoder is in step again. -/
theorem InStep.decRenorm (h : InStep e d) (hok : primEncStep e = .ok (v, w)) (henc : Encloses v d)
    (hmore : d.decCount + 1 ≠ d.nDecl) : InStep v (d.decEmit e.encSymbol).decRenorm := by
  obtain ⟨hm, ⟨-, -, -, -, -, -, hroom⟩, hw, -, hcount, -⟩ := h.inv'.decoding h.phase'
  obtain ⟨hlower, hupper, htag, hrd⟩ := h.decRenorm_registers hok henc
  have hnext := (EncodesFrom.refl h.inv h.phase).encStep hok
  have hpos : v.encPos = e.encPos + 1 := by
    obtain ⟨-, -, -, -, -, rfl⟩ := primEncStep_ok hok
    exact encCommit_encPos ..
  exact {
    inv := hnext.inv
    inv' := h.inv'.decRenorm h.phase' (h.search_eq hok henc) (hcount.trans_le hroom)
      (candidate_le_whole hm hw e.encSymbol) hmore
    phase := hnext.phase, phase' := h.phase'
    freq := h.freq.trans hnext.freq.symm
    prec := h.prec.trans hnext.input.prec.symm
    lower := hlower, upper := hupper, tag := htag, rdIdx := hrd
    decCount := (congrArg (· + 1) h.decCount).trans hpos.symm
    nDecl := h.nDecl.trans hnext.input.inLen.symm
    output := fun a ha => (h.output_decEmit a ha).trans (hnext.input.readByte_ibuf a).symm }

/-! ### The whole decode -/

/-- The decoder has ended with e's input as its output. -/
structure Decoded (e u : State) : Prop where
  phase  : u.phase = .decDone
  outLen : u.outLen = e.inLen
  output : ∀ a, a < e.inLen.toNat → u.readByte .obuf a = e.readByte .ibuf a

/-- Step by step the decoder gives the encoder's input back. -/
theorem InStep.repeatDecStep {n : Nat} (h : InStep e d) (hn : e.encPos.toNat + n = e.inLen.toNat)
    (hrun : repeatPrimitive (inPhases .encStep primEncStep) n e = .ok e') (henc : Encloses e' d) :
    ∃ u, repeatPrimitive (inPhases .decStep primDecStep) n d = .ok u ∧ Decoded e u := by
  induction n generalizing e d with
  | zero =>
    obtain ⟨-, -, -, -, hcount, -⟩ := h.inv'.decoding h.phase'
    rw [h.decCount, h.nDecl] at hcount
    omega
  | succ n ih =>
    rw [repeatPrimitive_succ] at hrun ⊢
    obtain ⟨v, hv, hrun⟩ := andThen_ok hrun
    obtain ⟨w, hok⟩ := runPrimitive_ok hv
    obtain ⟨-, hok⟩ := inPhases_ok hok
    have hnext := (EncodesFrom.refl h.inv h.phase).encStep hok
    have hrest := hnext.inv.encloses_of_repeatEncStep hnext.phase hrun henc
    have hdec : inPhases .decStep primDecStep d = _ := (inPhases_pass (by rw [h.phase']; rfl)).trans
      (h.inv'.primDecStep_eq h.phase' (h.search_eq hok hrest))
    have hpos : e.encPos.toNat + 1 = (d.decCount + 1).toNat := by
      rw [h.decCount]
      bv_omega
    have hdecl : d.nDecl.toNat = e.inLen.toNat := congrArg BitVec.toNat h.nDecl
    by_cases hlast : d.decCount + 1 = d.nDecl
    · rw [if_pos hlast] at hdec
      rw [hlast] at hpos
      obtain rfl : n = 0 := by omega
      rw [runPrimitive_of_ok hdec]
      exact ⟨_, rfl, rfl, h.nDecl, fun a ha => h.output_decEmit a (by rw [hlast]; omega)⟩
    · rw [if_neg hlast] at hdec
      rw [runPrimitive_of_ok hdec]
      have hstep := h.decRenorm hok hrest hlast
      have hvpos : v.encPos.toNat = e.encPos.toNat + 1 := by
        rw [← hstep.decCount]
        exact hpos.symm
      have hinput := hnext.input.readByte_ibuf
      have hlen := hnext.input.inLen
      obtain ⟨u, hu, hphase, hout, hbytes⟩ := ih hstep (by rw [hvpos, hlen]; omega) hrun ⟨henc.lower, henc.upper⟩
      rw [hlen] at hout hbytes
      exact ⟨u, hu, hphase, hout, fun a ha => (hbytes a ha).trans (hinput a)⟩

/-! ### The start of the decode -/

/-- Tag initialization leaves the first P payload bits in TAG (46_decoder.md R221). -/
theorem decStarted_tag (d : State) (hd : Header) (hb : (d.decLoad hd).bitLen.toNat + 1 < 2 ^ 32) :
    (d.decStarted hd).tag.toNat = (d.decStarted hd).sourceValue d.prec.toNat ∧
      (d.decStarted hd).rdIdx.toNat = (d.decStarted hd).readIndex d.prec.toNat := by
  have hbits := shiftBits_eq (d.decLoad hd) d.prec.toNat 0
  have hfirst : (d.decLoad hd).readIndex 0 = 1 := Nat.min_eq_left (by omega)
  rw [hfirst, Nat.zero_add] at hbits
  have hvalue : (d.decLoad hd).sourceValue 0 = 0 := rfl
  rw [hvalue] at hbits
  have hlt := shiftBits_lt (d.decLoad hd) d.prec.toNat 0 0 1 (by decide)
  have hwhole := whole_le d
  rw [hbits, Nat.zero_add] at hlt
  have hrd : (d.decLoad hd).readIndex d.prec.toNat ≤ _ := Nat.min_le_right _ _
  constructor
  · change (BitVec.ofNat 32 ((d.decLoad hd).shiftBits d.prec.toNat 0 1).1).toNat = _
    rw [hbits]
    exact toNat_ofNat_of_lt (hlt.trans_le (hwhole.trans (by decide)))
  · change (BitVec.ofNat 32 ((d.decLoad hd).shiftBits d.prec.toNat 0 1).2).toNat = _
    rw [hbits]
    exact toNat_ofNat_of_lt (by omega)

/-! ### The end of the encode -/

/-- The file the encoder left in t's OBUF is the one in d's IBUF. -/
structure HoldsFile (t d : State) : Prop where
  hdrLen : d.hdrLen = t.hdrLen
  bitLen : d.bitLen.toNat = 8 * (t.outLen.toNat - t.hdrLen.toNat)
  bytes  : ∀ a, a < t.outLen.toNat → d.readByte .ibuf a = t.readByte .obuf a

/-- Within the file the decoder reads the payload's bits. -/
theorem HoldsFile.sourceBit_eq (h : HoldsFile t d) {j : Nat} (hj : j < d.bitLen.toNat) :
    d.sourceBit (j + 1) = t.payloadBit j := by
  have hlen := h.bitLen
  rw [State.sourceBit, if_pos (by omega), Nat.add_sub_cancel, h.hdrLen, h.bytes _ (by omega)]
  rfl

section

variable (h : HoldsFile t d) (ht : EncDoneInv t)
include h ht

/-- Past the payload's last bit it reads zeros, stored or not (43_bitstream_packer.md R162, R165). -/
theorem HoldsFile.sourceBit_past {j : Nat} (hj : t.bitCount.toNat ≤ j) : d.sourceBit (j + 1) = false := by
  obtain ⟨-, -, -, -, -, -, -, -, hout, -, htrail, -⟩ := ht
  by_cases hin : j < d.bitLen.toNat
  · rw [h.sourceBit_eq hin]
    rw [h.bitLen] at hin
    exact htrail j hj (by omega)
  · exact if_neg (by omega)

theorem HoldsFile.sourceValue_eq (k : Nat) : d.sourceValue (t.bitCount.toNat + k) = 2 ^ k * t.payloadValue := by
  have hvalue : d.sourceValue t.bitCount.toNat = t.payloadValue := by
    refine congrArg (shiftAll 0) (List.map_congr_left fun j hj => h.sourceBit_eq ?_)
    obtain ⟨-, -, -, -, -, -, -, -, hout, -⟩ := ht
    have hlen := h.bitLen
    rw [List.mem_range] at hj
    omega
  rw [sourceValue_add_of_false fun j hj => h.sourceBit_past ht hj, hvalue]

end

/-- The final bits put the payload into the encoder's last interval (44_interval_renormalizer.md R189). -/
theorem Inv.encFinish_encloses (h : Inv e) (hs : e.phase = .encoding) (hok : primEncFinish e = .ok (t, w))
    (ht : EncDoneInv t) (hfile : HoldsFile t d) : Encloses e d := by
  obtain ⟨-, -, -, -, hw, -, -, -, -, htrail, -⟩ := h.encoding hs
  have hcount := primEncFinish_bitCount hok
  obtain ⟨-, -, hwidth, rfl⟩ := primEncFinish_ok hok
  obtain ⟨q, -, -, -, hQ, hq⟩ := pow_quarters h.prec
  have hvalue : e.encFinishCommit.payloadValue = shiftAll e.payloadValue e.encFinalBits :=
    payloadValue_emitAll htrail hwidth
  have hread : e.bitsRead = e.encFinishCommit.bitCount.toNat + (e.prec.toNat - 2) := by
    have hprec : 2 ≤ e.prec.toNat := h.prec
    rw [State.bitsRead, hcount]
    omega
  have hsource := hfile.sourceValue_eq ht (e.prec.toNat - 2)
  rw [← hread, hvalue, hq, ← hQ] at hsource
  obtain ⟨hlow, hupp⟩ := finalBits_within h.prec hw e.payloadValue e.pending.toNat
  exact ⟨hlow.trans_eq hsource.symm, hsource.trans_lt hupp⟩

/-! ### The round trip -/

/-- An encode and a decode with the same counts start in step. -/
theorem Encodable.inStep (henc : Encodable s) (hs : Inv s) (hd : Inv d) (hidle : d.phase = .idle)
    (hprec : d.prec = s.prec) (hok : primDecStart d = .ok (v, w)) (hfreq : v.freq = s.encodeStart.freq)
    (hlen : v.nDecl = s.inLen) : InStep s.encodeStart v := by
  obtain ⟨hdr, hparse, hpass, rfl⟩ := primDecStart_ok hok
  obtain ⟨-, hbits, -, hwidth⟩ := decLoad_registers hd hparse
  obtain ⟨htag, hrd⟩ := decStarted_tag d hdr (by omega)
  rw [hprec] at htag hrd
  exact {
    inv := henc.inv_encodeStart hs
    inv' := hd.decStart hidle hparse hpass
    phase := rfl, phase' := rfl
    freq := hfreq
    prec := hprec
    lower := rfl
    upper := congrArg (fun p : BitVec 5 => BitVec.ofNat 32 (2 ^ p.toNat)) hprec
    tag := htag
    rdIdx := hrd
    decCount := rfl
    nDecl := hlen
    output := fun a ha => absurd ha (Nat.not_lt_zero a) }

/-- DEC_START accepts the file of an encode that ended and gives its model back (42_frequency_model.md R148). -/
theorem primDecStart_encDone (ht : Inv t) (hphase : t.phase = .encDone) (hd : Inv d) (hidle : d.phase = .idle)
    (hprec : d.prec = t.prec) (hlen : d.inLen = t.outLen)
    (hbytes : ∀ a, a < t.outLen.toNat → d.readByte .ibuf a = t.readByte .obuf a)
    (hroom : t.inLen.toNat ≤ d.obufSize.toNat) :
    ∃ v w, primDecStart d = .ok (v, w) ∧ v.freq = t.freq ∧ v.nDecl = t.inLen ∧ HoldsFile t v := by
  obtain ⟨x, hexec, hdecoding, hfreq, -, -, -, -, -, hhdr, hdecl, hbits⟩ :=
    decStartAcceptsTheEncodersHeader t d ht hphase hd hidle hprec hlen hbytes hroom
  obtain ⟨v, w, _, hok, rfl⟩ := exec_rule_completes (i := .decStart) rfl hexec (by simp [hdecoding])
  have hibuf : v.ibuf = d.ibuf := by
    obtain ⟨hdr, -, -, rfl⟩ := primDecStart_ok hok
    rfl
  exact ⟨v, w, hok, hfreq, hdecl, hhdr, hbits, fun a ha => (congrArg (Memory.read .ibuf · a) hibuf).trans (hbytes a ha)⟩

/-- DECOMPRESS in IDLE ends as its sequence does. -/
theorem exec_decompress (hs : s.phase = .idle) : exec .decompress s = finishRun (runDecompress s) :=
  execSequence_pass (by rw [hs]; rfl)

/-- Settles O41: DEC_START gives the encoder's model back, the payload lies in the interval the encode ended with, hence
in every interval before, and so each DEC_STEP finds the symbol of the ENC_STEP. -/
theorem decompressInvertsCompress : Obligations.DecompressInvertsCompress := by
  intro s t d hs hidle hexec hdone hd hidle' hprec hlen hbytes hroom
  have ht := hs.exec hexec
  obtain ⟨henc, e, w, hrun, hfrom, hfinish, rfl⟩ := exec_compress_completes hs hexec hdone
  have hinLen : e.encFinishCommit.inLen = s.inLen := (encFinishCommit_inLen e).trans hfrom.input.inLen
  have hprec' : d.prec = e.encFinishCommit.prec :=
    hprec.trans ((encFinishCommit_prec e).trans hfrom.input.prec).symm
  obtain ⟨v, w', hok, hfreq, hdecl, hfile⟩ := primDecStart_encDone ht hdone hd hidle' hprec' hlen hbytes
    ((congrArg BitVec.toNat hinLen).trans_le hroom)
  have hcount : v.nDecl = s.inLen := hdecl.trans hinLen
  have hstep := henc.inStep hs hd hidle' hprec hok
    (hfreq.trans ((encFinishCommit_freq e).trans hfrom.freq)) hcount
  have hencloses : Encloses e v := hfrom.inv.encFinish_encloses hfrom.phase hfinish (ht.encDone hdone)
    ⟨hfile.hdrLen, hfile.bitLen, hfile.bytes⟩
  obtain ⟨u, hsteps, hdecoded⟩ := hstep.repeatDecStep (Nat.zero_add _) hrun hencloses
  have hstart := (inPhases_pass (m := .decStart) (by rw [hidle']; rfl)).trans hok
  have hdecompress : runDecompress d = .ok u := by
    rw [runDecompress, runPrimitive_of_ok hstart, andThen, hcount]
    exact hsteps
  exact ⟨u.respond .ok u.outLen, (exec_decompress hidle').trans (by rw [hdecompress]; rfl), hdecoded.phase,
    hdecoded.outLen, hdecoded.output⟩

end Sys2Proof.Machine
end

section
/-! PROOFS. DEC_START (46_decoder.md): tag initialization in closed form (R221), and what an accepted file loads
(R222). -/

namespace Sys2Proof.Machine

variable {s : State}

/-! ### Tag initialization (R221) -/

/-- The number the first m payload bits make: bit i has weight 2^(m - i). -/
theorem sourceValue_eq_sum (s : State) (m : Nat) :
    s.sourceValue m = ((List.range m).map fun i => (s.sourceBit (i + 1)).toNat * 2 ^ (m - (i + 1))).sum := by
  induction m with
  | zero => rfl
  | succ m ih =>
    have hdouble : ∀ i ∈ List.range m, (s.sourceBit (i + 1)).toNat * 2 ^ (m + 1 - (i + 1)) =
        2 * ((s.sourceBit (i + 1)).toNat * 2 ^ (m - (i + 1))) := fun i hi => by
      rw [Nat.succ_sub (List.mem_range.1 hi), Nat.pow_succ]
      ring
    rw [sourceValue_succ, ih, List.range_succ, List.map_append, List.sum_append, List.map_congr_left hdouble,
      List.sum_map_mul_left]
    simp

/-- TAG and RD_IDX hold what tag initialization computes, whatever the state. -/
theorem initTag_registers (s : State) :
    s.initTag.tag.toNat = s.sourceValue s.prec.toNat ∧ s.initTag.rdIdx.toNat = s.readIndex s.prec.toNat := by
  have hfirst : s.readIndex 0 = 1 := Nat.min_eq_left (by omega)
  have hbits : s.shiftBits s.prec.toNat 0 1 = (s.sourceValue s.prec.toNat, s.readIndex s.prec.toNat) := by
    have hall := shiftBits_eq s s.prec.toNat 0
    rwa [hfirst, Nat.zero_add] at hall
  have hlt := shiftBits_lt s s.prec.toNat 0 0 1 (by decide)
  have hwhole := whole_le s
  have hprec := s.prec.isLt
  have hrd : s.readIndex s.prec.toNat ≤ s.prec.toNat + 1 := Nat.min_le_left _ _
  rw [hbits, Nat.zero_add] at hlt
  rw [initTag_tag, initTag_rdIdx, hbits]
  exact ⟨toNat_ofNat_of_lt (hlt.trans_le (hwhole.trans (by decide))), toNat_ofNat_of_lt (by omega)⟩

/-- Settles O42: the bits shifted in make the number `sourceValue_eq_sum` writes as a sum. -/
theorem tagInitializationReadsTheFirstBits : Obligations.TagInitializationReadsTheFirstBits := by
  intro s
  obtain ⟨htag, hrd⟩ := initTag_registers s
  exact ⟨htag.trans (sourceValue_eq_sum s _), hrd, initTag_tag_lt s, rfl⟩

/-! ### The file DEC_START accepts (43_bitstream_packer.md R168) -/

/-- BuildModel's FMIN is the least positive count (42_frequency_model.md R142). -/
theorem leastPositive_fmin (f : RegArray) : LeastPositive f (buildModel f).fmin := by
  by_cases h : ∃ c : Byte, symEntry f c ≠ 0
  · obtain ⟨c, hc⟩ := h
    obtain ⟨g, hg, hg0, hmin⟩ := minPositive_mem ⟨_, symEntry_mem f c, hc⟩
    obtain ⟨d, rfl⟩ := exists_symEntry_of_mem hg
    exact .inr ⟨⟨d, hg0, hmin.symm⟩, fun e he => fmin_le e.isLt he⟩
  · have hzero : ∀ c : Byte, symEntry f c = 0 := by simpa using h
    exact .inl ⟨LeastPositive.fmin_eq (.inl ⟨rfl, hzero⟩), hzero⟩

/-- What the parser returns of a file whose pairs are good. -/
def State.fileHeader (s : State) : Header := s.headerWith (s.declaredFreq s.fileK)

theorem FileAccepted.headerParse_eq (h : FileAccepted s) : s.headerParse = .ok s.fileHeader :=
  headerParse_pass h.header h.pairs h.sum h.payload h.room

/-- TOTAL is N. -/
theorem FileAccepted.total_eq (h : FileAccepted s) : (buildModel s.fileHeader.freq).total = s.fileN :=
  h.pairs.declaredFreq_total.trans h.sum

/-- SYMCOUNT is K. -/
theorem FileAccepted.symCount_eq (h : FileAccepted s) : (buildModel s.fileHeader.freq).symCount = s.fileK :=
  parsePairs_symCount h.pairs.parsePairs_eq_ok

/-- FMIN is the frequency of one of the pairs, so the precision check passes (46_decoder.md R222). -/
theorem FileAccepted.precision_le (h : FileAccepted s) :
    (buildModel s.fileHeader.freq).total ≤ (buildModel s.fileHeader.freq).fmin * s.quarter := by
  obtain ⟨-, hk, -⟩ := h.header
  have hpresent := h.pairs.declaredFreq_ne_zero_iff
  obtain ⟨-, hzero⟩ | ⟨⟨c, hc, hmin⟩, -⟩ := leastPositive_fmin s.fileHeader.freq
  · exact absurd (hzero _) ((hpresent _).2 ⟨0, hk, rfl⟩)
  · obtain ⟨j, hj, rfl⟩ := (hpresent c).1 hc
    rw [h.total_eq, ← hmin, State.fileHeader, State.headerWith, h.pairs.declaredFreq_symbol hj]
    exact h.precision j hj

theorem FileAccepted.inv_decStarted (h : FileAccepted s) (hs : Inv s) (hp : s.phase = .idle) :
    Inv (s.decStarted s.fileHeader) := hs.decStart hp h.headerParse_eq h.precision_le

theorem FileAccepted.exec_decStart (h : FileAccepted s) (hs : Inv s) (hp : s.phase = .idle) :
    exec .decStart s = .next ((s.decStarted s.fileHeader).respond .ok (BitVec.ofNat 32 s.fileN)) :=
  exec_decStart_pass hs hp h.headerParse_eq h.precision_le

/-- The registers DEC_START writes, and no others (R222). -/
theorem decStarted_respond_eq (s : State) (hd : Header) {n m k l b : Nat} (hn : hd.n = n)
    (htotal : (buildModel hd.freq).total = m) (hk : (buildModel hd.freq).symCount = k) (hl : hd.hdrLen = l)
    (hb : hd.bitLen = b) {t : State} (ht : t = (s.decStarted hd).respond .ok (BitVec.ofNat 32 n)) :
    t = { s with
      freq := t.freq, cumLow := t.cumLow, cumHigh := t.cumHigh, total := BitVec.ofNat 32 m
      symCount := BitVec.ofNat 9 k, fmin := t.fmin, hdrLen := BitVec.ofNat 32 l, bitLen := BitVec.ofNat 32 b
      nDecl := BitVec.ofNat 32 n, lower := 0, upper := BitVec.ofNat 32 (2 ^ s.prec.toNat), decCount := 0, tag := t.tag
      rdIdx := t.rdIdx, phase := .decoding, rsp := some (responseWord .ok s.errCode .decoding t.nDecl) } := by
  subst hn htotal hk hl hb ht
  rfl

/-- Settles O43: the parser passes with the counts the pairs declare, wherever their pairs stand, and BuildModel's
results for them are in closed form. -/
theorem decStartLoadsTheFile : Obligations.DecStartLoadsTheFile := by
  intro s hs hp h
  have hinv := h.inv_decStarted hs hp
  obtain ⟨hm, -⟩ := hinv.decoding rfl
  have hmodel := hm.holdsModel
  obtain ⟨-, -, -, -, hmin, -⟩ := hm
  obtain ⟨htag, hrd⟩ := initTag_registers (s.decLoad s.fileHeader)
  refine ⟨_, h.exec_decStart hs hp, decStarted_respond_eq s s.fileHeader rfl h.total_eq h.symCount_eq rfl rfl rfl,
    fun j hj => h.pairs.declaredFreq_symbol hj, fun c hc => ?_,
    fun c => ⟨hmodel.low_eq c, hmodel.high_eq_low_add c⟩, ?_, htag.trans (sourceValue_eq_sum _ _), hrd⟩
  · by_contra hne
    obtain ⟨j, hj, hsym⟩ := (h.pairs.declaredFreq_ne_zero_iff c).1 hne
    exact hc j hj hsym
  · rw [respond_fmin, hmin]
    exact leastPositive_fmin _

end Sys2Proof.Machine
end

section
/-! PROOFS. DEC_STEP (46_decoder.md R223 to R225): the candidate intervals tile the coder's interval (R227), so Search
finds the one symbol whose candidate contains TAG, in any order (R228). -/

namespace Sys2Proof.Machine

variable {s : State} {c : Byte}

/-! ### The candidates tile the interval (R227) -/

/-- The cumulative counts narrowed to v and below are those up to some x < TOTAL: with y = v - lo, the x of
`range * x < (y + 1) * total <= range * (x + 1)`. -/
theorem exists_narrow_boundary {total lo up v : Nat} (hT : 0 < total) (hl : lo ≤ v) (hu : v < up) :
    ∃ x, x < total ∧ (∀ k, k ≤ x → lo + (up - lo) * k / total ≤ v) ∧ ∀ k, x < k → v < lo + (up - lo) * k / total := by
  have hr : 0 < up - lo := by omega
  have hpos : 0 < (v - lo + 1) * total := Nat.mul_pos (Nat.succ_pos _) hT
  have hle : (v - lo + 1) * total ≤ (up - lo) * total := Nat.mul_le_mul_right _ (by omega)
  refine ⟨((v - lo + 1) * total - 1) / (up - lo), ?_, fun k hk => ?_, fun k hk => ?_⟩
  · rw [Nat.div_lt_iff_lt_mul hr, Nat.mul_comm total]
    omega
  · rw [Nat.le_div_iff_mul_le hr, Nat.mul_comm k] at hk
    have hlt : (up - lo) * k / total < v - lo + 1 := (Nat.div_lt_iff_lt_mul hT).2 (by omega)
    omega
  · rw [Nat.div_lt_iff_lt_mul hr, Nat.mul_comm k] at hk
    have hge : v - lo + 1 ≤ (up - lo) * k / total := (Nat.le_div_iff_mul_le hT).2 (by omega)
    omega

/-- Every value of the interval lies in the candidate of a symbol present: the one whose range has the boundary. -/
theorem HoldsModel.exists_candidate (h : HoldsModel s) (hT : 0 < s.total.toNat) {v : Nat} (hl : s.lower.toNat ≤ v)
    (hu : v < s.upper.toNat) :
    ∃ c : Byte, symEntry s.freq c ≠ 0 ∧ (s.candidate c).1 ≤ v ∧ v < (s.candidate c).2 := by
  obtain ⟨x, hx, hbelow, habove⟩ := exists_narrow_boundary hT hl hu
  obtain ⟨c, hc, hlow, hhigh⟩ := h.exists_symbol hx
  exact ⟨c, hc, hbelow _ hlow, habove _ hhigh⟩

/-- While decoding, every value of the interval lies in the candidate of a symbol present. -/
theorem Inv.exists_candidate (h : Inv s) (hs : s.phase = .decoding) {v : Nat} (hl : s.lower.toNat ≤ v)
    (hu : v < s.upper.toNat) :
    ∃ c : Byte, symEntry s.freq c ≠ 0 ∧ (s.candidate c).1 ≤ v ∧ v < (s.candidate c).2 := by
  obtain ⟨hm, -⟩ := h.decoding hs
  have hmodel := hm.holdsModel
  obtain ⟨-, -, -, -, -, hpos, -⟩ := hm
  exact hmodel.exists_candidate hpos hl hu

/-- So Search always finds a match: the tag lies in the interval. -/
theorem Inv.exists_search (h : Inv s) (hs : s.phase = .decoding) : ∃ c, s.search = some c := by
  obtain ⟨hm, -, -, ⟨htl, htu⟩, -⟩ := h.decoding hs
  obtain ⟨c, hc, hl, hu⟩ := h.exists_candidate hs htl htu
  exact ⟨c, hm.holdsModel.search_eq hc hl hu⟩

/-! ### DEC_STEP answers -/

/-- The state DEC_STEP leaves before its response when Search gave c (R223): the last symbol commits the result, every
other one renormalizes. -/
def State.decStepped (s : State) (c : Byte) : State :=
  if s.decCount + 1 = s.nDecl then (s.decEmit c).decEnd else (s.decEmit c).decRenorm

/-- Where Search gave c, the rule of DEC_STEP in a state of a run completes. -/
theorem Inv.primDecStep_decStepped (h : Inv s) (hs : s.phase = .decoding) (hc : s.search = some c) :
    primDecStep s = .ok (s.decStepped c, zext32 c) := by
  rw [h.primDecStep_eq hs hc, State.decStepped]
  split <;> rfl

/-- DEC_STEP in DECODING ends as its rule does, and the rule completes. -/
theorem Inv.exec_decStep (h : Inv s) (hs : s.phase = .decoding) (hc : s.search = some c) :
    Machine.exec .decStep s = .next ((s.decStepped c).respond .ok (zext32 c)) := by
  rw [exec_eq_finish (i := .decStep) rfl (by rw [hs]; rfl) (by simp [hs])]
  exact finish_ok (h.primDecStep_decStepped hs hc)

theorem decStepped_last (hlast : s.decCount + 1 = s.nDecl) : s.decStepped c = (s.decEmit c).decEnd := if_pos hlast

theorem decStepped_more (hmore : s.decCount + 1 ≠ s.nDecl) : s.decStepped c = (s.decEmit c).decRenorm := if_neg hmore

theorem decStepped_obuf (s : State) (c : Byte) : (s.decStepped c).obuf = s.obuf.write s.decCount.toNat c := by
  rw [State.decStepped]
  split <;> rfl

/-- Settles O45: `Inv.exists_candidate` and `HoldsModel.candidate_ascends`, and DEC_STEP completes with the match. -/
theorem searchAlwaysFindsASymbol : Obligations.SearchAlwaysFindsASymbol := by
  intro s h hs
  obtain ⟨hm, -⟩ := h.decoding hs
  obtain ⟨c, hc⟩ := h.exists_search hs
  refine ⟨fun v => h.exists_candidate hs, fun a b => hm.holdsModel.candidate_ascends, ⟨c, hc⟩, fun t ht => ?_⟩
  cases (h.exec_decStep hs hc).symm.trans ht
  rw [respond_phase, State.decStepped]
  split
  · simp
  · simp [hs]

/-! ### Any order of search (R228) -/

/-- The one element of a list that passes is found, wherever it stands. -/
theorem find?_eq_some_of_unique {α : Type} {l : List α} {p : α → Bool} {a : α} (ha : a ∈ l) (hp : p a = true)
    (hunique : ∀ b, b ∈ l → p b = true → b = a) : l.find? p = some a := by
  obtain ⟨b, hb⟩ := Option.isSome_iff_exists.1 (List.find?_isSome.2 ⟨a, ha, hp⟩)
  rw [hb, hunique b (List.mem_of_find?_eq_some hb) (List.find?_some hb)]

theorem tagMatches_iff : s.tagMatches c = true ↔ (s.candidate c).1 ≤ s.tag.toNat ∧ s.tag.toNat < (s.candidate c).2 := by
  simp [State.tagMatches]

/-- No candidate but the one found contains TAG: they are disjoint, and one of a symbol not present is empty. -/
theorem HoldsModel.eq_of_tagMatches (h : HoldsModel s) (hc : s.search = some c) {d : Byte}
    (hd : s.tagMatches d = true) : d = c := by
  obtain ⟨hl, hu⟩ := tagMatches_iff.1 hd
  have hpresent : symEntry s.freq d ≠ 0 := fun hzero => by
    have hempty : (symEntry s.cumHigh d).toNat = (symEntry s.cumLow d).toNat := by
      rw [h.high_eq_low_add, hzero]
      rfl
    rw [State.candidate, hempty] at hl hu
    exact absurd hu (Nat.not_lt.2 hl)
  exact Option.some.inj ((h.search_eq hpresent hl hu).symm.trans hc)

/-- Settles O46: a list that has the symbol found in it has no other match. -/
theorem anySearchOrderFindsTheSameSymbol : Obligations.AnySearchOrderFindsTheSameSymbol := by
  intro s h hs
  obtain ⟨hm, -⟩ := h.decoding hs
  obtain ⟨c, hc⟩ := h.exists_search hs
  obtain ⟨hpresent, hl, hu⟩ := search_some hc
  have hmatch : s.tagMatches c = true := tagMatches_iff.2 ⟨hl, hu⟩
  have hfind : ∀ l : List Byte, c ∈ l → l.find? s.tagMatches = s.search := fun l hmem =>
    (find?_eq_some_of_unique hmem hmatch fun d _ => hm.holdsModel.eq_of_tagMatches hc).trans hc.symm
  refine ⟨⟨c, ⟨hpresent, hmatch⟩, fun d _ => hm.holdsModel.eq_of_tagMatches hc⟩, fun l hperm => ?_, ?_⟩
  · exact hfind l (hperm.mem_iff.2 (mem_symbolsOf.2 hpresent))
  · exact hfind _ (List.mem_map.2 ⟨c.toNat, List.mem_range.2 c.isLt, by simp⟩)

/-! ### One DEC_STEP (R223 to R225) -/

/-- The narrowed registers, the tag and the read index from which DEC_STEP renormalizes. -/
theorem decInterval_decEmit (hc : s.search = some c) (hwhole : (s.candidate c).2 ≤ s.whole) :
    (s.decEmit c).decInterval = ⟨(s.candidate c).1, (s.candidate c).2, s.tag.toNat, s.rdIdx.toNat⟩ := by
  obtain ⟨-, hl, hu⟩ := search_some hc
  have hle := whole_le s
  rw [State.decInterval, decEmit_lower, decEmit_upper, toNat_ofNat_of_lt (by omega), toNat_ofNat_of_lt (by omega)]
  rfl

section Payload

variable {t : State} (h : ∀ base v, t.rescaleDec base v = s.rescaleDec base v)
include h

theorem renormDecPhase1_congr (p fuel : Nat) (v : DecInterval) :
    t.renormDecPhase1 p fuel v = s.renormDecPhase1 p fuel v := by
  induction fuel generalizing v with
  | zero => rfl
  | succ fuel ih => simp only [State.renormDecPhase1, h, ih]

theorem renormDecPhase2_congr (p fuel : Nat) (v : DecInterval) :
    t.renormDecPhase2 p fuel v = s.renormDecPhase2 p fuel v := by
  induction fuel generalizing v with
  | zero => rfl
  | succ fuel ih => simp only [State.renormDecPhase2, h, ih]

/-- RenormDec depends on the payload only, which one rescaling reads (44_interval_renormalizer.md R184). -/
theorem renormDec_congr (p : Nat) (v : DecInterval) : t.renormDec p v = s.renormDec p v := by
  rw [State.renormDec, State.renormDec, renormDecPhase1_congr h, renormDecPhase2_congr h]

end Payload

/-- After a symbol that is not the last the registers hold what the two loops, run on its candidate, end at. -/
theorem Inv.decRenorm_loops (h : Inv s) (hs : s.phase = .decoding) (hc : s.search = some c) :
    ∃ w v, DecPhase1 s s.prec.toNat ⟨(s.candidate c).1, (s.candidate c).2, s.tag.toNat, s.rdIdx.toNat⟩ w ∧
      DecPhase2 s s.prec.toNat w v ∧
      (s.decEmit c).decRenorm.lower.toNat = v.lower ∧ (s.decEmit c).decRenorm.upper.toNat = v.upper ∧
      (s.decEmit c).decRenorm.tag.toNat = v.tag ∧ (s.decEmit c).decRenorm.rdIdx.toNat = v.rdIdx := by
  obtain ⟨hm, ⟨-, -, hbits, -, hrd, -⟩, hw, -⟩ := h.decoding hs
  obtain ⟨hin, -⟩ := h.input
  obtain ⟨-, hisize, -, -⟩ := h.sizes
  obtain ⟨-, hl, hu⟩ := search_some hc
  have hwhole := candidate_le_whole hm hw c
  obtain ⟨hinterval, htag⟩ := decEmit_interval hc hwhole
  have hregs := decRenorm_toNat (d := s.decEmit c) h.prec hinterval htag hrd (by rw [decEmit_bitLen]; omega)
  rw [decInterval_decEmit hc hwhole, renormDec_congr (s := s) (t := s.decEmit c) fun _ _ => rfl] at hregs
  obtain ⟨hphase1, hphase2⟩ := renormDec_loops (s := s) h.prec
    (v := ⟨(s.candidate c).1, (s.candidate c).2, s.tag.toNat, s.rdIdx.toNat⟩) ⟨hl, hu⟩ hwhole hrd
  exact ⟨_, _, hphase1, hphase2, hregs⟩

/-- Settles O44: Search gives the symbol; after the last one the registers hold its candidate, after every other one the
result of the two loops run on it. -/
theorem decStepDecodesOneSymbol : Obligations.DecStepDecodesOneSymbol := by
  intro s h hs
  obtain ⟨hm, -, hw, -, hcount, -⟩ := h.decoding hs
  obtain ⟨c, hc⟩ := h.exists_search hs
  obtain ⟨hpresent, hl, hu⟩ := search_some hc
  have hsucc := decCount_succ hcount
  have hread : ∀ a, ((s.decStepped c).respond .ok (zext32 c)).readByte .obuf a =
      (s.obuf.write s.decCount.toNat c).read .obuf a := fun a =>
    congrArg (Memory.read .obuf · a) (decStepped_obuf s c)
  refine ⟨_, c, (s.candidate c).1, (s.candidate c).2, h.exec_decStep hs hc, rfl, rfl, hpresent, hl, hu, ?_,
    (hread _).trans (read_write_same ..), fun a ha => (hread a).trans (read_write_other _ _ _ ha), fun hlast => ?_,
    fun hmore => ?_⟩
  · rw [State.decStepped]
    split <;> rfl
  · obtain ⟨hlower, hupper, -⟩ := DecInterval.mk.inj (decInterval_decEmit hc (candidate_le_whole hm hw c))
    rw [decStepped_last (BitVec.eq_of_toNat_eq (hsucc.trans hlast))]
    exact ⟨rfl, rfl, rfl, hlower, hupper, rfl, rfl⟩
  · have hne : s.decCount + 1 ≠ s.nDecl := fun he => by
      rw [← he, hsucc] at hmore
      exact hmore.false
    rw [decStepped_more hne]
    exact ⟨hs, rfl, rfl, h.decRenorm_loops hs hc⟩

end Sys2Proof.Machine
end

section
/-! PROOFS. DECOMPRESS (46_decoder.md R226): it is DEC_START and N_DECL times DEC_STEP, answered as RD_REG answers
OUT_LEN, and it completes on every accepted file (R227). -/

namespace Sys2Proof.Machine

variable {s t u v c : State} {d : Word32}

/-! ### The decoder's rules do not read the response channel -/

theorem parsePairs_withRsp (s : State) (r : Option Word64) (n j : Nat) (f : RegArray) :
    (s.withRsp r).parsePairs n j f = s.parsePairs n j f := by
  induction n generalizing j f with
  | zero => rfl
  | succ n ih =>
    rw [State.parsePairs, State.parsePairs, ih]
    rfl

theorem headerParse_withRsp (s : State) (r : Option Word64) : (s.withRsp r).headerParse = s.headerParse := by
  dsimp only [State.headerParse]
  rw [parsePairs_withRsp]
  rfl

theorem shiftBits_withRsp (s : State) (r : Option Word64) (n tag rd : Nat) :
    (s.withRsp r).shiftBits n tag rd = s.shiftBits n tag rd := by
  induction n generalizing tag rd with
  | zero => rfl
  | succ n ih => exact ih _ _

theorem decStarted_withRsp (s : State) (r : Option Word64) (hd : Header) :
    (s.withRsp r).decStarted hd = (s.decStarted hd).withRsp r := by
  change { ((s.decLoad hd).withRsp r).initTag with phase := .decoding } = _
  rw [State.initTag, shiftBits_withRsp]
  rfl

theorem decRenorm_withRsp (s : State) (r : Option Word64) : (s.withRsp r).decRenorm = s.decRenorm.withRsp r := by
  rw [State.decRenorm, renormDec_congr (s := s) (t := s.withRsp r) fun _ _ => rfl]
  rfl

theorem ignoresRsp_decStart : IgnoresRsp primDecStart := by
  intro s r
  have hstart : ∀ hd, { ((s.withRsp r).decLoad hd).initTag with phase := .decoding } = (s.decStarted hd).withRsp r :=
    decStarted_withRsp s r
  unfold primDecStart
  rw [headerParse_withRsp, map_ite]
  cases s.headerParse with
  | error a => rfl
  | ok hd =>
    simp only [map_ite, hstart]
    rfl

theorem ignoresRsp_decStep : IgnoresRsp primDecStep := by
  intro s r
  have hsearch : (s.withRsp r).search = s.search := rfl
  have hrenorm : ∀ c, ((s.withRsp r).decEmit c).decRenorm = (s.decEmit c).decRenorm.withRsp r := fun c =>
    decRenorm_withRsp (s.decEmit c) r
  unfold primDecStep
  rw [hsearch]
  cases s.search with
  | none =>
    simp only [map_ite]
    rfl
  | some c =>
    simp only [map_ite, hrenorm]
    rfl

theorem ignoresRsp_rdReg (addr : BitVec 12) : IgnoresRsp (primRdReg addr) := by
  intro s r
  have hread : (s.withRsp r).readRegister (regAddress addr) = s.readRegister (regAddress addr) := rfl
  rw [primRdReg, primRdReg, hread]
  cases s.readRegister (regAddress addr) <;> rfl

/-! ### DECOMPRESS is its sequence (R226)

DECOMPRESS answers OUT_LEN, and the last DEC_STEP its symbol: with an RD_REG of OUT_LEN behind it the sequence answers
as DECOMPRESS does. -/

/-- RD_REG of OUT_LEN (10_state.md R33) answers it. -/
theorem primRdReg_outLen (h : primRdReg 0x007 s = .ok (t, d)) : d = t.outLen := by
  cases h
  rfl

/-- Behind a run it changes nothing: it completes in every phase. -/
theorem andThen_rdReg_outLen (r : Run) : andThen r (runPrimitive (inPhases .rdReg (primRdReg 0x007))) = r := by
  cases r <;> rfl

theorem performs_decompressSequence (n : Nat) : Performs (decompressSequence n ++ [.rdReg 0x007]) fun s =>
    andThen (runPrimitive (inPhases .decStart primDecStart) s) (repeatPrimitive (inPhases .decStep primDecStep) n) := by
  have hread : Performs [.rdReg 0x007] (runPrimitive (inPhases .rdReg (primRdReg 0x007))) :=
    .single (i := .rdReg 0x007) rfl (ignoresRsp_rdReg _) primRdReg_outLen
  have hsteps := hread.replicate (i := .decStep) rfl ignoresRsp_decStep n
  simp only [andThen_rdReg_outLen] at hsteps
  exact hsteps.cons (i := .decStart) rfl ignoresRsp_decStart

/-- The rest of a list, behind what its first part answered. -/
def execRest (is : List Instr) : Host.Outcome State Fault Refusal → Host.Outcome State Fault Refusal
  | .next t => if t.phase = .error then .next t else execAll is t
  | o => o

theorem execAll_append (is js : List Instr) (hs : s.phase ≠ .error) :
    execAll (is ++ js) s = execRest js (execAll is s) := by
  induction is generalizing s with
  | nil => exact (if_neg hs).symm
  | cons i is ih =>
    rw [List.cons_append, execAll, execAll]
    cases exec i s with
    | next t =>
      by_cases ht : t.phase = .error
      · simp only [if_pos ht, execRest]
      · simp only [if_neg ht, ih ht]
    | fault f => rfl
    | refused r => rfl

/-- The answer OUT_LEN behind a list that answered t. -/
theorem execRest_rdReg_outLen (t : State) : execRest [.rdReg 0x007] (.next t) =
    .next (if t.phase = .error then t else t.respond .ok t.outLen) := by
  by_cases ht : t.phase = .error
  · rw [if_pos ht]
    exact if_pos ht
  · rw [if_neg ht]
    refine (if_neg ht).trans ?_
    rw [execAll, exec_rdReg_mapped (v := t.outLen) rfl]
    exact if_neg ht

/-- Where DEC_START takes an error, DECOMPRESS takes it. -/
theorem exec_decompress_of_error (hs : s.phase = .idle) (h : exec .decStart s = .next t) (ht : t.phase = .error) :
    exec .decompress s = .next t := by
  rw [exec_eq_finish_inPhases (i := .decStart) rfl (by simp [hs])] at h
  obtain ⟨u, d, hok, rfl⟩ | ⟨e, info, hraise, rfl⟩ := finish_next h
  · exact absurd ht ((Completes.ofInPhases (i := .decStart) rfl hok).phase_ne_error (by simp [hs]))
  · change inPhases .decStart primDecStart s = _ at hraise
    rw [exec_decompress hs, runDecompress, runPrimitive, hraise]
    rfl

/-- Where DEC_START completes, DECOMPRESS is the sequence with RD_REG of OUT_LEN behind it. -/
theorem exec_decompress_of_decStart (hs : s.phase = .idle) (h : exec .decStart s = .next t) (ht : t.phase ≠ .error) :
    exec .decompress s = execRest [.rdReg 0x007] (execAll (decompressSequence t.nDecl.toNat) s) := by
  have hne : s.phase ≠ .error := by simp [hs]
  obtain ⟨u, d, d', hok, rfl⟩ := exec_rule_completes (i := .decStart) rfl h ht
  have hstart : runPrimitive (inPhases .decStart primDecStart) s = .ok u :=
    runPrimitive_of_ok ((inPhases_pass (by rw [hs]; rfl)).trans hok)
  have hall := performs_decompressSequence u.nDecl.toNat s s.rsp hne
  dsimp only at hall
  rw [exec_decompress hs, runDecompress, ← execAll_append _ _ hne]
  rw [hstart] at hall ⊢
  exact hall.symm

/-- Settles O47: DEC_START's error is DECOMPRESS's; otherwise DECOMPRESS answers as RD_REG of OUT_LEN behind the
sequence. -/
theorem decompressIsItsSequence : Obligations.DecompressIsItsSequence := by
  refine fun s hs => ⟨fun a => exec_decompress_of_error hs, fun a ha hphase => ⟨fun t hall => ?_, fun f hall => ?_⟩⟩
  · rw [exec_decompress_of_decStart hs ha hphase, hall]
    exact execRest_rdReg_outLen t
  · rw [exec_decompress_of_decStart hs ha hphase, hall]
    rfl

/-! ### DECOMPRESS completes on every accepted file (R226, R227) -/

/-- `u` is reached from `c` by DEC_STEPs: a state of a run that decodes the same file, and OBUF past its N bytes is as
it was. -/
structure DecodesFrom (c u : State) : Prop where
  inv   : Inv u
  input : SameInput c u
  port  : u.port = c.port
  nDecl : u.nDecl = c.nDecl
  past  : ∀ a, c.nDecl.toNat ≤ a → u.readByte .obuf a = c.readByte .obuf a

theorem SameInput.trans (h : SameInput s t) (h' : SameInput t u) : SameInput s u :=
  ⟨h'.ibufSize.trans h.ibufSize, h'.obufSize.trans h.obufSize, h'.prec.trans h.prec, h'.ibuf.trans h.ibuf,
    h'.inLen.trans h.inLen, h'.errCode.trans h.errCode, h'.errInfo.trans h.errInfo⟩

theorem sameInput_decStarted (s : State) (hd : Header) : SameInput s (s.decStarted hd) :=
  ⟨rfl, rfl, rfl, rfl, rfl, rfl, rfl⟩

/-- DEC_STEP keeps the input, the port and N, and writes OBUF[DEC_COUNT] (R223). -/
theorem primDecStep_frame (h : primDecStep s = .ok (t, d)) :
    SameInput s t ∧ t.port = s.port ∧ t.nDecl = s.nDecl ∧
      ∀ a, a ≠ s.decCount.toNat → t.readByte .obuf a = s.readByte .obuf a := by
  obtain ⟨sym, -, -, -, ⟨-, rfl⟩ | ⟨-, rfl⟩⟩ := primDecStep_ok h
  · exact ⟨⟨rfl, rfl, rfl, rfl, rfl, rfl, rfl⟩, rfl, rfl, fun a => read_write_other .obuf s.obuf sym⟩
  · exact ⟨⟨rfl, rfl, rfl, rfl, rfl, rfl, rfl⟩, rfl, rfl, fun a => read_write_other .obuf s.obuf sym⟩

theorem DecodesFrom.refl (h : Inv c) : DecodesFrom c c :=
  ⟨h, ⟨rfl, rfl, rfl, rfl, rfl, rfl, rfl⟩, rfl, rfl, fun _ _ => rfl⟩

/-- DEC_STEP writes OBUF[DEC_COUNT], and DEC_COUNT is below N. -/
theorem DecodesFrom.decStep (h : DecodesFrom c u) (hs : u.phase = .decoding) (hok : primDecStep u = .ok (v, d)) :
    DecodesFrom c v := by
  obtain ⟨-, -, -, -, hcount, -⟩ := h.inv.decoding hs
  obtain ⟨hinput, hport, hdecl, hother⟩ := primDecStep_frame hok
  rw [h.nDecl] at hcount
  exact ⟨h.inv.decStep hs hok, h.input.trans hinput, hport.trans h.port, hdecl.trans h.nDecl,
    fun a ha => (hother a (hcount.trans_le ha).ne').trans (h.past a ha)⟩

theorem DecodesFrom.repeatDecStep {n : Nat} (h : Inv c)
    (hrun : repeatPrimitive (inPhases .decStep primDecStep) n c = .ok u) : DecodesFrom c u :=
  repeatPrimitive_ok (fun hu hok => by
    obtain ⟨hs, hok⟩ := inPhases_ok hok
    exact hu.decStep (of_decide_eq_true hs) hok) (.refl h) hrun

/-- As many DEC_STEPs as there are symbols left complete: each finds its symbol (R227). -/
theorem Inv.repeatDecStep_completes {n : Nat} (h : Inv s) (hs : s.phase = .decoding)
    (hn : s.decCount.toNat + n = s.nDecl.toNat) :
    ∃ u, repeatPrimitive (inPhases .decStep primDecStep) n s = .ok u := by
  induction n generalizing s with
  | zero => exact ⟨s, rfl⟩
  | succ n ih =>
    obtain ⟨-, -, -, -, hcount, -⟩ := h.decoding hs
    have hsucc := decCount_succ hcount
    obtain ⟨c, hc⟩ := h.exists_search hs
    have hok := h.primDecStep_decStepped hs hc
    have hinv := h.decStep hs hok
    rw [repeatPrimitive_succ, runPrimitive_of_ok ((inPhases_pass (by rw [hs]; rfl)).trans hok)]
    by_cases hlast : s.decCount + 1 = s.nDecl
    · obtain rfl : n = 0 := by
        rw [hlast] at hsucc
        omega
      exact ⟨_, rfl⟩
    · rw [decStepped_more hlast] at hinv ⊢
      exact ih hinv hs (by
        change (s.decCount + 1).toNat + n = s.nDecl.toNat
        omega)

theorem FileAccepted.primDecStart_completes (h : FileAccepted s) (hs : Inv s) (hp : s.phase = .idle) :
    ∃ d, primDecStart s = .ok (s.decStarted s.fileHeader, d) := by
  obtain ⟨v, d, -, hok, -⟩ := exec_rule_completes (i := .decStart) rfl (h.exec_decStart hs hp) nofun
  obtain ⟨hd, hparse, -, rfl⟩ := primDecStart_ok hok
  cases hparse.symm.trans h.headerParse_eq
  exact ⟨d, hok⟩

/-- DECOMPRESS of an accepted file ends in DEC_DONE, by DEC_STEPs from the state DEC_START leaves. -/
theorem FileAccepted.runDecompress_completes (h : FileAccepted s) (hs : Inv s) (hp : s.phase = .idle) :
    ∃ hd u, s.headerParse = .ok hd ∧ runDecompress s = .ok u ∧ u.phase = .decDone ∧
      DecodesFrom (s.decStarted hd) u := by
  have hinv := h.inv_decStarted hs hp
  obtain ⟨u, hrun⟩ := hinv.repeatDecStep_completes rfl (Nat.zero_add _)
  obtain ⟨d, hok⟩ := h.primDecStart_completes hs hp
  have hstart : inPhases .decStart primDecStart s = .ok (s.decStarted s.fileHeader, d) :=
    (inPhases_pass (by rw [hp]; rfl)).trans hok
  have hall : runDecompress s = .ok u := by
    rw [runDecompress, runPrimitive_of_ok hstart]
    exact hrun
  exact ⟨_, u, h.headerParse_eq, hall, runDecompress_phase hs hall, .repeatDecStep hinv hrun⟩

/-- Settles O48: no DEC_STEP fails, DEC_DONE leaves OUT_LEN = DEC_COUNT = N, and OBUF past N is not written. -/
theorem decompressCompletes : Obligations.DecompressCompletes := by
  intro s hs hp h
  obtain ⟨hd, u, hparse, hrun, hdone, hfrom⟩ := h.runDecompress_completes hs hp
  obtain ⟨-, -, -, -, -, hfileN, -⟩ := headerParse_ok hparse
  obtain ⟨-, -, hn, -⟩ := decLoad_registers hs hparse
  obtain ⟨-, -, -, -, hcount, hlen, -⟩ := hfrom.inv.decDone hdone
  obtain ⟨⟨-, hvalid⟩, -⟩ := hfrom.inv.output
  obtain ⟨hcode, -⟩ := hs.err.2 (by simp [hp])
  have hinput := (sameInput_decStarted s hd).trans hfrom.input
  have hout : u.outLen = (s.decStarted hd).nDecl := hlen.trans hfrom.nDecl
  have herr : u.errCode = 0 := hinput.errCode.trans hcode
  refine ⟨u.respond .ok u.outLen, (exec_decompress hp).trans (by rw [hrun]; rfl), hdone, hvalid (.inr hdone),
    (congrArg BitVec.toNat hout).trans (hn.trans hfileN), hcount.trans hlen.symm, ?_, hinput.ibuf, hinput.inLen,
    hinput.prec, herr, hfrom.port, fun a ha => hfrom.past a (hout ▸ ha)⟩
  rw [respond_rsp, herr, hdone, respond_outLen]

end Sys2Proof.Machine
end

section
/-! PROOFS. The errors each command can raise (60_exceptions.md R240 to R242): one inversion lemma per rule says which
errors it raises in a state of a run, and that it never stops; so every step answers a next state (R258). -/

namespace Sys2Proof.Machine

variable {s t u : State} {i : Instr} {a : Abort}

/-! ### The errors a rule raises in a state of a run (R241, R242)

A rule that ends early in one of its phases raised one of its errors: none of the model's stops is reached. -/

theorem ite_raise_eq_error {α : Type} {c : Prop} [Decidable c] {e : ErrorKind} {info : Word32} {rest : Exec α} :
    (if c then raise e info else rest) = .error a ↔ c ∧ a = .raise e info ∨ ¬ c ∧ rest = .error a := by
  by_cases h : c <;> simp [h, raise, eq_comm]

theorem primSetPrec_error {p : BitVec 5} (h : primSetPrec p s = .error a) :
    a = .raise .precisionOverflow (zext32 p) := by
  obtain ⟨-, ha⟩ | ⟨-, h⟩ := ite_raise_eq_error.1 h
  · exact ha
  · cases h

theorem primRdReg_error {addr : BitVec 12} (h : primRdReg addr s = .error a) : a = .raise .operand (zext32 addr) := by
  unfold primRdReg at h
  split at h
  · cases h
    rfl
  · cases h

/-- IN_LEN is at most IBUF_SIZE (10_state.md R32). -/
theorem Inv.primInWrite_error (hs : Inv s) {byte : Byte} (h : primInWrite byte s = .error a) :
    a = .raise .capacity 1 := by
  obtain ⟨hin, -⟩ := hs.input
  obtain ⟨-, ha⟩ | ⟨hne, h⟩ := ite_raise_eq_error.1 h
  · exact ha
  · rw [if_neg (by bv_omega)] at h
    cases h

/-- OUT_LEN is at most OBUF_SIZE (10_state.md R33). -/
theorem Inv.primOutRead_error (hs : Inv s) {idx : Word32} (h : primOutRead idx s = .error a) :
    a = .raise .operand idx := by
  obtain ⟨-, -, hout, -⟩ := hs.output
  obtain ⟨-, ha⟩ | ⟨hlt, h⟩ := ite_raise_eq_error.1 h
  · exact ha
  · rw [if_neg (by omega)] at h
    cases h

theorem Inv.primFmCount_error (hs : Inv s) (h : primFmCount s = .error a) : a = .raise .emptyInput 0 := by
  obtain ⟨hin, -⟩ := hs.input
  obtain ⟨-, ha⟩ | ⟨-, h⟩ := ite_raise_eq_error.1 h
  · exact ha
  · rw [if_neg (Nat.not_lt.2 hin)] at h
    cases h

/-- TOTAL is IN_LEN, which fits its register. -/
theorem Inv.primFmBuild_error (hs : Inv s) (hp : s.phase = .counted) (h : primFmBuild s = .error a) :
    ∃ info, a = .raise .precisionOverflow info := by
  obtain ⟨hcounted, -⟩ := hs.counted hp
  rw [primFmBuild, if_neg (by rw [hcounted.total_eq]; exact Nat.not_le.2 s.inLen.isLt)] at h
  obtain ⟨-, ha⟩ | ⟨-, h⟩ := ite_raise_eq_error.1 h
  · exact ⟨_, ha⟩
  · cases h

/-- Where there is room for the header, its cells lie inside OBUF. -/
theorem Inv.primEncStart_error (hs : Inv s) (hp : s.phase = .modelReady) (h : primEncStart s = .error a) :
    a = .raise .capacity 2 := by
  obtain ⟨-, hm, -⟩ := hs.modelReady hp
  obtain hroom | hroom := Nat.lt_or_ge (headerLength s.symCount.toNat) s.obufSize.toNat
  · rw [primEncStart_of_lt hm.symbols_length hroom] at h
    cases h
  · rw [primEncStart_of_le hroom] at h
    cases h
    rfl

theorem Inv.primEncStep_error (hs : Inv s) (hp : s.phase = .encoding) (h : primEncStep s = .error a) :
    s.encPos = s.inLen ∧ a = .raise .phase 0x31 ∨ a = .raise .capacity 2 := by
  by_cases hpos : s.encPos = s.inLen
  · rw [primEncStep, if_pos hpos] at h
    cases h
    exact .inl ⟨hpos, rfl⟩
  · rw [hs.primEncStep_eq hp hpos] at h
    obtain ⟨-, ha⟩ | ⟨-, h⟩ := ite_raise_eq_error.1 h
    · exact .inr ha
    · cases h

theorem Inv.primEncFinish_error (hs : Inv s) (hp : s.phase = .encoding) (h : primEncFinish s = .error a) :
    a = .raise .phase 0x32 := by
  have hpos : s.encPos ≠ s.inLen := fun hpos => by
    rw [hs.primEncFinish_eq hp hpos] at h
    cases h
  obtain ⟨-, -, -, -, -, hle, -⟩ := hs.encoding hp
  rw [primEncFinish, if_pos (by bv_omega)] at h
  cases h
  rfl

/-- The loop over the pairs raises DecodeCorruptionError only (43_bitstream_packer.md R168). -/
theorem parsePairs_error {n j : Nat} {f : RegArray} (h : s.parsePairs n j f = .error a) :
    ∃ info, a = .raise .decodeCorruption info := by
  induction n generalizing j f with
  | zero => cases h
  | succ n ih =>
    obtain ⟨-, ha⟩ | ⟨-, h⟩ := ite_raise_eq_error.1 h
    · exact ⟨_, ha⟩
    · obtain ⟨-, ha⟩ | ⟨-, h⟩ := ite_raise_eq_error.1 h
      · exact ⟨_, ha⟩
      · exact ih h

/-- The errors of `header_parse()` (43_bitstream_packer.md R168). -/
theorem headerParse_error (h : s.headerParse = .error a) :
    a = .raise .truncatedFile s.inLen ∨ (∃ info, a = .raise .decodeCorruption info) ∨ a = .raise .capacity 2 := by
  obtain ⟨-, ha⟩ | ⟨-, h⟩ := ite_raise_eq_error.1 h
  · exact .inl ha
  obtain ⟨-, ha⟩ | ⟨-, h⟩ := ite_raise_eq_error.1 h
  · exact .inr (.inl ⟨_, ha⟩)
  obtain ⟨-, ha⟩ | ⟨-, h⟩ := ite_raise_eq_error.1 h
  · exact .inl ha
  split at h
  · rename_i b hpairs
    cases h
    exact .inr (.inl (parsePairs_error hpairs))
  obtain ⟨-, ha⟩ | ⟨-, h⟩ := ite_raise_eq_error.1 h
  · exact .inr (.inl ⟨_, ha⟩)
  obtain ⟨-, ha⟩ | ⟨-, h⟩ := ite_raise_eq_error.1 h
  · exact .inl ha
  obtain ⟨-, ha⟩ | ⟨-, h⟩ := ite_raise_eq_error.1 h
  · exact .inr (.inr ha)
  · cases h

theorem Inv.primDecStart_error (hs : Inv s) (h : primDecStart s = .error a) :
    a = .raise .truncatedFile s.inLen ∨ (∃ info, a = .raise .decodeCorruption info) ∨ a = .raise .capacity 2 ∨
      ∃ info, a = .raise .precisionOverflow info := by
  obtain ⟨hin, -⟩ := hs.input
  rw [primDecStart, if_neg (Nat.not_lt.2 hin)] at h
  cases hparse : s.headerParse with
  | error b =>
    rw [hparse] at h
    cases h
    obtain ha | ha | ha := headerParse_error hparse
    · exact .inl ha
    · exact .inr (.inl ha)
    · exact .inr (.inr (.inl ha))
  | ok hd =>
    rw [hparse] at h
    obtain ⟨-, ha⟩ | ⟨-, h⟩ := ite_raise_eq_error.1 h
    · exact .inr (.inr (.inr ⟨_, ha⟩))
    · obtain ⟨-, -, -, hwidth⟩ := decLoad_registers hs hparse
      rw [if_neg (Nat.not_le.2 hwidth)] at h
      cases h

/-- DEC_STEP finds its symbol (46_decoder.md R227). -/
theorem Inv.primDecStep_ne_error (hs : Inv s) (hp : s.phase = .decoding) : primDecStep s ≠ .error a := by
  obtain ⟨c, hc⟩ := hs.exists_search hp
  rw [hs.primDecStep_decStepped hp hc]
  exact nofun

/-! ### The errors of COMPRESS and DECOMPRESS (R242, R246) -/

/-- A primitive of a sequence that fails in one of its phases fails as its rule does. -/
theorem runPrimitive_rule_error {m : Mnemonic} {body : State → Exec (State × Word32)}
    (hp : phasesOf m s.phase = true) (h : runPrimitive (inPhases m body) s = .error (u, a)) : body s = .error a := by
  obtain ⟨-, h⟩ := runPrimitive_error h
  rwa [inPhases_pass hp] at h

/-- As many ENC_STEPs as there are symbols left encode them all, or one of them finds OBUF full. -/
theorem Inv.repeatEncStep_ends {n : Nat} (h : Inv s) (hs : s.phase = .encoding)
    (hn : s.encPos.toNat + n = s.inLen.toNat) :
    (∃ e, repeatPrimitive (inPhases .encStep primEncStep) n s = .ok e ∧ e.encPos = e.inLen) ∨
      ∃ u, repeatPrimitive (inPhases .encStep primEncStep) n s = .error (u, .raise .capacity 2) := by
  induction n generalizing s with
  | zero => exact .inl ⟨s, rfl, BitVec.eq_of_toNat_eq hn⟩
  | succ n ih =>
    rw [repeatPrimitive_succ, runPrimitive, inPhases_encStep hs]
    cases hrule : primEncStep s with
    | error a =>
      obtain ⟨hpos, -⟩ | rfl := h.primEncStep_error hs hrule
      · rw [hpos] at hn
        omega
      · exact .inr ⟨s, rfl⟩
    | ok x =>
      obtain ⟨v, d⟩ := x
      have hv := (EncodesFrom.refl h hs).encStep hrule
      have hencPos : v.encPos = s.encPos + 1 := by
        obtain ⟨-, -, -, -, -, rfl⟩ := primEncStep_ok hrule
        exact encCommit_encPos ..
      exact ih hv.inv hv.phase (by rw [hencPos, hv.input.inLen]; bv_omega)

/-- The rest of a COMPRESS finds OBUF full, or completes: ENC_FINISH runs with every symbol encoded. -/
theorem Inv.runEncode_error {n : Nat} (h : Inv s) (hs : s.phase = .encoding)
    (hn : s.encPos.toNat + n = s.inLen.toNat) (hrun : runEncode n s = .error (u, a)) : a = .raise .capacity 2 := by
  obtain ⟨e, hsteps, hend⟩ | ⟨v, hsteps⟩ := h.repeatEncStep_ends hs hn
  · have he := EncodesFrom.repeatEncStep h hs hsteps
    have hfinish := (inPhases_pass (m := .encFinish) (by rw [he.phase]; rfl)).trans
      (he.inv.primEncFinish_eq he.phase hend)
    rw [runEncode, hsteps, andThen, runPrimitive_of_ok hfinish] at hrun
    cases hrun
  · rw [runEncode, hsteps] at hrun
    cases hrun
    rfl

theorem Inv.runCompress_error (h : Inv s) (hs : s.phase = .idle) (hrun : runCompress s = .error (u, a)) :
    a = .raise .emptyInput 0 ∨ (∃ info, a = .raise .precisionOverflow info) ∨ a = .raise .capacity 2 := by
  obtain hcount | ⟨b, hcount, hrun⟩ := andThen_error hrun
  · exact .inl (h.primFmCount_error (runPrimitive_rule_error (by rw [hs]; rfl) hcount))
  obtain ⟨d, hcount⟩ := runPrimitive_ok hcount
  obtain ⟨-, hcount⟩ := inPhases_ok hcount
  obtain ⟨hne, rfl⟩ := primFmCount_ok hcount
  have hcounted := h.fmCount hs hne
  obtain hbuild | ⟨b, hbuild, hrun⟩ := andThen_error hrun
  · exact .inr (.inl (hcounted.primFmBuild_error rfl (runPrimitive_rule_error rfl hbuild)))
  obtain ⟨d', hbuild⟩ := runPrimitive_ok hbuild
  obtain ⟨-, hbuild⟩ := inPhases_ok hbuild
  obtain ⟨hprec, rfl⟩ := primFmBuild_ok hbuild
  have hbuilt := hcounted.fmBuild rfl hprec
  obtain hstart | ⟨b, hstart, hrun⟩ := andThen_error hrun
  · exact .inr (.inr (hbuilt.primEncStart_error rfl (runPrimitive_rule_error rfl hstart)))
  obtain ⟨d'', hstart⟩ := runPrimitive_ok hstart
  obtain ⟨-, hstart⟩ := inPhases_ok hstart
  obtain ⟨hroom, hcells, rfl⟩ := primEncStart_ok hstart
  exact .inr (.inr ((hbuilt.encStart rfl hroom hcells).runEncode_error (n := s.inLen.toNat) rfl (Nat.zero_add _) hrun))

/-- DECOMPRESS fails in DEC_START only. -/
theorem Inv.runDecompress_error (h : Inv s) (hs : s.phase = .idle) (hrun : runDecompress s = .error (u, a)) :
    primDecStart s = .error a := by
  obtain hstart | ⟨v, hstart, hrun⟩ := andThen_error hrun
  · exact runPrimitive_rule_error (by rw [hs]; rfl) hstart
  · obtain ⟨d, hstart⟩ := runPrimitive_ok hstart
    obtain ⟨-, hstart⟩ := inPhases_ok hstart
    obtain ⟨hd, hparse, hprec, rfl⟩ := primDecStart_ok hstart
    obtain ⟨w, hok⟩ := (h.decStart hs hparse hprec).repeatDecStep_completes rfl (Nat.zero_add _)
    cases hok.symm.trans hrun

/-! ### The table of errors (R241, R242) -/

/-- The row of a command: the codes and the ERR_INFO of the errors it can raise in one of its phases. -/
def ErrorRow (s : State) (i : Instr) (code : BitVec 8) (info : Word32) : Prop :=
  match i with
  | .nop | .softReset | .clear | .inClear | .decStep => False
  | .setPrec p => code = 0x03 ∧ info = p.setWidth 32
  | .rdReg a => code = 0x11 ∧ info = a.setWidth 32
  | .inWrite _ => code = 0x13 ∧ info = 1
  | .outRead x => code = 0x11 ∧ info = x
  | .fmCount => code = 0x01 ∧ info = 0
  | .fmBuild => code = 0x03
  | .encStart => code = 0x13 ∧ info = 2
  | .encStep => (code = 0x12 ∧ info = 0x31) ∨ (code = 0x13 ∧ info = 2)
  | .encFinish => code = 0x12 ∧ info = 0x32
  | .decStart | .decompress =>
    (code = 0x04 ∧ info = s.inLen) ∨ code = 0x02 ∨ (code = 0x13 ∧ info = 2) ∨ code = 0x03
  | .compress => (code = 0x01 ∧ info = 0) ∨ code = 0x03 ∨ (code = 0x13 ∧ info = 2)

/-- A rule that ended early raised an error of the command's row. -/
def RaisesFromRow (s : State) (i : Instr) (a : Abort) : Prop :=
  ∃ e info, a = .raise e info ∧ ErrorRow s i e.code info

theorem Inv.decStart_raises (h : Inv s) (hrule : primDecStart s = .error a) : RaisesFromRow s .decStart a := by
  obtain rfl | ⟨info, rfl⟩ | rfl | ⟨info, rfl⟩ := h.primDecStart_error hrule
  · exact ⟨_, _, rfl, .inl ⟨rfl, rfl⟩⟩
  · exact ⟨_, _, rfl, .inr (.inl rfl)⟩
  · exact ⟨_, _, rfl, .inr (.inr (.inl ⟨rfl, rfl⟩))⟩
  · exact ⟨_, _, rfl, .inr (.inr (.inr rfl))⟩

theorem Inv.compress_raises (h : Inv s) (hs : s.phase = .idle) (hrun : runCompress s = .error (u, a)) :
    RaisesFromRow s .compress a := by
  obtain rfl | ⟨info, rfl⟩ | rfl := h.runCompress_error hs hrun
  · exact ⟨_, _, rfl, .inl ⟨rfl, rfl⟩⟩
  · exact ⟨_, _, rfl, .inr (.inl rfl)⟩
  · exact ⟨_, _, rfl, .inr (.inr ⟨rfl, rfl⟩)⟩

/-- The row of every primitive command. -/
theorem Inv.rule_raises (h : Inv s) {rule : State → Exec (State × Word32)} (hr : ruleOf i = some rule)
    (hp : phasesOf i.mnemonic s.phase = true) (hrule : rule s = .error a) : RaisesFromRow s i a := by
  cases i with
  | nop | softReset | clear | inClear =>
    cases hr
    cases hrule
  | setPrec p =>
    cases hr
    exact ⟨_, _, primSetPrec_error hrule, rfl, rfl⟩
  | rdReg addr =>
    cases hr
    exact ⟨_, _, primRdReg_error hrule, rfl, rfl⟩
  | inWrite b =>
    cases hr
    exact ⟨_, _, h.primInWrite_error hrule, rfl, rfl⟩
  | outRead x =>
    cases hr
    exact ⟨_, _, h.primOutRead_error hrule, rfl, rfl⟩
  | fmCount =>
    cases hr
    exact ⟨_, _, h.primFmCount_error hrule, rfl, rfl⟩
  | fmBuild =>
    cases hr
    obtain ⟨info, ha⟩ := h.primFmBuild_error (of_decide_eq_true hp) hrule
    exact ⟨_, _, ha, rfl⟩
  | encStart =>
    cases hr
    exact ⟨_, _, h.primEncStart_error (of_decide_eq_true hp) hrule, rfl, rfl⟩
  | encStep =>
    cases hr
    obtain ⟨-, ha⟩ | ha := h.primEncStep_error (of_decide_eq_true hp) hrule
    · exact ⟨_, _, ha, .inl ⟨rfl, rfl⟩⟩
    · exact ⟨_, _, ha, .inr ⟨rfl, rfl⟩⟩
  | encFinish =>
    cases hr
    exact ⟨_, _, h.primEncFinish_error (of_decide_eq_true hp) hrule, rfl, rfl⟩
  | decStart =>
    cases hr
    exact h.decStart_raises hrule
  | decStep =>
    cases hr
    exact absurd hrule (h.primDecStep_ne_error (of_decide_eq_true hp))
  | compress | decompress => cases hr

/-! ### Every command answers -/

/-- The command answers a next state, and an error it takes is one of its row. -/
def AnswersByRow (s : State) (i : Instr) (o : Host.Outcome State Fault Refusal) : Prop :=
  ∃ t, o = .next t ∧ (t.phase = .error → ErrorRow s i t.errCode t.errInfo)

theorem answersByRow_finishRun {r : Run} (hok : ∀ u, r = .ok u → u.phase ≠ .error)
    (herror : ∀ u a, r = .error (u, a) → RaisesFromRow s i a) : AnswersByRow s i (finishRun r) := by
  cases r with
  | ok u => exact ⟨_, rfl, fun ht => absurd ht (hok u rfl)⟩
  | error x =>
    obtain ⟨u, a⟩ := x
    obtain ⟨e, info, rfl, hrow⟩ := herror u a rfl
    exact ⟨_, rfl, fun _ => hrow⟩

/-- In its phases a command completes or raises an error of its row. -/
theorem Inv.exec_inPhases (h : Inv s) (he : s.phase ≠ .error) (hp : phasesOf i.mnemonic s.phase = true) :
    AnswersByRow s i (Machine.exec i s) := by
  cases hr : ruleOf i with
  | some rule =>
    rw [exec_eq_finish hr hp he]
    cases hrule : rule s with
    | ok x =>
      have hne : x.1.phase ≠ .error := Completes.phase_ne_error ⟨hp, rule, x.2, hr, hrule⟩ he
      exact ⟨_, rfl, fun ht => absurd ht hne⟩
    | error a =>
      obtain ⟨e, info, rfl, hrow⟩ := h.rule_raises hr hp hrule
      exact ⟨_, rfl, fun _ => hrow⟩
  | none =>
    cases i with
    | compress =>
      have hs : s.phase = .idle := of_decide_eq_true hp
      rw [exec_compress hs]
      exact answersByRow_finishRun (fun u hrun => by simp [runCompress_phase hrun]) fun u a => h.compress_raises hs
    | decompress =>
      have hs : s.phase = .idle := of_decide_eq_true hp
      rw [exec_decompress hs]
      exact answersByRow_finishRun (fun u hrun => by simp [runDecompress_phase h hrun]) fun u a hrun =>
        h.decStart_raises (h.runDecompress_error hs hrun)
    | _ => cases hr

/-- Settles O54: outcomes are unique, and the row of `exec_inPhases` is the statement's. -/
theorem errorsEachCommandCanRaise : Obligations.ErrorsEachCommandCanRaise := by
  intro i s t h he hp hexec ht
  obtain ⟨t', hexec', hrow⟩ := h.exec_inPhases he hp
  cases hexec.symm.trans hexec'
  exact hrow ht

/-- What ERROR executes: CLEAR, SOFT_RESET, and the commands that leave the state as it is and answer OK or REFUSED
(60_exceptions.md R247, R248). -/
theorem exec_in_error_eq (hs : s.phase = .error) (i : Instr) : i = .clear ∨ i = .softReset ∨
    exec i s = .next (refuse s) ∨ ∃ d, exec i s = .next (s.respond .ok d) := by
  cases i with
  | clear => exact .inl rfl
  | softReset => exact .inr (.inl rfl)
  | nop => exact .inr (.inr (.inr ⟨0, exec_nop s⟩))
  | rdReg addr => exact .inr (.inr (exec_rdReg_in_error hs addr))
  | _ => exact .inr (.inr (.inl (exec_refused hs rfl)))

/-- No command stops in a state of a run, in its phases, outside them, or in ERROR. -/
theorem Inv.exec_next (h : Inv s) (i : Instr) : ∃ t, Machine.exec i s = .next t := by
  by_cases hs : s.phase = .error
  · obtain rfl | rfl | hexec | ⟨d, hexec⟩ := exec_in_error_eq hs i
    · exact ⟨_, exec_clear s⟩
    · exact ⟨_, exec_softReset s⟩
    · exact ⟨_, hexec⟩
    · exact ⟨_, hexec⟩
  · cases hp : phasesOf i.mnemonic s.phase with
    | true =>
      obtain ⟨t, hexec, -⟩ := h.exec_inPhases hs hp
      exact ⟨t, hexec⟩
    | false => exact ⟨_, exec_wrongPhase hp hs⟩

theorem Inv.handleCommand_next (h : Inv s) (w : Word64) : ∃ t, handleCommand w s = .next t := by
  cases hdec : decode w with
  | error e => exact ⟨Machine.handleIllegal w s, by rw [handleCommand, hdec]⟩
  | ok i =>
    rw [handleCommand_of_decode hdec]
    exact h.exec_next i

theorem Inv.step_next (h : Inv s) : ∃ t, step s = .next t := by
  cases hport : s.port with
  | nil => exact ⟨s, by rw [step, hport]⟩
  | cons x rest =>
    rw [step, hport]
    cases x with
    | command w => exact (h.withPins rest s.rsp).handleCommand_next w
    | reset => exact ⟨_, rfl⟩
    | resetDuring w => exact ⟨_, rfl⟩

/-- Settles O57: the step answers, keeps the invariant, and a command word gets one of the three statuses of R87. -/
theorem everyStepAnswersANextState : Obligations.EveryStepAnswersANextState := by
  intro s h
  obtain ⟨t, hstep⟩ := h.step_next
  refine ⟨t, hstep, everyStepKeepsTheInvariant s t h hstep, fun w rest hport => ?_⟩
  obtain ⟨r, hr, -, -, -, -, hstatus⟩ :=
    everyCommandIsAnsweredByAResponseWord w _ t ((step_command hport).symm.trans hstep)
  exact ⟨r, hr, hstatus.imp And.left (Or.imp And.left And.left)⟩

end Sys2Proof.Machine
end

section
/-! PROOFS. What an error does to the state (60_exceptions.md R245 to R249): errors are precise, an error of COMPRESS or
DECOMPRESS is that of one primitive, errors never nest, and only CLEAR, SOFT_RESET and rst_n leave ERROR. -/

namespace Sys2Proof.Machine

variable {s t u : State} {i : Instr}

/-! ### Errors are precise (R245) -/

/-- A command with a rule of its own: every one but COMPRESS and DECOMPRESS. -/
def IsPrimitive (i : Instr) : Prop := ∃ rule, ruleOf i = some rule

theorem isPrimitive_of_ne (hc : i ≠ .compress) (hd : i ≠ .decompress) : IsPrimitive i := by
  cases i with
  | compress => exact absurd rfl hc
  | decompress => exact absurd rfl hd
  | _ => exact ⟨_, rfl⟩

/-- A primitive that enters ERROR took an error on the state it began with. -/
theorem IsPrimitive.errorTaken (hi : IsPrimitive i) (hs : s.phase ≠ .error) (h : exec i s = .next t)
    (ht : t.phase = .error) : ∃ e info, ErrorTaken e info s t := by
  obtain ⟨rule, hr⟩ := hi
  obtain ⟨u, d, hc, rfl⟩ | ⟨he, -⟩ | ⟨e, info, rfl⟩ := exec_primitive_next hr h
  · exact absurd ht (hc.phase_ne_error hs)
  · exact absurd he hs
  · exact ⟨e, info, errorTaken_takeError e info s⟩

/-- Settles O49: an illegal word takes its error on the state itself, as a primitive does. -/
theorem errorsArePrecise : Obligations.ErrorsArePrecise := by
  intro w s t hs hcompress hdecompress h ht
  cases hdec : decode w with
  | error x =>
    rw [handleCommand, hdec] at h
    cases h
    rw [handleIllegal, if_neg hs]
    exact ⟨_, _, errorTaken_takeError ..⟩
  | ok i =>
    rw [handleCommand_of_decode hdec] at h
    have hi : IsPrimitive i := isPrimitive_of_ne (fun he => hcompress (he ▸ hdec)) fun he => hdecompress (he ▸ hdec)
    exact hi.errorTaken hs h ht

/-! ### An error of COMPRESS or DECOMPRESS is that of one primitive (R246) -/

/-- The list's command number n takes an error on the state the commands before it led to. -/
def FailsAt (is : List Instr) (s t : State) (n : Nat) (i : Instr) (u : State) : Prop :=
  is[n]? = some i ∧ execAll (is.take n) s = .next u ∧ u.phase ≠ .error ∧ exec i u = .next t ∧
    ∃ e info, ErrorTaken e info u t

/-- A list of primitives that ends in ERROR fails at one of them. -/
theorem execAll_failsAt {is : List Instr} (his : ∀ i ∈ is, IsPrimitive i) (hs : s.phase ≠ .error)
    (h : execAll is s = .next t) (ht : t.phase = .error) : ∃ n i u, FailsAt is s t n i u := by
  induction is generalizing s with
  | nil =>
    cases h
    exact absurd ht hs
  | cons i is ih =>
    rw [execAll] at h
    cases hexec : exec i s with
    | fault f =>
      rw [hexec] at h
      cases h
    | refused r =>
      rw [hexec] at h
      cases h
    | next v =>
      simp only [hexec] at h
      by_cases hv : v.phase = .error
      · rw [if_pos hv] at h
        cases h
        exact ⟨0, i, s, rfl, rfl, hs, hexec, (his i List.mem_cons_self).errorTaken hs hexec ht⟩
      · rw [if_neg hv] at h
        obtain ⟨n, j, u, hget, htake, hfail⟩ := ih (fun j hj => his j (List.mem_cons_of_mem i hj)) hv h
        refine ⟨n + 1, j, u, hget, ?_, hfail⟩
        rw [List.take_succ_cons, execAll, hexec]
        exact (if_neg hv).trans htake

theorem isPrimitive_of_mem_compressSequence {n : Nat} (h : i ∈ compressSequence n) : IsPrimitive i := by
  simp only [compressSequence, List.mem_append, List.mem_cons, List.not_mem_nil, or_false, List.mem_replicate] at h
  obtain ((rfl | rfl | rfl) | ⟨-, rfl⟩) | rfl := h <;> exact ⟨_, rfl⟩

theorem isPrimitive_of_mem_decompressSequence {n : Nat} (h : i ∈ decompressSequence n) : IsPrimitive i := by
  simp only [decompressSequence, List.mem_append, List.mem_singleton, List.mem_replicate] at h
  obtain rfl | ⟨-, rfl⟩ := h <;> exact ⟨_, rfl⟩

/-- Behind DEC_START the sequence holds N DEC_STEPs, and the first n of them make the sequence of n. -/
theorem decompressSequence_succ {m n : Nat} (h : (decompressSequence m)[n + 1]? = some i) :
    n < m ∧ i = .decStep ∧ (decompressSequence m).take (n + 1) = decompressSequence n := by
  change (List.replicate m Instr.decStep)[n]? = some i at h
  obtain ⟨hlt, hi⟩ := List.getElem?_eq_some_iff.1 h
  rw [List.getElem_replicate] at hi
  rw [List.length_replicate] at hlt
  refine ⟨hlt, hi.symm, ?_⟩
  change .decStart :: (List.replicate m Instr.decStep).take n = _
  rw [List.take_replicate, Nat.min_eq_left hlt.le]
  rfl

/-- DEC_STEPs that take no error keep N. -/
theorem execAll_decStep_nDecl {n : Nat} (h : execAll (List.replicate n .decStep) s = .next u)
    (hu : u.phase ≠ .error) : u.nDecl = s.nDecl := by
  induction n generalizing s with
  | zero =>
    cases h
    rfl
  | succ n ih =>
    obtain ⟨v, hexec, hv, hrest⟩ := execAll_cons_next h hu
    obtain ⟨w, d, d', hrule, rfl⟩ := exec_rule_completes (i := .decStep) rfl hexec hv
    obtain ⟨-, -, hdecl, -⟩ := primDecStep_frame hrule
    exact (ih hrest).trans hdecl

/-- COMPRESS is its sequence (45_encoder.md R207). -/
theorem exec_compress_failsAt (hs : s.phase = .idle) (h : exec .compress s = .next t) (ht : t.phase = .error) :
    ∃ n i u, FailsAt (compressSequence s.inLen.toNat) s t n i u :=
  execAll_failsAt (fun _ => isPrimitive_of_mem_compressSequence) (by simp [hs])
    ((compressIsItsSequence s hs).symm.trans h) ht

/-- DECOMPRESS in ERROR where DEC_START did not fail: one of the N DEC_STEPs behind it did. -/
theorem exec_decompress_failsAt {v : State} (hs : s.phase = .idle) (hstart : exec .decStart s = .next v)
    (hv : v.phase ≠ .error) (h : exec .decompress s = .next t) (ht : t.phase = .error) :
    ∃ n i u, FailsAt (decompressSequence v.nDecl.toNat) s t n i u := by
  rw [exec_decompress_of_decStart hs hstart hv] at h
  cases hall : execAll (decompressSequence v.nDecl.toNat) s with
  | fault f =>
    rw [hall] at h
    cases h
  | refused r =>
    rw [hall] at h
    cases h
  | next w =>
    have hw : w = t := by
      rw [hall, execRest_rdReg_outLen] at h
      cases h
      split at ht
      · rw [if_pos ‹_›]
      · exact absurd ht ‹_›
    exact execAll_failsAt (fun _ => isPrimitive_of_mem_decompressSequence) (by simp [hs]) (hw ▸ hall) ht

/-- DECOMPRESS answers only where DEC_START does. -/
theorem exec_decStart_next_of_decompress (hs : s.phase = .idle) (h : exec .decompress s = .next t) :
    ∃ v, exec .decStart s = .next v := by
  rw [exec_decompress hs, runDecompress, runPrimitive] at h
  rw [exec_eq_finish_inPhases (i := .decStart) rfl (by simp [hs])]
  change ∃ v, finish s (inPhases .decStart primDecStart s) = .next v
  rcases hrule : inPhases .decStart primDecStart s with (⟨e, info⟩ | f) | ⟨v, d⟩
  · exact ⟨_, rfl⟩
  · rw [hrule] at h
    cases h
  · exact ⟨_, rfl⟩

/-- Settles O50: COMPRESS and DECOMPRESS are lists of primitives, and a list fails at one of its commands. -/
theorem macroErrorsAreThoseOfOnePrimitive : Obligations.MacroErrorsAreThoseOfOnePrimitive := by
  intro s t hs ht
  refine ⟨fun h => ?_, fun h => ?_⟩
  · obtain ⟨n, i, u, hget, hall, hu, hexec, e, info, htaken⟩ := exec_compress_failsAt hs h ht
    exact ⟨n, i, u, e, info, hget, hall, hu, hexec, htaken⟩
  · obtain ⟨v, hstart⟩ := exec_decStart_next_of_decompress hs h
    have hne : s.phase ≠ .error := by simp [hs]
    by_cases hv : v.phase = .error
    · cases (exec_decompress_of_error hs hstart hv).symm.trans h
      obtain ⟨e, info, htaken⟩ := IsPrimitive.errorTaken ⟨_, rfl⟩ hne hstart hv
      exact .inl ⟨e, info, hstart, htaken⟩
    · obtain ⟨n, i, u, hget, hall, hu, hexec, e, info, htaken⟩ := exec_decompress_failsAt hs hstart hv h ht
      cases n with
      | zero =>
        cases hget
        cases hall
        cases hstart.symm.trans hexec
        exact absurd ht hv
      | succ n =>
        obtain ⟨hlt, rfl, htake⟩ := decompressSequence_succ hget
        rw [htake] at hall
        obtain ⟨v', hstart', -, hsteps⟩ := execAll_cons_next hall hu
        cases hstart.symm.trans hstart'
        rw [← execAll_decStep_nDecl hsteps hu] at hlt
        exact .inr ⟨n, u, e, info, hall, hu, hlt, hexec, htaken⟩

/-! ### Errors never nest (R247, R248) -/

theorem refuse_eq_of_error (hs : s.phase = .error) :
    refuse s = { s with rsp := some (responseWord .refused s.errCode .error 0) } := by
  rw [← hs]
  rfl

/-- In ERROR a command word leaves the error as it is, or it is CLEAR or SOFT_RESET. -/
theorem handleCommand_in_error {w : Word64} (hs : s.phase = .error) (h : handleCommand w s = .next t) :
    (t.errCode = s.errCode ∧ t.errInfo = s.errInfo ∧ t.phase = .error) ∨
      decode w = .ok .clear ∨ decode w = .ok .softReset := by
  cases hdec : decode w with
  | error x =>
    rw [handleCommand, hdec] at h
    cases h
    rw [handleIllegal, if_pos hs]
    exact .inl ⟨rfl, rfl, hs⟩
  | ok i =>
    rw [handleCommand_of_decode hdec] at h
    obtain rfl | rfl | hexec | ⟨d, hexec⟩ := exec_in_error_eq hs i
    · exact .inr (.inl rfl)
    · exact .inr (.inr rfl)
    · cases hexec.symm.trans h
      exact .inl ⟨rfl, rfl, hs⟩
    · cases hexec.symm.trans h
      exact .inl ⟨rfl, rfl, hs⟩

/-- Settles O51: what ERROR does not execute it refuses, and what it executes besides CLEAR and SOFT_RESET keeps the
error. -/
theorem errorsNeverNest : Obligations.ErrorsNeverNest := by
  intro s hs
  rw [← refuse_eq_of_error hs]
  refine ⟨fun w ⟨e, he⟩ => ?_, fun i hnop hreset hclear hread => ?_, fun addr haddr => ?_, fun w t =>
    handleCommand_in_error hs⟩
  · rw [handleCommand, he]
    exact congrArg _ (if_pos hs)
  · refine exec_refused hs ?_
    cases i with
    | nop => exact absurd rfl hnop
    | softReset => exact absurd rfl hreset
    | clear => exact absurd rfl hclear
    | rdReg addr => exact absurd rfl (hread addr)
    | _ => rfl
  · exact exec_rdReg_unmapped_in_error haddr hs

/-! ### The return from ERROR (R249) -/

/-- CLEAR and SOFT_RESET, whatever the phase. -/
theorem handleCommand_returns {w : Word64} (hw : decode w = .ok .clear ∨ decode w = .ok .softReset)
    (h : handleCommand w s = .next t) : t.phase = .idle ∧ t.errCode = 0 ∧ t.errInfo = 0 := by
  obtain hdec | hdec := hw
  · rw [handleCommand_of_decode hdec, exec_clear] at h
    cases h
    exact ⟨rfl, rfl, rfl⟩
  · rw [handleCommand_of_decode hdec, exec_softReset] at h
    cases h
    exact ⟨rfl, rfl, rfl⟩

/-- Settles O52, by what the step finds on the port. -/
theorem onlyClearAndResetLeaveError : Obligations.OnlyClearAndResetLeaveError := by
  intro s hs
  refine ⟨fun t h ht => ?_, ⟨_, exec_clear s, rfl, rfl, rfl, rfl, rfl⟩,
    ⟨_, exec_softReset s, rfl, rfl, rfl, rfl, rfl⟩⟩
  cases hport : s.port with
  | nil =>
    rw [step, hport] at h
    cases h
    exact absurd hs ht
  | cons x rest =>
    cases x with
    | command w =>
      rw [step_command hport] at h
      obtain ⟨-, -, he⟩ | hw := handleCommand_in_error (s := { s with port := rest }) hs h
      · exact absurd he ht
      · obtain ⟨hidle, hcode, hinfo⟩ := handleCommand_returns hw h
        exact ⟨hidle, hcode, hinfo, _, rest, rfl, .inr (.inr ⟨w, rfl, hw⟩)⟩
    | reset =>
      rw [step, hport] at h
      cases h
      exact ⟨rfl, rfl, rfl, _, rest, rfl, .inl rfl⟩
    | resetDuring w =>
      rw [step, hport] at h
      cases h
      exact ⟨rfl, rfl, rfl, _, rest, rfl, .inr (.inl ⟨w, rfl⟩)⟩

end Sys2Proof.Machine
end

section
/-! PROOFS. Reset and the constant input (70_reset_and_hazards.md): what rst_n leaves, alone or during a command (R270,
93_implementation_defined.md U6), and which commands can change the input (R277). -/

namespace Sys2Proof.Machine

variable {s t u v : State} {i : Instr} {w : Word64}

/-! ### rst_n, alone and during a command (R270) -/

theorem step_reset {rest : List PortInput} (h : s.port = .reset :: rest) :
    step s = .next (hardReset { s with port := rest }) := by
  rw [step, h]
  rfl

theorem step_resetDuring {rest : List PortInput} (h : s.port = .resetDuring w :: rest) :
    step s = .next (abandon w { s with port := rest }) := by
  rw [step, h]
  rfl

/-- Only an abandoned IN_WRITE touches IBUF. -/
theorem abandonedIbuf_of_ne_inWrite (h : ∀ b, decode w ≠ .ok (.inWrite b)) : abandonedIbuf w s = s.ibuf := by
  cases hdec : decode w with
  | error e => rw [abandonedIbuf, hdec]
  | ok i =>
    have hnone : ibufWrites i s = [] := List.eq_nil_iff_forall_not_mem.2 fun a ha => by
      obtain ⟨⟨b, rfl⟩, -⟩ := mem_ibufWrites ha
      exact h b hdec
    rw [abandonedIbuf, hdec]
    exact congrArg (s.ibuf.forget .ibuf) hnone

/-- Abandoning a command that would complete changes no byte of OBUF but those the command writes. -/
theorem read_abandonedObuf {a : Nat} (hdec : decode w = .ok i) (hexec : exec i s = .next t) (ht : t.phase ≠ .error)
    (ha : ¬ MayWriteObuf i s t a) : (abandonedObuf w s).read .obuf a = s.obuf.read .obuf a := by
  by_cases hs : s.phase = .error
  · rw [abandonedObuf_error hs]
  · rw [abandonedObuf_completed hs hdec hexec ht]
    exact read_forget_other _ _ _ fun hmem => ha (mem_obufWrites.1 hmem)

/-- Taking a pin event off the port does not change which bytes a command writes. -/
theorem mayWriteObuf_withPort (i : Instr) (s t : State) (port : List PortInput) (a : Nat) :
    MayWriteObuf i { s with port := port } t a ↔ MayWriteObuf i s t a := by
  cases i <;> exact Iff.rfl

/-- Settles O9: rst_n is SOFT_RESET without its response, and an abandoned command frees only the bytes it writes. -/
theorem theResetPinResetsEveryRegister : Obligations.TheResetPinResetsEveryRegister := by
  intro s rest w
  refine ⟨fun h => ⟨_, _, step_reset h, exec_softReset _, rfl⟩, fun h => ⟨_, _, step_resetDuring h, exec_softReset _,
    rfl, abandonedIbuf_of_ne_inWrite, fun a => read_abandonedIbuf .ibuf,
    abandonedObuf_error (s := { s with port := rest }),
    fun i v hdec hexec hv a ha => ?_⟩⟩
  rw [← mayWriteObuf_withPort i s v rest a] at ha
  exact read_abandonedObuf hdec hexec hv ha

/-! ### Which commands can change the input (R277) -/

/-- The input is the same in both states: IBUF, IN_LEN and PREC. -/
def KeepsInput (s t : State) : Prop := t.ibuf = s.ibuf ∧ t.inLen = s.inLen ∧ t.prec = s.prec

theorem KeepsInput.refl (s : State) : KeepsInput s s := ⟨rfl, rfl, rfl⟩

theorem KeepsInput.trans (h : KeepsInput s t) (h' : KeepsInput t u) : KeepsInput s u := by
  obtain ⟨hbuf, hlen, hprec⟩ := h
  obtain ⟨hbuf', hlen', hprec'⟩ := h'
  exact ⟨hbuf'.trans hbuf, hlen'.trans hlen, hprec'.trans hprec⟩

theorem SameInput.keepsInput (h : SameInput s t) : KeepsInput s t := ⟨h.ibuf, h.inLen, h.prec⟩

theorem KeepsInput.answers (h : KeepsInput s u) (ha : Answers u t) : KeepsInput s t := by
  obtain ⟨st, d, rfl⟩ | ⟨e, info, rfl⟩ := ha
  · exact h
  · exact h

/-- The commands that may change the input, in the phases where they run: SOFT_RESET anywhere, the input commands in IDLE
(40_control.md R111, R113, 41_data_io.md R130, R131). -/
def MayChangeInput (i : Instr) (s : State) : Prop :=
  match i with
  | .softReset => True
  | .setPrec _ | .inClear | .inWrite _ => s.phase = .idle
  | _ => False

/-- A completed primitive keeps the input, unless it is one of those that may change it. -/
theorem Completes.keepsInput (hc : Completes i s t) (hi : ¬ MayChangeInput i s) : KeepsInput s t := by
  obtain ⟨hp, rule, d, hr, hok⟩ := hc
  cases i <;> cases hr
  case softReset => exact absurd trivial hi
  case setPrec | inClear | inWrite => exact absurd (of_decide_eq_true hp) hi
  case nop | clear => cases hok; exact ⟨rfl, rfl, rfl⟩
  case rdReg addr => obtain rfl := primRdReg_ok hok; exact .refl _
  case outRead x => obtain rfl := primOutRead_ok hok; exact .refl _
  case fmCount => obtain ⟨-, rfl⟩ := primFmCount_ok hok; exact ⟨rfl, rfl, rfl⟩
  case fmBuild => obtain ⟨-, rfl⟩ := primFmBuild_ok hok; exact ⟨rfl, rfl, rfl⟩
  case encStart => obtain ⟨-, -, rfl⟩ := primEncStart_ok hok; exact ⟨rfl, rfl, rfl⟩
  case encStep =>
    obtain ⟨-, -, -, -, -, rfl⟩ := primEncStep_ok hok
    exact ⟨encCommit_ibuf .., encCommit_inLen .., encCommit_prec ..⟩
  case encFinish =>
    obtain ⟨-, -, -, rfl⟩ := primEncFinish_ok hok
    exact ⟨encFinishCommit_ibuf s, encFinishCommit_inLen s, encFinishCommit_prec s⟩
  case decStart => obtain ⟨hd, -, -, rfl⟩ := primDecStart_ok hok; exact (sameInput_decStarted s hd).keepsInput
  case decStep => obtain ⟨hsame, -⟩ := primDecStep_frame hok; exact hsame.keepsInput

/-! #### The sequences of COMPRESS and DECOMPRESS -/

/-- A run ends in a state with the property, whether it completed or not. -/
def Run.EndsIn (p : State → Prop) : Run → Prop
  | .ok u => p u
  | .error (u, _) => p u

section EndsIn

variable {p : State → Prop} {body : State → Exec (State × Word32)}

theorem runPrimitive_endsIn (step : ∀ {u v d}, p u → body u = .ok (v, d) → p v) (hs : p s) :
    (runPrimitive body s).EndsIn p := by
  cases hrun : runPrimitive body s with
  | ok u =>
    obtain ⟨d, hok⟩ := runPrimitive_ok hrun
    exact step hs hok
  | error e =>
    obtain ⟨rfl, -⟩ := runPrimitive_error hrun
    exact hs

theorem repeatPrimitive_endsIn (step : ∀ {u v d}, p u → body u = .ok (v, d) → p v) (n : Nat) (hs : p s) :
    (repeatPrimitive body n s).EndsIn p := by
  cases hrun : repeatPrimitive body n s with
  | ok u => exact repeatPrimitive_ok step hs hrun
  | error e => exact (repeatPrimitive_error step hs hrun).1

theorem andThen_endsIn {r : Run} {next : State → Run} (hr : r.EndsIn p) (hn : ∀ u, p u → (next u).EndsIn p) :
    (andThen r next).EndsIn p := by
  cases r with
  | ok u => exact hn u hr
  | error e => exact hr

/-- A macro command answers in the state its sequence ended in, or in the state it was given. -/
theorem execSequence_endsIn {m : Mnemonic} {run : State → Run} (hs : p s) (hrun : (run s).EndsIn p)
    (h : execSequence m run s = .next t) : ∃ u, p u ∧ Answers u t := by
  obtain ⟨-, -, ht⟩ | ⟨-, u, hr, ht⟩ | ⟨-, u, e, info, hr, ht⟩ | ⟨-, ht⟩ := execSequence_next h
  · exact ⟨s, hs, .inl ⟨_, _, ht⟩⟩
  · rw [hr] at hrun
    exact ⟨u, hrun, .inl ⟨_, _, ht⟩⟩
  · rw [hr] at hrun
    exact ⟨u, hrun, .inr ⟨e, info, ht⟩⟩
  · exact ⟨s, hs, .inr ⟨_, _, ht⟩⟩

end EndsIn

/-- A primitive that never changes the input, as a part of a sequence. -/
theorem KeepsInput.inPhases {rule : State → Exec (State × Word32)} {d : Word32} (hr : ruleOf i = some rule)
    (hi : ∀ u, ¬ MayChangeInput i u) (hu : KeepsInput s u) (hok : inPhases i.mnemonic rule u = .ok (v, d)) :
    KeepsInput s v :=
  hu.trans ((Completes.ofInPhases hr hok).keepsInput (hi u))

theorem runCompress_keepsInput (s : State) : (runCompress s).EndsIn (KeepsInput s) :=
  andThen_endsIn (runPrimitive_endsIn (.inPhases (i := .fmCount) rfl fun _ => id) (.refl s)) fun _ ha =>
  andThen_endsIn (runPrimitive_endsIn (.inPhases (i := .fmBuild) rfl fun _ => id) ha) fun _ hb =>
  andThen_endsIn (runPrimitive_endsIn (.inPhases (i := .encStart) rfl fun _ => id) hb) fun _ hc =>
  andThen_endsIn (repeatPrimitive_endsIn (.inPhases (i := .encStep) rfl fun _ => id) _ hc) fun _ hd =>
  runPrimitive_endsIn (.inPhases (i := .encFinish) rfl fun _ => id) hd

theorem runDecompress_keepsInput (s : State) : (runDecompress s).EndsIn (KeepsInput s) :=
  andThen_endsIn (runPrimitive_endsIn (.inPhases (i := .decStart) rfl fun _ => id) (.refl s)) fun _ ha =>
  repeatPrimitive_endsIn (.inPhases (i := .decStep) rfl fun _ => id) _ ha

/-! #### Every command -/

/-- A command keeps the input, completed or not, unless it is one of those that may change it. -/
theorem exec_keepsInput (h : exec i s = .next t) (hi : ¬ MayChangeInput i s) : KeepsInput s t := by
  cases hr : ruleOf i with
  | some rule =>
    obtain ⟨u, d, hc, rfl⟩ | ⟨-, rfl⟩ | ⟨e, info, rfl⟩ := exec_primitive_next hr h
    · exact hc.keepsInput hi
    · exact ⟨rfl, rfl, rfl⟩
    · exact ⟨rfl, rfl, rfl⟩
  | none =>
    have hends : ∃ u, KeepsInput s u ∧ Answers u t := by
      cases i with
      | compress => exact execSequence_endsIn (.refl s) (runCompress_keepsInput s) h
      | decompress => exact execSequence_endsIn (.refl s) (runDecompress_keepsInput s) h
      | _ => cases hr
    obtain ⟨u, hu, ht⟩ := hends
    exact hu.answers ht

theorem not_mayChangeInput_of_not_idle (hi : i ≠ .softReset) (hs : s.phase ≠ .idle) : ¬ MayChangeInput i s := by
  cases i with
  | softReset => exact absurd rfl hi
  | setPrec | inClear | inWrite => exact hs
  | _ => exact id

theorem not_mayChangeInput_of_ne (hreset : i ≠ .softReset) (hclear : i ≠ .inClear) (hwrite : ∀ b, i ≠ .inWrite b)
    (hprec : ∀ p, i ≠ .setPrec p) : ¬ MayChangeInput i s := by
  cases i with
  | softReset => exact absurd rfl hreset
  | inClear => exact absurd rfl hclear
  | inWrite b => exact absurd rfl (hwrite b)
  | setPrec p => exact absurd rfl (hprec p)
  | _ => exact id

/-- Settles O59: only SOFT_RESET, and in IDLE the input commands, may change the input, and no command a size. -/
theorem theInputIsConstantDuringAnOperation : Obligations.TheInputIsConstantDuringAnOperation := by
  intro i s t h
  exact ⟨fun hi hs => exec_keepsInput h (not_mayChangeInput_of_not_idle hi hs),
    fun hreset hclear hwrite hprec => exec_keepsInput h (not_mayChangeInput_of_ne hreset hclear hwrite hprec),
    exec_sizes h⟩

end Sys2Proof.Machine
end
